-- ==== Sys2Proof/Word.lean ====
section
/-! DEFINITION. The machine word of the CCB: registers, arguments and command words are 32 bits wide
(spec 00_scope.md R9, `XLEN` = `ALEN` = 32; 10_state.md R23). -/

namespace Sys2Proof

/-- A 32-bit register, argument or address value (R9, R10). -/
abbrev Word := BitVec 32

/-- One byte of the OTP image (20_memory.md R74). -/
abbrev Byte := BitVec 8

end Sys2Proof
end

