-- ==== Sys2Proof/Syntax.lean ====
section
/-! DEFINITION. The commands of the CCB: one constructor of `Instr` per row of spec/opcode_table.json
(30_encoding.md R110), and the enumerations their operand codes name. -/

namespace Sys2Proof

/-- The two cache instances, selected by the command's `I` bit (R44, R103). -/
inductive CacheId where
  | icache
  | dcache
deriving DecidableEq, Repr, Inhabited

/-- The clock sources: LFI is code 0, HSOSC is code 1 (R40). -/
inductive Source where
  | lfi
  | hsosc
deriving DecidableEq, Repr, Inhabited

/-- The trim targets: primary (320 MHz) is code 0, secondary (400 MHz) is code 1 (R180). -/
inductive Target where
  | primary
  | secondary
deriving DecidableEq, Repr

/-- The cache regions, codes 0 to 4 (R50). -/
inductive Region where
  | boot
  | rom
  | spiMap1
  | spiMap2
  | spiMap3
deriving DecidableEq, Repr

/-- The cache policies, codes 0 to 2 (R51). -/
inductive Policy where
  | off
  | writeThrough
  | writeBack
deriving DecidableEq, Repr

/-- A command word, decoded. The 4-bit `A` and 2-bit `P` operands keep their raw codes: the codes that
name no member of their enumeration are commands too, and finish with `ERR` (R102, R114). The arguments
`a0` and `a1` are no part of the word (R100, R107). -/
inductive Instr where
  /-- CLKSW: switch the system clock source (R155). -/
  | clksw (src : BitVec 4)
  /-- TRIM: program the high-speed oscillator trim from OTP (R183). -/
  | trim (target : BitVec 4)
  /-- IPSDIV: configure the IPS bus clock divider (R200). -/
  | ipsdiv
  /-- GETFREQ: compute the effective system clock frequency (R205). -/
  | getfreq
  /-- CEN: enable or disable a cache instance (R222). -/
  | cen (c : CacheId) (en : Bool)
  /-- CRGN: set one region's policy (R226). -/
  | crgn (c : CacheId) (region : BitVec 4) (policy : BitVec 2)
  /-- CRGNALL: set all five regions' policies (R229). -/
  | crgnall (c : CacheId)
  /-- CINV: invalidate every way of an instance (R240). -/
  | cinv (c : CacheId)
  /-- CINVR: invalidate the lines of an address range (R243). -/
  | cinvr (c : CacheId)
  /-- CINIT: initialise a cache instance (R250). -/
  | cinit (c : CacheId)
deriving DecidableEq, Repr

end Sys2Proof
end

