-- ==== Sys2Proof/Decode.lean ====
section
/-! DEFINITION. Decoding and encoding of command words (30_encoding.md R100 to R115). Decoding is total:
it answers an instruction, or rejects the word by name. A rejected word is still run by the engine: it
finishes with `ERR` (R111, R112). -/

namespace Sys2Proof

/-- Why a word decodes to no command: checks 1 and 2 of R114. -/
inductive DecodeError where
  /-- `OP` is none of the ten values of R110 (R111). -/
  | illegalOpcode (op : BitVec 8)
  /-- A reserved or unused bit is not 0 (R105, R112). -/
  | reservedBits (w : Word)
deriving DecidableEq, Repr

/-- The ten defined opcodes (R110). -/
inductive Opcode where
  | clksw | trim | ipsdiv | getfreq | cen | crgn | crgnall | cinv | cinvr | cinit
deriving DecidableEq, Repr

/-- The `OP` byte of each opcode (R110). -/
def Opcode.code : Opcode → BitVec 8
  | .clksw => 0x01#8
  | .trim => 0x02#8
  | .ipsdiv => 0x03#8
  | .getfreq => 0x04#8
  | .cen => 0x10#8
  | .crgn => 0x11#8
  | .crgnall => 0x12#8
  | .cinv => 0x13#8
  | .cinvr => 0x14#8
  | .cinit => 0x15#8

/-- The required value of a row's word under its mask (R106, column match). -/
def Opcode.matchWord (o : Opcode) : Word := o.code.setWidth 32

/-- The bits of a row's word that are `OP` or must be 0 (R106, column mask). -/
def Opcode.mask : Opcode → Word
  | .clksw => 0xFFFFF0FF#32
  | .trim => 0xFFFFF0FF#32
  | .ipsdiv => 0xFFFFFFFF#32
  | .getfreq => 0xFFFFFFFF#32
  | .cen => 0xFFFF7EFF#32
  | .crgn => 0xFFFF40FF#32
  | .crgnall => 0xFFFF7FFF#32
  | .cinv => 0xFFFF7FFF#32
  | .cinvr => 0xFFFF7FFF#32
  | .cinit => 0xFFFF7FFF#32

/-- All ten rows, in the table's order. -/
def Opcode.all : List Opcode :=
  [.clksw, .trim, .ipsdiv, .getfreq, .cen, .crgn, .crgnall, .cinv, .cinvr, .cinit]

/-- The opcode an `OP` byte selects (R101, R110). -/
def Opcode.ofCode? (op : BitVec 8) : Option Opcode :=
  Opcode.all.find? fun o => o.code = op

/-- The field `OP` = `cmd[7:0]` (R101). -/
def fieldOp (w : Word) : BitVec 8 := w.extractLsb' 0 8

/-- The field `A` = `cmd[11:8]` (R102). -/
def fieldA (w : Word) : BitVec 4 := w.extractLsb' 8 4

/-- The enable flag `A[0]` = `cmd[8]` of CEN (R102). -/
def fieldEn (w : Word) : Bool := w.getLsbD 8

/-- The field `P` = `cmd[13:12]` (R104). -/
def fieldP (w : Word) : BitVec 2 := w.extractLsb' 12 2

/-- The cache instance that `cmd[15]` selects: 0 is I, 1 is D (R103). -/
def fieldI (w : Word) : CacheId := if w.getLsbD 15 then .dcache else .icache

/-- The operands of a word of the given row (R106, R109). -/
def Opcode.assemble (o : Opcode) (w : Word) : Instr :=
  match o with
  | .clksw => .clksw (fieldA w)
  | .trim => .trim (fieldA w)
  | .ipsdiv => .ipsdiv
  | .getfreq => .getfreq
  | .cen => .cen (fieldI w) (fieldEn w)
  | .crgn => .crgn (fieldI w) (fieldA w) (fieldP w)
  | .crgnall => .crgnall (fieldI w)
  | .cinv => .cinv (fieldI w)
  | .cinvr => .cinvr (fieldI w)
  | .cinit => .cinit (fieldI w)

/-- Checks 1 and 2 of R114, in that order: the opcode, then mask and match. -/
def decode (w : Word) : Except DecodeError Instr :=
  match Opcode.ofCode? (fieldOp w) with
  | none => .error (.illegalOpcode (fieldOp w))
  | some o => if w &&& o.mask = o.matchWord then .ok (o.assemble w) else .error (.reservedBits w)

/-- The row of the opcode table an instruction belongs to. -/
def Instr.opcode : Instr → Opcode
  | .clksw _ => .clksw
  | .trim _ => .trim
  | .ipsdiv => .ipsdiv
  | .getfreq => .getfreq
  | .cen _ _ => .cen
  | .crgn _ _ _ => .crgn
  | .crgnall _ => .crgnall
  | .cinv _ => .cinv
  | .cinvr _ => .cinvr
  | .cinit _ => .cinit

/-- `A` in its place, bits 11 to 8. -/
def placeA (a : BitVec 4) : Word := a.setWidth 32 <<< 8

/-- `P` in its place, bits 13 and 12. -/
def placeP (p : BitVec 2) : Word := p.setWidth 32 <<< 12

/-- `I` in its place, bit 15. -/
def placeI : CacheId → Word
  | .icache => 0#32
  | .dcache => 0x8000#32

/-- CEN's enable flag in its place, bit 8. -/
def placeEn (en : Bool) : Word := if en then 0x100#32 else 0#32

/-- The operand bits of an instruction's word (R100, R106). -/
def Instr.operandBits : Instr → Word
  | .clksw src => placeA src
  | .trim t => placeA t
  | .ipsdiv => 0#32
  | .getfreq => 0#32
  | .cen c en => placeEn en ||| placeI c
  | .crgn c r p => placeA r ||| placeP p ||| placeI c
  | .crgnall c => placeI c
  | .cinv c => placeI c
  | .cinvr c => placeI c
  | .cinit c => placeI c

/-- The command word of an instruction (R106, R110; the words of R117). -/
def encode (i : Instr) : Word := i.opcode.matchWord ||| i.operandBits

/-- The command the decoder reads from the low `nbits` bits of `w`, numbered as spec/opcode_table.json
numbers them; every other bit of the word is 0. A command is one word (R115), so no byte order enters. -/
def decodeTableWord (nbits w : Nat) : Option Instr :=
  (decode (BitVec.ofNat 32 (w % 2 ^ nbits))).toOption

end Sys2Proof
end

