-- ==== Sys2Proof/Config.lean ====
section
/-! DEFINITION. What an implementation fixes: the parameters of 00_scope.md R9 and the layout of
10_state.md; the names of the registers; the inputs of the machine; and the free values. A `Config` is
plain data that the state carries unchanged, so that every claim over states holds for every parameter
value (notes/assumptions/3.md). Masks and the well-formedness check of a configuration stand in
Machine/Layout.lean. -/

namespace Sys2Proof

/-! ## Register names -/

/-- The registers of the command interface (R23). -/
inductive CmdReg where
  | cmd | arg0 | arg1 | stat | result | nomfreq
deriving DecidableEq, Repr

/-- The registers of the Clock & Power block (R36). -/
inductive CpmReg where
  | oscCs | sysClk | ipsDiv | protKey | hsTrim
deriving DecidableEq, Repr

/-- The registers of a cache instance (R44). -/
inductive CacheReg where
  | ccr | cmnt | craddr | crsize | crgn0 | crgn1
deriving DecidableEq, Repr

/-- A register of the register space, by block (R70). -/
inductive Reg where
  | cmdif (r : CmdReg)
  | cpm (r : CpmReg)
  | cache (c : CacheId) (r : CacheReg)
deriving DecidableEq, Repr

/-- The four blocks of the register space (R70). -/
inductive Block where
  | cmdif
  | cpm
  | cache (c : CacheId)
deriving DecidableEq, Repr

/-! ## Layout (R8, D8) -/

/-- Which of the two region registers holds a region (R49). -/
inductive RgnReg where
  | crgn0
  | crgn1
deriving DecidableEq, Repr

/-- The bit positions of one slot pair: cacheable-enable and write-policy (R49). -/
structure SlotPos where
  ce : Nat
  wp : Nat
deriving DecidableEq, Repr

/-- Where a region's slot pairs lie: one register, and the pairs' positions (R49, R50). -/
structure RegionPos where
  reg : RgnReg
  slots : List SlotPos
deriving DecidableEq, Repr

/-- `Layout`: every register offset and field position (R8, R9). A name ending in `Off` is a byte offset
in its block; every other name is the lowest bit position of that field. -/
structure Layout where
  cmdOff : Nat
  arg0Off : Nat
  arg1Off : Nat
  statOff : Nat
  resultOff : Nat
  nomfreqOff : Nat
  statBusy : Nat
  statRes : Nat
  statCsw : Nat
  oscCsOff : Nat
  sysClkOff : Nat
  ipsDivOff : Nat
  protKeyOff : Nat
  hsTrimOff : Nat
  lfiEn : Nat
  hsEn : Nat
  lfiStable : Nat
  hsStable : Nat
  sel : Nat
  selStat : Nat
  sysDiv : Nat
  ipsEn : Nat
  div : Nat
  /-- The width of `IPS_DIV.DIV`: 4 by R39, which a larger `IPSDIV_MAX` (I20) would not fit. The spec names no
  parameter for it; that the layout holds it is the model's DESIGN CHOICE (notes/assumptions/17.md). -/
  divWidth : Nat
  upd : Nat
  key : Nat
  trimOvr : Nat
  ccrOff : Nat
  cmntOff : Nat
  craddrOff : Nat
  crsizeOff : Nat
  crgn0Off : Nat
  crgn1Off : Nat
  cacheEn : Nat
  /-- The positions of `INV_W0`, `INV_W1` and so on, one per way (R46). -/
  invW : List Nat
  go : Nat
  len : Nat
  strt : Nat
  boot : RegionPos
  rom : RegionPos
  spiMap1 : RegionPos
  spiMap2 : RegionPos
  spiMap3 : RegionPos
deriving DecidableEq, Repr

/-- The reference layout: the tables of R23, R36, R44 and R50. -/
def Layout.reference : Layout where
  cmdOff := 0x00
  arg0Off := 0x04
  arg1Off := 0x08
  statOff := 0x0C
  resultOff := 0x10
  nomfreqOff := 0x14
  statBusy := 0
  statRes := 1
  statCsw := 4
  oscCsOff := 0x00
  sysClkOff := 0x04
  ipsDivOff := 0x08
  protKeyOff := 0x0C
  hsTrimOff := 0x10
  lfiEn := 0
  hsEn := 1
  lfiStable := 8
  hsStable := 9
  sel := 0
  selStat := 8
  sysDiv := 16
  ipsEn := 0
  div := 4
  divWidth := 4
  upd := 8
  key := 0
  trimOvr := 8
  ccrOff := 0x00
  cmntOff := 0x04
  craddrOff := 0x08
  crsizeOff := 0x0C
  crgn0Off := 0x10
  crgn1Off := 0x14
  cacheEn := 0
  invW := [0, 1]
  go := 15
  len := 0
  strt := 31
  boot := ⟨.crgn0, [⟨0, 1⟩, ⟨2, 3⟩, ⟨4, 5⟩, ⟨6, 7⟩]⟩
  rom := ⟨.crgn0, [⟨8, 9⟩]⟩
  spiMap1 := ⟨.crgn1, [⟨0, 1⟩, ⟨2, 3⟩, ⟨4, 5⟩, ⟨6, 7⟩]⟩
  spiMap2 := ⟨.crgn1, [⟨8, 9⟩, ⟨10, 11⟩, ⟨12, 13⟩, ⟨14, 15⟩]⟩
  spiMap3 := ⟨.crgn1, [⟨16, 17⟩, ⟨18, 19⟩, ⟨20, 21⟩, ⟨22, 23⟩]⟩

/-! ## Parameters (R9) -/

/-- The parameters of R9. Addresses, counts and sizes are naturals; what a 32-bit register or an OTP word
holds is a `Word`. `XLEN` and `ALEN` are arguments too; every rule is written for 32 (R70, R72), and
`configWf` refuses any other value (notes/assumptions/17.md). -/
structure Config where
  layout : Layout
  /-- `XLEN`, the register and data width in bits. -/
  xlen : Nat
  /-- `ALEN`, the address width in bits. -/
  alen : Nat
  /-- `POLL_ITERS_PER_MS` (K). -/
  pollItersPerMs : Nat
  /-- `TRIM_SWITCH_TIMEOUT_MS`. -/
  trimSwitchTimeoutMs : Nat
  /-- `LFI_HZ`. -/
  lfiHz : Word
  /-- `F_PRIMARY_HZ`. -/
  fPrimaryHz : Word
  /-- `F_SECONDARY_HZ`. -/
  fSecondaryHz : Word
  /-- `HSOSC_DEFAULT_HZ`. -/
  hsoscDefaultHz : Word
  /-- `LINE`, the cache line size in bytes. -/
  line : Nat
  /-- `NWAYS`. -/
  nways : Nat
  /-- `NSLOTS`, the slot pairs of BOOT and of each SPI-map region. -/
  nslots : Nat
  /-- `NPART`. -/
  npart : Nat
  /-- `DEFAULT_PART`. -/
  defaultPart : Nat
  /-- `LEN_WIDTH`. -/
  lenWidth : Nat
  /-- `SYSDIV_WIDTH`. -/
  sysdivWidth : Nat
  /-- `IPSDIV_MAX`. -/
  ipsdivMax : Nat
  cmdifBase : Nat
  cpmBase : Nat
  cacheBaseI : Nat
  cacheBaseD : Nat
  /-- `OTP_VALID_ADDR[0..2]`, by partition. -/
  otpValidAddrs : List Nat
  /-- `OTP_VALID_SIG`. -/
  otpValidSig : Word
  otpPartBase : Nat
  otpPartStride : Nat
  otpValOff : Nat
  otpKeyOff : Nat
  /-- `OTP_KEY_EXPECTED`. -/
  otpKeyExpected : Word
  otpSecAddr : Nat
  /-- `OTP_SEC_TAG`. -/
  otpSecTag : Byte
  /-- `KEYSEQ_STRICT` (R172). -/
  keyseqStrict : Bool
deriving DecidableEq, Repr

/-- The reference configuration: the source's values and the RC column of R9 (D40). -/
def Config.reference : Config where
  layout := Layout.reference
  xlen := 32
  alen := 32
  pollItersPerMs := 4
  trimSwitchTimeoutMs := 1
  lfiHz := 8000000#32
  fPrimaryHz := 320000000#32
  fSecondaryHz := 400000000#32
  hsoscDefaultHz := 320000000#32
  line := 16
  nways := 2
  nslots := 4
  npart := 3
  defaultPart := 2
  lenWidth := 24
  sysdivWidth := 4
  ipsdivMax := 15
  cmdifBase := 0x50000000
  cpmBase := 0x50001000
  cacheBaseI := 0x50002000
  cacheBaseD := 0x50003000
  otpValidAddrs := [0x1FFF0000, 0x1FFF0100, 0x1FFF0200]
  otpValidSig := 0xA5A55A5A#32
  otpPartBase := 0x1FFF0010
  otpPartStride := 0x100
  otpValOff := 0
  otpKeyOff := 4
  otpKeyExpected := 0x1234ABCD#32
  otpSecAddr := 0x1FFF0400
  otpSecTag := 0xA5#8
  keyseqStrict := false

/-! ## Inputs of the machine -/

/-- One host access to the register space: its address, its width in bits and, for a write, its value
(R71, R72, R77). -/
inductive HostAccess where
  | read (addr : Word) (width : Nat)
  | write (addr : Word) (width : Nat) (value : Word)
deriving DecidableEq, Repr

/-- The rule of 70_reset_and_hazards.md that an ENV step fires, and for what (R315). -/
inductive EnvEvent where
  /-- R316: oscillator `src` becomes stable. -/
  | stabilise (src : Source)
  /-- R317: the trim disturbance. -/
  | disturb
  /-- R318: oscillator `src` stops. -/
  | oscStop (src : Source)
  /-- R319: the clock switch takes effect. -/
  | switchTakes
  /-- R320: a global invalidation completes. The way bits `INV_W0`, `INV_W1` take the values, any values,
  that `v` has at their positions (R46). -/
  | globalDone (c : CacheId) (v : Word)
  /-- R321: a range invalidation completes. -/
  | rangeDone (c : CacheId)
  /-- R323: a fill adds line `a` to way `w`. -/
  | fill (c : CacheId) (w : Nat) (a : Word)
deriving DecidableEq, Repr

/-- One move of one agent (R15). -/
inductive Event where
  | engine
  | host (a : HostAccess)
  | env (e : EnvEvent)
deriving DecidableEq, Repr, Inhabited

/-! ## Free values -/

/-- A free number per draw: the source of every value the spec leaves as "any value, a fresh draw"
(`PROT_KEY.KEY` on a read, R41; the locals at a command's start, R34). DESIGN CHOICE of form, see
notes/assumptions/6.md and 7.md. -/
opaque Config.freeNat : Nat → Nat

/-- The move of an agent that nothing has chosen yet: any agent may step at any point (R15). See
notes/assumptions/2.md. -/
opaque Config.freeEvent : Nat → Event

end Sys2Proof
end

