-- ==== Sys2Proof/Machine/State.lean ====
section
/-! DEFINITION. The state of the CCB as plain data (10_state.md R20), the ways a step can stop, and the
state after reset (R59 to R62). -/

namespace Sys2Proof.Machine

/-! ## The OTP image -/

/-- The OTP image as (address, byte) pairs in one canonical form (R56; `Memory.wf` in
Machine/Memory.lean). -/
abbrev Memory := List Host.Cell

/-- What an OTP byte that the image does not list reads as. DESIGN CHOICE (notes/assumptions/4.md). -/
def unlistedByte : Byte := 0xFF#8

/-! ## Command interface -/

/-- The status codes of `STAT.RES`: 0 OK, 1 ERR, 2 TIMEOUT, 3 BUSY (R32). No rule produces `busy`
(R290). -/
inductive Status where
  | ok
  | err
  | timeout
  | busy
deriving DecidableEq, Repr

/-- The states of the clock-switch state machine, codes 0 to 4 (R35, R150). -/
inductive CswState where
  | sourceUnselected
  | oscillatorEnabling
  | oscillatorStable
  | switching
  | switched
deriving DecidableEq, Repr

/-- The CMDIF registers (R23). `STAT` is held as its three fields. -/
structure Cmdif where
  cmd : Word
  arg0 : Word
  arg1 : Word
  busy : Bool
  res : Status
  csw : CswState
  result : Word
  nomfreq : Word
deriving DecidableEq, Repr

/-! ## Engine -/

/-- The position in the latched command's micro-sequence: the next access or finish step of its
pseudocode (R31). The command itself is in the locals. -/
inductive Pos where
  /-- The first step of any command: the decode checks, then the first access or `finish` (R114). -/
  | start
  /-- The first read of the stability poll, with which the count is assigned (R12, R137; R153, step 2). -/
  | pollStableFirst
  /-- A later read of the stability poll. -/
  | pollStable
  /-- The select write (R153, step 3). -/
  | select
  /-- The first read of the switch-status poll, with which the count is assigned (R12, R137; R153,
  step 4). -/
  | pollSwitchFirst
  /-- A later read of the switch-status poll. -/
  | pollSwitch
  /-- The step after a successful switch: `finish` for CLKSW, the first OTP read for TRIM (R152). -/
  | switched
  /-- The validity read of partition `i`, after the first one (R181). -/
  | otpValid (i : Nat)
  /-- The read of the enable key of the chosen partition `i`, with which `p` is assigned (R12, R182). -/
  | otpKey (i : Nat)
  /-- The read of its calibration value (R183). -/
  | otpValue
  /-- The four unlock writes, by key pattern (R174). -/
  | unlock00
  | unlock01
  | unlock10
  | unlock11
  /-- The protected write (R183). -/
  | trimWrite
  /-- The lock write (R175). -/
  | lock
  /-- The `finish(OK)` that updates NOMFREQ (R185, R187). -/
  | trimDone
  /-- The divider write and the commit write of IPSDIV (R200). -/
  | ipsField
  | ipsCommit
  /-- The second `SYS_CLK` read of GETFREQ, and the `finish` that writes RESULT (R205). -/
  | freqDivider
  | freqDone
  /-- The read and the write of `SetRegion` for region `r` (R221). -/
  | setRead (r : Region)
  | setWrite (r : Region)
  /-- The start write and the polling read of `GlobalInv` (R241). -/
  | invStart
  | invPoll
  /-- The enable write of CINIT (R250). -/
  | cacheEnable
  /-- The address write, the size write and the polling read of CINVR (R243). -/
  | rangeBase
  | rangeSize
  | rangePoll
  /-- The next step is `finish(st)` (R33). -/
  | finishing (st : Status)
deriving DecidableEq, Repr

/-- The engine locals (R34). They exist only while the engine runs. -/
structure Locals where
  cmd : Word
  a0 : Word
  a1 : Word
  n : Nat
  v : Word
  w : Word
  p : Nat
  st : Status
  base : Nat
  alen : Nat
deriving DecidableEq, Repr

/-- `ENGINE`: `Idle`, or running at a position with its locals (R31, R34). -/
inductive Engine where
  | idle
  | run (pos : Pos) (loc : Locals)
deriving DecidableEq, Repr

/-! ## Clock & Power block, key automaton, caches -/

/-- The CPM registers (R36): each word holds the fields that are stored, at their layout positions. `UPD`
and `KEY` are written but hold nothing (R39, R41). -/
structure Cpm where
  oscCs : Word
  sysClk : Word
  ipsDiv : Word
  protKey : Word
  hsTrim : Word
deriving DecidableEq, Repr

/-- The states of the key automaton (R43). -/
inductive KeyState where
  | locked
  | k0
  | k1
  | k2
  | unlocked
deriving DecidableEq, Repr

/-- One cache instance (R44, R53): its registers, and `lines`, for each way in order, the resident line
addresses as a strictly rising list. -/
structure Cache where
  ccr : Word
  cmnt : Word
  craddr : Word
  crsize : Word
  crgn0 : Word
  crgn1 : Word
  lines : List (List Word)
deriving DecidableEq, Repr

/-! ## Trace -/

/-- The agents that access registers (R58). -/
inductive Agent where
  | engine
  | host
deriving DecidableEq, Repr

/-- One entry of `TRACE` (R58): a read, a write, a read-modify-write with both values, an OTP read, or an
ENV event. -/
inductive TraceEntry where
  | read (ag : Agent) (r : Reg) (v : Word)
  | write (ag : Agent) (r : Reg) (v : Word)
  | modify (ag : Agent) (r : Reg) (v w : Word)
  | otp (ag : Agent) (addr : Nat) (v : Word)
  | env (e : EnvEvent)
deriving DecidableEq, Repr

/-! ## The state -/

/-- The whole state (R20). `cfg` and `otp` are parameters that no step changes (R20, R56). `trace` has its
newest entry first. `agenda` and `draws` are the MODEL's own: the moves already chosen, next first, and
the counter that free values are drawn with (notes/assumptions/2.md, 7.md). -/
structure State where
  cfg : Config
  otp : Memory
  cmdif : Cmdif
  engine : Engine
  cpm : Cpm
  icache : Cache
  dcache : Cache
  keyState : KeyState
  hsDisturb : Bool
  trace : List TraceEntry
  agenda : List Event
  draws : Nat
deriving DecidableEq, Repr

/-! ## How a step can stop -/

/-- The host faults, in the order of R276's items. -/
inductive HostFault where
  /-- Item 1: a write of CMD, ARG0 or ARG1 while BUSY. -/
  | cmdifWhileBusy
  /-- Item 2: a write of a CPM or cache register while BUSY. -/
  | blockWhileBusy
  /-- Item 3: a write of CMNT, CRADDR or CRSIZE of an instance with maintenance in flight. -/
  | maintWhileInFlight
  /-- Item 4: a write of CMD with maintenance in flight in either instance. -/
  | cmdWhileInFlight
  /-- Item 5: an access of a width other than 32 bits. -/
  | width
  /-- Item 6: an address that is not a multiple of 4. -/
  | misaligned
  /-- Item 7: an unmapped offset of a block. -/
  | unmapped
deriving DecidableEq, Repr

/-- A fault of the machine. -/
inductive Fault where
  /-- The distinguished `HostFault` outcome, which carries the faulting access (R277). Raised by
  `hostStep`. Safe: the source calls what follows undefined, and the run stops. -/
  | host (why : HostFault) (a : HostAccess)
deriving DecidableEq, Repr

/-- What the model refuses. -/
inductive Refusal where
  /-- An instruction with no meaning yet. Raised by no arm of `exec`. Safe. -/
  | notModelled (mnemonic : String)
  /-- A host access outside the four blocks, which is no access to the CCB (R71, I18). Raised by
  `hostStep`. Safe. -/
  | outsideBlocks (a : HostAccess)
  /-- A configuration that is ill-formed (R73, I18). Raised by `step`. Safe. -/
  | illFormedConfig
  /-- A command's step is asked for while the engine is idle: no command runs (R31). Raised by `exec`,
  never reached by `step`. Safe. -/
  | engineIdle
  /-- The engine's position is no position of the latched command, a state R31 does not have. Raised by
  `exec`; no run from reset reaches it. Safe. -/
  | strayPosition
deriving DecidableEq, Repr

/-! ## Reset -/

/-- CMDIF right after reset (R59). -/
def Cmdif.reset (cfg : Config) : Cmdif where
  cmd := 0#32
  arg0 := 0#32
  arg1 := 0#32
  busy := false
  res := .ok
  csw := .sourceUnselected
  result := 0#32
  nomfreq := cfg.hsoscDefaultHz

/-- One reset draw of CPM: every field 0. The spec says "any value" (R60); DESIGN CHOICE
(notes/assumptions/1.md). -/
def Cpm.zero : Cpm where
  oscCs := 0#32
  sysClk := 0#32
  ipsDiv := 0#32
  protKey := 0#32
  hsTrim := 0#32

/-- One reset draw of a cache instance of the reference configuration: every field 0 and no resident line.
GO and STRT are 0 by R61; for the rest the spec says "any value" (R61); DESIGN CHOICE
(notes/assumptions/1.md). -/
def Cache.zero : Cache where
  ccr := 0#32
  cmnt := 0#32
  craddr := 0#32
  crsize := 0#32
  crgn0 := 0#32
  crgn1 := 0#32
  lines := List.replicate Config.reference.nways []

/-- The machine right after reset (R59 to R62, R301), in the reference configuration (R9), with the OTP
image listing nothing and the reset draws all 0. Every other reset state of R302 is a `State.resetWith`
(Machine/Reset.lean). -/
def State.reset : State where
  cfg := Config.reference
  otp := []
  cmdif := Cmdif.reset Config.reference
  engine := .idle
  cpm := Cpm.zero
  icache := Cache.zero
  dcache := Cache.zero
  keyState := .locked
  hsDisturb := false
  trace := []
  agenda := []
  draws := 0

end Sys2Proof.Machine
end

