-- ==== Sys2Proof/Machine/Layout.lean ====
section
/-! DEFINITION. Bit fields of register words, the masks a layout gives each register (10_state.md R36,
R44, R50), and when a configuration is well-formed (20_memory.md R73). -/

namespace Sys2Proof.Machine

/-! ## Bit fields (R10) -/

/-- The mask of bit `p` (0 past bit 31). -/
def bit (p : Nat) : Word := BitVec.twoPow 32 p

/-- The mask of the `width` bits from bit `p` up. -/
def bits (p width : Nat) : Word := BitVec.ofNat 32 (2 ^ width - 1) <<< p

/-- `v[p]`. -/
def getBit (v : Word) (p : Nat) : Bool := v.getLsbD p

/-- `v` with bit `p` set to `b`. -/
def putBit (v : Word) (p : Nat) (b : Bool) : Word := if b then v ||| bit p else v &&& ~~~bit p

/-- The field of `width` bits of `v` from bit `p` up, as an unsigned number. -/
def field (v : Word) (p width : Nat) : Nat := v.toNat / 2 ^ p % 2 ^ width

/-- `old` with the bits of `mask` taken from `new`. -/
def merge (mask old new : Word) : Word := (old &&& ~~~mask) ||| (new &&& mask)

/-- One bit at position `p`, as a register word. -/
def flag (p : Nat) (b : Bool) : Word := if b then bit p else 0#32

/-! ## Masks -/

/-- `EN_MASK(s)` (R154). -/
def enPos (L : Layout) : Source → Nat
  | .lfi => L.lfiEn
  | .hsosc => L.hsEn

/-- The position behind `STABLE_MASK(s)` (R154). -/
def stablePos (L : Layout) : Source → Nat
  | .lfi => L.lfiStable
  | .hsosc => L.hsStable

/-- The position of way `w`'s invalidate bit; a way the layout does not place has none (R46). -/
def invPos (L : Layout) (w : Nat) : Nat := L.invW.getD w 32

/-- The invalidate bits of every way (R46, R241). -/
def wayMask (L : Layout) : Word := L.invW.foldr (fun p m => bit p ||| m) 0#32

/-- The slot positions of a region (R50). -/
def regionPos (L : Layout) : Region → RegionPos
  | .boot => L.boot
  | .rom => L.rom
  | .spiMap1 => L.spiMap1
  | .spiMap2 => L.spiMap2
  | .spiMap3 => L.spiMap3

/-- All regions in code order (R50, R108). -/
def allRegions : List Region := [.boot, .rom, .spiMap1, .spiMap2, .spiMap3]

/-- `CE_MASK(r)`: the OR of the CE bits of the region's slots (R50). -/
def ceMask (L : Layout) (r : Region) : Word :=
  (regionPos L r).slots.foldr (fun p m => bit p.ce ||| m) 0#32

/-- `WP_MASK(r)`: the OR of the WP bits of the region's slots (R50). -/
def wpMask (L : Layout) (r : Region) : Word :=
  (regionPos L r).slots.foldr (fun p m => bit p.wp ||| m) 0#32

/-- Every bit of a region (R220). -/
def regionMask (L : Layout) (r : Region) : Word := ceMask L r ||| wpMask L r

/-- The register that holds a region, as a cache register (R50). -/
def RgnReg.toCacheReg : RgnReg → CacheReg
  | .crgn0 => .crgn0
  | .crgn1 => .crgn1

/-- `RGN_REG(r)` (R50). -/
def rgnReg (L : Layout) (r : Region) : CacheReg := RgnReg.toCacheReg (regionPos L r).reg

/-- Every implemented bit of a region register: the regions that lie in it (R49). -/
def rgnRegMask (L : Layout) (q : RgnReg) : Word :=
  allRegions.foldr (fun r m => if (regionPos L r).reg = q then regionMask L r ||| m else m) 0#32

/-- `LINE - 1` as a mask: the address bits below the line (R47, R243). -/
def lineLow (cfg : Config) : Word := BitVec.ofNat 32 (cfg.line - 1)

/-- The read-write bits of a CPM register: those a write stores (R36 to R42). `KEY` and `UPD` store
nothing; `HS_TRIM` is stored whole when the write is admitted. -/
def cpmRw (cfg : Config) : CpmReg → Word
  | .oscCs => bit cfg.layout.lfiEn ||| bit cfg.layout.hsEn
  | .sysClk => bit cfg.layout.sel ||| bits cfg.layout.sysDiv cfg.sysdivWidth
  | .ipsDiv => bit cfg.layout.ipsEn ||| bits cfg.layout.div cfg.layout.divWidth
  | .protKey => bit cfg.layout.trimOvr
  | .hsTrim => BitVec.allOnes 32

/-- The bits of a CPM register that can read 1 (reserved bits read 0, R52; `UPD` reads 0, R39). -/
def cpmImpl (cfg : Config) : CpmReg → Word
  | .oscCs => cpmRw cfg .oscCs ||| bit cfg.layout.lfiStable ||| bit cfg.layout.hsStable
  | .sysClk => cpmRw cfg .sysClk ||| bit cfg.layout.selStat
  | .ipsDiv => cpmRw cfg .ipsDiv
  | .protKey => cpmRw cfg .protKey
  | .hsTrim => cpmRw cfg .hsTrim

/-- The bits of a cache register that a write stores as written (R44 to R49). The go-bits are not among
them: they are set by writing 1 and cleared by hardware. -/
def cacheRw (cfg : Config) : CacheReg → Word
  | .ccr => bit cfg.layout.cacheEn
  | .cmnt => wayMask cfg.layout
  | .craddr => ~~~lineLow cfg
  | .crsize => bits cfg.layout.len cfg.lenWidth
  | .crgn0 => rgnRegMask cfg.layout .crgn0
  | .crgn1 => rgnRegMask cfg.layout .crgn1

/-- The bits of a cache register that can read 1 (R52). -/
def cacheImpl (cfg : Config) : CacheReg → Word
  | .ccr => cacheRw cfg .ccr
  | .cmnt => cacheRw cfg .cmnt ||| bit cfg.layout.go
  | .craddr => cacheRw cfg .craddr
  | .crsize => cacheRw cfg .crsize ||| bit cfg.layout.strt
  | .crgn0 => cacheRw cfg .crgn0
  | .crgn1 => cacheRw cfg .crgn1

/-! ## Addresses -/

/-- The base address of a block (R9). -/
def blockBase (cfg : Config) : Block → Nat
  | .cmdif => cfg.cmdifBase
  | .cpm => cfg.cpmBase
  | .cache .icache => cfg.cacheBaseI
  | .cache .dcache => cfg.cacheBaseD

/-- The four blocks (R70). -/
def allBlocks : List Block := [.cmdif, .cpm, .cache .icache, .cache .dcache]

/-- The span of a block in bytes (R70). -/
def blockSpan : Nat := 0x1000

/-- The offsets of the mapped registers of the command interface (R23). -/
def cmdOffsets (L : Layout) : List (Nat × CmdReg) :=
  [(L.cmdOff, .cmd), (L.arg0Off, .arg0), (L.arg1Off, .arg1), (L.statOff, .stat),
    (L.resultOff, .result), (L.nomfreqOff, .nomfreq)]

/-- The offsets of the mapped registers of CPM (R36). -/
def cpmOffsets (L : Layout) : List (Nat × CpmReg) :=
  [(L.oscCsOff, .oscCs), (L.sysClkOff, .sysClk), (L.ipsDivOff, .ipsDiv),
    (L.protKeyOff, .protKey), (L.hsTrimOff, .hsTrim)]

/-- The offsets of the mapped registers of a cache instance (R44). -/
def cacheOffsets (L : Layout) : List (Nat × CacheReg) :=
  [(L.ccrOff, .ccr), (L.cmntOff, .cmnt), (L.craddrOff, .craddr), (L.crsizeOff, .crsize),
    (L.crgn0Off, .crgn0), (L.crgn1Off, .crgn1)]

/-- `OTP_VALID_ADDR[i]` (R179). -/
def otpValidAddr (cfg : Config) (i : Nat) : Nat := cfg.otpValidAddrs.getD i 0

/-- The address of partition `p`'s calibration value (R179). -/
def otpValueAddr (cfg : Config) (p : Nat) : Nat :=
  cfg.otpPartBase + p * cfg.otpPartStride + cfg.otpValOff

/-- The address of partition `p`'s enable key (R179). -/
def otpKeyAddr (cfg : Config) (p : Nat) : Nat :=
  cfg.otpPartBase + p * cfg.otpPartStride + cfg.otpKeyOff

/-- The address of a register of the register space (R79). -/
def regAddr (cfg : Config) : Reg → Nat
  | .cmdif .cmd => cfg.cmdifBase + cfg.layout.cmdOff
  | .cmdif .arg0 => cfg.cmdifBase + cfg.layout.arg0Off
  | .cmdif .arg1 => cfg.cmdifBase + cfg.layout.arg1Off
  | .cmdif .stat => cfg.cmdifBase + cfg.layout.statOff
  | .cmdif .result => cfg.cmdifBase + cfg.layout.resultOff
  | .cmdif .nomfreq => cfg.cmdifBase + cfg.layout.nomfreqOff
  | .cpm .oscCs => cfg.cpmBase + cfg.layout.oscCsOff
  | .cpm .sysClk => cfg.cpmBase + cfg.layout.sysClkOff
  | .cpm .ipsDiv => cfg.cpmBase + cfg.layout.ipsDivOff
  | .cpm .protKey => cfg.cpmBase + cfg.layout.protKeyOff
  | .cpm .hsTrim => cfg.cpmBase + cfg.layout.hsTrimOff
  | .cache c .ccr => blockBase cfg (.cache c) + cfg.layout.ccrOff
  | .cache c .cmnt => blockBase cfg (.cache c) + cfg.layout.cmntOff
  | .cache c .craddr => blockBase cfg (.cache c) + cfg.layout.craddrOff
  | .cache c .crsize => blockBase cfg (.cache c) + cfg.layout.crsizeOff
  | .cache c .crgn0 => blockBase cfg (.cache c) + cfg.layout.crgn0Off
  | .cache c .crgn1 => blockBase cfg (.cache c) + cfg.layout.crgn1Off

/-! ## Well-formed configurations (R73, I18) -/

/-- Two fields, each a position and a width, share no bit. -/
abbrev fieldsApart (f g : Nat × Nat) : Prop := f.1 + f.2 ≤ g.1 ∨ g.1 + g.2 ≤ f.1

/-- The fields of one register lie in it and share no bit. -/
abbrev fieldsOk (fs : List (Nat × Nat)) : Prop :=
  (∀ f ∈ fs, f.1 + f.2 ≤ 32) ∧ fs.Pairwise fieldsApart

/-- The register offsets of one block are distinct multiples of 4 inside the block. -/
abbrev offsetsOk (os : List Nat) : Prop := (∀ o ∈ os, o % 4 = 0 ∧ o < blockSpan) ∧ os.Nodup

/-- The slot positions of every region are bits of a register, no bit of a region serves twice, and
regions of one register share no bit (R49, R50). -/
abbrev regionsOk (L : Layout) : Prop :=
  (∀ r ∈ allRegions, ∀ p ∈ (regionPos L r).slots, p.ce < 32 ∧ p.wp < 32) ∧
  (∀ r ∈ allRegions, ((regionPos L r).slots.flatMap fun p => [p.ce, p.wp]).Nodup) ∧
  (∀ r ∈ allRegions, ceMask L r &&& wpMask L r = 0#32) ∧
  (∀ r ∈ allRegions, ∀ r' ∈ allRegions,
    r ≠ r' → rgnReg L r = rgnReg L r' → regionMask L r &&& regionMask L r' = 0#32)

/-- The fields of each register are apart and its offsets are sound (R8). -/
abbrev layoutOk (cfg : Config) : Prop :=
  fieldsOk [(cfg.layout.statBusy, 1), (cfg.layout.statRes, 2), (cfg.layout.statCsw, 3)] ∧
  fieldsOk [(cfg.layout.lfiEn, 1), (cfg.layout.hsEn, 1), (cfg.layout.lfiStable, 1),
    (cfg.layout.hsStable, 1)] ∧
  fieldsOk [(cfg.layout.sel, 1), (cfg.layout.selStat, 1), (cfg.layout.sysDiv, cfg.sysdivWidth)] ∧
  fieldsOk [(cfg.layout.ipsEn, 1), (cfg.layout.div, cfg.layout.divWidth), (cfg.layout.upd, 1)] ∧
  fieldsOk [(cfg.layout.key, 2), (cfg.layout.trimOvr, 1)] ∧
  fieldsOk [(cfg.layout.cacheEn, 1)] ∧
  fieldsOk ((cfg.layout.go, 1) :: cfg.layout.invW.map fun p => (p, 1)) ∧
  fieldsOk [(cfg.layout.len, cfg.lenWidth), (cfg.layout.strt, 1)] ∧
  regionsOk cfg.layout ∧
  offsetsOk ((cmdOffsets cfg.layout).map Prod.fst) ∧
  offsetsOk ((cpmOffsets cfg.layout).map Prod.fst) ∧
  offsetsOk ((cacheOffsets cfg.layout).map Prod.fst)

/-- Two blocks, by base address, do not overlap (R70). -/
abbrev blocksApart (a b : Nat) : Prop := a + blockSpan ≤ b ∨ b + blockSpan ≤ a

/-- The OTP words the engine reads, by address (R179). -/
def otpAddrs (cfg : Config) : List Nat :=
  cfg.otpSecAddr :: cfg.otpValidAddrs ++ (List.range cfg.npart).map (otpValueAddr cfg) ++
    (List.range cfg.npart).map (otpKeyAddr cfg)

/-- Every base, offset and OTP address is a multiple of 4, the OTP words the engine reads lie in the 32-bit
address space, and blocks do not overlap (R70, R73). A block whose span runs past 2^32 is refused too: the
spec does not say whether such a span wraps, and this is the model's DESIGN CHOICE
(notes/assumptions/12.md). -/
abbrev addressesOk (cfg : Config) : Prop :=
  (∀ b ∈ allBlocks, blockBase cfg b % 4 = 0 ∧ blockBase cfg b + blockSpan ≤ 2 ^ 32) ∧
  (allBlocks.map (blockBase cfg)).Pairwise blocksApart ∧
  (cfg.otpPartBase % 4 = 0 ∧ cfg.otpValOff % 4 = 0 ∧ cfg.otpKeyOff % 4 = 0) ∧
  (∀ a ∈ otpAddrs cfg, a % 4 = 0 ∧ a + 4 ≤ 2 ^ 32)

/-- The counts and sizes are in the ranges the spec gives: `K >= 1`, `TRIM_SWITCH_TIMEOUT_MS >= 1` (R9),
`LINE` a power of two (R243), the largest divider fits its field (R39, whose width is a layout field by the
model's DESIGN CHOICE, notes/assumptions/17.md), and registers and addresses have 32 bits (R70, R72). -/
abbrev countsOk (cfg : Config) : Prop :=
  1 ≤ cfg.pollItersPerMs ∧ 1 ≤ cfg.trimSwitchTimeoutMs ∧
  (∃ k ∈ List.range 32, cfg.line = 2 ^ k) ∧ cfg.ipsdivMax < 2 ^ cfg.layout.divWidth ∧
  cfg.xlen = 32 ∧ cfg.alen = 32

/-- The layout has what the counts ask for: an invalidate bit per way, `NSLOTS` slot pairs in BOOT and in
each SPI-map region and one in ROM (R49), and a validity address per partition, the default among them
(R9, R179). -/
abbrev shapeOk (cfg : Config) : Prop :=
  cfg.layout.invW.length = cfg.nways ∧
  (∀ r ∈ allRegions, (regionPos cfg.layout r).slots.length = if r = .rom then 1 else cfg.nslots) ∧
  cfg.otpValidAddrs.length = cfg.npart ∧ cfg.defaultPart < cfg.npart

/-- A configuration the model accepts. R73 and I18 name unaligned addresses and overlapping blocks; that
the fields of one register must not overlap either, and that layout and counts must agree, is DEDUCED
(notes/assumptions/12.md). -/
def configWf (cfg : Config) : Bool :=
  decide (layoutOk cfg) && decide (addressesOk cfg) && decide (countsOk cfg) && decide (shapeOk cfg)

end Sys2Proof.Machine
end

