-- ==== Sys2Proof/Machine/Operands.lean ====
section
/-! DEFINITION. Every operand form of the commands: the enumeration codes of command words, the policy
set of `a0`, and the range alignment of CINVR (30_encoding.md R102 to R109). -/

namespace Sys2Proof.Machine

/-! ## Codes -/

/-- The source an `A` operand names: 0 LFI, 1 HSOSC, the rest unsupported (R40, R151). -/
def sourceOfCode? (a : BitVec 4) : Option Source :=
  if a = 0#4 then some .lfi else if a = 1#4 then some .hsosc else none

/-- A source as the one-bit code of `SEL` and `SEL_STAT` (R40). -/
def sourceBit : Source → Bool
  | .lfi => false
  | .hsosc => true

/-- The source a one-bit code names (R40). -/
def sourceOfBit (b : Bool) : Source := if b then .hsosc else .lfi

/-- The trim target an `A` operand names: 0 primary, 1 secondary, the rest unrecognized (R180). -/
def targetOfCode? (a : BitVec 4) : Option Target :=
  if a = 0#4 then some .primary else if a = 1#4 then some .secondary else none

/-- The region an `A` operand names: 0 to 4, the rest invalid (R50, R224). -/
def regionOfCode? (a : BitVec 4) : Option Region :=
  if a = 0#4 then some .boot else if a = 1#4 then some .rom else if a = 2#4 then some .spiMap1
  else if a = 3#4 then some .spiMap2 else if a = 4#4 then some .spiMap3 else none

/-- The policy a 2-bit code names: 0 OFF, 1 WRITE_THROUGH, 2 WRITE_BACK; 3 is invalid (R51, R225). -/
def policyOfCode? (p : BitVec 2) : Option Policy :=
  if p = 0#2 then some .off else if p = 1#2 then some .writeThrough
  else if p = 2#2 then some .writeBack else none

/-- The (CE, WP) pair a policy gives every slot (R51). -/
def policyPair : Policy → Bool × Bool
  | .off => (false, false)
  | .writeThrough => (true, false)
  | .writeBack => (true, true)

/-! ## Policy sets (R108) -/

/-- The number of a region in the policy set's order (R108). -/
def regionIndex : Region → Nat
  | .boot => 0
  | .rom => 1
  | .spiMap1 => 2
  | .spiMap2 => 3
  | .spiMap3 => 4

/-- The region after `r` in the order of `SetAll` (R229). -/
def nextRegion : Region → Option Region
  | .boot => some .rom
  | .rom => some .spiMap1
  | .spiMap1 => some .spiMap2
  | .spiMap2 => some .spiMap3
  | .spiMap3 => none

/-- The 2-bit code of region `r` in a policy set: `ps[2r+1:2r]` (R108). -/
def setCode (ps : Word) (r : Region) : BitVec 2 := ps.extractLsb' (2 * regionIndex r) 2

/-- The policy of region `r` in a policy set, where its code is valid. -/
def setPolicy? (ps : Word) (r : Region) : Option Policy := policyOfCode? (setCode ps r)

/-- `ValidSet(ps)`: bits 31 to 10 are 0 and every code is 0, 1 or 2 (R108, R229). -/
def validSet (ps : Word) : Bool :=
  decide (ps >>> 10 = 0#32) && allRegions.all fun r => (setPolicy? ps r).isSome

/-! ## Range alignment (R244) -/

/-- `base = addr & ~(LINE - 1)` (R243). -/
def alignBase (cfg : Config) (addr : Word) : Word := addr &&& ~~~lineLow cfg

/-- `roundUp(x, L) = ((x + L - 1) / L) * L` over the naturals (R244). -/
def roundUp (x L : Nat) : Nat := (x + L - 1) / L * L

/-- `alen = roundUp((addr - base) + len, LINE)`, with no 32-bit wrap (R243, R244). -/
def alignedLength (cfg : Config) (addr len : Word) : Nat :=
  roundUp ((addr.toNat - (alignBase cfg addr).toNat) + len.toNat) cfg.line

/-! ## Policy application (R220) -/

/-- `Apply(v, r, p)`: the region's bits of `v` rewritten for policy `p` (R220). -/
def applyPolicy (L : Layout) (v : Word) (r : Region) : Policy → Word
  | .off => v &&& ~~~(ceMask L r ||| wpMask L r)
  | .writeThrough => (v ||| ceMask L r) &&& ~~~wpMask L r
  | .writeBack => v ||| ceMask L r ||| wpMask L r

/-! ## Polls and frequency -/

/-- The read count of a poll: `budget * POLL_ITERS_PER_MS`, exact (R137). -/
def pollCount (cfg : Config) (budget : Nat) : Nat := budget * cfg.pollItersPerMs

/-- `base / (SYS_DIV + 1)`, truncating (R205, R208). -/
def effectiveHz (base sysDiv : Nat) : Word := BitVec.ofNat 32 (base / (sysDiv + 1))

end Sys2Proof.Machine
end

