-- ==== Sys2Proof/Machine/Flags.lean ====
section
/-! DEFINITION. The status word of the CCB. It has no arithmetic flags (10_state.md R21, R22); what a
command leaves to be read is `CMDIF.STAT` (R23, R26 to R28). -/

namespace Sys2Proof.Machine

/-- The 2-bit code of a status (R32). -/
def statusCode : Status → Word
  | .ok => 0#32
  | .err => 1#32
  | .timeout => 2#32
  | .busy => 3#32

/-- The status a number names, modulo 4 (R32). -/
def statusOfNat (n : Nat) : Status :=
  match n % 4 with
  | 0 => .ok
  | 1 => .err
  | 2 => .timeout
  | _ => .busy

/-- The 3-bit code of a clock-switch state (R35). -/
def cswCode : CswState → Word
  | .sourceUnselected => 0#32
  | .oscillatorEnabling => 1#32
  | .oscillatorStable => 2#32
  | .switching => 3#32
  | .switched => 4#32

/-- What a read of `CMDIF.STAT` returns: BUSY, RES and CSW_STATE in their places, reserved bits 0
(R23, R52). -/
def statWord (L : Layout) (c : Cmdif) : Word :=
  flag L.statBusy c.busy ||| statusCode c.res <<< L.statRes ||| cswCode c.csw <<< L.statCsw

/-- The key automaton: the state after a write of key `k` and override `o` to PROT_KEY (R171). -/
def keyNext (st : KeyState) (k : Nat) (o : Bool) : KeyState :=
  match k % 4 with
  | 0 => .k0
  | 1 => if st = .k0 then .k1 else .locked
  | 2 => if st = .k1 then .k2 else .locked
  | _ => if st = .k2 ∧ o = true then .unlocked else .locked

/-- What a write to another register does to the key automaton when `KEYSEQ_STRICT` holds: the states
inside the sequence go to LOCKED (R172). -/
def keyInterrupted : KeyState → KeyState
  | .k0 => .locked
  | .k1 => .locked
  | .k2 => .locked
  | .locked => .locked
  | .unlocked => .unlocked

end Sys2Proof.Machine
end

