-- ==== Sys2Proof/Machine/Memory.lean ====
section
/-! DEFINITION. The OTP image: reading it (20_memory.md R74, R75), and building one. No agent of the CCB
writes it (10_state.md R56): the write operations stand for the factory, outside the machine. -/

namespace Sys2Proof.Machine

/-- The byte at an address: the listed one, else `unlistedByte`. -/
def readByte (m : Memory) (a : Nat) : Byte :=
  match m.find? fun c => c.1 = a with
  | some c => c.2
  | none => unlistedByte

/-- `MemRead(a, 4)`: the 32-bit OTP word at `a`, little-endian (R74, R75). -/
def readWord (m : Memory) (a : Nat) : Word :=
  readByte m (a + 3) ++ readByte m (a + 2) ++ readByte m (a + 1) ++ readByte m a

/-- The canonical form: addresses strictly rising and below 2^32, and no entry equal to what an unlisted
address reads as. -/
def memoryWf (m : Memory) : Bool :=
  decide (m.Pairwise fun x y => x.1 < y.1) &&
    m.all fun c => decide (c.1 < 2 ^ 32) && decide (c.2 ≠ unlistedByte)

/-- One byte of the image set, in canonical form: setting the byte an unlisted address reads as removes
the entry. -/
def writeByte (m : Memory) (a : Nat) (b : Byte) : Memory :=
  match m with
  | [] => if b = unlistedByte then [] else [(a, b)]
  | c :: rest =>
    if a < c.1 then (if b = unlistedByte then c :: rest else (a, b) :: c :: rest)
    else if a = c.1 then (if b = unlistedByte then rest else (a, b) :: rest)
    else c :: writeByte rest a b

/-- One word of the image set, little-endian (R74). -/
def writeWord (m : Memory) (a : Nat) (v : Word) : Memory :=
  writeByte (writeByte (writeByte (writeByte m a (v.extractLsb' 0 8)) (a + 1) (v.extractLsb' 8 8))
    (a + 2) (v.extractLsb' 16 8)) (a + 3) (v.extractLsb' 24 8)

end Sys2Proof.Machine
end

