-- ==== Sys2Proof/Machine/Ops.lean ====
section
/-! DEFINITION. The operations every meaning is written with: field updates, register reads and writes
with their side effects (10_state.md R36 to R52), the engine's access primitives (40_poller.md R130 to
R135), `finish` (R33) and the poller (R138). The CCB takes no exception (60_exceptions.md R278): the one
way a command ends is `finish`, and there is nothing to return from (R280). -/

namespace Sys2Proof.Machine

/-! ## Field updates -/

def State.setCmdif (s : State) (x : Cmdif) : State := { s with cmdif := x }
def State.setEngine (s : State) (x : Engine) : State := { s with engine := x }
def State.setCpm (s : State) (x : Cpm) : State := { s with cpm := x }
def State.setKey (s : State) (x : KeyState) : State := { s with keyState := x }
def State.setDisturb (s : State) (x : Bool) : State := { s with hsDisturb := x }
def State.setDraws (s : State) (x : Nat) : State := { s with draws := x }
def State.log (s : State) (e : TraceEntry) : State := { s with trace := e :: s.trace }

/-- The instance an `I` bit selects (R44, R103). -/
def State.cache (s : State) : CacheId → Cache
  | .icache => s.icache
  | .dcache => s.dcache

/-- One instance replaced. -/
def State.setCache (s : State) (c : CacheId) (x : Cache) : State :=
  match c with
  | .icache => { s with icache := x }
  | .dcache => { s with dcache := x }

/-- `CSW_STATE <- x` (R152). -/
def State.setCsw (s : State) (x : CswState) : State := s.setCmdif { s.cmdif with csw := x }

/-- `NOMFREQ <- x` (R30). -/
def State.setNomfreq (s : State) (x : Word) : State := s.setCmdif { s.cmdif with nomfreq := x }

/-- `RESULT <- x` (R29). -/
def State.setResult (s : State) (x : Word) : State := s.setCmdif { s.cmdif with result := x }

/-! ## Views of fields by name -/

/-- `EN[src]` (R37). -/
def State.oscEn (s : State) (src : Source) : Bool := getBit s.cpm.oscCs (enPos s.cfg.layout src)

/-- `STABLE[src]` (R37). -/
def State.oscStable (s : State) (src : Source) : Bool :=
  getBit s.cpm.oscCs (stablePos s.cfg.layout src)

/-- `SEL` (R38), as the source it names. -/
def State.sel (s : State) : Source := sourceOfBit (getBit s.cpm.sysClk s.cfg.layout.sel)

/-- `SEL_STAT` (R38), as the source it names. -/
def State.selStat (s : State) : Source := sourceOfBit (getBit s.cpm.sysClk s.cfg.layout.selStat)

/-- `SYS_DIV` (R38). -/
def State.sysDiv (s : State) : Nat := field s.cpm.sysClk s.cfg.layout.sysDiv s.cfg.sysdivWidth

/-- `IPS_EN` (R39). -/
def State.ipsEn (s : State) : Bool := getBit s.cpm.ipsDiv s.cfg.layout.ipsEn

/-- `IPS_DIV.DIV` (R39). -/
def State.ipsDivField (s : State) : Nat := field s.cpm.ipsDiv s.cfg.layout.div s.cfg.layout.divWidth

/-- `TRIM_OVR` (R41). -/
def State.trimOvr (s : State) : Bool := getBit s.cpm.protKey s.cfg.layout.trimOvr

/-- `CCR.EN` (R45). -/
def State.cacheEn (s : State) (c : CacheId) : Bool := getBit (s.cache c).ccr s.cfg.layout.cacheEn

/-- `CMNT.INV_W0`, `CMNT.INV_W1` and so on, by way (R46). -/
def State.invWay (s : State) (c : CacheId) (w : Nat) : Bool :=
  getBit (s.cache c).cmnt (invPos s.cfg.layout w)

/-- `CMNT.GO` (R46). -/
def State.go (s : State) (c : CacheId) : Bool := getBit (s.cache c).cmnt s.cfg.layout.go

/-- `CRSIZE.STRT` (R48). -/
def State.strt (s : State) (c : CacheId) : Bool := getBit (s.cache c).crsize s.cfg.layout.strt

/-- `CRSIZE.LEN` (R48). -/
def State.rangeLen (s : State) (c : CacheId) : Nat :=
  field (s.cache c).crsize s.cfg.layout.len s.cfg.lenWidth

/-- A maintenance command is in flight in instance `c` (R55). -/
def State.inFlight (s : State) (c : CacheId) : Bool := s.go c || s.strt c

/-- `RES_LINES[c][w]` (R53). -/
def State.lines (s : State) (c : CacheId) (w : Nat) : List Word := (s.cache c).lines.getD w []

/-! ## Registers: stored words -/

/-- The stored word of a CPM register. -/
def Cpm.word (x : Cpm) : CpmReg → Word
  | .oscCs => x.oscCs
  | .sysClk => x.sysClk
  | .ipsDiv => x.ipsDiv
  | .protKey => x.protKey
  | .hsTrim => x.hsTrim

/-- The stored word of a CPM register, replaced. -/
def Cpm.setWord (x : Cpm) (r : CpmReg) (v : Word) : Cpm :=
  match r with
  | .oscCs => { x with oscCs := v }
  | .sysClk => { x with sysClk := v }
  | .ipsDiv => { x with ipsDiv := v }
  | .protKey => { x with protKey := v }
  | .hsTrim => { x with hsTrim := v }

/-- The stored word of a cache register. -/
def Cache.word (x : Cache) : CacheReg → Word
  | .ccr => x.ccr
  | .cmnt => x.cmnt
  | .craddr => x.craddr
  | .crsize => x.crsize
  | .crgn0 => x.crgn0
  | .crgn1 => x.crgn1

/-- The stored word of a cache register, replaced. -/
def Cache.setWord (x : Cache) (r : CacheReg) (v : Word) : Cache :=
  match r with
  | .ccr => { x with ccr := v }
  | .cmnt => { x with cmnt := v }
  | .craddr => { x with craddr := v }
  | .crsize => { x with crsize := v }
  | .crgn0 => { x with crgn0 := v }
  | .crgn1 => { x with crgn1 := v }

/-- The resident lines of one way of an instance, replaced. -/
def Cache.setLines (x : Cache) (w : Nat) (ls : List Word) : Cache :=
  { x with lines := x.lines.set w ls }

/-- The slot pairs (CE, WP) of a region of an instance, in slot order (R49). -/
def State.slotPairs (s : State) (c : CacheId) (r : Region) : List (Bool × Bool) :=
  (regionPos s.cfg.layout r).slots.map fun p =>
    (getBit ((s.cache c).word (rgnReg s.cfg.layout r)) p.ce,
      getBit ((s.cache c).word (rgnReg s.cfg.layout r)) p.wp)

/-! ## Register reads (R52, R130) -/

/-- What a read of PROT_KEY.KEY returns: any value, a fresh draw per read (R41, R130, I10). -/
def keyDraw (s : State) : Word := BitVec.ofNat 32 (Config.freeNat s.draws % 4) <<< s.cfg.layout.key

/-- The value a read of a register returns (R130). No read has a side effect (R52). -/
def readValue (r : Reg) (s : State) : Word :=
  match r with
  | .cmdif .cmd => s.cmdif.cmd
  | .cmdif .arg0 => s.cmdif.arg0
  | .cmdif .arg1 => s.cmdif.arg1
  | .cmdif .stat => statWord s.cfg.layout s.cmdif
  | .cmdif .result => s.cmdif.result
  | .cmdif .nomfreq => s.cmdif.nomfreq
  | .cpm .protKey => s.cpm.protKey ||| keyDraw s
  | .cpm .oscCs => s.cpm.oscCs
  | .cpm .sysClk => s.cpm.sysClk
  | .cpm .ipsDiv => s.cpm.ipsDiv
  | .cpm .hsTrim => s.cpm.hsTrim
  | .cache c r => (s.cache c).word r

/-- The draw counter after a read: a read of PROT_KEY uses one draw. -/
def drawnBy (r : Reg) (s : State) : State :=
  match r with
  | .cpm .protKey => s.setDraws (s.draws + 1)
  | _ => s

/-! ## Register writes (R78) -/

/-- The locals at a command's start: the latched words, and free values for the rest (R25, R34;
notes/assumptions/6.md). -/
def freshLocals (npart d : Nat) (cmd a0 a1 : Word) : Locals where
  cmd := cmd
  a0 := a0
  a1 := a1
  n := Config.freeNat d
  v := BitVec.ofNat 32 (Config.freeNat (d + 1))
  w := BitVec.ofNat 32 (Config.freeNat (d + 2))
  p := Config.freeNat (d + 3) % npart
  st := statusOfNat (Config.freeNat (d + 4))
  base := Config.freeNat (d + 5)
  alen := Config.freeNat (d + 6)

/-- A write of `w` to CMDIF.CMD: the command starts (R25). -/
def startCommand (w : Word) (s : State) : State :=
  ((s.setCmdif { s.cmdif with cmd := w, busy := true }).setEngine
    (.run .start (freshLocals s.cfg.npart s.draws w s.cmdif.arg0 s.cmdif.arg1))).setDraws (s.draws + 7)

/-- STAT, RESULT and NOMFREQ are read-only (R23, R52). -/
def cmdReadOnly : CmdReg → Bool
  | .stat => true
  | .result => true
  | .nomfreq => true
  | .cmd => false
  | .arg0 => false
  | .arg1 => false

/-- A write to a CMDIF register. A write to a read-only register has no effect (R24, R25, R52). -/
def writeCmdif (r : CmdReg) (v : Word) (s : State) : State :=
  match r with
  | .cmd => startCommand v s
  | .arg0 => s.setCmdif { s.cmdif with arg0 := v }
  | .arg1 => s.setCmdif { s.cmdif with arg1 := v }
  | .stat => s
  | .result => s
  | .nomfreq => s

/-- A write to PROT_KEY: TRIM_OVR is stored, and the key automaton moves (R171). -/
def writeProtKey (v : Word) (s : State) : State :=
  (s.setCpm { s.cpm with protKey := merge (cpmRw s.cfg .protKey) s.cpm.protKey v }).setKey
    (keyNext s.keyState (field v s.cfg.layout.key 2) (getBit v s.cfg.layout.trimOvr))

/-- A protected write to HS_TRIM is admitted (R173). -/
def trimAdmitted (s : State) : Bool := decide (s.keyState = .unlocked) && s.trimOvr

/-- A write to HS_TRIM: stored, with HS_DISTURB set, when admitted; else ignored (R173). -/
def writeHsTrim (v : Word) (s : State) : State :=
  if trimAdmitted s then (s.setCpm { s.cpm with hsTrim := v }).setDisturb true else s

/-- A write to a CPM register: read-write fields are stored, the rest of the word is ignored (R37 to R42,
R52). A commit by `UPD` changes no modelled state (R201). -/
def writeCpm (r : CpmReg) (v : Word) (s : State) : State :=
  match r with
  | .protKey => writeProtKey v s
  | .hsTrim => writeHsTrim v s
  | .oscCs => s.setCpm (s.cpm.setWord .oscCs (merge (cpmRw s.cfg .oscCs) s.cpm.oscCs v))
  | .sysClk => s.setCpm (s.cpm.setWord .sysClk (merge (cpmRw s.cfg .sysClk) s.cpm.sysClk v))
  | .ipsDiv => s.setCpm (s.cpm.setWord .ipsDiv (merge (cpmRw s.cfg .ipsDiv) s.cpm.ipsDiv v))

/-- The word CMNT holds after a write of `v`: the way bits as written, GO set by a 1 (R46). -/
def cmntWritten (cfg : Config) (old v : Word) : Word :=
  merge (cacheRw cfg .cmnt) old v ||| (v &&& bit cfg.layout.go)

/-- The word CRSIZE holds after a write of `v`: LEN as written, STRT set by a 1; with EN = 0 the whole
write is ignored (R48). -/
def crsizeWritten (cfg : Config) (en : Bool) (old v : Word) : Word :=
  if en then merge (cacheRw cfg .crsize) old v ||| (v &&& bit cfg.layout.strt) else old

/-- The word a cache register holds after a write of `v`, with `CCR.EN` = `en` (R45 to R49). -/
def cacheWritten (cfg : Config) (en : Bool) (r : CacheReg) (old v : Word) : Word :=
  match r with
  | .cmnt => cmntWritten cfg old v
  | .crsize => crsizeWritten cfg en old v
  | .ccr => merge (cacheRw cfg .ccr) old v
  | .craddr => merge (cacheRw cfg .craddr) old v
  | .crgn0 => merge (cacheRw cfg .crgn0) old v
  | .crgn1 => merge (cacheRw cfg .crgn1) old v

/-- A write to a cache register (R45 to R49). -/
def writeCache (c : CacheId) (r : CacheReg) (v : Word) (s : State) : State :=
  s.setCache c ((s.cache c).setWord r (cacheWritten s.cfg (s.cacheEn c) r ((s.cache c).word r) v))

/-- The key automaton after a write to register `r`, as far as `KEYSEQ_STRICT` goes: a write to any
register but PROT_KEY breaks the sequence (R172). -/
def strictKey (r : Reg) (s : State) : State :=
  if s.cfg.keyseqStrict ∧ r ≠ .cpm .protKey then s.setKey (keyInterrupted s.keyState) else s

/-- A write of `v` to register `r` with all its side effects, by ENGINE or HOST (R78). Every write counts
for `KEYSEQ_STRICT`, one to a read-only register too (R52, R172). The one exception is a write to a read-only
register of CMDIF while BUSY is 1, which has no effect at all: it would make a TRIM's outcome depend on
`KEYSEQ_STRICT`, and R172 and R178 say that none does (DEDUCED, notes/assumptions/13.md). -/
def writeReg (r : Reg) (v : Word) (s : State) : State :=
  match r with
  | .cmdif q => if cmdReadOnly q && s.cmdif.busy then s else strictKey r (writeCmdif q v s)
  | .cpm q => strictKey r (writeCpm q v s)
  | .cache c q => strictKey r (writeCache c q v s)

/-! ## Engine access primitives (R130 to R135) -/

/-- The state after `RegRead(r)`; the value read is `readValue r s` (R130). -/
def regRead (r : Reg) (s : State) : State := (drawnBy r s).log (.read .engine r (readValue r s))

/-- `RegWrite(r, v)` (R134). -/
def regWrite (r : Reg) (v : Word) (s : State) : State := (writeReg r v s).log (.write .engine r v)

/-- `RegRMW(r, m, x)`: writes `(v & ~m) | (x & m)` in one step (R133). -/
def regRmw (r : Reg) (m x : Word) (s : State) : State :=
  (writeReg r (merge m (readValue r s) x) (drawnBy r s)).log
    (.modify .engine r (readValue r s) (merge m (readValue r s) x))

/-- `RegSet(r, m)`: writes `v | m` in one step (R131). -/
def regSet (r : Reg) (m : Word) (s : State) : State :=
  (writeReg r (readValue r s ||| m) (drawnBy r s)).log
    (.modify .engine r (readValue r s) (readValue r s ||| m))

/-- `RegClr(r, m)`: writes `v & ~m` in one step (R132). -/
def regClr (r : Reg) (m : Word) (s : State) : State :=
  (writeReg r (readValue r s &&& ~~~m) (drawnBy r s)).log
    (.modify .engine r (readValue r s) (readValue r s &&& ~~~m))

/-- The state after `MemRead(a, 4)`; the value read is `readWord s.otp a` (R75). -/
def memRead (a : Nat) (s : State) : State := s.log (.otp .engine a (readWord s.otp a))

/-! ## Control -/

/-- The engine moves to a position. -/
def goto (pos : Pos) (loc : Locals) (s : State) : State := s.setEngine (.run pos loc)

/-- `finish(st)` (R33): RES takes the status, BUSY clears, the engine goes idle. -/
def finish (st : Status) (s : State) : State :=
  (s.setCmdif { s.cmdif with res := st, busy := false }).setEngine .idle

/-- The locals as a poll's first read finds them: with a budget, `n` is the read count (R137). The assignment
is atomic with that read (R12). -/
def pollEntry (cfg : Config) (budget : Nat) (loc : Locals) : Locals :=
  if budget = 0 then loc else { loc with n := pollCount cfg budget }

/-- One read of `Poll(r, mask, target, budget)` at position `here` (R138). A match goes on to `next`; the
last read of a bounded poll goes on to `finish(TIMEOUT)`; budget 0 never runs out. It assigns `v` and `n`
alone (R139). -/
def pollRead (r : Reg) (mask target : Word) (budget : Nat) (here next : Pos) (loc : Locals)
    (s : State) : State :=
  let v := readValue r s
  if v &&& mask = target then goto next { loc with v := v } (regRead r s)
  else if budget = 0 then goto here { loc with v := v } (regRead r s)
  else if loc.n ≤ 1 then
    goto (.finishing .timeout) { loc with v := v, n := loc.n - 1 } (regRead r s)
  else goto here { loc with v := v, n := loc.n - 1 } (regRead r s)

/-- A word that decodes to no command: `finish(ERR)` at the command's first step, with no access (R111,
R112, R114). -/
def finishRejected (s : State) : State := finish .err s

end Sys2Proof.Machine
end

