-- ==== Sys2Proof/Machine/CacheConfig.lean ====
section
/-! DEFINITION. CEN, CRGN and CRGNALL (44_cache_config.md), and the sub-sequences `SetRegion` and `SetAll`
that CINIT shares. Each definition is one engine step (40_poller.md R135). -/

namespace Sys2Proof.Machine

/-! ## SetRegion and SetAll (R221, R229) -/

/-- The read of `SetRegion(r, p)` (R221). -/
def setRegionRead (c : CacheId) (r : Region) (loc : Locals) (s : State) : State :=
  goto (.setWrite r) { loc with v := readValue (.cache c (rgnReg s.cfg.layout r)) s }
    (regRead (.cache c (rgnReg s.cfg.layout r)) s)

/-- The write of `SetRegion(r, p)`, then on to `after` (R220, R221). -/
def setRegionWrite (c : CacheId) (r : Region) (p : Policy) (after : Pos) (loc : Locals)
    (s : State) : State :=
  goto after loc
    (regWrite (.cache c (rgnReg s.cfg.layout r)) (applyPolicy s.cfg.layout loc.v r p) s)

/-- Where `SetAll` goes on after region `r`: the next region, or `last` (R229). -/
def setAllAfter (r : Region) (last : Pos) : Pos :=
  match nextRegion r with
  | some r' => .setRead r'
  | none => last

/-! ## CEN (R222) -/

/-- `EN` set or cleared in one access. -/
def cacheEnWrite (c : CacheId) (en : Bool) (s : State) : State :=
  if en then regSet (.cache c .ccr) (bit s.cfg.layout.cacheEn) s
  else regClr (.cache c .ccr) (bit s.cfg.layout.cacheEn) s

/-- CEN, one step (R222, R223): `EN` is written, then `finish(OK)`. -/
def execCen (c : CacheId) (en : Bool) (s : State) : Host.Outcome State Fault Refusal :=
  match s.engine with
  | .idle => .refused .engineIdle
  | .run .start loc => .next (goto (.finishing .ok) loc (cacheEnWrite c en s))
  | .run (.finishing st) _ => .next (finish st s)
  | .run _ _ => .refused .strayPosition

/-! ## CRGN (R226) -/

/-- CRGN, one step (R226): an invalid region or policy code is `finish(ERR)` with no access (R224, R225);
else `SetRegion` and `finish(OK)`. -/
def execCrgn (c : CacheId) (region : BitVec 4) (policy : BitVec 2) (s : State) :
    Host.Outcome State Fault Refusal :=
  match s.engine, regionOfCode? region, policyOfCode? policy with
  | .idle, _, _ => .refused .engineIdle
  | .run .start loc, some r, some _ => .next (setRegionRead c r loc s)
  | .run .start _, _, _ => .next (finish .err s)
  | .run (.setWrite q) loc, some r, some p =>
    if q = r then .next (setRegionWrite c r p (.finishing .ok) loc s) else .refused .strayPosition
  | .run (.finishing st) _, some _, some _ => .next (finish st s)
  | .run _ _, _, _ => .refused .strayPosition

/-! ## CRGNALL (R229) -/

/-- CRGNALL, one step (R229, R230): an invalid policy set is `finish(ERR)` with no access; else the five
`SetRegion`s in region order and `finish(OK)`. -/
def execCrgnall (c : CacheId) (s : State) : Host.Outcome State Fault Refusal :=
  match s.engine with
  | .idle => .refused .engineIdle
  | .run .start loc =>
    if validSet loc.a0 then .next (setRegionRead c .boot loc s) else .next (finish .err s)
  | .run (.setRead r) loc => .next (setRegionRead c r loc s)
  | .run (.setWrite r) loc =>
    match setPolicy? loc.a0 r with
    | some p => .next (setRegionWrite c r p (setAllAfter r (.finishing .ok)) loc s)
    | none => .refused .strayPosition
  | .run (.finishing st) _ => .next (finish st s)
  | .run _ _ => .refused .strayPosition

end Sys2Proof.Machine
end

