-- ==== Sys2Proof/Machine/CacheMaint.lean ====
section
/-! DEFINITION. CINV, CINVR and CINIT (45_cache_maint.md). Each definition is one engine step
(40_poller.md R135). -/

namespace Sys2Proof.Machine

/-! ## GlobalInv (R241) -/

/-- `INV_W0_MASK | INV_W1_MASK | GO_MASK` (R241). -/
def globalInvMask (L : Layout) : Word := wayMask L ||| bit L.go

/-- The one write that starts every way. -/
def globalInvStart (c : CacheId) (loc : Locals) (s : State) : State :=
  goto .invPoll loc (regSet (.cache c .cmnt) (globalInvMask s.cfg.layout) s)

/-- One read of the unbounded poll until GO reads 0. -/
def globalInvPoll (c : CacheId) (next : Pos) (loc : Locals) (s : State) : State :=
  pollRead (.cache c .cmnt) (bit s.cfg.layout.go) 0#32 0 .invPoll next loc s

/-! ## CINV (R240) -/

/-- CINV, one step (R240, R242): `GlobalInv()`, then `finish(OK)`. -/
def execCinv (c : CacheId) (s : State) : Host.Outcome State Fault Refusal :=
  match s.engine with
  | .idle => .refused .engineIdle
  | .run .start loc => .next (globalInvStart c loc s)
  | .run .invPoll loc => .next (globalInvPoll c (.finishing .ok) loc s)
  | .run (.finishing st) _ => .next (finish st s)
  | .run _ _ => .refused .strayPosition

/-! ## CINVR (R243) -/

/-- Where CINVR goes on after the enable read: `finish(OK)` with the cache disabled (R245), `finish(ERR)`
with a length `LEN` cannot hold (R246), else the address write. -/
def rangeAfterCheck (cfg : Config) (ccr a0 a1 : Word) : Pos :=
  if getBit ccr cfg.layout.cacheEn = false then .finishing .ok
  else if 2 ^ cfg.lenWidth ≤ alignedLength cfg a0 a1 then .finishing .err
  else .rangeBase

/-- The enable read (R243). -/
def rangeCheck (c : CacheId) (loc : Locals) (s : State) : State :=
  goto (rangeAfterCheck s.cfg (readValue (.cache c .ccr) s) loc.a0 loc.a1)
    { loc with v := readValue (.cache c .ccr) s }
    (regRead (.cache c .ccr) s)

/-- The aligned range: `base` and `alen` (R243, R244). -/
def rangeAligned (cfg : Config) (loc : Locals) : Locals :=
  { loc with base := (alignBase cfg loc.a0).toNat, alen := alignedLength cfg loc.a0 loc.a1 }

/-- "aligned base to the address register", with which `base` and `alen` are assigned (R12). -/
def rangeWriteBase (c : CacheId) (loc : Locals) (s : State) : State :=
  goto .rangeSize (rangeAligned s.cfg loc)
    (regWrite (.cache c .craddr) (BitVec.ofNat 32 (rangeAligned s.cfg loc).base) s)

/-- "aligned length together with a start-invalidate bit". -/
def rangeWriteSize (c : CacheId) (loc : Locals) (s : State) : State :=
  goto .rangePoll loc (regWrite (.cache c .crsize)
    ((BitVec.ofNat 32 loc.alen <<< s.cfg.layout.len) ||| bit s.cfg.layout.strt) s)

/-- One read of the unbounded poll until STRT reads 0 (R249). -/
def rangePollRead (c : CacheId) (loc : Locals) (s : State) : State :=
  pollRead (.cache c .crsize) (bit s.cfg.layout.strt) 0#32 0 .rangePoll (.finishing .ok) loc s

/-- CINVR, one step (R243). -/
def execCinvr (c : CacheId) (s : State) : Host.Outcome State Fault Refusal :=
  match s.engine with
  | .idle => .refused .engineIdle
  | .run .start loc => .next (rangeCheck c loc s)
  | .run .rangeBase loc => .next (rangeWriteBase c loc s)
  | .run .rangeSize loc => .next (rangeWriteSize c loc s)
  | .run .rangePoll loc => .next (rangePollRead c loc s)
  | .run (.finishing st) _ => .next (finish st s)
  | .run _ _ => .refused .strayPosition

/-! ## CINIT (R250) -/

/-- CINIT, one step (R250, R251): an invalid policy set is `finish(ERR)` with no access; else disable,
`SetAll`, `GlobalInv`, enable, `finish(OK)`. -/
def execCinit (c : CacheId) (s : State) : Host.Outcome State Fault Refusal :=
  match s.engine with
  | .idle => .refused .engineIdle
  | .run .start loc =>
    if validSet loc.a0 then .next (goto (.setRead .boot) loc (cacheEnWrite c false s))
    else .next (finish .err s)
  | .run (.setRead r) loc => .next (setRegionRead c r loc s)
  | .run (.setWrite r) loc =>
    match setPolicy? loc.a0 r with
    | some p => .next (setRegionWrite c r p (setAllAfter r .invStart) loc s)
    | none => .refused .strayPosition
  | .run .invStart loc => .next (globalInvStart c loc s)
  | .run .invPoll loc => .next (globalInvPoll c .cacheEnable loc s)
  | .run .cacheEnable loc => .next (goto (.finishing .ok) loc (cacheEnWrite c true s))
  | .run (.finishing st) _ => .next (finish st s)
  | .run _ _ => .refused .strayPosition

end Sys2Proof.Machine
end

