-- ==== Sys2Proof/Machine/ClockAux.lean ====
section
/-! DEFINITION. IPSDIV and GETFREQ (43_clock_aux.md). Each definition is one engine step (40_poller.md
R135). -/

namespace Sys2Proof.Machine

/-! ## IPSDIV (R200) -/

/-- "enable the divider". -/
def ipsEnable (loc : Locals) (s : State) : State :=
  goto .ipsField loc (regSet (.cpm .ipsDiv) (bit s.cfg.layout.ipsEn) s)

/-- "write the field": `RegRMW(IPS_DIV, DIV_MASK, n << DIV_SHIFT)`. -/
def ipsWriteField (loc : Locals) (s : State) : State :=
  goto .ipsCommit loc (regRmw (.cpm .ipsDiv) (bits s.cfg.layout.div s.cfg.layout.divWidth)
    (loc.a0 <<< s.cfg.layout.div) s)

/-- "assert the commit/update bit" (R201). -/
def ipsAssertUpdate (loc : Locals) (s : State) : State :=
  goto (.finishing .ok) loc (regSet (.cpm .ipsDiv) (bit s.cfg.layout.upd) s)

/-- IPSDIV, one step (R200): a divider above `IPSDIV_MAX` is `finish(ERR)` with no access (R202); else
three writes of IPS_DIV and `finish(OK)`. -/
def execIpsdiv (s : State) : Host.Outcome State Fault Refusal :=
  match s.engine with
  | .idle => .refused .engineIdle
  | .run .start loc =>
    if s.cfg.ipsdivMax < loc.a0.toNat then .next (finish .err s) else .next (ipsEnable loc s)
  | .run .ipsField loc => .next (ipsWriteField loc s)
  | .run .ipsCommit loc => .next (ipsAssertUpdate loc s)
  | .run (.finishing st) _ => .next (finish st s)
  | .run _ _ => .refused .strayPosition

/-! ## GETFREQ (R205) -/

/-- The first read: the switch status. -/
def freqReadStatus (loc : Locals) (s : State) : State :=
  goto .freqDivider { loc with v := readValue (.cpm .sysClk) s } (regRead (.cpm .sysClk) s)

/-- The base frequency of the source a `SYS_CLK` word reports (R205, R207). -/
def freqBase (v : Word) (s : State) : Nat :=
  if getBit v s.cfg.layout.selStat then s.cmdif.nomfreq.toNat else s.cfg.lfiHz.toNat

/-- The base is chosen, atomically with the second read: the divider (R12, R205). -/
def freqReadDivider (loc : Locals) (s : State) : State :=
  goto .freqDone { loc with base := freqBase loc.v s, w := readValue (.cpm .sysClk) s }
    (regRead (.cpm .sysClk) s)

/-- The result the locals give (R205). -/
def freqResult (loc : Locals) (s : State) : Word :=
  effectiveHz loc.base (field loc.w s.cfg.layout.sysDiv s.cfg.sysdivWidth)

/-- GETFREQ, one step (R205): two reads of SYS_CLK, and a `finish(OK)` that writes RESULT (R206). -/
def execGetfreq (s : State) : Host.Outcome State Fault Refusal :=
  match s.engine with
  | .idle => .refused .engineIdle
  | .run .start loc => .next (freqReadStatus loc s)
  | .run .freqDivider loc => .next (freqReadDivider loc s)
  | .run .freqDone loc => .next (finish .ok (s.setResult (freqResult loc s)))
  | .run _ _ => .refused .strayPosition

end Sys2Proof.Machine
end

