-- ==== Sys2Proof/Machine/Clock.lean ====
section
/-! DEFINITION. The clock-source switch: the sub-sequence `Switch(s, b)` of 41_clock_switch.md R153, and
CLKSW (R155). Each definition is one engine step (40_poller.md R135). -/

namespace Sys2Proof.Machine

/-! ## Switch(s, b), shared by CLKSW and TRIM's safety switch (R153) -/

/-- Step 1: set the enable bit. ENABLING becomes visible with it (R152). -/
def switchEnable (src : Source) (loc : Locals) (s : State) : State :=
  goto .pollStableFirst loc
    ((regSet (.cpm .oscCs) (bit (enPos s.cfg.layout src)) s).setCsw .oscillatorEnabling)

/-- Step 2: one read of the stability poll. -/
def switchPollStable (src : Source) (budget : Nat) (loc : Locals) (s : State) : State :=
  pollRead (.cpm .oscCs) (bit (stablePos s.cfg.layout src)) (bit (stablePos s.cfg.layout src))
    budget .pollStable .select loc s

/-- The first of them, with the count (R12, R137). -/
def switchPollStableFirst (src : Source) (budget : Nat) (loc : Locals) (s : State) : State :=
  switchPollStable src budget (pollEntry s.cfg budget loc) s

/-- The status of a sub-sequence that succeeded, assigned with the access that follows it (R12). -/
def statusOk (loc : Locals) : Locals := { loc with st := .ok }

/-- Step 3: write the select field, with the first poll's status. OSCILLATOR_STABLE becomes visible with it
(R152). -/
def switchSelect (src : Source) (loc : Locals) (s : State) : State :=
  goto .pollSwitchFirst (statusOk loc)
    ((regRmw (.cpm .sysClk) (bit s.cfg.layout.sel) (flag s.cfg.layout.sel (sourceBit src)) s).setCsw
      .oscillatorStable)

/-- Step 4: one read of the switch-status poll. SWITCHING is visible with the first (R152). -/
def switchPollStatus (src : Source) (budget : Nat) (loc : Locals) (s : State) : State :=
  (pollRead (.cpm .sysClk) (bit s.cfg.layout.selStat) (flag s.cfg.layout.selStat (sourceBit src))
    budget .pollSwitch .switched loc s).setCsw .switching

/-- The first of them, with the count, which starts afresh (R12, R137, R158). -/
def switchPollStatusFirst (src : Source) (budget : Nat) (loc : Locals) (s : State) : State :=
  switchPollStatus src budget (pollEntry s.cfg budget loc) s

/-! ## CLKSW -/

/-- CLKSW, one step (R155): an unsupported source is `finish(ERR)` (R151); else `Switch(s, a0)` and
`finish`, with SWITCHED visible at the final `finish(OK)` (R152). -/
def execClksw (src : BitVec 4) (s : State) : Host.Outcome State Fault Refusal :=
  match s.engine, sourceOfCode? src with
  | .idle, _ => .refused .engineIdle
  | .run .start _, none => .next (finish .err s)
  | .run _ _, none => .refused .strayPosition
  | .run .start loc, some k => .next (switchEnable k loc s)
  | .run .pollStableFirst loc, some k => .next (switchPollStableFirst k loc.a0.toNat loc s)
  | .run .pollStable loc, some k => .next (switchPollStable k loc.a0.toNat loc s)
  | .run .select loc, some k => .next (switchSelect k loc s)
  | .run .pollSwitchFirst loc, some k => .next (switchPollStatusFirst k loc.a0.toNat loc s)
  | .run .pollSwitch loc, some k => .next (switchPollStatus k loc.a0.toNat loc s)
  | .run .switched _, some _ => .next (finish .ok (s.setCsw .switched))
  | .run (.finishing st) _, some _ => .next (finish st s)
  | .run _ _, some _ => .refused .strayPosition

end Sys2Proof.Machine
end

