-- ==== Sys2Proof/Machine/Trim.lean ====
section
/-! DEFINITION. The OTP trim selector, the unlock and lock sub-sequences, and TRIM (42_trim.md R174 to
R192). Each definition is one engine step (40_poller.md R135). -/

namespace Sys2Proof.Machine

/-- The safety switch's budget (R184). -/
def trimBudget (s : State) : Nat := s.cfg.trimSwitchTimeoutMs

/-- The partition `SelectPartition` reads first: the highest (R181). -/
def firstPart (cfg : Config) : Nat := cfg.npart - 1

/-- One validity read of `SelectPartition` for partition `i`: a match chooses `i`; with partitions left
the next lower one is read, and after partition 0 the default is chosen (R181). -/
def trimValidity (i : Nat) (loc : Locals) (s : State) : State :=
  let w := readWord s.otp (otpValidAddr s.cfg i)
  let s' := memRead (otpValidAddr s.cfg i) s
  if w = s.cfg.otpValidSig then goto (.otpKey i) { loc with w := w } s'
  else match i with
    | 0 => goto (.otpKey s.cfg.defaultPart) { loc with w := w } s'
    | j + 1 => goto (.otpValid j) { loc with w := w } s'

/-- The enable-key read of the chosen partition, with which `p` is assigned (R12); a key that is not the
expected one goes on to `finish(ERR)` (R182, R186). -/
def trimKey (i : Nat) (loc : Locals) (s : State) : State :=
  let w := readWord s.otp (otpKeyAddr s.cfg i)
  goto (if w = s.cfg.otpKeyExpected then .otpValue else .finishing .err) { loc with w := w, p := i }
    (memRead (otpKeyAddr s.cfg i) s)

/-- The calibration-value read (R183). -/
def trimValue (loc : Locals) (s : State) : State :=
  goto .unlock00 { loc with v := readWord s.otp (otpValueAddr s.cfg loc.p) }
    (memRead (otpValueAddr s.cfg loc.p) s)

/-- The secondary record's read; a top byte that is not the tag goes on to `finish(ERR)` (R188). -/
def trimSecondary (loc : Locals) (s : State) : State :=
  let w := readWord s.otp s.cfg.otpSecAddr
  goto (if w.extractLsb' 24 8 = s.cfg.otpSecTag then .unlock00 else .finishing .err) { loc with w := w }
    (memRead s.cfg.otpSecAddr s)

/-- A key write of `Unlock` or `Lock`: `RegRMW(PROT_KEY, KEY_MASK, k)` (R174, R175). -/
def keyWrite (k : Word) (s : State) : State :=
  regRmw (.cpm .protKey) (bits s.cfg.layout.key 2) (k <<< s.cfg.layout.key) s

/-- The last unlock write: key 11 with the override bit (R174). -/
def keyWriteOverride (s : State) : State :=
  regRmw (.cpm .protKey) (bits s.cfg.layout.key 2 ||| bit s.cfg.layout.trimOvr)
    ((3#32 <<< s.cfg.layout.key) ||| bit s.cfg.layout.trimOvr) s

/-- The value the protected write takes: the calibration value, or the secondary word as read (R183,
R187). -/
def trimWord (t : Target) (loc : Locals) : Word :=
  match t with
  | .primary => loc.v
  | .secondary => loc.w

/-- The nominal frequency of a target (R185, R187). -/
def targetHz (cfg : Config) : Target → Word
  | .primary => cfg.fPrimaryHz
  | .secondary => cfg.fSecondaryHz

/-- TRIM, one step (R183): an unrecognized target is `finish(ERR)` with no access (R189); else the safety
switch to LFI (R184), the OTP selection, unlock, protected write, lock, and a `finish(OK)` that writes
NOMFREQ (R185, R187, R192). -/
def execTrim (t : BitVec 4) (s : State) : Host.Outcome State Fault Refusal :=
  match s.engine, targetOfCode? t with
  | .idle, _ => .refused .engineIdle
  | .run .start _, none => .next (finish .err s)
  | .run _ _, none => .refused .strayPosition
  | .run .start loc, some _ => .next (switchEnable .lfi loc s)
  | .run .pollStableFirst loc, some _ => .next (switchPollStableFirst .lfi (trimBudget s) loc s)
  | .run .pollStable loc, some _ => .next (switchPollStable .lfi (trimBudget s) loc s)
  | .run .select loc, some _ => .next (switchSelect .lfi loc s)
  | .run .pollSwitchFirst loc, some _ => .next (switchPollStatusFirst .lfi (trimBudget s) loc s)
  | .run .pollSwitch loc, some _ => .next (switchPollStatus .lfi (trimBudget s) loc s)
  | .run .switched loc, some .primary =>
    .next ((trimValidity (firstPart s.cfg) (statusOk loc) s).setCsw .switched)
  | .run .switched loc, some .secondary =>
    .next ((trimSecondary (statusOk loc) s).setCsw .switched)
  | .run (.otpValid i) loc, some .primary => .next (trimValidity i loc s)
  | .run (.otpKey i) loc, some .primary => .next (trimKey i loc s)
  | .run .otpValue loc, some .primary => .next (trimValue loc s)
  | .run .unlock00 loc, some _ => .next (goto .unlock01 loc (keyWrite 0#32 s))
  | .run .unlock01 loc, some _ => .next (goto .unlock10 loc (keyWrite 1#32 s))
  | .run .unlock10 loc, some _ => .next (goto .unlock11 loc (keyWrite 2#32 s))
  | .run .unlock11 loc, some _ => .next (goto .trimWrite loc (keyWriteOverride s))
  | .run .trimWrite loc, some k => .next (goto .lock loc (regWrite (.cpm .hsTrim) (trimWord k loc) s))
  | .run .lock loc, some _ => .next (goto .trimDone loc (keyWrite 0#32 s))
  | .run .trimDone _, some k => .next (finish .ok (s.setNomfreq (targetHz s.cfg k)))
  | .run (.finishing st) _, some _ => .next (finish st s)
  | .run _ _, some _ => .refused .strayPosition

end Sys2Proof.Machine
end

