-- ==== Sys2Proof/Machine/Dispatch.lean ====
section
/-! DEFINITION. One engine step of the running command, by command (10_state.md R31): one arm per
constructor of `Instr`, each a direct call of that command's meaning. -/

namespace Sys2Proof.Machine

def exec (i : Instr) (s : State) : Host.Outcome State Fault Refusal :=
  match i with
  | .clksw src => Sys2Proof.Machine.execClksw src s
  | .trim target => Sys2Proof.Machine.execTrim target s
  | .ipsdiv => Sys2Proof.Machine.execIpsdiv s
  | .getfreq => Sys2Proof.Machine.execGetfreq s
  | .cen c en => Sys2Proof.Machine.execCen c en s
  | .crgn c region policy => Sys2Proof.Machine.execCrgn c region policy s
  | .crgnall c => Sys2Proof.Machine.execCrgnall c s
  | .cinv c => Sys2Proof.Machine.execCinv c s
  | .cinvr c => Sys2Proof.Machine.execCinvr c s
  | .cinit c => Sys2Proof.Machine.execCinit c s

end Sys2Proof.Machine
end

