-- ==== Sys2Proof/Machine/Env.lean ====
section
/-! DEFINITION. The autonomous behaviour of the silicon: the ENV rules of 70_reset_and_hazards.md R315 to
R323, what invalidation removes (20_memory.md R84), and the schedules of R324. -/

namespace Sys2Proof.Machine

/-! ## Resident lines (R53) -/

/-- A line address: a multiple of `LINE` (R53). -/
def lineAligned (cfg : Config) (a : Word) : Bool := decide (a.toNat % cfg.line = 0)

/-- A set of lines in canonical form: strictly rising multiples of `LINE`. -/
def linesWf (cfg : Config) (ls : List Word) : Bool :=
  decide (ls.Pairwise fun x y => x.toNat < y.toNat) && ls.all (lineAligned cfg)

/-- A line added to a set. -/
def insertLine (a : Word) : List Word → List Word
  | [] => [a]
  | x :: rest =>
    if a.toNat < x.toNat then a :: x :: rest
    else if a = x then x :: rest
    else x :: insertLine a rest

/-- The lines a range invalidation leaves: `{ a : ((a - B) mod 2^32) >= L }` (R84). -/
def outsideRange (B : Word) (L : Nat) (ls : List Word) : List Word :=
  ls.filter fun a => decide (L ≤ (a - B).toNat)

/-! ## ENV rules -/

/-- The rule is enabled (R316 to R323). -/
def envEnabled (e : EnvEvent) (s : State) : Bool :=
  match e with
  | .stabilise src => s.oscEn src && !s.oscStable src
  | .disturb => s.hsDisturb
  | .oscStop src => !s.oscEn src && s.oscStable src
  | .switchTakes => decide (s.selStat ≠ s.sel) && s.oscStable s.sel
  | .globalDone c _ => s.go c
  | .rangeDone c => s.strt c
  | .fill c w a => s.cacheEn c && decide (w < s.cfg.nways) && lineAligned s.cfg a

/-- `STABLE[src] <- b`. -/
def setStable (src : Source) (b : Bool) (s : State) : State :=
  s.setCpm { s.cpm with oscCs := putBit s.cpm.oscCs (stablePos s.cfg.layout src) b }

/-- `SEL_STAT <- src`. -/
def setSelStat (src : Source) (s : State) : State :=
  s.setCpm { s.cpm with sysClk := putBit s.cpm.sysClk s.cfg.layout.selStat (sourceBit src) }

/-- A global invalidation completes (R84, R320): each way whose bit is set empties, GO clears, and the way
bits take their values from `v`. -/
def globalComplete (c : CacheId) (v : Word) (s : State) : State :=
  let x := s.cache c
  let L := s.cfg.layout
  s.setCache c { x with
    lines := x.lines.mapIdx fun w ls => if s.invWay c w then [] else ls
    cmnt := merge (wayMask L) (putBit x.cmnt L.go false) v }

/-- A range invalidation completes (R84, R321): the lines of the range leave every way and STRT clears. -/
def rangeComplete (c : CacheId) (s : State) : State :=
  let x := s.cache c
  s.setCache c { x with
    lines := x.lines.map (outsideRange x.craddr (s.rangeLen c))
    crsize := putBit x.crsize s.cfg.layout.strt false }

/-- A fill adds a line to a way (R323). -/
def fillLine (c : CacheId) (w : Nat) (a : Word) (s : State) : State :=
  s.setCache c ((s.cache c).setLines w (insertLine a (s.lines c w)))

/-- What an enabled rule does (R316 to R323). -/
def envEffect (e : EnvEvent) (s : State) : State :=
  match e with
  | .stabilise src => setStable src true s
  | .disturb => (setStable .hsosc false s).setDisturb false
  | .oscStop src => setStable src false s
  | .switchTakes => setSelStat s.sel s
  | .globalDone c v => globalComplete c v s
  | .rangeDone c => rangeComplete c s
  | .fill c w a => fillLine c w a s

/-- One ENV step (R315), recorded in TRACE (R58). A rule that is not enabled does not fire: nothing
happens and nothing is recorded (notes/assumptions/2.md). -/
def envStep (e : EnvEvent) (s : State) : State :=
  if envEnabled e s then (envEffect e s).log (.env e) else s

/-! ## The schedules of the test vectors (R324) -/

/-- Maintenance completion of one instance, eagerly: R320, with the way bits left as written, and R321
(R324). That R320 fires before R321 is the model's DESIGN CHOICE (notes/assumptions/20.md). -/
def eagerMaint (c : CacheId) (s : State) : State :=
  envStep (.rangeDone c) (envStep (.globalDone c (s.cache c).cmnt) s)

/-- The ENV steps the eager schedule takes after an ENGINE or HOST step: R316, then R319, then R320 and
R321 (R324). The spec fixes R316 before R319 and no other order: LFI before HSOSC, R319 before R320 and
R321, and instance I before instance D are the model's DESIGN CHOICE, seen only in the order of TRACE
(notes/assumptions/20.md). -/
def eagerEnv (s : State) : State :=
  eagerMaint .dcache (eagerMaint .icache
    (envStep .switchTakes (envStep (.stabilise .hsosc) (envStep (.stabilise .lfi) s))))

/-- The ENV steps the stalled schedule takes: R320 and R321 only (R324), instance I before instance D by
the model's DESIGN CHOICE (notes/assumptions/20.md). -/
def stalledEnv (s : State) : State := eagerMaint .dcache (eagerMaint .icache s)

end Sys2Proof.Machine
end

