-- ==== Sys2Proof/Machine/HostPort.lean ====
section
/-! DEFINITION. Host accesses: where an address lies (20_memory.md R70 to R73, R80), the host faults
(60_exceptions.md R276), and what an access does. -/

namespace Sys2Proof.Machine

/-- The address of an access. -/
def accessAddr : HostAccess → Word
  | .read a _ => a
  | .write a _ _ => a

/-- The width of an access, in bits. -/
def accessWidth : HostAccess → Nat
  | .read _ w => w
  | .write _ w _ => w

/-- The address lies in the block's span (R70). -/
def inBlock (cfg : Config) (a : Word) (b : Block) : Bool :=
  decide (blockBase cfg b ≤ a.toNat) && decide (a.toNat < blockBase cfg b + blockSpan)

/-- The block an address lies in (R70, R71). -/
def blockOf? (cfg : Config) (a : Word) : Option Block := allBlocks.find? (inBlock cfg a)

/-- The register at an offset, in a list of mapped offsets. -/
def atOffset? {α : Type} (os : List (Nat × α)) (o : Nat) : Option α :=
  (os.find? fun p => p.1 = o).map Prod.snd

/-- The register mapped at an offset of a block; other offsets are unmapped (R52, R80). -/
def regAt? (L : Layout) (b : Block) (o : Nat) : Option Reg :=
  match b with
  | .cmdif => (atOffset? (cmdOffsets L) o).map .cmdif
  | .cpm => (atOffset? (cpmOffsets L) o).map .cpm
  | .cache c => (atOffset? (cacheOffsets L) o).map (.cache c)

/-- The register an aligned 32-bit access to an address of block `b` reaches. -/
def regOfAddr? (cfg : Config) (b : Block) (a : Word) : Option Reg :=
  regAt? cfg.layout b (a.toNat - blockBase cfg b)

/-- The register is one of `CMNT`, `CRADDR`, `CRSIZE` of an instance with maintenance in flight. -/
def maintHeld (r : Reg) (s : State) : Bool :=
  match r with
  | .cache c .cmnt => s.inFlight c
  | .cache c .craddr => s.inFlight c
  | .cache c .crsize => s.inFlight c
  | _ => false

/-- The protocol fault a write to a mapped register raises, if any: items 1 to 4 of R276, in that order. -/
def writeFault? (r : Reg) (s : State) : Option HostFault :=
  match r with
  | .cmdif .cmd =>
    if s.cmdif.busy then some .cmdifWhileBusy
    else if s.inFlight .icache || s.inFlight .dcache then some .cmdWhileInFlight
    else none
  | .cmdif .arg0 => if s.cmdif.busy then some .cmdifWhileBusy else none
  | .cmdif .arg1 => if s.cmdif.busy then some .cmdifWhileBusy else none
  | .cmdif .stat => none
  | .cmdif .result => none
  | .cmdif .nomfreq => none
  | .cpm _ => if s.cmdif.busy then some .blockWhileBusy else none
  | .cache c q =>
    if s.cmdif.busy then some .blockWhileBusy
    else if maintHeld (.cache c q) s then some .maintWhileInFlight
    else none

/-- A host read of a mapped register: the value goes to the host, as TRACE records it (R58, R77). -/
def hostRead (r : Reg) (s : State) : State := (drawnBy r s).log (.read .host r (readValue r s))

/-- A host write of a mapped register (R58, R77). -/
def hostWrite (r : Reg) (v : Word) (s : State) : State := (writeReg r v s).log (.write .host r v)

/-- A 32-bit aligned access to a mapped register. -/
def hostAccess (a : HostAccess) (r : Reg) (s : State) : Host.Outcome State Fault Refusal :=
  match a with
  | .read _ _ => .next (hostRead r s)
  | .write _ _ v =>
    match writeFault? r s with
    | some why => .fault (.host why a)
    | none => .next (hostWrite r v s)

/-- One HOST step: an access outside the four blocks is refused (R71); a wrong width, a misaligned address
and an unmapped offset are host faults (R276 items 5 to 7); else the access is made. -/
def hostStep (a : HostAccess) (s : State) : Host.Outcome State Fault Refusal :=
  match blockOf? s.cfg (accessAddr a) with
  | none => .refused (.outsideBlocks a)
  | some b =>
    if accessWidth a ≠ 32 then .fault (.host .width a)
    else if (accessAddr a).toNat % 4 ≠ 0 then .fault (.host .misaligned a)
    else match regOfAddr? s.cfg b (accessAddr a) with
      | none => .fault (.host .unmapped a)
      | some r => hostAccess a r s

end Sys2Proof.Machine
end

