-- ==== Sys2Proof/Machine/Engine.lean ====
section
/-! DEFINITION. One move of each agent, and which agent moves next (00_scope.md R15). -/

namespace Sys2Proof.Machine

/-- A word that no command decodes: `finish(ERR)` at the first step (R111, R112, R114). -/
def rejectedStep (pos : Pos) (s : State) : Host.Outcome State Fault Refusal :=
  match pos with
  | .start => .next (finishRejected s)
  | _ => .refused .strayPosition

/-- One ENGINE step: the latched word is decoded and its command moves by one access or finish step (R31,
R135). An idle engine does not step. -/
def engineStep (s : State) : Host.Outcome State Fault Refusal :=
  match s.engine with
  | .idle => .next s
  | .run pos loc =>
    match decode loc.cmd with
    | .ok i => exec i s
    | .error _ => rejectedStep pos s

/-- One agent's move (R15). -/
def perform (e : Event) (s : State) : Host.Outcome State Fault Refusal :=
  match e with
  | .engine => engineStep s
  | .host a => hostStep a s
  | .env e => .next (envStep e s)

/-- The next move: the agenda's first, and past its end a free choice (R15; notes/assumptions/2.md). -/
def nextEvent (s : State) : Event :=
  match s.agenda with
  | [] => Config.freeEvent s.draws
  | e :: _ => e

/-- The state with that move taken off. -/
def popEvent (s : State) : State :=
  match s.agenda with
  | [] => { s with draws := s.draws + 1 }
  | _ :: rest => { s with agenda := rest }

/-- One step in a well-formed configuration. An ill-formed one is refused (R73, I18). -/
def stepOnce (s : State) : Host.Outcome State Fault Refusal :=
  if configWf s.cfg then perform (nextEvent s) (popEvent s) else .refused .illFormedConfig

/-- `s` right after a host write of the command word `w` to CMDIF.CMD (R25), with the engine to move next:
the command is started and latched with ARG0 and ARG1 as they stand (notes/assumptions/11.md). -/
def commandStarted (w : Word) (s : State) : State :=
  { startCommand w s with agenda := .engine :: s.agenda }

end Sys2Proof.Machine
end

