-- ==== Sys2Proof/Machine/Step.lean ====
section
/-! DEFINITION. The step of the machine: one move of one agent (00_scope.md R15, 20_memory.md R82). -/

namespace Sys2Proof.Machine

/-- One step: the next agent moves once. -/
def step : State → Host.Outcome State Fault Refusal := stepOnce

/-- The state whose very next step is the first engine step of the command in the low `nbits` bits of `w`
(30_encoding.md R115: a command is one word; the bits above are 0). It is the state right after a host
write of that word to CMDIF.CMD (R25). -/
def State.withFetchWord (s : State) (nbits w : Nat) : State :=
  commandStarted (BitVec.ofNat 32 (w % 2 ^ nbits)) s

end Sys2Proof.Machine
end

