-- ==== Sys2Proof/Machine/Reset.lean ====
section
/-! DEFINITION. Every reset state of 70_reset_and_hazards.md R302: the fields that 10_state.md R60 and R61
give as "any value" are drawn independently, in any configuration, with any OTP image and any inputs to
come. -/

namespace Sys2Proof.Machine

/-- The draws of one cache instance. A word's bits that are not drawn fields are ignored. -/
structure CacheDraw where
  ccr : Word
  cmnt : Word
  craddr : Word
  crsize : Word
  crgn0 : Word
  crgn1 : Word
  lines : List (List Word)
deriving DecidableEq, Repr

/-- One draw of every field that reset leaves open. -/
structure ResetDraw where
  oscCs : Word
  sysClk : Word
  ipsDiv : Word
  protKey : Word
  hsTrim : Word
  icache : CacheDraw
  dcache : CacheDraw
deriving DecidableEq, Repr

/-- The set of the line addresses in a list, in canonical form. -/
def lineSet (cfg : Config) (ls : List Word) : List Word :=
  (ls.filter (lineAligned cfg)).foldr insertLine []

/-- A cache instance at reset: every field as drawn but GO = STRT = 0 (R61). -/
def cacheDrawn (cfg : Config) (d : CacheDraw) : Cache where
  ccr := d.ccr &&& cacheRw cfg .ccr
  cmnt := d.cmnt &&& cacheRw cfg .cmnt
  craddr := d.craddr &&& cacheRw cfg .craddr
  crsize := d.crsize &&& cacheRw cfg .crsize
  crgn0 := d.crgn0 &&& cacheRw cfg .crgn0
  crgn1 := d.crgn1 &&& cacheRw cfg .crgn1
  lines := (List.range cfg.nways).map fun w => lineSet cfg (d.lines.getD w [])

/-- CPM at reset: every field as drawn (R60). -/
def cpmDrawn (cfg : Config) (d : ResetDraw) : Cpm where
  oscCs := d.oscCs &&& cpmImpl cfg .oscCs
  sysClk := d.sysClk &&& cpmImpl cfg .sysClk
  ipsDiv := d.ipsDiv &&& cpmImpl cfg .ipsDiv
  protKey := d.protKey &&& cpmImpl cfg .protKey
  hsTrim := d.hsTrim &&& cpmImpl cfg .hsTrim

/-- The reset state for a configuration, an OTP image, a draw and the inputs to come (R59 to R62, R302). -/
def resetWith (cfg : Config) (otp : Memory) (d : ResetDraw) (agenda : List Event) : State where
  cfg := cfg
  otp := otp
  cmdif := Cmdif.reset cfg
  engine := .idle
  cpm := cpmDrawn cfg d
  icache := cacheDrawn cfg d.icache
  dcache := cacheDrawn cfg d.dcache
  keyState := .locked
  hsDisturb := false
  trace := []
  agenda := agenda
  draws := 0

/-- The draw of `State.reset`: all 0 (notes/assumptions/1.md). -/
def CacheDraw.zero : CacheDraw := ⟨0#32, 0#32, 0#32, 0#32, 0#32, 0#32, []⟩

/-- The draw of `State.reset`: all 0 (notes/assumptions/1.md). -/
def ResetDraw.zero : ResetDraw := ⟨0#32, 0#32, 0#32, 0#32, 0#32, CacheDraw.zero, CacheDraw.zero⟩

end Sys2Proof.Machine
end

