-- ==== Sys2Proof/Safety.lean ====
section
/-! DEFINITION. The terms claims are made in: sequences of moves, runs, the invariants of a run, the
progress of a command, and the fairness of 70_reset_and_hazards.md R322. -/

namespace Sys2Proof.Machine

/-! ## Sequences of moves -/

/-- The moves of a list, in order, in one state after another. -/
def performAll : List Event → State → Host.Outcome State Fault Refusal
  | [], s => .next s
  | e :: rest, s =>
    match perform e s with
    | .next t => performAll rest t
    | .fault f => .fault f
    | .refused r => .refused r

/-- `k` engine steps of command `i` with no other agent between them. -/
def execTimes : Nat → Instr → State → Host.Outcome State Fault Refusal
  | 0, _, s => .next s
  | k + 1, i, s =>
    match exec i s with
    | .next t => execTimes k i t
    | .fault f => .fault f
    | .refused r => .refused r

/-- `t` is reached from `s` by steps of the machine, whatever moves are made. -/
inductive Steps : State → State → Prop where
  | refl (s : State) : Steps s s
  | tail {s t u : State} (h : Steps s t) (hu : step t = .next u) : Steps s u

/-- A state a run reaches from some reset state (R302) of a well-formed configuration. -/
def Reachable (s : State) : Prop :=
  ∃ cfg otp d agenda, configWf cfg = true ∧ memoryWf otp = true ∧
    Steps (resetWith cfg otp d agenda) s

/-! ## The running command -/

/-- The engine runs command `i` at position `pos` with locals `loc` (R31). -/
def Runs (i : Instr) (pos : Pos) (loc : Locals) (s : State) : Prop :=
  s.engine = .run pos loc ∧ decode loc.cmd = .ok i

/-- The positions of the switch sub-sequence (R153). -/
def switchPos (pos : Pos) : Bool :=
  pos ∈ [.start, .pollStableFirst, .pollStable, .select, .pollSwitchFirst, .pollSwitch, .switched,
    .finishing .timeout]

/-- The positions of TRIM after the switch that both targets have (R183). -/
def unlockPos (pos : Pos) : Bool :=
  pos ∈ [.unlock00, .unlock01, .unlock10, .unlock11, .trimWrite, .lock, .trimDone, .finishing .err]

/-- The positions of the partition selection and the reads after it (R181 to R183): the validity reads
after the first, the key read and the value read. -/
def otpPos (cfg : Config) : Pos → Bool
  | .otpValid i => decide (i < firstPart cfg)
  | .otpKey i => decide (i ≤ firstPart cfg ∨ i = cfg.defaultPart)
  | .otpValue => true
  | _ => false

/-- The positions of `SetAll` (R229). -/
def setAllPos : Pos → Bool
  | .setRead _ => true
  | .setWrite _ => true
  | _ => false

/-- The positions of a command's micro-sequence, given its first argument (R31). -/
def legalPos (cfg : Config) (i : Instr) (a0 : Word) (pos : Pos) : Bool :=
  match i with
  | .clksw src => pos = .start || ((sourceOfCode? src).isSome && switchPos pos)
  | .trim t =>
    pos = .start || ((targetOfCode? t).isSome && (switchPos pos || unlockPos pos)) ||
      (targetOfCode? t = some .primary && otpPos cfg pos)
  | .ipsdiv => pos ∈ [.start, .ipsField, .ipsCommit, .finishing .ok]
  | .getfreq => pos ∈ [.start, .freqDivider, .freqDone]
  | .cen _ _ => pos ∈ [.start, .finishing .ok]
  | .crgn _ r p =>
    pos = .start || ((regionOfCode? r).isSome && (policyOfCode? p).isSome &&
      (pos = .finishing .ok || (regionOfCode? r).map Pos.setWrite = some pos))
  | .crgnall _ => pos = .start || (validSet a0 && (setAllPos pos || pos = .finishing .ok))
  | .cinv _ => pos ∈ [.start, .invPoll, .finishing .ok]
  | .cinvr _ => pos ∈ [.start, .rangeBase, .rangeSize, .rangePoll, .finishing .ok, .finishing .err]
  | .cinit _ =>
    pos = .start || (validSet a0 &&
      (setAllPos pos || pos ∈ [.invStart, .invPoll, .cacheEnable, .finishing .ok]))

/-- The instance whose GO a command polls at a position (R241). -/
def waitsGo (i : Instr) (pos : Pos) : Option CacheId :=
  match i, pos with
  | .cinv c, .invPoll => some c
  | .cinit c, .invPoll => some c
  | _, _ => none

/-- The instance whose STRT a command polls at a position (R243). -/
def waitsStrt (i : Instr) (pos : Pos) : Option CacheId :=
  match i, pos with
  | .cinvr c, .rangePoll => some c
  | _, _ => none

/-! ## Invariants of a run -/

/-- BUSY is 1 exactly while the engine runs (R26). -/
def busyOk (s : State) : Prop := s.cmdif.busy = true ↔ s.engine ≠ .idle

/-- The latched words are the ones CMDIF still holds (R24, R25). -/
def latchedOk (s : State) : Prop :=
  ∀ pos loc, s.engine = .run pos loc →
    loc.cmd = s.cmdif.cmd ∧ loc.a0 = s.cmdif.arg0 ∧ loc.a1 = s.cmdif.arg1

/-- The position is one of the latched command's (R31). -/
def posOk (s : State) : Prop :=
  (∀ i pos loc, Runs i pos loc s → legalPos s.cfg i loc.a0 pos = true) ∧
  (∀ e pos loc, s.engine = .run pos loc → decode loc.cmd = .error e → pos = .start)

/-- RES never holds the reserved code BUSY (R290). -/
def resOk (s : State) : Prop := s.cmdif.res ≠ .busy

/-- Reserved bits of every stored register are 0 (R52). -/
def regsOk (s : State) : Prop :=
  (∀ r, s.cpm.word r &&& ~~~cpmImpl s.cfg r = 0#32) ∧
  (∀ c r, (s.cache c).word r &&& ~~~cacheImpl s.cfg r = 0#32)

/-- While the engine runs, a go-bit is set only where the command polls it (R55, R276 item 4). -/
def flightOk (s : State) : Prop :=
  ∀ pos loc c, s.engine = .run pos loc →
    (s.go c = true → ∃ i, decode loc.cmd = .ok i ∧ waitsGo i pos = some c) ∧
    (s.strt c = true → ∃ i, decode loc.cmd = .ok i ∧ waitsStrt i pos = some c)

/-- There is one residency set per way, and each is a set of line addresses in canonical form (R53). -/
def residencyOk (s : State) : Prop :=
  (∀ c, (s.cache c).lines.length = s.cfg.nways) ∧ ∀ c w, linesWf s.cfg (s.lines c w) = true

/-- What every run keeps. -/
structure RunInv (s : State) : Prop where
  config : configWf s.cfg = true
  otp : memoryWf s.otp = true
  busy : busyOk s
  latched : latchedOk s
  pos : posOk s
  res : resOk s
  regs : regsOk s
  flight : flightOk s
  residency : residencyOk s

/-! ## What CINIT guarantees (R252) -/

/-- Region `r` has had its `SetRegion` write when CINIT is at the position. -/
def regionSet (pos : Pos) (r : Region) : Bool :=
  match pos with
  | .start => false
  | .setRead q => decide (regionIndex r < regionIndex q)
  | .setWrite q => decide (regionIndex r < regionIndex q)
  | _ => true

/-- Every slot pair of region `r` of instance `c` holds the pair of policy `p` (R51, R227). -/
def holdsPolicy (s : State) (c : CacheId) (r : Region) (p : Policy) : Prop :=
  ∀ q ∈ s.slotPairs c r, q = policyPair p

/-- Every way of instance `c` is empty. -/
def waysEmpty (c : CacheId) (s : State) : Prop := ∀ w, s.lines c w = []

/-- How far a running CINIT of instance `c` has come (R250, R252): past its first step the cache is
disabled until the enable write; the regions before its position hold the policy set; the read half of a
`SetRegion` holds the register; a pending invalidation covers every way; and once it is over every way is
empty. -/
def cinitProgress (c : CacheId) (s : State) : Prop :=
  ∀ pos loc, Runs (.cinit c) pos loc s → pos ≠ .start → pos ≠ .finishing .ok →
    s.cacheEn c = false ∧
    (∀ r p, regionSet pos r = true → setPolicy? loc.a0 r = some p → holdsPolicy s c r p) ∧
    (∀ r, pos = .setWrite r → loc.v = (s.cache c).word (rgnReg s.cfg.layout r)) ∧
    (pos = .invPoll → s.go c = true → ∀ w, w < s.cfg.nways → s.invWay c w = true) ∧
    ((pos = .invPoll ∧ s.go c = false) ∨ pos = .cacheEnable →
      waysEmpty c s)

/-! ## What TRIM guarantees (R178, R185, R187) -/

/-- The highest partition below `n` whose validity word is the signature, else the default (R181). -/
def selectedPart (cfg : Config) (otp : Memory) : Nat → Nat
  | 0 => cfg.defaultPart
  | n + 1 =>
    if readWord otp (otpValidAddr cfg n) = cfg.otpValidSig then n else selectedPart cfg otp n

/-- The word a TRIM of the target writes: the selected partition's calibration value, or the secondary
record (R183, R187). -/
def trimRecord (s : State) : Target → Word
  | .primary => readWord s.otp (otpValueAddr s.cfg (selectedPart s.cfg s.otp s.cfg.npart))
  | .secondary => readWord s.otp s.cfg.otpSecAddr

/-- The positions from which on the clock has been switched to LFI (R184). -/
def trimSwitched (pos : Pos) : Bool :=
  pos ∈ [.switched, .otpValue, .unlock00, .unlock01, .unlock10, .unlock11, .trimWrite, .lock,
    .trimDone] || (match pos with | .otpValid _ => true | .otpKey _ => true | _ => false)

/-- How far a running TRIM of target `k` has come: the select field after the switch and SWITCHED with the
first OTP read; the partition the validity reads leave; the word kept for the write; the key automaton
between the key writes; and HS_TRIM once it is written (R178, R181, R183). -/
def trimProgress (k : Target) (pos : Pos) (loc : Locals) (s : State) : Prop :=
  (trimSwitched pos = true → s.sel = .lfi ∧ (pos ≠ .switched → s.cmdif.csw = .switched)) ∧
  (pos = .pollSwitchFirst ∨ pos = .pollSwitch → s.sel = .lfi) ∧
  (∀ i, pos = .otpValid i →
    selectedPart s.cfg s.otp s.cfg.npart = selectedPart s.cfg s.otp (i + 1)) ∧
  (∀ i, pos = .otpKey i → i = selectedPart s.cfg s.otp s.cfg.npart) ∧
  (pos = .otpValue → loc.p = selectedPart s.cfg s.otp s.cfg.npart) ∧
  (pos ∈ [.unlock00, .unlock01, .unlock10, .unlock11, .trimWrite] → trimWord k loc = trimRecord s k) ∧
  (pos = .unlock01 → s.keyState = .k0) ∧ (pos = .unlock10 → s.keyState = .k1) ∧
  (pos = .unlock11 → s.keyState = .k2) ∧
  (pos = .trimWrite → s.keyState = .unlocked ∧ s.trimOvr = true) ∧
  (pos = .lock ∨ pos = .trimDone → s.trimOvr = true ∧ s.cpm.hsTrim = trimRecord s k) ∧
  (pos = .trimDone → s.keyState = .k0)

/-- The progress of whatever TRIM runs, of either target. -/
def trimProgressOk (s : State) : Prop :=
  ∀ tg k pos loc, targetOfCode? tg = some k → Runs (.trim tg) pos loc s → trimProgress k pos loc s

/-! ## Bounded commands (R158, R322) -/

/-- The engine steps a switch with a budget that is not 0 can still take, its last one included: at most
`2n + 2` accesses and one `finish` for CLKSW (R158). `after` counts the steps from `switched` on. -/
def switchFuel (n after : Nat) (pos : Pos) (loc : Locals) : Nat :=
  match pos with
  | .start => 2 * n + 2 + after
  | .pollStableFirst => 2 * n + 1 + after
  | .pollStable => max loc.n 1 + n + 1 + after
  | .select => n + 1 + after
  | .pollSwitchFirst => n + after
  | .pollSwitch => max loc.n 1 + after
  | .switched => after
  | .finishing _ => 1
  | _ => 0

/-- The engine steps CLKSW can still take (R158). -/
def clkswFuel (s : State) : Nat :=
  match s.engine with
  | .idle => 0
  | .run pos loc => switchFuel (pollCount s.cfg loc.a0.toNat) 1 pos loc

/-- The engine steps TRIM can still take after its switch: in the reference configuration at most 11 and
one `finish` (R191). -/
def trimTail : Pos → Nat
  | .otpValid i => 10 + i
  | .otpKey _ => 9
  | .otpValue => 8
  | .unlock00 => 7
  | .unlock01 => 6
  | .unlock10 => 5
  | .unlock11 => 4
  | .trimWrite => 3
  | .lock => 2
  | .trimDone => 1
  | _ => 0

/-- The engine steps TRIM can still take (R184, R191). -/
def trimFuel (s : State) : Nat :=
  match s.engine with
  | .idle => 0
  | .run pos loc =>
    switchFuel (pollCount s.cfg s.cfg.trimSwitchTimeoutMs) (10 + firstPart s.cfg) pos loc + trimTail pos

/-! ## Fairness (R322) -/

/-- An infinite run: the agents make the moves `ev`, one after another, and no move faults or is refused.
(The agenda of a state is finite, so an endless run is stated over the moves themselves.) -/
def IsRun (ev : Nat → Event) (σ : Nat → State) : Prop :=
  ∀ k, perform (ev k) (σ k) = .next (σ (k + 1))

/-- While the engine runs, an engine step eventually occurs (R322). -/
def EngineFair (ev : Nat → Event) (σ : Nat → State) : Prop :=
  ∀ k, (σ k).engine ≠ .idle → ∃ m, k ≤ m ∧ ev m = .engine

/-- A go-bit that stays 1 is eventually completed (R322, for R320 and R321). -/
def MaintFair (ev : Nat → Event) (σ : Nat → State) : Prop :=
  ∀ c k,
    ((∀ m, k ≤ m → (σ m).go c = true) → ∃ m v, k ≤ m ∧ ev m = .env (.globalDone c v)) ∧
    ((∀ m, k ≤ m → (σ m).strt c = true) → ∃ m, k ≤ m ∧ ev m = .env (.rangeDone c))

/-- The command is one of those that wait on a go-bit. -/
def isMaintenance : Instr → Bool
  | .cinv _ => true
  | .cinvr _ => true
  | .cinit _ => true
  | .clksw _ => false
  | .trim _ => false
  | .ipsdiv => false
  | .getfreq => false
  | .cen _ _ => false
  | .crgn _ _ _ => false
  | .crgnall _ => false

/-! ## Frames -/

/-- The parameters, and with them every OTP byte, and the inputs to come are as before. -/
def sameWorld (s t : State) : Prop := t.cfg = s.cfg ∧ t.otp = s.otp ∧ t.agenda = s.agenda

/-- Both cache instances are as before. -/
def sameCaches (s t : State) : Prop := t.icache = s.icache ∧ t.dcache = s.dcache

/-- The key automaton after a write to a register that is not PROT_KEY (R172). -/
def keyAfterOther (s : State) : KeyState :=
  if s.cfg.keyseqStrict then keyInterrupted s.keyState else s.keyState

/-- The other instance. -/
def otherCache : CacheId → CacheId
  | .icache => .dcache
  | .dcache => .icache

/-- A step or command of the clock unit that wrote registers other than PROT_KEY: beyond CMDIF, the
engine, CPM and TRACE, only the key automaton may have moved, as R172 says. -/
def clockFrame (s t : State) : Prop :=
  sameWorld s t ∧ sameCaches s t ∧ t.hsDisturb = s.hsDisturb ∧ t.draws = s.draws ∧
    t.keyState = keyAfterOther s

/-- A step that read or wrote no register with an effect outside CMDIF, the engine and TRACE. -/
def readFrame (s t : State) : Prop :=
  sameWorld s t ∧ sameCaches s t ∧ t.cpm = s.cpm ∧ t.hsDisturb = s.hsDisturb ∧ t.draws = s.draws ∧
    t.keyState = s.keyState

/-- A step or command that wrote registers of instance `c`: beyond CMDIF, the engine, TRACE and instance
`c`, only the key automaton may have moved, as R172 says. -/
def cacheFrame (c : CacheId) (s t : State) : Prop :=
  sameWorld s t ∧ t.cpm = s.cpm ∧ t.hsDisturb = s.hsDisturb ∧ t.draws = s.draws ∧
    t.keyState = keyAfterOther s ∧ t.cache (otherCache c) = s.cache (otherCache c)

/-- The resident lines of instance `c` are as before. -/
def sameLines (c : CacheId) (s t : State) : Prop := ∀ w, t.lines c w = s.lines c w

/-- `finish(st)` has ended the command: RES, BUSY and the engine moved, the rest of CMDIF did not (R33). -/
def finished (st : Status) (s t : State) : Prop :=
  t.cmdif = { s.cmdif with res := st, busy := false } ∧ t.engine = .idle

/-- The source and the budget of the switch sub-sequence that a command runs: CLKSW's operands (R155), or
TRIM's safety switch (R184). -/
def switchArgs (cfg : Config) (i : Instr) (loc : Locals) : Option (Source × Nat) :=
  match i with
  | .clksw src => (sourceOfCode? src).map fun k => (k, loc.a0.toNat)
  | .trim t => (targetOfCode? t).map fun _ => (.lfi, cfg.trimSwitchTimeoutMs)
  | .ipsdiv => none
  | .getfreq => none
  | .cen _ _ => none
  | .crgn _ _ _ => none
  | .crgnall _ => none
  | .cinv _ => none
  | .cinvr _ => none
  | .cinit _ => none

/-- The key automaton after a list of PROT_KEY writes, each a key and an override bit (R171). -/
def keyAfter (st : KeyState) (ws : List (Fin 4 × Bool)) : KeyState :=
  ws.foldl (fun st w => keyNext st w.1.val w.2) st

end Sys2Proof.Machine
end

