-- ==== Sys2Proof/WellFormed.lean ====
section
/-! DEFINITION. When the operand codes a command word carries name members of their enumerations: the
part of check 3 of 30_encoding.md R114 that the word alone decides. A command that fails it is still a
command: it finishes with `ERR` and performs no access. (The bits outside a row's operands are decoding's
concern: an `Instr` cannot carry them.) -/

namespace Sys2Proof

/-- The clock source code is LFI or HSOSC (R40, R151). -/
def sourceCodeOk (src : BitVec 4) : Bool := decide (src.toNat ≤ 1)

/-- The trim target code is primary or secondary (R180, R189). -/
def targetCodeOk (t : BitVec 4) : Bool := decide (t.toNat ≤ 1)

/-- The region code is one of the five regions (R50, R224). -/
def regionCodeOk (r : BitVec 4) : Bool := decide (r.toNat ≤ 4)

/-- The policy code is OFF, WRITE_THROUGH or WRITE_BACK (R51, R225). -/
def policyCodeOk (p : BitVec 2) : Bool := decide (p.toNat ≤ 2)

/-- Every operand code in the word names a member of its enumeration (R114, check 3). -/
def Instr.wellFormed : Instr → Bool
  | .clksw src => sourceCodeOk src
  | .trim t => targetCodeOk t
  | .ipsdiv => true
  | .getfreq => true
  | .cen _ _ => true
  | .crgn _ r p => regionCodeOk r && policyCodeOk p
  | .crgnall _ => true
  | .cinv _ => true
  | .cinvr _ => true
  | .cinit _ => true

end Sys2Proof
end

