-- ==== Sys2Proof/Certificates/Slice0/Obligations.lean ====
section
/-! DEFINITION. The statements for the provers. Each docstring names the rules of spec/ it formalises, or
says that it is derived. `s` is a state before, `t` a state after. -/

open Sys2Proof Sys2Proof.Machine

/-! ## Encoding -/

/-- Decoding and encoding agree, both ways: no bit of a word is dropped or invented (R106, R110). -/
def Obligations.DecodeEncodeRoundTrip : Prop :=
  (∀ i : Instr, decode (encode i) = .ok i) ∧
  ∀ (w : Word) (i : Instr), decode w = .ok i → encode i = w

/-- The words that decode are those of the table of R106, by match and mask; every word whose `OP` is not
one of the ten of R110 is rejected as an illegal opcode. -/
def Obligations.WordsOfTheTableDecode : Prop :=
  (∀ w : Word, (∃ i, decode w = .ok i) ↔
    ∃ row ∈ [(0x00000001#32, 0xFFFFF0FF#32), (0x00000002#32, 0xFFFFF0FF#32),
        (0x00000003#32, 0xFFFFFFFF#32), (0x00000004#32, 0xFFFFFFFF#32),
        (0x00000010#32, 0xFFFF7EFF#32), (0x00000011#32, 0xFFFF40FF#32),
        (0x00000012#32, 0xFFFF7FFF#32), (0x00000013#32, 0xFFFF7FFF#32),
        (0x00000014#32, 0xFFFF7FFF#32), (0x00000015#32, 0xFFFF7FFF#32)],
      w &&& row.2 = row.1) ∧
  ∀ w : Word, decode w = .error (.illegalOpcode (w.extractLsb' 0 8)) ↔
    (w.toNat % 256 = 0 ∨ (0x05 ≤ w.toNat % 256 ∧ w.toNat % 256 ≤ 0x0F) ∨ 0x16 ≤ w.toNat % 256)

/-- Words written out from R117 and file 95 decode to the commands they stand for. -/
def Obligations.SampleWordsDecode : Prop :=
  decode 0x00000101#32 = .ok (.clksw 1) ∧ decode 0x00000102#32 = .ok (.trim 1) ∧
  decode 0x00000003#32 = .ok .ipsdiv ∧ decode 0x00000004#32 = .ok .getfreq ∧
  decode 0x00008010#32 = .ok (.cen .dcache false) ∧ decode 0x00000110#32 = .ok (.cen .icache true) ∧
  decode 0x0000A311#32 = .ok (.crgn .dcache 3 2) ∧ decode 0x00000012#32 = .ok (.crgnall .icache) ∧
  decode 0x00000013#32 = .ok (.cinv .icache) ∧ decode 0x00008014#32 = .ok (.cinvr .dcache) ∧
  decode 0x00008015#32 = .ok (.cinit .dcache)

/-- A word that decodes to no command finishes with ERR at its first step, and nothing else changes
(R111, R112). -/
def Obligations.RejectedWordsFinishErr : Prop :=
  ∀ (s : State) (loc : Locals) (e : DecodeError),
    s.engine = .run .start loc → decode loc.cmd = .error e →
      engineStep s =
        .next { s with cmdif := { s.cmdif with res := .err, busy := false }, engine := .idle }

/-- An operand code outside its enumeration, in the word or in a policy set, finishes the command with ERR
at its first step, and nothing else changes (R151, R189, R224, R225). -/
def Obligations.InvalidCodesFinishErr : Prop :=
  (∀ (i : Instr) (s : State) (loc : Locals), s.engine = .run .start loc → i.wellFormed = false →
    exec i s = .next { s with cmdif := { s.cmdif with res := .err, busy := false }, engine := .idle }) ∧
  ∀ (c : CacheId) (s : State) (loc : Locals), s.engine = .run .start loc →
    (loc.a0 >>> 10 ≠ 0#32 ∨ ∃ k, k < 5 ∧ loc.a0.extractLsb' (2 * k) 2 = 3#2) →
      exec (.crgnall c) s =
        .next { s with cmdif := { s.cmdif with res := .err, busy := false }, engine := .idle } ∧
      exec (.cinit c) s =
        .next { s with cmdif := { s.cmdif with res := .err, busy := false }, engine := .idle }

/-! ## The step -/

/-- When the engine is next to move and the latched word decodes to `i`, the step is `exec i` at the state
with that move taken off the agenda (R15, R31). -/
def Obligations.StepRunsLatchedCommand : Prop :=
  ∀ (s : State) (rest : List Event) (pos : Pos) (loc : Locals) (i : Instr),
    configWf s.cfg = true → s.agenda = .engine :: rest → Runs i pos loc s →
      step s = exec i { s with agenda := rest }

/-- Every other move: a HOST or ENV move of the agenda is made, an idle engine does not step, a latched word
that decodes to no command finishes with ERR at its first step and changes nothing else (R111, R112), an
ill-formed configuration is refused, and past the agenda's end the move is a free choice (R15, R73). The
agenda and its free end are the model's DESIGN CHOICE (log 2), and so is the refusal of such a word at any
later position, which no run reaches (log 9). Which configurations are ill-formed is in part the model's
reading: R73 names unaligned addresses and I18 overlapping blocks; overlapping fields, counts out of range and
layouts that disagree with the counts are DEDUCED, and a block whose span runs past 2^32 is refused by DESIGN
CHOICE (log 12). -/
def Obligations.StepMovesOneAgent : Prop :=
  (∀ (s : State) (rest : List Event) (a : HostAccess),
    configWf s.cfg = true → s.agenda = .host a :: rest →
      step s = hostStep a { s with agenda := rest }) ∧
  (∀ (s : State) (rest : List Event) (e : EnvEvent),
    configWf s.cfg = true → s.agenda = .env e :: rest →
      step s = .next (envStep e { s with agenda := rest })) ∧
  (∀ (s : State) (rest : List Event),
    configWf s.cfg = true → s.agenda = .engine :: rest → s.engine = .idle →
      step s = .next { s with agenda := rest }) ∧
  (∀ (s : State) (rest : List Event) (pos : Pos) (loc : Locals) (e : DecodeError),
    configWf s.cfg = true → s.agenda = .engine :: rest → s.engine = .run pos loc →
    decode loc.cmd = .error e →
      (pos = .start → step s = .next { s with
        agenda := rest, cmdif := { s.cmdif with res := .err, busy := false }, engine := .idle }) ∧
      (pos ≠ .start → step s = .refused .strayPosition)) ∧
  (∀ s : State, configWf s.cfg = true → s.agenda = [] →
      step s = perform (Config.freeEvent s.draws) { s with draws := s.draws + 1 }) ∧
  ∀ s : State, configWf s.cfg = false → step s = .refused .illFormedConfig

/-- At every position of its micro-sequence every command answers a next state, and TRACE grows by at most
one access (R31, R135, R278). -/
def Obligations.LegalPositionsComplete : Prop :=
  ∀ (i : Instr) (pos : Pos) (loc : Locals) (s : State),
    s.engine = .run pos loc → legalPos s.cfg i loc.a0 pos = true →
      ∃ t, exec i s = .next t ∧ (t.trace = s.trace ∨ ∃ e, t.trace = e :: s.trace)

/-- Only a host access can fault, and the fault carries that access (R276, R277). -/
def Obligations.FaultsComeFromHostAccesses : Prop :=
  ∀ (s : State) (f : Fault), step s = .fault f →
    ∃ why a, nextEvent s = .host a ∧ f = .host why a

/-- No step changes the configuration or the OTP image (R56). -/
def Obligations.ParametersNeverChange : Prop :=
  ∀ s t : State, step s = .next t → t.otp = s.otp ∧ t.cfg = s.cfg

/-! ## Host accesses -/

/-- A host write of CMD while nothing runs or is in flight starts a command: the word and the arguments
are latched, BUSY is set, and the rest of CMDIF is unchanged (R25). That the write counts for KEYSEQ_STRICT
as a write to a register other than PROT_KEY, so that K0, K1 and K2 go to LOCKED, is the model's reading of
R172 (DEDUCED, log 13). -/
def Obligations.HostWriteOfCmdStartsCommand : Prop :=
  ∀ (s : State) (w : Word),
    configWf s.cfg = true → s.cmdif.busy = false →
    s.inFlight .icache = false → s.inFlight .dcache = false →
    ∃ t loc,
      hostStep (.write (BitVec.ofNat 32 (s.cfg.cmdifBase + s.cfg.layout.cmdOff)) 32 w) s = .next t ∧
      t.cmdif = { s.cmdif with cmd := w, busy := true } ∧ t.engine = .run .start loc ∧
      loc.cmd = w ∧ loc.a0 = s.cmdif.arg0 ∧ loc.a1 = s.cmdif.arg1 ∧
      t.cpm = s.cpm ∧ sameCaches s t ∧ sameWorld s t ∧ t.hsDisturb = s.hsDisturb ∧
      t.keyState = keyAfterOther s ∧ t.trace = .write .host (.cmdif .cmd) w :: s.trace

/-- The other CMDIF registers, from the host: ARG0 and ARG1 read back what was written while no command runs,
and the write changes nothing else but TRACE and, with KEYSEQ_STRICT, KEYSTATE (R24, R172; that a write inside
CMDIF counts there is DEDUCED, log 13); a write of STAT, RESULT or NOMFREQ is recorded in TRACE, changes no
register (R52), and with KEYSEQ_STRICT takes K0, K1 and K2 to LOCKED as any write to a register other than
PROT_KEY does (R172). That while BUSY it is no fault (R276's list over R330, DEDUCED, log 14) and leaves
KEYSTATE alone (no command's outcome depends on KEYSEQ_STRICT, R172, R178; DEDUCED, log 13) is the model's
reading; a read of a mapped register changes nothing but TRACE and the draw counter (R52); CMD, ARG0, ARG1,
RESULT and NOMFREQ read as they stand, and so does every CPM register but PROT_KEY (ProtKeyReads) and every
cache register (R42, R130); and STAT reads BUSY, the code of RES and the code of CSW_STATE at their positions
and 0 elsewhere (R23, R26 to R28, R32, R35). -/
def Obligations.HostCmdifAndReads : Prop :=
  (∀ (s : State) (a v : Word), s.cmdif.busy = false →
    ∃ t, hostAccess (.write a 32 v) (.cmdif .arg0) s = .next t ∧
      readValue (.cmdif .arg0) t = v ∧
      t = { s with
        cmdif := { s.cmdif with arg0 := v }
        keyState := keyAfterOther s
        trace := .write .host (.cmdif .arg0) v :: s.trace }) ∧
  (∀ (s : State) (a v : Word), s.cmdif.busy = false →
    ∃ t, hostAccess (.write a 32 v) (.cmdif .arg1) s = .next t ∧
      readValue (.cmdif .arg1) t = v ∧
      t = { s with
        cmdif := { s.cmdif with arg1 := v }
        keyState := keyAfterOther s
        trace := .write .host (.cmdif .arg1) v :: s.trace }) ∧
  (∀ (s : State) (a v : Word) (q : CmdReg), q ∈ [CmdReg.stat, .result, .nomfreq] →
    hostAccess (.write a 32 v) (.cmdif q) s =
      .next { s with
        keyState := if s.cmdif.busy = true then s.keyState else keyAfterOther s
        trace := .write .host (.cmdif q) v :: s.trace }) ∧
  (∀ (s : State) (a : Word) (r : Reg),
    ∃ t, hostAccess (.read a 32) r s = .next t ∧
      t.trace = .read .host r (readValue r s) :: s.trace ∧ t.cmdif = s.cmdif ∧
      t.engine = s.engine ∧ t.cpm = s.cpm ∧ sameCaches s t ∧ sameWorld s t ∧
      t.keyState = s.keyState ∧ t.hsDisturb = s.hsDisturb) ∧
  (∀ s : State, readValue (.cmdif .cmd) s = s.cmdif.cmd ∧ readValue (.cmdif .arg0) s = s.cmdif.arg0 ∧
    readValue (.cmdif .arg1) s = s.cmdif.arg1 ∧ readValue (.cmdif .result) s = s.cmdif.result ∧
    readValue (.cmdif .nomfreq) s = s.cmdif.nomfreq ∧
    (∀ q, q ≠ .protKey → readValue (.cpm q) s = s.cpm.word q) ∧
    ∀ c q, readValue (.cache c q) s = (s.cache c).word q) ∧
  ∀ s : State, configWf s.cfg = true →
    getBit (readValue (.cmdif .stat) s) s.cfg.layout.statBusy = s.cmdif.busy ∧
    field (readValue (.cmdif .stat) s) s.cfg.layout.statRes 2 =
      (match s.cmdif.res with | .ok => 0 | .err => 1 | .timeout => 2 | .busy => 3) ∧
    field (readValue (.cmdif .stat) s) s.cfg.layout.statCsw 3 =
      (match s.cmdif.csw with
        | .sourceUnselected => 0 | .oscillatorEnabling => 1 | .oscillatorStable => 2 | .switching => 3
        | .switched => 4) ∧
    ∀ p, p ≠ s.cfg.layout.statBusy →
      ¬ (s.cfg.layout.statRes ≤ p ∧ p < s.cfg.layout.statRes + 2) →
      ¬ (s.cfg.layout.statCsw ≤ p ∧ p < s.cfg.layout.statCsw + 3) →
      getBit (readValue (.cmdif .stat) s) p = false

/-- The host faults are exactly the accesses of R276's seven items: a wrong width, a misaligned address or
an unmapped offset in a block, and the writes of items 1 to 4. An engine step never faults. Derived, since
the only-if half also says that a write of STAT, RESULT or NOMFREQ while BUSY is no fault: the model's
reading of R276's list over R330, which speaks of any later host write to CMDIF (DEDUCED, log 14). -/
def Obligations.HostFaultsAreExactlyTheListed : Prop :=
  (∀ (s : State) (f : Fault), engineStep s ≠ .fault f) ∧
  ∀ (s : State) (a : HostAccess),
    (∃ why, hostStep a s = .fault (.host why a)) ↔
      ∃ b, blockOf? s.cfg (accessAddr a) = some b ∧
        (accessWidth a ≠ 32 ∨ (accessAddr a).toNat % 4 ≠ 0 ∨
          regOfAddr? s.cfg b (accessAddr a) = none ∨
          ∃ addr width v r, a = .write addr width v ∧ regOfAddr? s.cfg b addr = some r ∧
            ((s.cmdif.busy = true ∧ r ∈ [Reg.cmdif .cmd, .cmdif .arg0, .cmdif .arg1]) ∨
             (s.cmdif.busy = true ∧ ((∃ q, r = .cpm q) ∨ ∃ c q, r = .cache c q)) ∨
             (∃ c, (s.go c = true ∨ s.strt c = true) ∧
                r ∈ [Reg.cache c .cmnt, .cache c .craddr, .cache c .crsize]) ∨
             (r = .cmdif .cmd ∧ ∃ c, s.go c = true ∨ s.strt c = true)))

/-- A host access outside the four blocks is refused (R71); in a well-formed configuration a 32-bit access
at base plus offset of a register is the access of that register (R70, R79); and the reference addresses of
file 95 reach their registers. -/
def Obligations.HostAddressMap : Prop :=
  (∀ (s : State) (a : HostAccess),
    (∀ b ∈ allBlocks, ¬ (blockBase s.cfg b ≤ (accessAddr a).toNat ∧
      (accessAddr a).toNat < blockBase s.cfg b + 0x1000)) →
    hostStep a s = .refused (.outsideBlocks a)) ∧
  (∀ (s : State) (a : HostAccess) (r : Reg), configWf s.cfg = true →
    (accessAddr a).toNat = regAddr s.cfg r → accessWidth a = 32 → hostStep a s = hostAccess a r s) ∧
  regAddr Config.reference (.cmdif .nomfreq) = 0x50000014 ∧
  regAddr Config.reference (.cpm .sysClk) = 0x50001004 ∧
  regAddr Config.reference (.cache .icache .crsize) = 0x5000200C ∧
  regOfAddr? Config.reference .cmdif 0x5000000C#32 = some (.cmdif .stat) ∧
  regOfAddr? Config.reference .cpm 0x50001010#32 = some (.cpm .hsTrim) ∧
  regOfAddr? Config.reference (.cache .dcache) 0x50003014#32 = some (.cache .dcache .crgn1) ∧
  regOfAddr? Config.reference .cpm 0x50001014#32 = none ∧
  blockOf? Config.reference 0x50001004#32 = some .cpm ∧ blockOf? Config.reference 0x50004000#32 = none

/-- What a write to a block register stores, bit by bit, from the engine or the host: the enables of OSC_CS,
SEL and SYS_DIV of SYS_CLK, IPS_EN and DIV of IPS_DIV, TRIM_OVR of PROT_KEY, HS_TRIM only while admitted, EN
of CCR, the way bits of CMNT, the line address of CRADDR, LEN of CRSIZE while EN = 1, the region bits; GO and
STRT are set by a 1 and not cleared by a 0; every other bit of the register, and every other register, keeps
its value, and so do CMDIF and the engine. A write to any of them but PROT_KEY never moves KEYSTATE out of
UNLOCKED, so that an admitted write of HS_TRIM does not re-lock by itself (R173, R177), and moves K0, K1 and
K2 to LOCKED only with KEYSEQ_STRICT (R172; that this holds of HS_TRIM too, against R173's general wording, is
DEDUCED, log 13). An engine `RegWrite`, and a host write that R276 does not fault, is that write (R37 to R39,
R41, R42, R45 to R49, R52, R54, R57, R78, R134). In a state whose GO or STRT is already 1 the clauses of CMNT
and CRSIZE are the model's DESIGN CHOICE (log 10), and that CRADDR keeps the bits above LINE, not above a
fixed 16, is DEDUCED (log 18). -/
def Obligations.BlockRegisterWrites : Prop :=
  ∀ (s : State) (v : Word) (c : CacheId), configWf s.cfg = true → regsOk s →
    (∀ p, getBit (writeReg (.cpm .oscCs) v s).cpm.oscCs p =
      if p = s.cfg.layout.lfiEn ∨ p = s.cfg.layout.hsEn then getBit v p
      else getBit s.cpm.oscCs p) ∧
    (∀ p, getBit (writeReg (.cpm .sysClk) v s).cpm.sysClk p =
      if p = s.cfg.layout.sel ∨
        (s.cfg.layout.sysDiv ≤ p ∧ p < s.cfg.layout.sysDiv + s.cfg.sysdivWidth) then getBit v p
      else getBit s.cpm.sysClk p) ∧
    (∀ p, getBit (writeReg (.cpm .ipsDiv) v s).cpm.ipsDiv p =
      if p = s.cfg.layout.ipsEn ∨
        (s.cfg.layout.div ≤ p ∧ p < s.cfg.layout.div + s.cfg.layout.divWidth) then getBit v p
      else getBit s.cpm.ipsDiv p) ∧
    (∀ p, getBit (writeReg (.cpm .protKey) v s).cpm.protKey p =
      if p = s.cfg.layout.trimOvr then getBit v p else getBit s.cpm.protKey p) ∧
    (s.keyState = .unlocked → s.trimOvr = true →
      (writeReg (.cpm .hsTrim) v s).cpm.hsTrim = v ∧ (writeReg (.cpm .hsTrim) v s).hsDisturb = true) ∧
    (s.keyState ≠ .unlocked ∨ s.trimOvr = false →
      (writeReg (.cpm .hsTrim) v s).cpm = s.cpm ∧
      (writeReg (.cpm .hsTrim) v s).hsDisturb = s.hsDisturb) ∧
    (∀ p, getBit ((writeReg (.cache c .ccr) v s).cache c).ccr p =
      if p = s.cfg.layout.cacheEn then getBit v p else getBit (s.cache c).ccr p) ∧
    (∀ p, getBit ((writeReg (.cache c .cmnt) v s).cache c).cmnt p =
      if p = s.cfg.layout.go then (s.go c || getBit v p)
      else if p ∈ s.cfg.layout.invW then getBit v p
      else getBit (s.cache c).cmnt p) ∧
    ((writeReg (.cache c .craddr) v s).cache c).craddr.toNat = v.toNat - v.toNat % s.cfg.line ∧
    (s.cacheEn c = true →
      (writeReg (.cache c .crsize) v s).rangeLen c = field v s.cfg.layout.len s.cfg.lenWidth ∧
      ∀ p, getBit ((writeReg (.cache c .crsize) v s).cache c).crsize p =
        if p = s.cfg.layout.strt then (s.strt c || getBit v p)
        else if s.cfg.layout.len ≤ p ∧ p < s.cfg.layout.len + s.cfg.lenWidth then getBit v p
        else getBit (s.cache c).crsize p) ∧
    (s.cacheEn c = false → (writeReg (.cache c .crsize) v s).cache c = s.cache c) ∧
    (∀ (g : RgnReg) (q : CacheReg) (p : Nat), q = RgnReg.toCacheReg g →
      ((∃ r, rgnReg s.cfg.layout r = q ∧ getBit (regionMask s.cfg.layout r) p = true) →
        getBit (((writeReg (.cache c q) v s).cache c).word q) p = getBit v p) ∧
      ((∀ r, rgnReg s.cfg.layout r = q → getBit (regionMask s.cfg.layout r) p = false) →
        getBit (((writeReg (.cache c q) v s).cache c).word q) p = getBit ((s.cache c).word q) p)) ∧
    (∀ q q', q' ≠ q → (writeReg (.cpm q) v s).cpm.word q' = s.cpm.word q' ∧
      sameCaches s (writeReg (.cpm q) v s)) ∧
    (∀ q q', q' ≠ q → ((writeReg (.cache c q) v s).cache c).word q' = (s.cache c).word q' ∧
      sameLines c s (writeReg (.cache c q) v s) ∧ (writeReg (.cache c q) v s).cpm = s.cpm ∧
      (writeReg (.cache c q) v s).cache (otherCache c) = s.cache (otherCache c)) ∧
    (∀ r : Reg, ((∃ q, r = .cpm q) ∨ ∃ d q, r = .cache d q) →
      (writeReg r v s).cmdif = s.cmdif ∧ (writeReg r v s).engine = s.engine ∧
      (writeReg r v s).trace = s.trace ∧ (writeReg r v s).draws = s.draws ∧
      sameWorld s (writeReg r v s) ∧
      (r ≠ .cpm .hsTrim → (writeReg r v s).hsDisturb = s.hsDisturb) ∧
      (r ≠ .cpm .protKey →
        (writeReg r v s).keyState = keyAfterOther s ∧
        (s.keyState = .unlocked → (writeReg r v s).keyState = .unlocked) ∧
        (s.cfg.keyseqStrict = false → (writeReg r v s).keyState = s.keyState) ∧
        (s.cfg.keyseqStrict = true → s.keyState ≠ .unlocked → (writeReg r v s).keyState = .locked)) ∧
      regWrite r v s = (writeReg r v s).log (.write .engine r v)) ∧
    ∀ (a : Word) (r : Reg), s.cmdif.busy = false →
      ((∃ q, r = .cpm q) ∨ (∃ d q, r = .cache d q ∧ q ∈ [CacheReg.ccr, .crgn0, .crgn1]) ∨
        ∃ d q, r = .cache d q ∧ s.inFlight d = false) →
      hostAccess (.write a 32 v) r s = .next ((writeReg r v s).log (.write .host r v))

/-- A read of PROT_KEY returns TRIM_OVR as stored, 0 in every bit that is neither TRIM_OVR nor KEY, and
anything in KEY, and uses one draw (R41, R52; the statement says nothing about the KEY bits). -/
def Obligations.ProtKeyReads : Prop :=
  ∀ s : State, configWf s.cfg = true → regsOk s →
    getBit (readValue (.cpm .protKey) s) s.cfg.layout.trimOvr = s.trimOvr ∧
    (∀ p, p ≠ s.cfg.layout.trimOvr → p ≠ s.cfg.layout.key → p ≠ s.cfg.layout.key + 1 →
      getBit (readValue (.cpm .protKey) s) p = false) ∧
    (hostRead (.cpm .protKey) s).draws = s.draws + 1 ∧ (hostRead (.cpm .protKey) s).cpm = s.cpm

/-! ## Reset and the invariants of a run -/

/-- The reset values the spec gives, in every reset state (R59, R301; R60 and R61 for KEYSTATE, HS_DISTURB,
GO and STRT; R62). -/
def Obligations.ResetValues : Prop :=
  ∀ (cfg : Config) (otp : Memory) (d : ResetDraw) (agenda : List Event), configWf cfg = true →
    (resetWith cfg otp d agenda).cmdif =
      { cmd := 0, arg0 := 0, arg1 := 0, busy := false, res := .ok, csw := .sourceUnselected,
        result := 0, nomfreq := cfg.hsoscDefaultHz } ∧
    (resetWith cfg otp d agenda).engine = .idle ∧
    (resetWith cfg otp d agenda).keyState = .locked ∧
    (resetWith cfg otp d agenda).hsDisturb = false ∧
    (resetWith cfg otp d agenda).trace = [] ∧
    ∀ c, (resetWith cfg otp d agenda).go c = false ∧ (resetWith cfg otp d agenda).strt c = false

/-- `State.reset` is the reset state of the reference configuration for the draw that is 0 everywhere: the
model's choice (log 1), one of the draws of R302. -/
def Obligations.ResetStateIsTheZeroDraw : Prop :=
  State.reset = resetWith Config.reference [] ResetDraw.zero []

/-- Every reset state of a well-formed configuration satisfies the invariants of a run (R302). -/
def Obligations.ResetStatesSatisfyInvariants : Prop :=
  ∀ (cfg : Config) (otp : Memory) (d : ResetDraw) (agenda : List Event),
    configWf cfg = true → memoryWf otp = true → RunInv (resetWith cfg otp d agenda)

/-- Every step keeps the invariants: BUSY tracks the engine (R26), the latched words stand in CMDIF (R24),
the position is the command's (R31), RES is never BUSY (R290), reserved bits are 0 (R52), a go-bit is set
under a running command only where it polls it (R276), and residency sets hold line addresses (R53). -/
def Obligations.StepKeepsInvariants : Prop :=
  ∀ s t : State, RunInv s → step s = .next t → RunInv t

/-- No step from a state with the invariants, and so no run from reset, is ever refused for its
configuration or for a stray engine state, and an engine move always has a successor (R31, R278). -/
def Obligations.ReachableStatesNeverStray : Prop :=
  (∀ s : State, RunInv s →
    step s ≠ .refused .illFormedConfig ∧ step s ≠ .refused .engineIdle ∧
      step s ≠ .refused .strayPosition ∧ (nextEvent s = .engine → ∃ t, step s = .next t)) ∧
  ∀ s : State, Reachable s →
    RunInv s ∧ step s ≠ .refused .illFormedConfig ∧ step s ≠ .refused .engineIdle ∧
      step s ≠ .refused .strayPosition ∧ (nextEvent s = .engine → ∃ t, step s = .next t)

/-- RES changes only at a finish (R27), CSW_STATE only under CLKSW and TRIM (R28), RESULT only at GETFREQ's
finish (R29, R206), NOMFREQ only at a TRIM's OK finish (R30, R192). -/
def Obligations.CmdifFieldsChangeOnlyByTheirCommands : Prop :=
  ∀ s t : State, step s = .next t →
    (t.cmdif.res ≠ s.cmdif.res →
      nextEvent s = .engine ∧ s.engine ≠ .idle ∧ t.engine = .idle ∧ t.cmdif.busy = false) ∧
    (t.cmdif.csw ≠ s.cmdif.csw →
      nextEvent s = .engine ∧ ∃ i pos loc, Runs i pos loc s ∧
        ((∃ src, i = .clksw src) ∨ ∃ tg, i = .trim tg)) ∧
    (t.cmdif.result ≠ s.cmdif.result →
      nextEvent s = .engine ∧ (∃ loc, Runs .getfreq .freqDone loc s) ∧ t.engine = .idle ∧
        t.cmdif.res = .ok) ∧
    (t.cmdif.nomfreq ≠ s.cmdif.nomfreq →
      nextEvent s = .engine ∧ (∃ tg loc, Runs (.trim tg) .trimDone loc s) ∧ t.engine = .idle ∧
        t.cmdif.res = .ok)

/-! ## The clock switch: CLKSW and TRIM's safety switch -/

/-- Step 1 of the switch: the source's enable bit is set and ENABLING becomes visible, in one traced
access; no other bit, register or byte changes; step 2's first read is next (R152, R153). -/
def Obligations.SwitchEnablesOscillator : Prop :=
  ∀ (i : Instr) (s : State) (loc : Locals) (k : Source) (b : Nat),
    configWf s.cfg = true → s.engine = .run .start loc → switchArgs s.cfg i loc = some (k, b) →
    ∃ t, exec i s = .next t ∧ t.oscEn k = true ∧
      (∀ p, p ≠ enPos s.cfg.layout k → getBit t.cpm.oscCs p = getBit s.cpm.oscCs p) ∧
      t.cpm = { s.cpm with oscCs := t.cpm.oscCs } ∧
      t.cmdif = { s.cmdif with csw := .oscillatorEnabling } ∧
      t.engine = .run .pollStableFirst loc ∧
      t.trace = .modify .engine (.cpm .oscCs) s.cpm.oscCs
        (s.cpm.oscCs ||| bit (enPos s.cfg.layout k)) :: s.trace ∧
      clockFrame s t

/-- Steps 2 and 4 of the switch, one read each, with `n` reads left: all `b * K` of them at a poll's first
read, which assigns the count (R12, R137), and else what the local holds. A match goes on, the last read of
a bounded poll goes on to `finish(TIMEOUT)`, any other read stays; SWITCHING is visible from step 4's first
read; nothing else changes (R138, R152, R153). -/
def Obligations.SwitchPollsRead : Prop :=
  ∀ (i : Instr) (s : State) (loc : Locals) (k : Source) (b n : Nat),
    configWf s.cfg = true → switchArgs s.cfg i loc = some (k, b) →
    ((s.engine = .run .pollStableFirst loc ∧ n = b * s.cfg.pollItersPerMs) ∨
        (s.engine = .run .pollStable loc ∧ n = loc.n) →
      ∃ t pos loc', exec i s = .next t ∧ t.engine = .run pos loc' ∧ t.cmdif = s.cmdif ∧
        t.trace = .read .engine (.cpm .oscCs) s.cpm.oscCs :: s.trace ∧ readFrame s t ∧
        loc'.cmd = loc.cmd ∧ loc'.a0 = loc.a0 ∧ loc'.a1 = loc.a1 ∧
        (s.oscStable k = true → pos = .select) ∧
        (s.oscStable k = false → b = 0 → pos = .pollStable) ∧
        (s.oscStable k = false → b ≠ 0 → 1 < n → pos = .pollStable ∧ loc'.n = n - 1) ∧
        (s.oscStable k = false → b ≠ 0 → n ≤ 1 → pos = .finishing .timeout)) ∧
    ((s.engine = .run .pollSwitchFirst loc ∧ n = b * s.cfg.pollItersPerMs) ∨
        (s.engine = .run .pollSwitch loc ∧ n = loc.n) →
      ∃ t pos loc', exec i s = .next t ∧ t.engine = .run pos loc' ∧
        t.cmdif = { s.cmdif with csw := .switching } ∧
        t.trace = .read .engine (.cpm .sysClk) s.cpm.sysClk :: s.trace ∧ readFrame s t ∧
        loc'.cmd = loc.cmd ∧ loc'.a0 = loc.a0 ∧ loc'.a1 = loc.a1 ∧
        (s.selStat = k → pos = .switched) ∧
        (s.selStat ≠ k → b = 0 → pos = .pollSwitch) ∧
        (s.selStat ≠ k → b ≠ 0 → 1 < n → pos = .pollSwitch ∧ loc'.n = n - 1) ∧
        (s.selStat ≠ k → b ≠ 0 → n ≤ 1 → pos = .finishing .timeout))

/-- Step 3 of the switch: SEL takes the source with every other bit of SYS_CLK preserved,
OSCILLATOR_STABLE becomes visible, the first poll's status OK is assigned, and step 4's first read is next
(R12, R133, R152, R153). -/
def Obligations.SwitchSelectsSource : Prop :=
  ∀ (i : Instr) (s : State) (loc : Locals) (k : Source) (b : Nat),
    configWf s.cfg = true → s.engine = .run .select loc → switchArgs s.cfg i loc = some (k, b) →
    ∃ t, exec i s = .next t ∧ t.sel = k ∧
      (∀ p, p ≠ s.cfg.layout.sel → getBit t.cpm.sysClk p = getBit s.cpm.sysClk p) ∧
      t.cpm = { s.cpm with sysClk := t.cpm.sysClk } ∧
      t.cmdif = { s.cmdif with csw := .oscillatorStable } ∧
      t.engine = .run .pollSwitchFirst { loc with st := .ok } ∧
      t.trace.length = s.trace.length + 1 ∧ clockFrame s t

/-- CLKSW's last step: SWITCHED becomes visible with `finish(OK)`, and a command that timed out finishes
with TIMEOUT and leaves CSW_STATE where it was; nothing else changes (R152, R155). -/
def Obligations.ClkswFinishes : Prop :=
  ∀ (src : BitVec 4) (s : State) (loc : Locals) (k : Source), sourceOfCode? src = some k →
    (s.engine = .run .switched loc →
      ∃ t, exec (.clksw src) s = .next t ∧
        t.cmdif = { s.cmdif with csw := .switched, res := .ok, busy := false } ∧ t.engine = .idle ∧
        t.trace = s.trace ∧ readFrame s t) ∧
    (s.engine = .run (.finishing .timeout) loc →
      ∃ t, exec (.clksw src) s = .next t ∧ finished .timeout s t ∧ t.trace = s.trace ∧ readFrame s t)

/-- CLKSW to the source that already drives the clock and is stable still performs all four steps and
finishes OK after 4 accesses, whatever the budget (R159, which the spec marks as its own inference). -/
def Obligations.ClkswToTheRunningSource : Prop :=
  ∀ (src : BitVec 4) (s : State) (loc : Locals) (k : Source),
    configWf s.cfg = true → s.engine = .run .start loc → sourceOfCode? src = some k →
    s.oscStable k = true → s.selStat = k →
    ∃ t v0 v1 v2 v3 w0 w2, execTimes 5 (.clksw src) s = .next t ∧
      t.oscEn k = true ∧ t.sel = k ∧ t.selStat = k ∧
      (∀ p, p ≠ enPos s.cfg.layout k → getBit t.cpm.oscCs p = getBit s.cpm.oscCs p) ∧
      (∀ p, p ≠ s.cfg.layout.sel → getBit t.cpm.sysClk p = getBit s.cpm.sysClk p) ∧
      t.cpm = { s.cpm with oscCs := t.cpm.oscCs, sysClk := t.cpm.sysClk } ∧
      t.cmdif = { s.cmdif with csw := .switched, res := .ok, busy := false } ∧ t.engine = .idle ∧
      t.trace = .read .engine (.cpm .sysClk) v3 :: .modify .engine (.cpm .sysClk) v2 w2 ::
        .read .engine (.cpm .oscCs) v1 :: .modify .engine (.cpm .oscCs) v0 w0 :: s.trace ∧
      clockFrame s t

/-- A stability poll that sees no match in its `n` reads: the switch ends after `1 + n` accesses with
TIMEOUT, SYS_CLK is not written, CSW_STATE is ENABLING, the enable bit stays 1, and the protected register
is untouched (R140 and R156, which the spec marks as its own inferences; R184 for TRIM). -/
def Obligations.StabilityTimeoutAfterExactReads : Prop :=
  ∀ (i : Instr) (s : State) (loc : Locals) (k : Source) (b : Nat),
    configWf s.cfg = true → s.engine = .run .start loc → switchArgs s.cfg i loc = some (k, b) →
    b ≠ 0 → s.oscStable k = false →
    ∃ t, execTimes (b * s.cfg.pollItersPerMs + 2) i s = .next t ∧
      t.cmdif = { s.cmdif with csw := .oscillatorEnabling, res := .timeout, busy := false } ∧
      t.engine = .idle ∧ t.oscEn k = true ∧ t.cpm = { s.cpm with oscCs := t.cpm.oscCs } ∧
      t.trace = List.replicate (b * s.cfg.pollItersPerMs) (.read .engine (.cpm .oscCs) t.cpm.oscCs) ++
        .modify .engine (.cpm .oscCs) s.cpm.oscCs
          (s.cpm.oscCs ||| bit (enPos s.cfg.layout k)) :: s.trace ∧
      clockFrame s t

/-- A switch-status poll that sees no match in its `n` reads: the switch ends after `3 + n` accesses with
TIMEOUT, SEL is the source and CSW_STATE is SWITCHING (R157). -/
def Obligations.SwitchStatusTimeoutAfterExactReads : Prop :=
  ∀ (i : Instr) (s : State) (loc : Locals) (k : Source) (b : Nat),
    configWf s.cfg = true → s.engine = .run .start loc → switchArgs s.cfg i loc = some (k, b) →
    b ≠ 0 → s.oscStable k = true → s.selStat ≠ k →
    ∃ t, execTimes (b * s.cfg.pollItersPerMs + 4) i s = .next t ∧
      t.cmdif = { s.cmdif with csw := .switching, res := .timeout, busy := false } ∧
      t.engine = .idle ∧ t.sel = k ∧ t.selStat = s.selStat ∧ t.oscEn k = true ∧
      t.cpm = { s.cpm with oscCs := t.cpm.oscCs, sysClk := t.cpm.sysClk } ∧
      t.trace.length = s.trace.length + (b * s.cfg.pollItersPerMs + 3) ∧ clockFrame s t

/-- With budget 0 CLKSW never times out, and with the oscillator never stable it polls forever with BUSY
set (R161, R330). -/
def Obligations.BudgetZeroNeverTimesOut : Prop :=
  (∀ (src : BitVec 4) (s t : State) (pos : Pos) (loc : Locals),
    s.engine = .run pos loc → loc.a0 = 0 → pos ≠ .finishing .timeout →
    exec (.clksw src) s = .next t → ∀ loc', t.engine ≠ .run (.finishing .timeout) loc') ∧
  ∀ (src : BitVec 4) (s : State) (loc : Locals) (k : Source) (j : Nat),
    configWf s.cfg = true → s.engine = .run .start loc → loc.a0 = 0 → sourceOfCode? src = some k →
    s.oscStable k = false →
    ∃ t loc', execTimes (j + 1) (.clksw src) s = .next t ∧
      t.engine = .run (if j = 0 then .pollStableFirst else .pollStable) loc' ∧
      t.cmdif = { s.cmdif with csw := .oscillatorEnabling } ∧
      t.trace.length = s.trace.length + (j + 1)

/-- A CLKSW or TRIM whose budget is not 0 ends after a bounded number of engine steps, whatever the other
agents do: each engine step lowers a bound that no other agent's step raises; it starts at `2n + 3` steps
for CLKSW, which is `2n + 2` accesses and the finish (R158, R322). -/
def Obligations.SwitchCommandsAreBounded : Prop :=
  (∀ (src : BitVec 4) (s t : State) (pos : Pos) (loc : Locals),
    configWf s.cfg = true → s.engine = .run pos loc → legalPos s.cfg (.clksw src) loc.a0 pos = true →
    loc.a0 ≠ 0 → exec (.clksw src) s = .next t → clkswFuel t < clkswFuel s) ∧
  (∀ (tg : BitVec 4) (s t : State) (pos : Pos) (loc : Locals),
    configWf s.cfg = true → s.engine = .run pos loc → legalPos s.cfg (.trim tg) loc.a0 pos = true →
    exec (.trim tg) s = .next t → trimFuel t < trimFuel s) ∧
  (∀ (s : State) (loc : Locals), s.engine = .run .start loc →
    clkswFuel s = 2 * (loc.a0.toNat * s.cfg.pollItersPerMs) + 3) ∧
  ∀ (s t : State) (e : Event), e ≠ .engine → s.engine ≠ .idle → busyOk s → perform e s = .next t →
    clkswFuel t = clkswFuel s ∧ trimFuel t = trimFuel s

/-- No command clears an oscillator's enable bit (R160, which the spec marks as its own inference). -/
def Obligations.NoCommandClearsAnEnable : Prop :=
  ∀ (i : Instr) (s t : State) (k : Source), exec i s = .next t → s.oscEn k = true → t.oscEn k = true

/-- HSOSC is selected only by a CLKSW with source 1 or by a host write to SEL; a TRIM never selects it
(R163). -/
def Obligations.HsoscSelectedOnlyByClkswOrHost : Prop :=
  ∀ s t : State, step s = .next t → s.sel = .lfi → t.sel = .hsosc →
    (nextEvent s = .engine ∧ ∃ loc, Runs (.clksw 1) .select loc s) ∨
    ∃ a w v b, nextEvent s = .host (.write a w v) ∧ blockOf? s.cfg a = some b ∧
      regOfAddr? s.cfg b a = some (.cpm .sysClk)

/-! ## The protected register and TRIM -/

/-- The key automaton on a write to PROT_KEY: TRIM_OVR is stored, KEYSTATE moves as R171's table says, and
nothing else changes; and from LOCKED it is UNLOCKED only after writes that end in 00, 01, 10, 11 with the
override bit on the last, and after each of those whose write before them is not a 00 (R171; a 00 before
them restarts the count by the table, and I5 asks that no claim on sequences rest on that). -/
def Obligations.KeyAutomatonAcceptsExactSequence : Prop :=
  (∀ (s : State) (v : Word), configWf s.cfg = true →
    (writeReg (.cpm .protKey) v s).trimOvr = getBit v s.cfg.layout.trimOvr ∧
    (field v s.cfg.layout.key 2 = 0 → (writeReg (.cpm .protKey) v s).keyState = .k0) ∧
    (field v s.cfg.layout.key 2 = 1 → (writeReg (.cpm .protKey) v s).keyState =
      if s.keyState = .k0 then .k1 else .locked) ∧
    (field v s.cfg.layout.key 2 = 2 → (writeReg (.cpm .protKey) v s).keyState =
      if s.keyState = .k1 then .k2 else .locked) ∧
    (field v s.cfg.layout.key 2 = 3 → (writeReg (.cpm .protKey) v s).keyState =
      if s.keyState = .k2 ∧ getBit v s.cfg.layout.trimOvr = true then .unlocked else .locked) ∧
    (writeReg (.cpm .protKey) v s).cpm =
      { s.cpm with protKey := (writeReg (.cpm .protKey) v s).cpm.protKey } ∧
    (writeReg (.cpm .protKey) v s).cmdif = s.cmdif ∧ sameCaches s (writeReg (.cpm .protKey) v s)) ∧
  (∀ ws : List (Fin 4 × Bool), keyAfter .locked ws = .unlocked →
    ∃ pre o0 o1 o2, ws = pre ++ [(0, o0), (1, o1), (2, o2), (3, true)]) ∧
  ∀ (pre : List (Fin 4 × Bool)) (o0 o1 o2 : Bool), pre.getLast?.map Prod.fst ≠ some 0 →
    keyAfter .locked (pre ++ [(0, o0), (1, o1), (2, o2), (3, true)]) = .unlocked

/-- HS_TRIM changes only while the key automaton is UNLOCKED and TRIM_OVR is 1, and then HS_DISTURB is set;
HS_DISTURB is set by nothing else (R42, R54, R173). -/
def Obligations.HsTrimChangesOnlyUnlocked : Prop :=
  ∀ s t : State, step s = .next t →
    (t.cpm.hsTrim ≠ s.cpm.hsTrim →
      s.keyState = .unlocked ∧ s.trimOvr = true ∧ t.hsDisturb = true) ∧
    (t.hsDisturb = true → s.hsDisturb = false → s.keyState = .unlocked ∧ s.trimOvr = true)

/-- The partition selector: the partitions are read in order from the highest (2, 1, 0 with the source's
three), the first valid one is chosen, and reading stops there; none valid chooses the default. SWITCHED
becomes visible with the first read (R181, R152; the order for another NPART is DEDUCED, log 17). -/
def Obligations.TrimSelectsPartition : Prop :=
  ∀ (s : State) (loc : Locals), configWf s.cfg = true → s.engine = .run .switched loc →
    ∃ t p loc' j, execTimes j (.trim 0) s = .next t ∧ t.engine = .run (.otpKey p) loc' ∧
      loc'.a0 = loc.a0 ∧ loc'.cmd = loc.cmd ∧
      t.cmdif = { s.cmdif with csw := .switched } ∧ readFrame s t ∧
      t.trace = ((List.range j).map fun q => TraceEntry.otp .engine
          (otpValidAddr s.cfg (s.cfg.npart - j + q))
          (readWord s.otp (otpValidAddr s.cfg (s.cfg.npart - j + q)))) ++ s.trace ∧
      1 ≤ j ∧ j ≤ s.cfg.npart ∧
      (∀ q, s.cfg.npart - j < q → q < s.cfg.npart →
        readWord s.otp (otpValidAddr s.cfg q) ≠ s.cfg.otpValidSig) ∧
      (if readWord s.otp (otpValidAddr s.cfg (s.cfg.npart - j)) = s.cfg.otpValidSig then
        p = s.cfg.npart - j else p = s.cfg.defaultPart ∧ j = s.cfg.npart) ∧
      (s.cfg.npart = 3 →
        if readWord s.otp (otpValidAddr s.cfg 2) = s.cfg.otpValidSig then p = 2 ∧ j = 1
        else if readWord s.otp (otpValidAddr s.cfg 1) = s.cfg.otpValidSig then p = 1 ∧ j = 2
        else if readWord s.otp (otpValidAddr s.cfg 0) = s.cfg.otpValidSig then p = 0 ∧ j = 3
        else p = s.cfg.defaultPart ∧ j = 3)

/-- The enable key of the chosen partition `p`: equal to the expected one, the calibration value is read next
and the unlock begins; else TRIM finishes with ERR, makes no read of the calibration value, and changes
nothing else (R182, R186). TRACE names the address and the word of each OTP read. -/
def Obligations.TrimChecksEnableKey : Prop :=
  ∀ (s : State) (loc : Locals) (p keyAt valAt : Nat), s.engine = .run (.otpKey p) loc →
    keyAt = s.cfg.otpPartBase + p * s.cfg.otpPartStride + s.cfg.otpKeyOff →
    valAt = s.cfg.otpPartBase + p * s.cfg.otpPartStride + s.cfg.otpValOff →
    (readWord s.otp keyAt = s.cfg.otpKeyExpected →
      ∃ t loc', execTimes 2 (.trim 0) s = .next t ∧ t.engine = .run .unlock00 loc' ∧
        loc'.v = readWord s.otp valAt ∧ loc'.p = p ∧ t.cmdif = s.cmdif ∧
        t.trace = .otp .engine valAt (readWord s.otp valAt) ::
          .otp .engine keyAt (readWord s.otp keyAt) :: s.trace ∧ readFrame s t) ∧
    (readWord s.otp keyAt ≠ s.cfg.otpKeyExpected →
      ∃ t, execTimes 2 (.trim 0) s = .next t ∧ finished .err s t ∧
        t.trace = .otp .engine keyAt (readWord s.otp keyAt) :: s.trace ∧ readFrame s t)

/-- The secondary record: a top byte equal to the tag goes on to the unlock with the whole word; else TRIM
finishes with ERR, writing nothing after the safety switch (R187, R188). -/
def Obligations.TrimChecksSecondaryTag : Prop :=
  ∀ (s : State) (loc : Locals), s.engine = .run .switched loc →
    ((readWord s.otp s.cfg.otpSecAddr).extractLsb' 24 8 = s.cfg.otpSecTag →
      ∃ t loc', exec (.trim 1) s = .next t ∧ t.engine = .run .unlock00 loc' ∧
        loc'.w = readWord s.otp s.cfg.otpSecAddr ∧
        t.cmdif = { s.cmdif with csw := .switched } ∧
        t.trace = .otp .engine s.cfg.otpSecAddr (readWord s.otp s.cfg.otpSecAddr) :: s.trace ∧
        readFrame s t) ∧
    ((readWord s.otp s.cfg.otpSecAddr).extractLsb' 24 8 ≠ s.cfg.otpSecTag →
      ∃ t, execTimes 2 (.trim 1) s = .next t ∧
        t.cmdif = { s.cmdif with csw := .switched, res := .err, busy := false } ∧ t.engine = .idle ∧
        t.trace = .otp .engine s.cfg.otpSecAddr (readWord s.otp s.cfg.otpSecAddr) :: s.trace ∧
        readFrame s t)

/-- From any KEYSTATE, TRIM's four key writes, its protected write and its lock write leave HS_TRIM with
the OTP word, KEYSTATE at K0, TRIM_OVR at 1, and NOMFREQ at the target's value with the OK finish; the lock
immediately follows the protected write (R174, R175, R177, R187; R178 and R185, which the spec marks as its
own inferences). And under every interleaving: whatever the other agents do between its steps, every step
of the machine keeps the progress of a running TRIM, and in every run the step that finishes a TRIM with OK
finds LFI selected and HS_TRIM written with the selected record, and leaves KEYSTATE at K0, TRIM_OVR at 1,
CSW_STATE at SWITCHED and NOMFREQ at the target's value. -/
def Obligations.TrimUnlocksWritesLocks : Prop :=
  (∀ (tg : BitVec 4) (s : State) (loc : Locals) (k : Target),
    configWf s.cfg = true → targetOfCode? tg = some k → s.engine = .run .unlock00 loc →
    ∃ t v0 v1 v2 v3 v5 w0 w1 w2 w3 w5, execTimes 7 (.trim tg) s = .next t ∧
      t.cpm.hsTrim = (match k with | .primary => loc.v | .secondary => loc.w) ∧
      t.keyState = .k0 ∧ t.trimOvr = true ∧ t.hsDisturb = true ∧
      t.cmdif = { s.cmdif with
        nomfreq := (match k with | .primary => s.cfg.fPrimaryHz | .secondary => s.cfg.fSecondaryHz),
        res := .ok, busy := false } ∧
      t.engine = .idle ∧
      t.trace = .modify .engine (.cpm .protKey) v5 w5 ::
        .write .engine (.cpm .hsTrim) (match k with | .primary => loc.v | .secondary => loc.w) ::
        .modify .engine (.cpm .protKey) v3 w3 :: .modify .engine (.cpm .protKey) v2 w2 ::
        .modify .engine (.cpm .protKey) v1 w1 :: .modify .engine (.cpm .protKey) v0 w0 :: s.trace ∧
      (field w0 s.cfg.layout.key 2 = 0 ∧ field w1 s.cfg.layout.key 2 = 1 ∧
        field w2 s.cfg.layout.key 2 = 2 ∧ field w3 s.cfg.layout.key 2 = 3 ∧
        field w5 s.cfg.layout.key 2 = 0) ∧
      t.cpm = { s.cpm with protKey := t.cpm.protKey, hsTrim := t.cpm.hsTrim } ∧
      sameCaches s t ∧ sameWorld s t) ∧
  (∀ s t : State, RunInv s → trimProgressOk s → step s = .next t → trimProgressOk t) ∧
  ∀ (tg : BitVec 4) (s : State) (loc : Locals) (k : Target),
    Reachable s → targetOfCode? tg = some k → Runs (.trim tg) .trimDone loc s →
    ∃ t, exec (.trim tg) s = .next t ∧ t.cpm.hsTrim = trimRecord s k ∧ t.cpm = s.cpm ∧
      t.sel = .lfi ∧ t.keyState = .k0 ∧ t.trimOvr = true ∧
      t.cmdif = { s.cmdif with
        csw := .switched, res := .ok, busy := false,
        nomfreq := (match k with | .primary => s.cfg.fPrimaryHz | .secondary => s.cfg.fSecondaryHz) } ∧
      t.engine = .idle

/-! ## IPSDIV and GETFREQ -/

/-- IPSDIV with a divider in range: three writes of IPS_DIV, of which only the last commits, then OK. DIV
reads back the argument, IPS_EN is 1, every other bit, register and byte is unchanged (R200; R203, which
the spec marks as its own inference). -/
def Obligations.IpsdivSetsDivider : Prop :=
  ∀ (s : State) (loc : Locals),
    configWf s.cfg = true → regsOk s → s.engine = .run .start loc →
    loc.a0.toNat ≤ s.cfg.ipsdivMax →
    ∃ t v0 v1 v2 w0 w1 w2, execTimes 4 .ipsdiv s = .next t ∧
      t.ipsDivField = loc.a0.toNat ∧ t.ipsEn = true ∧
      (∀ p, p ≠ s.cfg.layout.ipsEn →
        ¬ (s.cfg.layout.div ≤ p ∧ p < s.cfg.layout.div + s.cfg.layout.divWidth) →
        getBit t.cpm.ipsDiv p = getBit s.cpm.ipsDiv p) ∧
      t.cpm = { s.cpm with ipsDiv := t.cpm.ipsDiv } ∧ finished .ok s t ∧
      t.trace = .modify .engine (.cpm .ipsDiv) v2 w2 :: .modify .engine (.cpm .ipsDiv) v1 w1 ::
        .modify .engine (.cpm .ipsDiv) v0 w0 :: s.trace ∧
      getBit w0 s.cfg.layout.upd = false ∧ getBit w1 s.cfg.layout.upd = false ∧
      getBit w2 s.cfg.layout.upd = true ∧ clockFrame s t

/-- IPSDIV with a divider out of range finishes with ERR and no register write (R202). -/
def Obligations.IpsdivOutOfRangeFinishesErr : Prop :=
  ∀ (s : State) (loc : Locals), s.engine = .run .start loc → s.cfg.ipsdivMax < loc.a0.toNat →
    exec .ipsdiv s =
      .next { s with cmdif := { s.cmdif with res := .err, busy := false }, engine := .idle }

/-- GETFREQ, step by step: the first read keeps SYS_CLK, the second chooses the base from the first read's
SEL_STAT and keeps SYS_CLK again, the finish writes RESULT = base / (SYS_DIV + 1). No register of any block
is written (R205, R206; R208, which the spec marks as its own inference). -/
def Obligations.GetfreqComputesFrequency : Prop :=
  (∀ (s : State) (loc : Locals), s.engine = .run .start loc →
    ∃ t, exec .getfreq s = .next t ∧ t.engine = .run .freqDivider { loc with v := s.cpm.sysClk } ∧
      t.cmdif = s.cmdif ∧ t.trace = .read .engine (.cpm .sysClk) s.cpm.sysClk :: s.trace ∧
      readFrame s t) ∧
  (∀ (s : State) (loc : Locals), s.engine = .run .freqDivider loc →
    ∃ t base, exec .getfreq s = .next t ∧
      t.engine = .run .freqDone { loc with base := base, w := s.cpm.sysClk } ∧
      (getBit loc.v s.cfg.layout.selStat = false → base = s.cfg.lfiHz.toNat) ∧
      (getBit loc.v s.cfg.layout.selStat = true → base = s.cmdif.nomfreq.toNat) ∧
      t.cmdif = s.cmdif ∧ t.trace = .read .engine (.cpm .sysClk) s.cpm.sysClk :: s.trace ∧
      readFrame s t) ∧
  ∀ (s : State) (loc : Locals), s.engine = .run .freqDone loc →
    ∃ t, exec .getfreq s = .next t ∧
      t.cmdif = { s.cmdif with
        res := .ok, busy := false,
        result := BitVec.ofNat 32 (loc.base / (field loc.w s.cfg.layout.sysDiv s.cfg.sysdivWidth + 1)) } ∧
      t.engine = .idle ∧ t.trace = s.trace ∧ readFrame s t

/-- GETFREQ with no other agent between its steps: RESULT is the base of the source SEL_STAT reports,
divided by SYS_DIV + 1, truncated, exact in 32 bits (R205; R208, which the spec marks as its own
inference). -/
def Obligations.GetfreqResult : Prop :=
  ∀ (s : State) (loc : Locals), s.engine = .run .start loc →
    ∃ t, execTimes 3 .getfreq s = .next t ∧
      t.cmdif.result.toNat =
        (if s.selStat = .lfi then s.cfg.lfiHz.toNat else s.cmdif.nomfreq.toNat) / (s.sysDiv + 1) ∧
      t.cmdif = { s.cmdif with res := .ok, busy := false, result := t.cmdif.result } ∧
      t.engine = .idle ∧ t.trace.length = s.trace.length + 2 ∧ readFrame s t

/-! ## Cache configuration -/

/-- CEN writes EN in one access and finishes OK; no line, register or byte else changes (R222, R223). -/
def Obligations.CenWritesEnable : Prop :=
  ∀ (c : CacheId) (en : Bool) (s : State) (loc : Locals),
    configWf s.cfg = true → s.engine = .run .start loc →
    ∃ t t' v w, exec (.cen c en) s = .next t ∧ t.cmdif = s.cmdif ∧
      exec (.cen c en) t = .next t' ∧ t'.cacheEn c = en ∧
      (∀ p, p ≠ s.cfg.layout.cacheEn → getBit (t'.cache c).ccr p = getBit (s.cache c).ccr p) ∧
      t'.cache c = { s.cache c with ccr := (t'.cache c).ccr } ∧ finished .ok s t' ∧
      t'.trace = .modify .engine (.cache c .ccr) v w :: s.trace ∧ cacheFrame c s t'

/-- CRGN with valid codes: one read and one write of the region's register; every slot pair of the region
holds the policy's pair, every other bit and register, the resident lines and every byte are unchanged
(R226, R227, R228). -/
def Obligations.CrgnSetsRegionPolicy : Prop :=
  ∀ (c : CacheId) (rc : BitVec 4) (pc : BitVec 2) (s : State) (loc : Locals) (r : Region) (p : Policy),
    configWf s.cfg = true → s.engine = .run .start loc →
    regionOfCode? rc = some r → policyOfCode? pc = some p →
    ∃ t v, execTimes 3 (.crgn c rc pc) s = .next t ∧
      holdsPolicy t c r p ∧
      (∀ q, getBit (regionMask s.cfg.layout r) q = false →
        getBit ((t.cache c).word (rgnReg s.cfg.layout r)) q =
          getBit ((s.cache c).word (rgnReg s.cfg.layout r)) q) ∧
      (∀ q, q ≠ rgnReg s.cfg.layout r → (t.cache c).word q = (s.cache c).word q) ∧
      finished .ok s t ∧
      t.trace = .write .engine (.cache c (rgnReg s.cfg.layout r)) v ::
        .read .engine (.cache c (rgnReg s.cfg.layout r))
          ((s.cache c).word (rgnReg s.cfg.layout r)) :: s.trace ∧
      cacheFrame c s t ∧ sameLines c s t

/-- The bit pair each policy gives a slot (R51, R227). -/
def Obligations.PolicyPairs : Prop :=
  policyPair .off = (false, false) ∧ policyPair .writeThrough = (true, false) ∧
  policyPair .writeBack = (true, true) ∧
  policyOfCode? 0 = some .off ∧ policyOfCode? 1 = some .writeThrough ∧
  policyOfCode? 2 = some .writeBack ∧ policyOfCode? 3 = none

/-- CRGNALL with a valid set: a read and a write of each region's register, in region order; every
region holds its policy of the set; registers that hold no region, the lines and every byte are unchanged
(R229; R230, which the spec marks as its own inference). -/
def Obligations.CrgnallSetsEveryRegion : Prop :=
  ∀ (c : CacheId) (s : State) (loc : Locals),
    configWf s.cfg = true → s.engine = .run .start loc → validSet loc.a0 = true →
    ∃ t, execTimes 11 (.crgnall c) s = .next t ∧
      (∀ r p, setPolicy? loc.a0 r = some p → holdsPolicy t c r p) ∧
      (∀ q, q ∉ [CacheReg.crgn0, .crgn1] → (t.cache c).word q = (s.cache c).word q) ∧
      finished .ok s t ∧
      (∃ v : Region → Word × Word, t.trace = (allRegions.flatMap fun r =>
        [TraceEntry.read .engine (.cache c (rgnReg s.cfg.layout r)) (v r).1,
          .write .engine (.cache c (rgnReg s.cfg.layout r)) (v r).2]).reverse ++ s.trace) ∧
      cacheFrame c s t ∧ sameLines c s t

/-! ## Cache maintenance -/

/-- CINV: one write starts every way (both, in the source), whether the cache is enabled or not; the poll
waits while GO is 1; after ENV's completion every way is empty and CINV finishes OK (R240, R241, R242,
R84). -/
def Obligations.CinvEmptiesBothWays : Prop :=
  ∀ (c : CacheId) (s : State) (loc : Locals) (v : Word),
    configWf s.cfg = true → s.engine = .run .start loc → s.inFlight c = false →
    ∃ t u, exec (.cinv c) s = .next t ∧ t.engine = .run .invPoll loc ∧ t.cmdif = s.cmdif ∧
      t.go c = true ∧ (∀ w, w < s.cfg.nways → t.invWay c w = true) ∧
      t.cache c = { s.cache c with cmnt := (t.cache c).cmnt } ∧ cacheFrame c s t ∧
      (∃ t' loc', exec (.cinv c) t = .next t' ∧ t'.engine = .run .invPoll loc' ∧
        t'.cache c = t.cache c) ∧
      execTimes 2 (.cinv c) (envStep (.globalDone c v) t) = .next u ∧
      (∀ w, w < s.cfg.nways → u.lines c w = []) ∧ u.go c = false ∧
      (∀ q, q ≠ .cmnt → (u.cache c).word q = (s.cache c).word q) ∧
      finished .ok s u ∧ cacheFrame c s u

/-- CINVR on a disabled cache finishes OK after exactly one access, the CCR read (R245). -/
def Obligations.CinvrDisabledIsSilentNoOp : Prop :=
  ∀ (c : CacheId) (s : State) (loc : Locals),
    s.engine = .run .start loc → s.cacheEn c = false →
    ∃ t, execTimes 2 (.cinvr c) s = .next t ∧ finished .ok s t ∧
      t.trace = .read .engine (.cache c .ccr) (s.cache c).ccr :: s.trace ∧ readFrame s t

/-- CINVR with an aligned length that LEN cannot hold finishes with ERR after the CCR read and writes no
maintenance register (R246, the spec's own choice D34). -/
def Obligations.CinvrOversizedFinishesErr : Prop :=
  ∀ (c : CacheId) (s : State) (loc : Locals),
    s.engine = .run .start loc → s.cacheEn c = true →
    2 ^ s.cfg.lenWidth ≤ alignedLength s.cfg loc.a0 loc.a1 →
    ∃ t, execTimes 2 (.cinvr c) s = .next t ∧ finished .err s t ∧
      t.trace = .read .engine (.cache c .ccr) (s.cache c).ccr :: s.trace ∧ readFrame s t

/-- CINVR on an enabled cache: CRADDR takes the aligned base and CRSIZE the aligned length with STRT, in
that order; after ENV's completion exactly the lines of the range are gone from every way and CINVR
finishes OK (R243, R84). -/
def Obligations.CinvrRemovesTheRange : Prop :=
  ∀ (c : CacheId) (s : State) (loc : Locals),
    configWf s.cfg = true → regsOk s → s.engine = .run .start loc → s.cacheEn c = true →
    s.inFlight c = false → alignedLength s.cfg loc.a0 loc.a1 < 2 ^ s.cfg.lenWidth →
    ∃ t u v, execTimes 3 (.cinvr c) s = .next t ∧
      (t.cache c).craddr = alignBase s.cfg loc.a0 ∧
      t.rangeLen c = alignedLength s.cfg loc.a0 loc.a1 ∧ t.strt c = true ∧
      t.trace = .write .engine (.cache c .crsize) v ::
        .write .engine (.cache c .craddr) (alignBase s.cfg loc.a0) ::
        .read .engine (.cache c .ccr) (s.cache c).ccr :: s.trace ∧
      sameLines c s t ∧ cacheFrame c s t ∧
      execTimes 2 (.cinvr c) (envStep (.rangeDone c) t) = .next u ∧
      (∀ w a, a ∈ u.lines c w ↔
        a ∈ s.lines c w ∧
          alignedLength s.cfg loc.a0 loc.a1 ≤ (a - alignBase s.cfg loc.a0).toNat) ∧
      u.strt c = false ∧ u.rangeLen c = alignedLength s.cfg loc.a0 loc.a1 ∧
      (∀ q, q ≠ .craddr → q ≠ .crsize → (u.cache c).word q = (s.cache c).word q) ∧
      finished .ok s u ∧ cacheFrame c s u

/-- The alignment arithmetic: the base is the line of `addr`, the length is a multiple of the line, and
the aligned range covers every byte of the given one with less than a line to spare at each end (R244,
which the spec marks as its own inference). -/
def Obligations.AlignedRangeCovers : Prop :=
  ∀ (cfg : Config) (addr len : Word), configWf cfg = true →
    (alignBase cfg addr).toNat = addr.toNat - addr.toNat % cfg.line ∧
    alignedLength cfg addr len % cfg.line = 0 ∧
    addr.toNat + len.toNat ≤ (alignBase cfg addr).toNat + alignedLength cfg addr len ∧
    (alignBase cfg addr).toNat + alignedLength cfg addr len < addr.toNat + len.toNat + cfg.line

/-- CINIT with a valid set: disabled, set, invalidated, enabled. After its first twelve steps the cache is
disabled and a global invalidation of every way runs; after ENV's completion and three more steps the cache
is enabled, every way is empty and every region holds its policy (R250; R251, which the spec marks as its
own inference). -/
def Obligations.CinitInitialises : Prop :=
  ∀ (c : CacheId) (s : State) (loc : Locals) (v : Word),
    configWf s.cfg = true → s.engine = .run .start loc → validSet loc.a0 = true →
    s.inFlight c = false →
    ∃ t u, execTimes 12 (.cinit c) s = .next t ∧ t.cacheEn c = false ∧ t.go c = true ∧
      (∀ w, w < s.cfg.nways → t.invWay c w = true) ∧
      t.trace.length = s.trace.length + 12 ∧ cacheFrame c s t ∧ sameLines c s t ∧
      execTimes 3 (.cinit c) (envStep (.globalDone c v) t) = .next u ∧
      u.cacheEn c = true ∧ (∀ w, w < s.cfg.nways → u.lines c w = []) ∧
      (∀ r p, setPolicy? loc.a0 r = some p → holdsPolicy u c r p) ∧
      (∀ q, q ∈ [CacheReg.craddr, .crsize] → (u.cache c).word q = (s.cache c).word q) ∧
      finished .ok s u ∧ cacheFrame c s u

/-- The initializer's guarantee, in every run and under every interleaving: the progress of a running CINIT
is kept by every step, and the step that sets EN finds every way empty and every region with its policy
(R252, which the spec marks as its own inference). -/
def Obligations.CinitGuarantee : Prop :=
  (∀ (c : CacheId) (s t : State), RunInv s → cinitProgress c s → step s = .next t → cinitProgress c t) ∧
  ∀ (c : CacheId) (s : State) (loc : Locals), Reachable s → Runs (.cinit c) .cacheEnable loc s →
    ∃ t, exec (.cinit c) s = .next t ∧ t.cacheEn c = true ∧ waysEmpty c t ∧
      ∀ r p, setPolicy? loc.a0 r = some p → holdsPolicy t c r p

/-- Every CINV, CINVR and CINIT eventually finishes, in every run in which the engine and maintenance
completion are fair (R322, R242, R249). -/
def Obligations.MaintenanceCommandsFinish : Prop :=
  ∀ (ev : Nat → Event) (σ : Nat → State),
    IsRun ev σ → RunInv (σ 0) → EngineFair ev σ → MaintFair ev σ →
    ∀ (k : Nat) (i : Instr) (pos : Pos) (loc : Locals),
      Runs i pos loc (σ k) → isMaintenance i = true → ∃ m, k ≤ m ∧ (σ m).engine = .idle

/-! ## ENV -/

/-- What an ENV step may change: STABLE, SEL_STAT, HS_DISTURB, the way bits and GO of CMNT, STRT and the
resident lines, and TRACE; nothing else (R315). -/
def Obligations.EnvChangesOnlyItsFields : Prop :=
  ∀ (e : EnvEvent) (s : State),
    sameWorld s (envStep e s) ∧ (envStep e s).cmdif = s.cmdif ∧ (envStep e s).engine = s.engine ∧
    (envStep e s).keyState = s.keyState ∧ (envStep e s).draws = s.draws ∧
    (envStep e s).cpm = { s.cpm with
      oscCs := (envStep e s).cpm.oscCs, sysClk := (envStep e s).cpm.sysClk } ∧
    (∀ p, p ≠ s.cfg.layout.lfiStable → p ≠ s.cfg.layout.hsStable →
      getBit (envStep e s).cpm.oscCs p = getBit s.cpm.oscCs p) ∧
    (∀ p, p ≠ s.cfg.layout.selStat →
      getBit (envStep e s).cpm.sysClk p = getBit s.cpm.sysClk p) ∧
    ∀ c, (∀ q, q ≠ .cmnt → q ≠ .crsize →
        ((envStep e s).cache c).word q = (s.cache c).word q) ∧
      (∀ p, p ≠ s.cfg.layout.go → p ∉ s.cfg.layout.invW →
        getBit ((envStep e s).cache c).cmnt p = getBit (s.cache c).cmnt p) ∧
      ∀ p, p ≠ s.cfg.layout.strt →
        getBit ((envStep e s).cache c).crsize p = getBit (s.cache c).crsize p

/-- The oscillator and switch rules: what enables each, and the one thing an enabled one does besides its
TRACE entry (R316 to R319). That a rule which is not enabled does nothing when its event is asked for is
the model's DESIGN CHOICE (log 2). -/
def Obligations.EnvClockRules : Prop :=
  ∀ s : State, configWf s.cfg = true →
    (∀ k t, t = envStep (.stabilise k) s →
      (s.oscEn k = true ∧ s.oscStable k = false →
        t.oscStable k = true ∧
        (∀ p, p ≠ stablePos s.cfg.layout k → getBit t.cpm.oscCs p = getBit s.cpm.oscCs p) ∧
        t.cpm = { s.cpm with oscCs := t.cpm.oscCs } ∧ t.hsDisturb = s.hsDisturb ∧ sameCaches s t ∧
        t.trace = .env (.stabilise k) :: s.trace) ∧
      (¬ (s.oscEn k = true ∧ s.oscStable k = false) → t = s)) ∧
    (∀ t, t = envStep .disturb s →
      (s.hsDisturb = true →
        t.oscStable .hsosc = false ∧ t.hsDisturb = false ∧
        (∀ p, p ≠ s.cfg.layout.hsStable → getBit t.cpm.oscCs p = getBit s.cpm.oscCs p) ∧
        t.cpm = { s.cpm with oscCs := t.cpm.oscCs } ∧ sameCaches s t ∧
        t.trace = .env .disturb :: s.trace) ∧
      (s.hsDisturb = false → t = s)) ∧
    (∀ k t, t = envStep (.oscStop k) s →
      (s.oscEn k = false ∧ s.oscStable k = true →
        t.oscStable k = false ∧
        (∀ p, p ≠ stablePos s.cfg.layout k → getBit t.cpm.oscCs p = getBit s.cpm.oscCs p) ∧
        t.cpm = { s.cpm with oscCs := t.cpm.oscCs } ∧ t.hsDisturb = s.hsDisturb ∧ sameCaches s t ∧
        t.trace = .env (.oscStop k) :: s.trace) ∧
      (¬ (s.oscEn k = false ∧ s.oscStable k = true) → t = s)) ∧
    ∀ t, t = envStep .switchTakes s →
      (s.selStat ≠ s.sel ∧ s.oscStable s.sel = true →
        t.selStat = s.sel ∧
        (∀ p, p ≠ s.cfg.layout.selStat → getBit t.cpm.sysClk p = getBit s.cpm.sysClk p) ∧
        t.cpm = { s.cpm with sysClk := t.cpm.sysClk } ∧ t.hsDisturb = s.hsDisturb ∧ sameCaches s t ∧
        t.trace = .env .switchTakes :: s.trace) ∧
      (¬ (s.selStat ≠ s.sel ∧ s.oscStable s.sel = true) → t = s)

/-- Maintenance completion: a global one empties the ways whose bits are set, clears GO and leaves the way
bits with the drawn values; a range one removes, from every way, the lines whose distance from CRADDR is
below LEN, modulo 2^32, clears STRT and keeps LEN (R84, R320, R321). -/
def Obligations.EnvCompletesMaintenance : Prop :=
  ∀ (s : State) (c : CacheId), configWf s.cfg = true →
    (∀ v, s.go c = true →
      (envStep (.globalDone c v) s).go c = false ∧
      (∀ w, w < s.cfg.nways →
        (envStep (.globalDone c v) s).invWay c w = getBit v (invPos s.cfg.layout w)) ∧
      (envStep (.globalDone c v) s).strt c = s.strt c ∧
      ∀ w, (envStep (.globalDone c v) s).lines c w =
        if s.invWay c w = true then [] else s.lines c w) ∧
    (s.strt c = true →
      (envStep (.rangeDone c) s).strt c = false ∧
      (envStep (.rangeDone c) s).rangeLen c = s.rangeLen c ∧
      (envStep (.rangeDone c) s).go c = s.go c ∧
      ∀ w a, a ∈ (envStep (.rangeDone c) s).lines c w ↔
        a ∈ s.lines c w ∧ s.rangeLen c ≤ (a.toNat + 2 ^ 32 - (s.cache c).craddr.toNat) % 2 ^ 32)

/-- A line becomes resident only by a fill, only while the cache is enabled, and only at a line address;
and a fill that is enabled adds exactly its line to exactly its way, keeps the set canonical, is recorded
in TRACE, and changes nothing else (R53, R323). -/
def Obligations.LinesAppearOnlyByFills : Prop :=
  (∀ (s t : State) (c : CacheId) (w : Nat) (a : Word), step s = .next t →
    a ∈ t.lines c w → a ∉ s.lines c w →
    nextEvent s = .env (.fill c w a) ∧ s.cacheEn c = true ∧ w < s.cfg.nways ∧
      a.toNat % s.cfg.line = 0) ∧
  ∀ (s : State) (c : CacheId) (w : Nat) (a : Word), residencyOk s →
    s.cacheEn c = true → w < s.cfg.nways → a.toNat % s.cfg.line = 0 →
    ∃ t, perform (.env (.fill c w a)) s = .next t ∧
      (∀ b, b ∈ t.lines c w ↔ b = a ∨ b ∈ s.lines c w) ∧
      (∀ w', w' ≠ w → t.lines c w' = s.lines c w') ∧ residencyOk t ∧
      t.cache c = { s.cache c with lines := (t.cache c).lines } ∧
      t.cache (otherCache c) = s.cache (otherCache c) ∧
      t.trace = .env (.fill c w a) :: s.trace ∧
      t.cpm = s.cpm ∧ t.cmdif = s.cmdif ∧ t.engine = s.engine ∧ t.keyState = s.keyState ∧
      t.hsDisturb = s.hsDisturb ∧ t.draws = s.draws ∧ sameWorld s t

/-- The eager schedule's ENV steps reach a state in which none of its rules is enabled (R324). -/
def Obligations.EagerScheduleReachesFixpoint : Prop :=
  ∀ s : State, configWf s.cfg = true →
    (∀ k, envEnabled (.stabilise k) (eagerEnv s) = false) ∧
    envEnabled .switchTakes (eagerEnv s) = false ∧
    ∀ c v, envEnabled (.globalDone c v) (eagerEnv s) = false ∧
      envEnabled (.rangeDone c) (eagerEnv s) = false
end

