-- ==== Sys2Proof/Laws/Bits.lean ====
section
/-! SUPPORT. The bits of the register-word operations of Machine/Layout.lean: each operation, read one
bit at a time, and fields as naturals. -/

namespace Sys2Proof.Machine

theorem word_ext {v w : Word} (h : ∀ p, p < 32 → getBit v p = getBit w p) : v = w :=
  BitVec.eq_of_getLsbD_eq fun i hi => h i hi

theorem getBit_ge {v : Word} {p : Nat} (h : 32 ≤ p) : getBit v p = false :=
  BitVec.getLsbD_of_ge v p h

@[simp] theorem getBit_zero (p : Nat) : getBit 0#32 p = false := by simp [getBit]

@[simp] theorem getBit_or (v w : Word) (p : Nat) :
    getBit (v ||| w) p = (getBit v p || getBit w p) := by simp [getBit]

@[simp] theorem getBit_and (v w : Word) (p : Nat) :
    getBit (v &&& w) p = (getBit v p && getBit w p) := by simp [getBit]

@[simp] theorem getBit_not (v : Word) (p : Nat) :
    getBit (~~~v) p = (decide (p < 32) && !getBit v p) := by simp [getBit]

theorem getBit_and_not (v w : Word) (p : Nat) :
    getBit (v &&& ~~~w) p = (getBit v p && !getBit w p) := by
  by_cases h : p < 32
  · simp [h]
  · simp [getBit_ge (Nat.le_of_not_lt h)]

theorem getBit_bit (p q : Nat) : getBit (bit p) q = (decide (p < 32) && decide (p = q)) := by
  simp [getBit, bit, BitVec.getLsbD_twoPow]

@[simp] theorem getBit_bit_self {p : Nat} (h : p < 32) : getBit (bit p) p = true := by
  simp [getBit_bit, h]

theorem getBit_bit_ne {p q : Nat} (h : p ≠ q) : getBit (bit p) q = false := by
  simp [getBit_bit, h]

theorem getBit_ofNat_ones (w q : Nat) :
    getBit (BitVec.ofNat 32 (2 ^ w - 1)) q = (decide (q < w) && decide (q < 32)) := by
  simp [getBit, BitVec.getLsbD_ofNat, Nat.testBit_two_pow_sub_one, Bool.and_comm]

theorem getBit_shiftLeft (v : Word) (k q : Nat) :
    getBit (v <<< k) q = (decide (q < 32) && decide (k ≤ q) && getBit v (q - k)) := by
  simp only [getBit, BitVec.getLsbD_shiftLeft]
  by_cases h : q < k
  · simp [h]
  · simp [h, Nat.le_of_not_lt h]

/-- The bits of a field's mask: those of the field. -/
theorem getBit_bits (p w q : Nat) :
    getBit (bits p w) q = (decide (q < 32) && (decide (p ≤ q) && decide (q < p + w))) := by
  rw [bits, getBit_shiftLeft, getBit_ofNat_ones, Bool.eq_iff_iff]
  simp only [Bool.and_eq_true, decide_eq_true_eq]
  omega

theorem getBit_merge (m old new : Word) (p : Nat) :
    getBit (merge m old new) p = if getBit m p then getBit new p else getBit old p := by
  rw [merge, getBit_or, getBit_and_not, getBit_and]
  cases getBit m p <;> simp

theorem getBit_putBit (v : Word) (p q : Nat) (b : Bool) :
    getBit (putBit v p b) q = if p = q ∧ p < 32 then b else getBit v q := by
  by_cases h : p = q
  · subst h
    by_cases h' : p < 32
    · cases b <;> simp [putBit, h']
    · simp [h', getBit_ge (Nat.le_of_not_lt h')]
  · cases b
    · simp [putBit, getBit_bit, h, getBit_and_not, -getBit_and]
    · simp [putBit, getBit_bit, h]

theorem getBit_flag (p q : Nat) (b : Bool) :
    getBit (flag p b) q = (b && (decide (p < 32) && decide (p = q))) := by
  cases b <;> simp [flag, getBit_bit]

/-- Masking with one bit: the word is 0 or the bit's mask, as the bit is. -/
theorem and_bit (v : Word) (p : Nat) : v &&& bit p = flag p (getBit v p) := by
  apply word_ext
  intro q _
  rw [getBit_and, getBit_bit, getBit_flag]
  by_cases h : p = q
  · subst h; simp
  · simp [h]

/-- A poll of one bit for a value sees that value exactly when the bit has it (R136). -/
theorem and_bit_eq_flag (v : Word) {p : Nat} (hp : p < 32) (b : Bool) :
    v &&& bit p = flag p b ↔ getBit v p = b := by
  rw [and_bit]
  constructor
  · intro h
    have := congrArg (fun x => getBit x p) h
    simpa [getBit_flag, hp] using this
  · intro h; rw [h]

theorem bit_eq_flag (p : Nat) : bit p = flag p true := rfl

theorem zero_eq_flag (p : Nat) : 0#32 = flag p false := rfl

/-! ## Fields -/

theorem field_testBit (v : Word) (p w i : Nat) :
    (field v p w).testBit i = (decide (i < w) && getBit v (p + i)) := by
  rw [field, Nat.testBit_mod_two_pow, Nat.testBit_div_two_pow, getBit, BitVec.getLsbD]
  rw [Nat.add_comm]

/-- A field depends on its own bits alone. -/
theorem field_congr {v v' : Word} {p w : Nat}
    (h : ∀ q, p ≤ q → q < p + w → getBit v q = getBit v' q) : field v p w = field v' p w := by
  apply Nat.eq_of_testBit_eq
  intro i
  rw [field_testBit, field_testBit]
  by_cases hi : i < w
  · rw [h (p + i) (by omega) (by omega)]
  · simp [hi]

theorem field_lt (v : Word) (p w : Nat) : field v p w < 2 ^ w := Nat.mod_lt _ (Nat.two_pow_pos w)

/-- A value placed at a field's position reads back from it, cut to the field's width. -/
theorem field_shiftLeft {x : Word} {p w : Nat} (h : p + w ≤ 32) :
    field (x <<< p) p w = x.toNat % 2 ^ w := by
  apply Nat.eq_of_testBit_eq
  intro i
  rw [field_testBit, Nat.testBit_mod_two_pow, getBit_shiftLeft]
  by_cases hi : i < w
  · have : p + i < 32 := by omega
    simp [hi, this, getBit, BitVec.getLsbD]
  · simp [hi]

/-- What a read-modify-write of one field leaves in it. -/
theorem field_merge_shiftLeft {m old x : Word} {p w : Nat} (h : p + w ≤ 32)
    (hm : ∀ q, p ≤ q → q < p + w → getBit m q = true) :
    field (merge m old (x <<< p)) p w = x.toNat % 2 ^ w := by
  rw [← field_shiftLeft h]
  apply field_congr
  intro q h1 h2
  rw [getBit_merge, hm q h1 h2]
  rfl

end Sys2Proof.Machine
end

