-- ==== Sys2Proof/Laws/State.lean ====
section
/-! SUPPORT. One lemma per field per update of the state, so that no later proof unfolds a record
update. -/

namespace Sys2Proof.Machine

@[simp] theorem State.setCmdif_cfg (s : State) (x : Cmdif) : (s.setCmdif x).cfg = s.cfg := rfl
@[simp] theorem State.setCmdif_otp (s : State) (x : Cmdif) : (s.setCmdif x).otp = s.otp := rfl
@[simp] theorem State.setCmdif_cmdif (s : State) (x : Cmdif) : (s.setCmdif x).cmdif = x := rfl
@[simp] theorem State.setCmdif_engine (s : State) (x : Cmdif) : (s.setCmdif x).engine = s.engine := rfl
@[simp] theorem State.setCmdif_cpm (s : State) (x : Cmdif) : (s.setCmdif x).cpm = s.cpm := rfl
@[simp] theorem State.setCmdif_icache (s : State) (x : Cmdif) : (s.setCmdif x).icache = s.icache := rfl
@[simp] theorem State.setCmdif_dcache (s : State) (x : Cmdif) : (s.setCmdif x).dcache = s.dcache := rfl
@[simp] theorem State.setCmdif_keyState (s : State) (x : Cmdif) : (s.setCmdif x).keyState = s.keyState := rfl
@[simp] theorem State.setCmdif_hsDisturb (s : State) (x : Cmdif) : (s.setCmdif x).hsDisturb = s.hsDisturb := rfl
@[simp] theorem State.setCmdif_trace (s : State) (x : Cmdif) : (s.setCmdif x).trace = s.trace := rfl
@[simp] theorem State.setCmdif_agenda (s : State) (x : Cmdif) : (s.setCmdif x).agenda = s.agenda := rfl
@[simp] theorem State.setCmdif_draws (s : State) (x : Cmdif) : (s.setCmdif x).draws = s.draws := rfl
@[simp] theorem State.setCmdif_cache (s : State) (x : Cmdif) (c : CacheId) :
    (s.setCmdif x).cache c = s.cache c := by cases c <;> rfl

@[simp] theorem State.setEngine_cfg (s : State) (x : Engine) : (s.setEngine x).cfg = s.cfg := rfl
@[simp] theorem State.setEngine_otp (s : State) (x : Engine) : (s.setEngine x).otp = s.otp := rfl
@[simp] theorem State.setEngine_cmdif (s : State) (x : Engine) : (s.setEngine x).cmdif = s.cmdif := rfl
@[simp] theorem State.setEngine_engine (s : State) (x : Engine) : (s.setEngine x).engine = x := rfl
@[simp] theorem State.setEngine_cpm (s : State) (x : Engine) : (s.setEngine x).cpm = s.cpm := rfl
@[simp] theorem State.setEngine_icache (s : State) (x : Engine) : (s.setEngine x).icache = s.icache := rfl
@[simp] theorem State.setEngine_dcache (s : State) (x : Engine) : (s.setEngine x).dcache = s.dcache := rfl
@[simp] theorem State.setEngine_keyState (s : State) (x : Engine) : (s.setEngine x).keyState = s.keyState := rfl
@[simp] theorem State.setEngine_hsDisturb (s : State) (x : Engine) : (s.setEngine x).hsDisturb = s.hsDisturb := rfl
@[simp] theorem State.setEngine_trace (s : State) (x : Engine) : (s.setEngine x).trace = s.trace := rfl
@[simp] theorem State.setEngine_agenda (s : State) (x : Engine) : (s.setEngine x).agenda = s.agenda := rfl
@[simp] theorem State.setEngine_draws (s : State) (x : Engine) : (s.setEngine x).draws = s.draws := rfl
@[simp] theorem State.setEngine_cache (s : State) (x : Engine) (c : CacheId) :
    (s.setEngine x).cache c = s.cache c := by cases c <;> rfl

@[simp] theorem State.setCpm_cfg (s : State) (x : Cpm) : (s.setCpm x).cfg = s.cfg := rfl
@[simp] theorem State.setCpm_otp (s : State) (x : Cpm) : (s.setCpm x).otp = s.otp := rfl
@[simp] theorem State.setCpm_cmdif (s : State) (x : Cpm) : (s.setCpm x).cmdif = s.cmdif := rfl
@[simp] theorem State.setCpm_engine (s : State) (x : Cpm) : (s.setCpm x).engine = s.engine := rfl
@[simp] theorem State.setCpm_cpm (s : State) (x : Cpm) : (s.setCpm x).cpm = x := rfl
@[simp] theorem State.setCpm_icache (s : State) (x : Cpm) : (s.setCpm x).icache = s.icache := rfl
@[simp] theorem State.setCpm_dcache (s : State) (x : Cpm) : (s.setCpm x).dcache = s.dcache := rfl
@[simp] theorem State.setCpm_keyState (s : State) (x : Cpm) : (s.setCpm x).keyState = s.keyState := rfl
@[simp] theorem State.setCpm_hsDisturb (s : State) (x : Cpm) : (s.setCpm x).hsDisturb = s.hsDisturb := rfl
@[simp] theorem State.setCpm_trace (s : State) (x : Cpm) : (s.setCpm x).trace = s.trace := rfl
@[simp] theorem State.setCpm_agenda (s : State) (x : Cpm) : (s.setCpm x).agenda = s.agenda := rfl
@[simp] theorem State.setCpm_draws (s : State) (x : Cpm) : (s.setCpm x).draws = s.draws := rfl
@[simp] theorem State.setCpm_cache (s : State) (x : Cpm) (c : CacheId) :
    (s.setCpm x).cache c = s.cache c := by cases c <;> rfl

@[simp] theorem State.setKey_cfg (s : State) (x : KeyState) : (s.setKey x).cfg = s.cfg := rfl
@[simp] theorem State.setKey_otp (s : State) (x : KeyState) : (s.setKey x).otp = s.otp := rfl
@[simp] theorem State.setKey_cmdif (s : State) (x : KeyState) : (s.setKey x).cmdif = s.cmdif := rfl
@[simp] theorem State.setKey_engine (s : State) (x : KeyState) : (s.setKey x).engine = s.engine := rfl
@[simp] theorem State.setKey_cpm (s : State) (x : KeyState) : (s.setKey x).cpm = s.cpm := rfl
@[simp] theorem State.setKey_icache (s : State) (x : KeyState) : (s.setKey x).icache = s.icache := rfl
@[simp] theorem State.setKey_dcache (s : State) (x : KeyState) : (s.setKey x).dcache = s.dcache := rfl
@[simp] theorem State.setKey_keyState (s : State) (x : KeyState) : (s.setKey x).keyState = x := rfl
@[simp] theorem State.setKey_hsDisturb (s : State) (x : KeyState) : (s.setKey x).hsDisturb = s.hsDisturb := rfl
@[simp] theorem State.setKey_trace (s : State) (x : KeyState) : (s.setKey x).trace = s.trace := rfl
@[simp] theorem State.setKey_agenda (s : State) (x : KeyState) : (s.setKey x).agenda = s.agenda := rfl
@[simp] theorem State.setKey_draws (s : State) (x : KeyState) : (s.setKey x).draws = s.draws := rfl
@[simp] theorem State.setKey_cache (s : State) (x : KeyState) (c : CacheId) :
    (s.setKey x).cache c = s.cache c := by cases c <;> rfl

@[simp] theorem State.setDisturb_cfg (s : State) (x : Bool) : (s.setDisturb x).cfg = s.cfg := rfl
@[simp] theorem State.setDisturb_otp (s : State) (x : Bool) : (s.setDisturb x).otp = s.otp := rfl
@[simp] theorem State.setDisturb_cmdif (s : State) (x : Bool) : (s.setDisturb x).cmdif = s.cmdif := rfl
@[simp] theorem State.setDisturb_engine (s : State) (x : Bool) : (s.setDisturb x).engine = s.engine := rfl
@[simp] theorem State.setDisturb_cpm (s : State) (x : Bool) : (s.setDisturb x).cpm = s.cpm := rfl
@[simp] theorem State.setDisturb_icache (s : State) (x : Bool) : (s.setDisturb x).icache = s.icache := rfl
@[simp] theorem State.setDisturb_dcache (s : State) (x : Bool) : (s.setDisturb x).dcache = s.dcache := rfl
@[simp] theorem State.setDisturb_keyState (s : State) (x : Bool) : (s.setDisturb x).keyState = s.keyState := rfl
@[simp] theorem State.setDisturb_hsDisturb (s : State) (x : Bool) : (s.setDisturb x).hsDisturb = x := rfl
@[simp] theorem State.setDisturb_trace (s : State) (x : Bool) : (s.setDisturb x).trace = s.trace := rfl
@[simp] theorem State.setDisturb_agenda (s : State) (x : Bool) : (s.setDisturb x).agenda = s.agenda := rfl
@[simp] theorem State.setDisturb_draws (s : State) (x : Bool) : (s.setDisturb x).draws = s.draws := rfl
@[simp] theorem State.setDisturb_cache (s : State) (x : Bool) (c : CacheId) :
    (s.setDisturb x).cache c = s.cache c := by cases c <;> rfl

@[simp] theorem State.setDraws_cfg (s : State) (x : Nat) : (s.setDraws x).cfg = s.cfg := rfl
@[simp] theorem State.setDraws_otp (s : State) (x : Nat) : (s.setDraws x).otp = s.otp := rfl
@[simp] theorem State.setDraws_cmdif (s : State) (x : Nat) : (s.setDraws x).cmdif = s.cmdif := rfl
@[simp] theorem State.setDraws_engine (s : State) (x : Nat) : (s.setDraws x).engine = s.engine := rfl
@[simp] theorem State.setDraws_cpm (s : State) (x : Nat) : (s.setDraws x).cpm = s.cpm := rfl
@[simp] theorem State.setDraws_icache (s : State) (x : Nat) : (s.setDraws x).icache = s.icache := rfl
@[simp] theorem State.setDraws_dcache (s : State) (x : Nat) : (s.setDraws x).dcache = s.dcache := rfl
@[simp] theorem State.setDraws_keyState (s : State) (x : Nat) : (s.setDraws x).keyState = s.keyState := rfl
@[simp] theorem State.setDraws_hsDisturb (s : State) (x : Nat) : (s.setDraws x).hsDisturb = s.hsDisturb := rfl
@[simp] theorem State.setDraws_trace (s : State) (x : Nat) : (s.setDraws x).trace = s.trace := rfl
@[simp] theorem State.setDraws_agenda (s : State) (x : Nat) : (s.setDraws x).agenda = s.agenda := rfl
@[simp] theorem State.setDraws_draws (s : State) (x : Nat) : (s.setDraws x).draws = x := rfl
@[simp] theorem State.setDraws_cache (s : State) (x : Nat) (c : CacheId) :
    (s.setDraws x).cache c = s.cache c := by cases c <;> rfl

@[simp] theorem State.log_cfg (s : State) (x : TraceEntry) : (s.log x).cfg = s.cfg := rfl
@[simp] theorem State.log_otp (s : State) (x : TraceEntry) : (s.log x).otp = s.otp := rfl
@[simp] theorem State.log_cmdif (s : State) (x : TraceEntry) : (s.log x).cmdif = s.cmdif := rfl
@[simp] theorem State.log_engine (s : State) (x : TraceEntry) : (s.log x).engine = s.engine := rfl
@[simp] theorem State.log_cpm (s : State) (x : TraceEntry) : (s.log x).cpm = s.cpm := rfl
@[simp] theorem State.log_icache (s : State) (x : TraceEntry) : (s.log x).icache = s.icache := rfl
@[simp] theorem State.log_dcache (s : State) (x : TraceEntry) : (s.log x).dcache = s.dcache := rfl
@[simp] theorem State.log_keyState (s : State) (x : TraceEntry) : (s.log x).keyState = s.keyState := rfl
@[simp] theorem State.log_hsDisturb (s : State) (x : TraceEntry) : (s.log x).hsDisturb = s.hsDisturb := rfl
@[simp] theorem State.log_trace (s : State) (x : TraceEntry) : (s.log x).trace = x :: s.trace := rfl
@[simp] theorem State.log_agenda (s : State) (x : TraceEntry) : (s.log x).agenda = s.agenda := rfl
@[simp] theorem State.log_draws (s : State) (x : TraceEntry) : (s.log x).draws = s.draws := rfl
@[simp] theorem State.log_cache (s : State) (x : TraceEntry) (c : CacheId) :
    (s.log x).cache c = s.cache c := by cases c <;> rfl

@[simp] theorem State.setCsw_cfg (s : State) (x : CswState) : (s.setCsw x).cfg = s.cfg := rfl
@[simp] theorem State.setCsw_otp (s : State) (x : CswState) : (s.setCsw x).otp = s.otp := rfl
@[simp] theorem State.setCsw_cmdif (s : State) (x : CswState) : (s.setCsw x).cmdif = { s.cmdif with csw := x } := rfl
@[simp] theorem State.setCsw_engine (s : State) (x : CswState) : (s.setCsw x).engine = s.engine := rfl
@[simp] theorem State.setCsw_cpm (s : State) (x : CswState) : (s.setCsw x).cpm = s.cpm := rfl
@[simp] theorem State.setCsw_icache (s : State) (x : CswState) : (s.setCsw x).icache = s.icache := rfl
@[simp] theorem State.setCsw_dcache (s : State) (x : CswState) : (s.setCsw x).dcache = s.dcache := rfl
@[simp] theorem State.setCsw_keyState (s : State) (x : CswState) : (s.setCsw x).keyState = s.keyState := rfl
@[simp] theorem State.setCsw_hsDisturb (s : State) (x : CswState) : (s.setCsw x).hsDisturb = s.hsDisturb := rfl
@[simp] theorem State.setCsw_trace (s : State) (x : CswState) : (s.setCsw x).trace = s.trace := rfl
@[simp] theorem State.setCsw_agenda (s : State) (x : CswState) : (s.setCsw x).agenda = s.agenda := rfl
@[simp] theorem State.setCsw_draws (s : State) (x : CswState) : (s.setCsw x).draws = s.draws := rfl
@[simp] theorem State.setCsw_cache (s : State) (x : CswState) (c : CacheId) :
    (s.setCsw x).cache c = s.cache c := by cases c <;> rfl

@[simp] theorem State.setNomfreq_cfg (s : State) (x : Word) : (s.setNomfreq x).cfg = s.cfg := rfl
@[simp] theorem State.setNomfreq_otp (s : State) (x : Word) : (s.setNomfreq x).otp = s.otp := rfl
@[simp] theorem State.setNomfreq_cmdif (s : State) (x : Word) : (s.setNomfreq x).cmdif = { s.cmdif with nomfreq := x } := rfl
@[simp] theorem State.setNomfreq_engine (s : State) (x : Word) : (s.setNomfreq x).engine = s.engine := rfl
@[simp] theorem State.setNomfreq_cpm (s : State) (x : Word) : (s.setNomfreq x).cpm = s.cpm := rfl
@[simp] theorem State.setNomfreq_icache (s : State) (x : Word) : (s.setNomfreq x).icache = s.icache := rfl
@[simp] theorem State.setNomfreq_dcache (s : State) (x : Word) : (s.setNomfreq x).dcache = s.dcache := rfl
@[simp] theorem State.setNomfreq_keyState (s : State) (x : Word) : (s.setNomfreq x).keyState = s.keyState := rfl
@[simp] theorem State.setNomfreq_hsDisturb (s : State) (x : Word) : (s.setNomfreq x).hsDisturb = s.hsDisturb := rfl
@[simp] theorem State.setNomfreq_trace (s : State) (x : Word) : (s.setNomfreq x).trace = s.trace := rfl
@[simp] theorem State.setNomfreq_agenda (s : State) (x : Word) : (s.setNomfreq x).agenda = s.agenda := rfl
@[simp] theorem State.setNomfreq_draws (s : State) (x : Word) : (s.setNomfreq x).draws = s.draws := rfl
@[simp] theorem State.setNomfreq_cache (s : State) (x : Word) (c : CacheId) :
    (s.setNomfreq x).cache c = s.cache c := by cases c <;> rfl

@[simp] theorem State.setResult_cfg (s : State) (x : Word) : (s.setResult x).cfg = s.cfg := rfl
@[simp] theorem State.setResult_otp (s : State) (x : Word) : (s.setResult x).otp = s.otp := rfl
@[simp] theorem State.setResult_cmdif (s : State) (x : Word) : (s.setResult x).cmdif = { s.cmdif with result := x } := rfl
@[simp] theorem State.setResult_engine (s : State) (x : Word) : (s.setResult x).engine = s.engine := rfl
@[simp] theorem State.setResult_cpm (s : State) (x : Word) : (s.setResult x).cpm = s.cpm := rfl
@[simp] theorem State.setResult_icache (s : State) (x : Word) : (s.setResult x).icache = s.icache := rfl
@[simp] theorem State.setResult_dcache (s : State) (x : Word) : (s.setResult x).dcache = s.dcache := rfl
@[simp] theorem State.setResult_keyState (s : State) (x : Word) : (s.setResult x).keyState = s.keyState := rfl
@[simp] theorem State.setResult_hsDisturb (s : State) (x : Word) : (s.setResult x).hsDisturb = s.hsDisturb := rfl
@[simp] theorem State.setResult_trace (s : State) (x : Word) : (s.setResult x).trace = s.trace := rfl
@[simp] theorem State.setResult_agenda (s : State) (x : Word) : (s.setResult x).agenda = s.agenda := rfl
@[simp] theorem State.setResult_draws (s : State) (x : Word) : (s.setResult x).draws = s.draws := rfl
@[simp] theorem State.setResult_cache (s : State) (x : Word) (c : CacheId) :
    (s.setResult x).cache c = s.cache c := by cases c <;> rfl

@[simp] theorem State.setCache_cfg (s : State) (c : CacheId) (x : Cache) :
    (s.setCache c x).cfg = s.cfg := by cases c <;> rfl
@[simp] theorem State.setCache_otp (s : State) (c : CacheId) (x : Cache) :
    (s.setCache c x).otp = s.otp := by cases c <;> rfl
@[simp] theorem State.setCache_cmdif (s : State) (c : CacheId) (x : Cache) :
    (s.setCache c x).cmdif = s.cmdif := by cases c <;> rfl
@[simp] theorem State.setCache_engine (s : State) (c : CacheId) (x : Cache) :
    (s.setCache c x).engine = s.engine := by cases c <;> rfl
@[simp] theorem State.setCache_cpm (s : State) (c : CacheId) (x : Cache) :
    (s.setCache c x).cpm = s.cpm := by cases c <;> rfl
@[simp] theorem State.setCache_keyState (s : State) (c : CacheId) (x : Cache) :
    (s.setCache c x).keyState = s.keyState := by cases c <;> rfl
@[simp] theorem State.setCache_hsDisturb (s : State) (c : CacheId) (x : Cache) :
    (s.setCache c x).hsDisturb = s.hsDisturb := by cases c <;> rfl
@[simp] theorem State.setCache_trace (s : State) (c : CacheId) (x : Cache) :
    (s.setCache c x).trace = s.trace := by cases c <;> rfl
@[simp] theorem State.setCache_agenda (s : State) (c : CacheId) (x : Cache) :
    (s.setCache c x).agenda = s.agenda := by cases c <;> rfl
@[simp] theorem State.setCache_draws (s : State) (c : CacheId) (x : Cache) :
    (s.setCache c x).draws = s.draws := by cases c <;> rfl

@[simp] theorem State.setCache_cache_self (s : State) (c : CacheId) (x : Cache) :
    (s.setCache c x).cache c = x := by cases c <;> rfl

theorem State.setCache_cache (s : State) (c d : CacheId) (x : Cache) :
    (s.setCache c x).cache d = if d = c then x else s.cache d := by cases c <;> cases d <;> rfl

@[simp] theorem State.setCache_cache_ne (s : State) {c d : CacheId} (x : Cache) (h : d ≠ c) :
    (s.setCache c x).cache d = s.cache d := by
  cases c <;> cases d <;> first | rfl | exact absurd rfl h

/-- Instance I after an update of one instance. -/
theorem State.setCache_icache (s : State) (c : CacheId) (x : Cache) :
    (s.setCache c x).icache = if c = .icache then x else s.icache := by cases c <;> rfl

/-- Instance D after an update of one instance. -/
theorem State.setCache_dcache (s : State) (c : CacheId) (x : Cache) :
    (s.setCache c x).dcache = if c = .dcache then x else s.dcache := by cases c <;> rfl

/-- The two instances by id. -/
@[simp] theorem State.cache_icache (s : State) : s.cache .icache = s.icache := rfl
@[simp] theorem State.cache_dcache (s : State) : s.cache .dcache = s.dcache := rfl

/-! ## Registers of a block, by name -/

theorem Cpm.word_setWord (x : Cpm) (r q : CpmReg) (v : Word) :
    (x.setWord r v).word q = if q = r then v else x.word q := by cases r <;> cases q <;> rfl

theorem Cache.word_setWord (x : Cache) (r q : CacheReg) (v : Word) :
    (x.setWord r v).word q = if q = r then v else x.word q := by cases r <;> cases q <;> rfl

@[simp] theorem Cache.setWord_lines (x : Cache) (r : CacheReg) (v : Word) :
    (x.setWord r v).lines = x.lines := by cases r <;> rfl

@[simp] theorem Cache.setLines_word (x : Cache) (w : Nat) (ls : List Word) (r : CacheReg) :
    (x.setLines w ls).word r = x.word r := by cases r <;> rfl

@[simp] theorem Cache.setLines_lines (x : Cache) (w : Nat) (ls : List Word) :
    (x.setLines w ls).lines = x.lines.set w ls := rfl

end Sys2Proof.Machine
end

