-- ==== Sys2Proof/Laws/Access.lean ====
section
/-! SUPPORT. One lemma per shared operation that says once everything it does: the register writes, the
engine's access primitives, `finish`, and the poller. Proofs about commands cite these. -/

namespace Sys2Proof.Machine

/-! ## Register writes -/

theorem strictKey_eq (r : Reg) (s : State) (h : r ≠ .cpm .protKey) :
    strictKey r s = s.setKey (keyAfterOther s) := by
  unfold strictKey keyAfterOther
  by_cases hk : s.cfg.keyseqStrict = true
  · simp [hk, h]
  · simp only [hk, false_and, if_false, Bool.false_eq_true]
    rfl

/-- Whatever the register, `strictKey` moves nothing but the key automaton. -/
theorem strictKey_setKey (r : Reg) (s : State) :
    ∃ k, strictKey r s = s.setKey k := by
  unfold strictKey
  split
  · exact ⟨_, rfl⟩
  · exact ⟨s.keyState, rfl⟩

/-- A write to OSC_CS, SYS_CLK or IPS_DIV stores the read-write fields, and counts as another register
for the key automaton. -/
theorem writeReg_cpm_plain (r : CpmReg) (v : Word) (s : State) (h1 : r ≠ .protKey) (h2 : r ≠ .hsTrim) :
    writeReg (.cpm r) v s =
      (s.setCpm (s.cpm.setWord r (merge (cpmRw s.cfg r) (s.cpm.word r) v))).setKey (keyAfterOther s) := by
  have h : (Reg.cpm r) ≠ .cpm .protKey := by simpa using h1
  cases r <;> first | exact absurd rfl h1 | exact absurd rfl h2 | exact strictKey_eq _ _ h

/-- A write to PROT_KEY stores TRIM_OVR and moves the key automaton (R171). -/
theorem writeReg_protKey (v : Word) (s : State) : writeReg (.cpm .protKey) v s = writeProtKey v s := by
  simp [writeReg, strictKey, writeCpm]

/-- A write to HS_TRIM that is admitted (R173). -/
theorem writeReg_hsTrim_admitted (v : Word) (s : State) (h : trimAdmitted s = true) :
    writeReg (.cpm .hsTrim) v s =
      ((s.setCpm { s.cpm with hsTrim := v }).setDisturb true).setKey (keyAfterOther s) := by
  rw [writeReg, strictKey_eq _ _ (by decide), writeCpm, writeHsTrim, if_pos h]
  rfl

/-- A write to HS_TRIM that is not admitted is ignored (R173). -/
theorem writeReg_hsTrim_ignored (v : Word) (s : State) (h : trimAdmitted s = false) :
    writeReg (.cpm .hsTrim) v s = s.setKey (keyAfterOther s) := by
  rw [writeReg, strictKey_eq _ _ (by decide), writeCpm, writeHsTrim, if_neg (by simp [h])]

/-- A write to a cache register changes that register alone, and counts as another register for the key
automaton. -/
theorem writeReg_cache (c : CacheId) (r : CacheReg) (v : Word) (s : State) :
    writeReg (.cache c r) v s =
      (s.setCache c ((s.cache c).setWord r
        (cacheWritten s.cfg (s.cacheEn c) r ((s.cache c).word r) v))).setKey (keyAfterOther s) := by
  rw [writeReg, strictKey_eq _ _ (by simp), writeCache]
  cases c <;> rfl

/-- A write to a CPM register moves CPM, HS_DISTURB and the key automaton, and nothing else. -/
theorem writeCpm_fields (q : CpmReg) (v : Word) (s : State) :
    ∃ x d k, writeCpm q v s = ((s.setCpm x).setDisturb d).setKey k := by
  refine ⟨(writeCpm q v s).cpm, (writeCpm q v s).hsDisturb, (writeCpm q v s).keyState, ?_⟩
  cases q
  case hsTrim => rw [writeCpm, writeHsTrim]; split <;> rfl
  all_goals rfl

/-- The same of the whole write with `KEYSEQ_STRICT` (R172). -/
theorem writeReg_cpm_fields (q : CpmReg) (v : Word) (s : State) :
    ∃ x d k, writeReg (.cpm q) v s = ((s.setCpm x).setDisturb d).setKey k := by
  obtain ⟨x, d, k, h⟩ := writeCpm_fields q v s
  obtain ⟨k', h'⟩ := strictKey_setKey (.cpm q) (writeCpm q v s)
  exact ⟨x, d, k', by rw [writeReg, h', h]; rfl⟩

/-- A write to a CMDIF register moves CMDIF, the engine, the draws and the key automaton. -/
theorem writeReg_cmdif_fields (q : CmdReg) (v : Word) (s : State) :
    ∃ x e d k, writeReg (.cmdif q) v s = (((s.setCmdif x).setEngine e).setDraws d).setKey k := by
  obtain ⟨k, h⟩ := strictKey_setKey (.cmdif q) (writeCmdif q v s)
  unfold writeReg
  dsimp only
  split
  · exact ⟨s.cmdif, s.engine, s.draws, s.keyState, rfl⟩
  · rw [h]
    refine ⟨(writeCmdif q v s).cmdif, (writeCmdif q v s).engine, (writeCmdif q v s).draws, k, ?_⟩
    cases q <;> rfl

/-- A write to a read-only register changes no register (R52). It counts as another register for the key
automaton, but for one inside a command (R172, R178). -/
theorem writeReg_readOnly {q : CmdReg} (h : cmdReadOnly q = true) (v : Word) (s : State) :
    writeReg (.cmdif q) v s = s.setKey (if s.cmdif.busy then s.keyState else keyAfterOther s) := by
  cases q <;> cases h <;> cases hb : s.cmdif.busy <;>
    simp [writeReg, cmdReadOnly, hb, strictKey_eq, writeCmdif, State.setKey]

/-- Inside a command a write to a read-only register has no effect at all (R52, R172, R178). -/
theorem writeReg_insideCommand {q : CmdReg} {s : State} (h : cmdReadOnly q = true)
    (hb : s.cmdif.busy = true) (v : Word) : writeReg (.cmdif q) v s = s := by
  rw [writeReg_readOnly h, if_pos hb]; rfl

@[simp] theorem writeReg_cfg (r : Reg) (v : Word) (s : State) :
    (writeReg r v s).cfg = s.cfg := by
  rcases r with (q | q | ⟨c, q⟩)
  · obtain ⟨x, e, d, k, h⟩ := writeReg_cmdif_fields q v s
    simp [h]
  · obtain ⟨x, d, k, h⟩ := writeReg_cpm_fields q v s
    simp [h]
  · simp [writeReg_cache]

@[simp] theorem writeReg_otp (r : Reg) (v : Word) (s : State) :
    (writeReg r v s).otp = s.otp := by
  rcases r with (q | q | ⟨c, q⟩)
  · obtain ⟨x, e, d, k, h⟩ := writeReg_cmdif_fields q v s
    simp [h]
  · obtain ⟨x, d, k, h⟩ := writeReg_cpm_fields q v s
    simp [h]
  · simp [writeReg_cache]

@[simp] theorem writeReg_agenda (r : Reg) (v : Word) (s : State) :
    (writeReg r v s).agenda = s.agenda := by
  rcases r with (q | q | ⟨c, q⟩)
  · obtain ⟨x, e, d, k, h⟩ := writeReg_cmdif_fields q v s
    simp [h]
  · obtain ⟨x, d, k, h⟩ := writeReg_cpm_fields q v s
    simp [h]
  · simp [writeReg_cache]

@[simp] theorem writeReg_trace (r : Reg) (v : Word) (s : State) :
    (writeReg r v s).trace = s.trace := by
  rcases r with (q | q | ⟨c, q⟩)
  · obtain ⟨x, e, d, k, h⟩ := writeReg_cmdif_fields q v s
    simp [h]
  · obtain ⟨x, d, k, h⟩ := writeReg_cpm_fields q v s
    simp [h]
  · simp [writeReg_cache]

/-- A CPM or cache write leaves CMDIF, the engine and the draw counter alone (R71). -/
theorem writeReg_block_frame (r : Reg) (v : Word) (s : State) (h : ∀ q, r ≠ .cmdif q) :
    (writeReg r v s).cmdif = s.cmdif ∧ (writeReg r v s).engine = s.engine ∧
      (writeReg r v s).draws = s.draws := by
  rcases r with (q | q | ⟨c, q⟩)
  · exact absurd rfl (h q)
  · obtain ⟨x, d, k, h⟩ := writeReg_cpm_fields q v s
    simp [h]
  · simp [writeReg_cache]

/-- A CPM write leaves the caches alone. -/
theorem writeReg_cpm_caches (q : CpmReg) (v : Word) (s : State) :
    (writeReg (.cpm q) v s).icache = s.icache ∧ (writeReg (.cpm q) v s).dcache = s.dcache := by
  obtain ⟨x, d, k, h⟩ := writeReg_cpm_fields q v s
  simp [h]

/-- A cache write leaves CPM, HS_DISTURB and the other instance alone (R57). -/
theorem writeReg_cache_frame (c : CacheId) (q : CacheReg) (v : Word) (s : State) :
    (writeReg (.cache c q) v s).cpm = s.cpm ∧
      (writeReg (.cache c q) v s).hsDisturb = s.hsDisturb ∧
      ∀ d, d ≠ c → (writeReg (.cache c q) v s).cache d = s.cache d := by
  rw [writeReg_cache]
  refine ⟨by simp, by simp, fun d hd => ?_⟩
  simp [hd]

/-- A write to a block register but PROT_KEY moves the key automaton as R172 says and no further: R173's
admitted write does not re-lock. -/
theorem writeReg_block_keyState {r : Reg} (v : Word) (s : State) (h : ∀ q, r ≠ .cmdif q)
    (hr : r ≠ .cpm .protKey) : (writeReg r v s).keyState = keyAfterOther s := by
  rcases r with q | q | ⟨c, q⟩
  · exact absurd rfl (h q)
  · by_cases hq : q = .hsTrim
    · subst hq
      cases ht : trimAdmitted s
      · rw [writeReg_hsTrim_ignored _ _ ht]; rfl
      · rw [writeReg_hsTrim_admitted _ _ ht]; rfl
    · rw [writeReg_cpm_plain _ _ _ (by simpa using hr) hq]; rfl
  · rw [writeReg_cache]; rfl

/-- Only a write to HS_TRIM can move HS_DISTURB, of the writes to block registers (R54). -/
theorem writeReg_block_hsDisturb {r : Reg} (v : Word) (s : State) (h : ∀ q, r ≠ .cmdif q)
    (hr : r ≠ .cpm .hsTrim) : (writeReg r v s).hsDisturb = s.hsDisturb := by
  rcases r with q | q | ⟨c, q⟩
  · exact absurd rfl (h q)
  · by_cases hq : q = .protKey
    · subst hq; rw [writeReg_protKey]; rfl
    · rw [writeReg_cpm_plain _ _ _ hq (by simpa using hr)]; rfl
  · exact (writeReg_cache_frame c q v s).2.1

/-! ## Reads -/

/-- A register read changes nothing but the draw counter, and that only for PROT_KEY (R52, R130). -/
theorem drawnBy_of_ne (r : Reg) (s : State) (h : r ≠ .cpm .protKey) : drawnBy r s = s := by
  unfold drawnBy
  split
  · exact absurd rfl h
  · rfl

/-- Everything a read step does. -/
theorem regRead_eq (r : Reg) (s : State) (h : r ≠ .cpm .protKey) :
    regRead r s = s.log (.read .engine r (readValue r s)) := by rw [regRead, drawnBy_of_ne r s h]

theorem readValue_cache (c : CacheId) (r : CacheReg) (s : State) :
    readValue (.cache c r) s = (s.cache c).word r := rfl

/-! ## Set and clear of one bit, as stored -/

/-- What `RegSet` of a read-write mask leaves in a register (R131). -/
theorem getBit_merge_set (m rw old : Word) (p : Nat) (h : getBit rw p = true ∨ getBit m p = false) :
    getBit (merge rw old (old ||| m)) p = (getBit old p || getBit m p) := by
  rw [getBit_merge, getBit_or]
  rcases h with h | h <;> simp [h]

/-- What `RegClr` of a read-write mask leaves in a register (R132). -/
theorem getBit_merge_clr (m rw old : Word) (p : Nat) (h : getBit rw p = true ∨ getBit m p = false) :
    getBit (merge rw old (old &&& ~~~m)) p = (getBit old p && !getBit m p) := by
  rw [getBit_merge, getBit_and_not]
  rcases h with h | h <;> simp [h]

/-! ## Control -/

@[simp] theorem goto_eq (pos : Pos) (loc : Locals) (s : State) :
    goto pos loc s = s.setEngine (.run pos loc) := rfl

/-- Everything `finish` does (R33). -/
theorem finish_eq (st : Status) (s : State) :
    finish st s =
      { s with cmdif := { s.cmdif with res := st, busy := false }, engine := .idle } := rfl

/-- The first read of a poll finds the latched words as they were, and with a budget the count (R137). -/
theorem pollEntry_eq (cfg : Config) (budget : Nat) (loc : Locals) :
    pollEntry cfg budget loc = { loc with n := if budget = 0 then loc.n else pollCount cfg budget } := by
  unfold pollEntry; split <;> rfl

/-- Everything one read of a poll can do (R138): it reads once, and its position is one of three. -/
theorem pollRead_cases (r : Reg) (mask target : Word) (budget : Nat) (here next : Pos) (loc : Locals)
    (s : State) :
    (readValue r s &&& mask = target ∧
      pollRead r mask target budget here next loc s =
        goto next { loc with v := readValue r s } (regRead r s)) ∨
    (readValue r s &&& mask ≠ target ∧ (budget = 0 ∨ 1 < loc.n) ∧
      ∃ k, (budget = 0 → k = loc.n) ∧ (budget ≠ 0 → k = loc.n - 1) ∧
        pollRead r mask target budget here next loc s =
          goto here { loc with v := readValue r s, n := k } (regRead r s)) ∨
    (readValue r s &&& mask ≠ target ∧ budget ≠ 0 ∧ loc.n ≤ 1 ∧
      pollRead r mask target budget here next loc s =
        goto (.finishing .timeout) { loc with v := readValue r s, n := loc.n - 1 }
          (regRead r s)) := by
  unfold pollRead
  by_cases h1 : readValue r s &&& mask = target
  · exact .inl ⟨h1, by simp [h1]⟩
  · by_cases h2 : budget = 0
    · exact .inr (.inl ⟨h1, .inl h2, loc.n, fun _ => rfl, fun h => absurd h2 h, by simp [h1, h2]⟩)
    · by_cases h3 : loc.n ≤ 1
      · exact .inr (.inr ⟨h1, h2, h3, by simp [h1, h2, h3]⟩)
      · exact .inr (.inl ⟨h1, .inr (by omega), loc.n - 1, fun h => absurd h h2, fun _ => rfl,
          by simp [h1, h2, h3]⟩)

end Sys2Proof.Machine
end

