-- ==== Sys2Proof/Laws/Primitives.lean ====
section
/-! SUPPORT. What the engine's access primitives leave alone, one lemma per field, so that proofs about
commands need not unfold them. `accessed` is the common shape of all of them. -/

namespace Sys2Proof.Machine

/-! ## The parameters and the inputs to come -/

@[simp] theorem drawnBy_cfg (r : Reg) (s : State) : (drawnBy r s).cfg = s.cfg := by
  unfold drawnBy; split <;> rfl
@[simp] theorem drawnBy_otp (r : Reg) (s : State) : (drawnBy r s).otp = s.otp := by
  unfold drawnBy; split <;> rfl
@[simp] theorem drawnBy_agenda (r : Reg) (s : State) : (drawnBy r s).agenda = s.agenda := by
  unfold drawnBy; split <;> rfl
@[simp] theorem drawnBy_cmdif (r : Reg) (s : State) : (drawnBy r s).cmdif = s.cmdif := by
  unfold drawnBy; split <;> rfl
@[simp] theorem drawnBy_engine (r : Reg) (s : State) : (drawnBy r s).engine = s.engine := by
  unfold drawnBy; split <;> rfl
@[simp] theorem drawnBy_cpm (r : Reg) (s : State) : (drawnBy r s).cpm = s.cpm := by
  unfold drawnBy; split <;> rfl
@[simp] theorem drawnBy_cache (r : Reg) (s : State) (c : CacheId) :
    (drawnBy r s).cache c = s.cache c := by
  unfold drawnBy; split <;> simp
@[simp] theorem drawnBy_icache (r : Reg) (s : State) : (drawnBy r s).icache = s.icache := by
  unfold drawnBy; split <;> rfl
@[simp] theorem drawnBy_dcache (r : Reg) (s : State) : (drawnBy r s).dcache = s.dcache := by
  unfold drawnBy; split <;> rfl
@[simp] theorem drawnBy_keyState (r : Reg) (s : State) : (drawnBy r s).keyState = s.keyState := by
  unfold drawnBy; split <;> rfl
@[simp] theorem drawnBy_hsDisturb (r : Reg) (s : State) :
    (drawnBy r s).hsDisturb = s.hsDisturb := by
  unfold drawnBy; split <;> rfl
@[simp] theorem drawnBy_trace (r : Reg) (s : State) : (drawnBy r s).trace = s.trace := by
  unfold drawnBy; split <;> rfl

/-! ## The shape of every access -/

/-- One of the engine's accesses of a register of the Clock & Power block or a cache: a read, or a write of
some value after a read or without one. -/
inductive Accessed (r : Reg) (s t : State) : Prop where
  | read (h : t = regRead r s)
  | write (v : Word) (e : TraceEntry) (h : t = (writeReg r v s).log e)
  | modify (v : Word) (e : TraceEntry) (h : t = (writeReg r v (drawnBy r s)).log e)

theorem accessed_regRead (r : Reg) (s : State) : Accessed r s (regRead r s) := .read rfl
theorem accessed_regWrite (r : Reg) (v : Word) (s : State) : Accessed r s (regWrite r v s) :=
  .write _ _ rfl
theorem accessed_regRmw (r : Reg) (m x : Word) (s : State) : Accessed r s (regRmw r m x s) :=
  .modify _ _ rfl
theorem accessed_regSet (r : Reg) (m : Word) (s : State) : Accessed r s (regSet r m s) :=
  .modify _ _ rfl
theorem accessed_regClr (r : Reg) (m : Word) (s : State) : Accessed r s (regClr r m s) :=
  .modify _ _ rfl

/-- No access changes a parameter or the inputs to come (R56). -/
theorem Accessed.world {r : Reg} {s t : State} (h : Accessed r s t) : sameWorld s t := by
  rcases h with rfl | ⟨v, e, rfl⟩ | ⟨v, e, rfl⟩ <;> simp [sameWorld, regRead]

/-- An access of a block other than CMDIF leaves CMDIF and the engine alone. -/
theorem Accessed.cmdif {r : Reg} {s t : State} (h : Accessed r s t) (hr : ∀ q, r ≠ .cmdif q) :
    t.cmdif = s.cmdif ∧ t.engine = s.engine := by
  rcases h with rfl | ⟨v, e, rfl⟩ | ⟨v, e, rfl⟩
  · simp [regRead]
  · simp [writeReg_block_frame r v s hr]
  · simp [writeReg_block_frame r v (drawnBy r s) hr]

/-- An access of the Clock & Power block leaves the caches alone. -/
theorem Accessed.caches {q : CpmReg} {s t : State} (h : Accessed (.cpm q) s t) :
    sameCaches s t ∧ ∀ c, t.cache c = s.cache c := by
  have key : sameCaches s t := by
    rcases h with rfl | ⟨v, e, rfl⟩ | ⟨v, e, rfl⟩
    · simp [sameCaches, regRead]
    · simp [sameCaches, writeReg_cpm_caches]
    · simp [sameCaches, writeReg_cpm_caches]
  exact ⟨key, fun c => by cases c; exacts [key.1, key.2]⟩

/-- An access of a cache leaves the Clock & Power block, HS_DISTURB, the draw counter and the other
instance alone. -/
theorem Accessed.clock {c : CacheId} {q : CacheReg} {s t : State} (h : Accessed (.cache c q) s t) :
    t.cpm = s.cpm ∧ t.hsDisturb = s.hsDisturb ∧ t.draws = s.draws ∧
      ∀ d, d ≠ c → t.cache d = s.cache d := by
  rcases h with rfl | ⟨v, e, rfl⟩ | ⟨v, e, rfl⟩
  · rw [regRead_eq _ _ (by simp)]; simp
  · obtain ⟨h1, h2, h3⟩ := writeReg_cache_frame c q v s
    simp [h1, h2, (writeReg_block_frame (.cache c q) v s (by simp)).2.2]
    exact h3
  · rw [drawnBy_of_ne _ _ (by simp)]
    obtain ⟨h1, h2, h3⟩ := writeReg_cache_frame c q v s
    simp [h1, h2, (writeReg_block_frame (.cache c q) v s (by simp)).2.2]
    exact h3

end Sys2Proof.Machine
end

