-- ==== Sys2Proof/Laws/Exec.lean ====
section
/-! SUPPORT. Everything one engine step can do, said once for all commands: one register access,
one OTP read, or `finish`. Proofs about every command start from `exec_shape`. -/

namespace Sys2Proof.Machine

/-- The block whose registers a command accesses: its own (R200, R205, R221 to R250). -/
def ownReg : Instr → Reg → Prop
  | .clksw _, r => ∃ q, r = .cpm q
  | .trim _, r => ∃ q, r = .cpm q
  | .ipsdiv, r => ∃ q, r = .cpm q
  | .getfreq, r => ∃ q, r = .cpm q
  | .cen c _, r => ∃ q, r = .cache c q
  | .crgn c _ _, r => ∃ q, r = .cache c q
  | .crgnall c, r => ∃ q, r = .cache c q
  | .cinv c, r => ∃ q, r = .cache c q
  | .cinvr c, r => ∃ q, r = .cache c q
  | .cinit c, r => ∃ q, r = .cache c q

/-- The command contains the switch sub-sequence (R28, R153). -/
def switches : Instr → Prop
  | .clksw _ => True
  | .trim _ => True
  | .ipsdiv => False
  | .getfreq => False
  | .cen _ _ => False
  | .crgn _ _ _ => False
  | .crgnall _ => False
  | .cinv _ => False
  | .cinvr _ => False
  | .cinit _ => False

/-- The latched words of the locals are the same (R24). -/
def sameLatched (l l' : Locals) : Prop := l'.cmd = l.cmd ∧ l'.a0 = l.a0 ∧ l'.a1 = l.a1

/-- CMDIF after an access: as before,
    or with another CSW_STATE for a command that switches (R28). -/
def accessCmdif (i : Instr) (x y : Cmdif) : Prop := y = x ∨ (switches i ∧ ∃ w, y = { x with csw :=
    w })

/-- CMDIF after `finish(st)` at position `pos` (R27 to R30, R33, R192, R206). -/
def finishCmdif (i : Instr) (pos : Pos) (st : Status) (x y : Cmdif) : Prop :=
  y = { x with res := st, busy := false } ∨
  ((∃ src, i = .clksw src) ∧ st = .ok ∧ y = { x with csw := .switched, res := st, busy := false }) ∨
  ((∃ tg, i = .trim tg) ∧ pos = .trimDone ∧ st = .ok ∧
    ∃ f, y = { x with nomfreq := f, res := st, busy := false }) ∨
  (i = .getfreq ∧ pos = .freqDone ∧ st = .ok ∧ ∃ f, y = { x with result := f, res := st, busy :=
      false })

/-- Everything one engine step of command `i` can do. -/
inductive ExecShape (i : Instr) (s t : State) : Prop where
  /-- One register access of the command's own block. -/
  | access (pos pos' : Pos) (loc loc' : Locals) (r : Reg) (u : State) (y : Cmdif)
      (hs : s.engine = .run pos loc) (hr : ownReg i r) (hu : Accessed r s u)
      (hl : sameLatched loc loc') (hy : accessCmdif i s.cmdif y)
      (ht : t = (u.setEngine (.run pos' loc')).setCmdif y)
  /-- One OTP read. -/
  | otp (pos pos' : Pos) (loc loc' : Locals) (a : Nat) (y : Cmdif)
      (hs : s.engine = .run pos loc) (hi : ∃ tg, i = .trim tg)
      (hl : sameLatched loc loc') (hy : accessCmdif i s.cmdif y)
      (ht : t = ((memRead a s).setEngine (.run pos' loc')).setCmdif y)
  /-- `finish(st)`. -/
  | finish (pos : Pos) (loc : Locals) (st : Status) (y : Cmdif)
      (hs : s.engine = .run pos loc) (hst : st = .ok ∨ st = .err ∨ pos = .finishing st)
      (hy : finishCmdif i pos st s.cmdif y) (ht : t = (s.setEngine .idle).setCmdif y)

theorem ownReg_not_cmdif {i : Instr} {r : Reg} (h : ownReg i r) (q : CmdReg) : r ≠ .cmdif q := by
  cases i <;> (obtain ⟨q', rfl⟩ := h; simp)

/-- An access followed by a move of the engine and no change of CSW_STATE. -/
theorem ExecShape.plain {i : Instr} {s u : State} {pos pos' : Pos} {loc loc' : Locals} {r : Reg}
    (hs : s.engine = .run pos loc) (hr : ownReg i r) (hu : Accessed r s u) (hl :
        sameLatched loc loc') :
    ExecShape i s (goto pos' loc' u) := by
  refine .access pos pos' loc loc' r u s.cmdif hs hr hu hl (.inl rfl) ?_
  rw [← (hu.cmdif (ownReg_not_cmdif hr)).1]; rfl

/-- An access followed by a change of CSW_STATE and a move of the engine. -/
theorem ExecShape.withCsw {i : Instr} {s u : State} {pos pos' : Pos} {loc loc' : Locals} {r : Reg}
    {x : CswState} (hs : s.engine = .run pos loc) (hr : ownReg i r) (hi : switches i)
    (hu : Accessed r s u) (hl : sameLatched loc loc') :
    ExecShape i s (goto pos' loc' (u.setCsw x)) := by
  refine .access pos pos' loc loc' r u { s.cmdif with csw := x } hs hr hu hl (.inr ⟨hi, x, rfl⟩) ?_
  rw [← (hu.cmdif (ownReg_not_cmdif hr)).1]; rfl

/-- `finish(st)` with nothing else. -/
theorem ExecShape.done {i : Instr} {s : State} {pos : Pos} {loc : Locals} {st : Status}
    (hs : s.engine = .run pos loc) (hst : st = .ok ∨ st = .err ∨ pos = .finishing st) :
    ExecShape i s (Machine.finish st s) :=
  .finish pos loc st _ hs hst (.inl rfl) rfl

/-- One OTP read followed by a move of the engine. -/
theorem ExecShape.mem {tg : BitVec 4} {s : State} {pos pos' : Pos} {loc loc' : Locals} {a : Nat}
    (hs : s.engine = .run pos loc) (hl : sameLatched loc loc') :
    ExecShape (.trim tg) s (goto pos' loc' (memRead a s)) :=
  .otp pos pos' loc loc' a s.cmdif hs ⟨tg, rfl⟩ hl (.inl rfl) rfl

theorem ExecShape.memCsw {tg : BitVec 4} {s : State} {pos pos' : Pos} {loc loc' : Locals} {a : Nat}
    {x : CswState} (hs : s.engine = .run pos loc) (hl : sameLatched loc loc') :
    ExecShape (.trim tg) s ((goto pos' loc' (memRead a s)).setCsw x) :=
  .otp pos pos' loc loc' a { s.cmdif with csw := x } hs ⟨tg, rfl⟩ hl (.inr ⟨trivial, x, rfl⟩) rfl

/-- The first read of a poll keeps the latched words. -/
theorem sameLatched_pollEntry (cfg : Config) (budget : Nat) (loc : Locals) :
    sameLatched loc (pollEntry cfg budget loc) := by rw [pollEntry_eq]; exact ⟨rfl, rfl, rfl⟩

/-- One read of a poll, with locals that may differ from the engine's in what is not latched. -/
theorem ExecShape.poll {i : Instr} {s : State} {pos here next : Pos} {loc0 loc : Locals} {r : Reg}
    {mask target : Word} {budget : Nat} (hs : s.engine = .run pos loc0) (hr : ownReg i r)
    (hl : sameLatched loc0 loc) : ExecShape i s (pollRead r mask target budget here next loc s) := by
  rcases pollRead_cases r mask target budget here next loc s with ⟨_, h⟩ | ⟨_, _, k, _, _, h⟩
      | ⟨_, _, _, h⟩ <;>
    rw [h] <;> exact .plain hs hr (accessed_regRead r s) hl

theorem setCsw_pollRead_shape {i : Instr} {s : State} {pos here next : Pos} {loc0 loc : Locals}
    {r : Reg} {mask target : Word} {budget : Nat} {x : CswState} (hs : s.engine = .run pos loc0)
    (hr : ownReg i r) (hi : switches i) (hl : sameLatched loc0 loc) :
    ExecShape i s ((pollRead r mask target budget here next loc s).setCsw x) := by
  rcases pollRead_cases r mask target budget here next loc s with ⟨_, h⟩ | ⟨_, _, k, _, _, h⟩
      | ⟨_, _, _, h⟩ <;>
    rw [h] <;> exact ExecShape.withCsw (u := regRead r s) hs hr hi (accessed_regRead r s) hl

/-- Everything one validity read can do (R181). -/
theorem trimValidity_cases (j : Nat) (loc : Locals) (s : State) :
    ∃ pos, trimValidity j loc s =
      goto pos { loc with w := readWord s.otp (otpValidAddr s.cfg j) }
        (memRead (otpValidAddr s.cfg j) s) := by
  unfold trimValidity
  dsimp only
  split
  · exact ⟨_, rfl⟩
  · split <;> exact ⟨_, rfl⟩

theorem trimValidity_shape {tg : BitVec 4} {s : State} {pos : Pos} {loc0 loc : Locals} (j : Nat)
    (hs : s.engine = .run pos loc0) (hl : sameLatched loc0 loc) :
    ExecShape (.trim tg) s (trimValidity j loc s) ∧
      ExecShape (.trim tg) s ((trimValidity j loc s).setCsw .switched) := by
  obtain ⟨pos', h⟩ := trimValidity_cases j loc s
  rw [h]
  exact ⟨.mem hs hl, .memCsw hs hl⟩

theorem switch_shapes {i : Instr} {s : State} {pos : Pos} {loc : Locals} (k : Source) (b : Nat)
    (hs : s.engine = .run pos loc) (hi : switches i) (hr : ∀ q, ownReg i (.cpm q)) :
    ExecShape i s (switchEnable k loc s) ∧ ExecShape i s (switchPollStableFirst k b loc s) ∧
      ExecShape i s (switchPollStable k b loc s) ∧ ExecShape i s (switchSelect k loc s) ∧
      ExecShape i s (switchPollStatusFirst k b loc s) ∧ ExecShape i s (switchPollStatus k b loc s) :=
  ⟨.withCsw hs (hr _) hi (accessed_regSet _ _ s) ⟨rfl, rfl, rfl⟩,
    .poll hs (hr _) (sameLatched_pollEntry _ _ _), .poll hs (hr _) ⟨rfl, rfl, rfl⟩,
    .withCsw hs (hr _) hi (accessed_regRmw _ _ _ s) ⟨rfl, rfl, rfl⟩,
    setCsw_pollRead_shape hs (hr _) hi (sameLatched_pollEntry _ _ _),
    setCsw_pollRead_shape hs (hr _) hi ⟨rfl, rfl, rfl⟩⟩

theorem execClksw_shape {src : BitVec 4} {s t : State} (h : execClksw src s = .next t) :
    ExecShape (.clksw src) s t := by
  have sw := fun k b pos loc hs => switch_shapes (i := .clksw src) (s := s) (pos := pos) (loc :=
      loc) k b hs
    trivial fun q => ⟨q, rfl⟩
  unfold execClksw at h
  split at h <;> cases h <;> rename_i hs _
  · exact .done hs (by simp)
  · exact (sw _ 0 _ _ hs).1
  · exact (sw _ _ _ _ hs).2.1
  · exact (sw _ _ _ _ hs).2.2.1
  · exact (sw _ 0 _ _ hs).2.2.2.1
  · exact (sw _ _ _ _ hs).2.2.2.2.1
  · exact (sw _ _ _ _ hs).2.2.2.2.2
  · exact .finish _ _ .ok _ hs (.inl rfl) (.inr (.inl ⟨⟨_, rfl⟩, rfl, rfl⟩)) rfl
  · exact .done hs (by simp)

theorem execTrim_shape {tg : BitVec 4} {s t : State} (h : execTrim tg s = .next t) :
    ExecShape (.trim tg) s t := by
  have sw := fun k b pos loc hs => switch_shapes (i := .trim tg) (s := s) (pos := pos) (loc := loc)
      k b hs
    trivial fun q => ⟨q, rfl⟩
  have kw := fun (k : Word) (pos pos' : Pos) (loc : Locals) hs => ExecShape.plain (i := .trim tg)
    (pos := pos) (pos' := pos') (loc := loc) (loc' := loc) hs ⟨_, rfl⟩
    (accessed_regRmw (.cpm .protKey) (bits s.cfg.layout.key 2) (k <<< s.cfg.layout.key) s) ⟨rfl,
        rfl, rfl⟩
  unfold execTrim at h
  split at h <;> cases h <;> rename_i hs _
  · exact .done hs (by simp)
  · exact (sw _ 0 _ _ hs).1
  · exact (sw _ _ _ _ hs).2.1
  · exact (sw _ _ _ _ hs).2.2.1
  · exact (sw _ 0 _ _ hs).2.2.2.1
  · exact (sw _ _ _ _ hs).2.2.2.2.1
  · exact (sw _ _ _ _ hs).2.2.2.2.2
  · exact (trimValidity_shape (loc := statusOk _) _ hs ⟨rfl, rfl, rfl⟩).2
  · exact .memCsw hs ⟨rfl, rfl, rfl⟩
  · exact (trimValidity_shape _ hs ⟨rfl, rfl, rfl⟩).1
  · exact .mem hs ⟨rfl, rfl, rfl⟩
  · exact .mem hs ⟨rfl, rfl, rfl⟩
  · exact kw _ _ _ _ hs
  · exact kw _ _ _ _ hs
  · exact kw _ _ _ _ hs
  · exact .plain hs ⟨_, rfl⟩ (accessed_regRmw _ _ _ s) ⟨rfl, rfl, rfl⟩
  · exact .plain hs ⟨_, rfl⟩ (accessed_regWrite _ _ s) ⟨rfl, rfl, rfl⟩
  · exact kw _ _ _ _ hs
  · exact .finish _ _ .ok _ hs (.inl rfl) (.inr (.inr (.inl ⟨⟨_, rfl⟩, rfl, rfl, _, rfl⟩))) rfl
  · exact .done hs (by simp)

theorem execIpsdiv_shape {s t : State} (h : execIpsdiv s = .next t) : ExecShape .ipsdiv s t := by
  unfold execIpsdiv at h
  split at h <;> rename_i hs
  · cases h
  · split at h <;> cases h
    · exact .done hs (by simp)
    · exact .plain hs ⟨_, rfl⟩ (accessed_regSet _ _ s) ⟨rfl, rfl, rfl⟩
  · cases h; exact .plain hs ⟨_, rfl⟩ (accessed_regRmw _ _ _ s) ⟨rfl, rfl, rfl⟩
  · cases h; exact .plain hs ⟨_, rfl⟩ (accessed_regSet _ _ s) ⟨rfl, rfl, rfl⟩
  · cases h; exact .done hs (by simp)
  · cases h

theorem execGetfreq_shape {s t : State} (h : execGetfreq s = .next t) : ExecShape .getfreq s t := by
  unfold execGetfreq at h
  split at h <;> rename_i hs
  · cases h
  · cases h; exact .plain hs ⟨_, rfl⟩ (accessed_regRead _ s) ⟨rfl, rfl, rfl⟩
  · cases h; exact .plain hs ⟨_, rfl⟩ (accessed_regRead _ s) ⟨rfl, rfl, rfl⟩
  · cases h; exact .finish _ _ .ok _ hs (.inl rfl) (.inr (.inr (.inr ⟨rfl, rfl, rfl, _, rfl⟩))) rfl
  · cases h

theorem accessed_cacheEnWrite (c : CacheId) (en : Bool) (s : State) :
    Accessed (.cache c .ccr) s (cacheEnWrite c en s) := by
  cases en
  · exact accessed_regClr _ _ s
  · exact accessed_regSet _ _ s

theorem setRegionRead_shape {i : Instr} {c : CacheId} {r : Region} {s : State} {pos : Pos} {loc :
    Locals}
    (hs : s.engine = .run pos loc) (hr : ∀ q, ownReg i (.cache c q)) :
    ExecShape i s (setRegionRead c r loc s) :=
  .plain hs (hr _) (accessed_regRead _ s) ⟨rfl, rfl, rfl⟩

theorem setRegionWrite_shape {i : Instr} {c : CacheId} {r : Region} {p : Policy} {after : Pos} {s :
    State}
    {pos : Pos} {loc : Locals} (hs : s.engine = .run pos loc) (hr : ∀ q, ownReg i (.cache c q)) :
    ExecShape i s (setRegionWrite c r p after loc s) :=
  .plain hs (hr _) (accessed_regWrite _ _ s) ⟨rfl, rfl, rfl⟩

theorem execCen_shape {c : CacheId} {en : Bool} {s t : State} (h : execCen c en s = .next t) :
    ExecShape (.cen c en) s t := by
  unfold execCen at h
  split at h <;> cases h <;> rename_i hs
  · exact .plain hs ⟨_, rfl⟩ (accessed_cacheEnWrite c en s) ⟨rfl, rfl, rfl⟩
  · exact .done hs (by simp)

theorem execCrgn_shape {c : CacheId} {r : BitVec 4} {p : BitVec 2} {s t : State}
    (h : execCrgn c r p s = .next t) : ExecShape (.crgn c r p) s t := by
  unfold execCrgn at h
  split at h <;> rename_i hs _ _
  · cases h
  · cases h; exact setRegionRead_shape hs fun q => ⟨q, rfl⟩
  · cases h; exact .done (by assumption) (by simp)
  · split at h <;> cases h
    exact setRegionWrite_shape hs fun q => ⟨q, rfl⟩
  · cases h; exact .done hs (by simp)
  · cases h

theorem execCrgnall_shape {c : CacheId} {s t : State} (h : execCrgnall c s = .next t) :
    ExecShape (.crgnall c) s t := by
  unfold execCrgnall at h
  split at h <;> rename_i hs
  · cases h
  · split at h <;> cases h
    · exact setRegionRead_shape hs fun q => ⟨q, rfl⟩
    · exact .done hs (by simp)
  · cases h; exact setRegionRead_shape hs fun q => ⟨q, rfl⟩
  · split at h <;> cases h
    exact setRegionWrite_shape hs fun q => ⟨q, rfl⟩
  · cases h; exact .done hs (by simp)
  · cases h

theorem execCinv_shape {c : CacheId} {s t : State} (h : execCinv c s = .next t) :
    ExecShape (.cinv c) s t := by
  unfold execCinv at h
  split at h <;> cases h <;> rename_i hs
  · exact .plain hs ⟨_, rfl⟩ (accessed_regSet _ _ s) ⟨rfl, rfl, rfl⟩
  · exact .poll hs ⟨_, rfl⟩ ⟨rfl, rfl, rfl⟩
  · exact .done hs (by simp)

theorem execCinvr_shape {c : CacheId} {s t : State} (h : execCinvr c s = .next t) :
    ExecShape (.cinvr c) s t := by
  unfold execCinvr at h
  split at h <;> cases h <;> rename_i hs
  · exact .plain hs ⟨_, rfl⟩ (accessed_regRead _ s) ⟨rfl, rfl, rfl⟩
  · exact .plain hs ⟨_, rfl⟩ (accessed_regWrite _ _ s) ⟨rfl, rfl, rfl⟩
  · exact .plain hs ⟨_, rfl⟩ (accessed_regWrite _ _ s) ⟨rfl, rfl, rfl⟩
  · exact .poll hs ⟨_, rfl⟩ ⟨rfl, rfl, rfl⟩
  · exact .done hs (by simp)

theorem execCinit_shape {c : CacheId} {s t : State} (h : execCinit c s = .next t) :
    ExecShape (.cinit c) s t := by
  unfold execCinit at h
  split at h <;> rename_i hs
  · cases h
  · split at h <;> cases h
    · exact .plain hs ⟨_, rfl⟩ (accessed_cacheEnWrite c false s) ⟨rfl, rfl, rfl⟩
    · exact .done hs (by simp)
  · cases h; exact setRegionRead_shape hs fun q => ⟨q, rfl⟩
  · split at h <;> cases h
    exact setRegionWrite_shape hs fun q => ⟨q, rfl⟩
  · cases h; exact .plain hs ⟨_, rfl⟩ (accessed_regSet _ _ s) ⟨rfl, rfl, rfl⟩
  · cases h; exact .poll hs ⟨_, rfl⟩ ⟨rfl, rfl, rfl⟩
  · cases h; exact .plain hs ⟨_, rfl⟩ (accessed_cacheEnWrite c true s) ⟨rfl, rfl, rfl⟩
  · cases h; exact .done hs (by simp)
  · cases h

/-- Everything one engine step of any command can do. -/
theorem exec_shape {i : Instr} {s t : State} (h : exec i s = .next t) : ExecShape i s t := by
  cases i with
  | clksw src => exact execClksw_shape h
  | trim tg => exact execTrim_shape h
  | ipsdiv => exact execIpsdiv_shape h
  | getfreq => exact execGetfreq_shape h
  | cen c en => exact execCen_shape h
  | crgn c r p => exact execCrgn_shape h
  | crgnall c => exact execCrgnall_shape h
  | cinv c => exact execCinv_shape h
  | cinvr c => exact execCinvr_shape h
  | cinit c => exact execCinit_shape h

end Sys2Proof.Machine
end

