-- ==== Sys2Proof/Laws/Layout.lean ====
section
/-! SUPPORT. What a well-formed configuration gives proofs: positions are bits of a register and apart,
and the bits of region masks. -/

namespace Sys2Proof.Machine

theorem configWf_parts {cfg : Config} (h : configWf cfg = true) :
    layoutOk cfg ∧ addressesOk cfg ∧ countsOk cfg := by
  unfold configWf at h
  simp only [Bool.and_eq_true, decide_eq_true_eq] at h
  exact ⟨h.1.1.1, h.1.1.2, h.1.2⟩

/-- Layout and counts agree (R9). -/
theorem configWf_shape {cfg : Config} (h : configWf cfg = true) : shapeOk cfg := by
  unfold configWf at h
  simp only [Bool.and_eq_true, decide_eq_true_eq] at h
  exact h.2

/-- Two one-bit fields that are apart have different positions. -/
theorem ne_of_apart {a b : Nat} (h : fieldsApart (a, 1) (b, 1)) : a ≠ b := by
  rcases h with h | h <;> simp only at h <;> omega

/-- The positions of OSC_CS (R36). -/
theorem osc_positions {cfg : Config} (h : configWf cfg = true) :
    (cfg.layout.lfiEn < 32 ∧ cfg.layout.hsEn < 32 ∧ cfg.layout.lfiStable < 32 ∧
      cfg.layout.hsStable < 32) ∧
    cfg.layout.lfiEn ≠ cfg.layout.hsEn ∧ cfg.layout.lfiEn ≠ cfg.layout.lfiStable ∧
    cfg.layout.lfiEn ≠ cfg.layout.hsStable ∧ cfg.layout.hsEn ≠ cfg.layout.lfiStable ∧
    cfg.layout.hsEn ≠ cfg.layout.hsStable ∧ cfg.layout.lfiStable ≠ cfg.layout.hsStable := by
  have := (configWf_parts h).1.2.1
  simp only [fieldsOk, fieldsApart, List.mem_cons, List.not_mem_nil, or_false, forall_eq_or_imp,
    forall_eq, List.pairwise_cons, List.Pairwise.nil, and_true, IsEmpty.forall_iff, implies_true] at this
  omega

/-- The positions of SYS_CLK (R36). -/
theorem sys_positions {cfg : Config} (h : configWf cfg = true) :
    cfg.layout.sel < 32 ∧ cfg.layout.selStat < 32 ∧ cfg.layout.sel ≠ cfg.layout.selStat ∧
    cfg.layout.sysDiv + cfg.sysdivWidth ≤ 32 ∧
    (∀ q, cfg.layout.sysDiv ≤ q → q < cfg.layout.sysDiv + cfg.sysdivWidth →
      q ≠ cfg.layout.sel ∧ q ≠ cfg.layout.selStat) := by
  have := (configWf_parts h).1.2.2.1
  simp only [fieldsOk, fieldsApart, List.mem_cons, List.not_mem_nil, or_false, forall_eq_or_imp,
    forall_eq, List.pairwise_cons, List.Pairwise.nil, and_true, IsEmpty.forall_iff, implies_true] at this
  refine ⟨by omega, by omega, by omega, by omega, fun q h1 h2 => by omega⟩

/-- The positions of IPS_DIV (R36). -/
theorem ips_positions {cfg : Config} (h : configWf cfg = true) :
    cfg.layout.ipsEn < 32 ∧ cfg.layout.upd < 32 ∧ cfg.layout.ipsEn ≠ cfg.layout.upd ∧
    cfg.layout.div + cfg.layout.divWidth ≤ 32 ∧
    (∀ q, cfg.layout.div ≤ q → q < cfg.layout.div + cfg.layout.divWidth →
      q ≠ cfg.layout.ipsEn ∧ q ≠ cfg.layout.upd) := by
  have := (configWf_parts h).1.2.2.2.1
  simp only [fieldsOk, fieldsApart, List.mem_cons, List.not_mem_nil, or_false, forall_eq_or_imp,
    forall_eq, List.pairwise_cons, List.Pairwise.nil, and_true, IsEmpty.forall_iff, implies_true] at this
  refine ⟨by omega, by omega, by omega, by omega, fun q h1 h2 => by omega⟩

/-- The positions of PROT_KEY (R36). -/
theorem key_positions {cfg : Config} (h : configWf cfg = true) :
    cfg.layout.key + 2 ≤ 32 ∧ cfg.layout.trimOvr < 32 ∧
    (∀ q, cfg.layout.key ≤ q → q < cfg.layout.key + 2 → q ≠ cfg.layout.trimOvr) := by
  have := (configWf_parts h).1.2.2.2.2.1
  simp only [fieldsOk, fieldsApart, List.mem_cons, List.not_mem_nil, or_false, forall_eq_or_imp,
    forall_eq, List.pairwise_cons, List.Pairwise.nil, and_true, IsEmpty.forall_iff, implies_true] at this
  refine ⟨by omega, by omega, fun q h1 h2 => by omega⟩

/-- The position of CCR.EN (R44). -/
theorem ccr_position {cfg : Config} (h : configWf cfg = true) : cfg.layout.cacheEn < 32 := by
  have := (configWf_parts h).1.2.2.2.2.2.1
  simp only [fieldsOk, List.mem_cons, List.not_mem_nil, or_false, forall_eq] at this
  omega

/-- The positions of CMNT (R44). -/
theorem cmnt_positions {cfg : Config} (h : configWf cfg = true) :
    cfg.layout.go < 32 ∧ ∀ p ∈ cfg.layout.invW, p < 32 ∧ p ≠ cfg.layout.go := by
  have := (configWf_parts h).1.2.2.2.2.2.2.1
  simp only [fieldsOk, fieldsApart, List.mem_cons, forall_eq_or_imp, List.pairwise_cons, List.mem_map,
    forall_exists_index, and_imp, forall_apply_eq_imp_iff₂] at this
  exact ⟨by omega, fun p hp => ⟨by have := this.1.2 p hp; omega, by have := this.2.1 p hp; omega⟩⟩

/-- The bits of the way mask are the ways' invalidate bits (R46). -/
theorem getBit_wayMask {cfg : Config} (h : configWf cfg = true) (p : Nat) :
    getBit (wayMask cfg.layout) p = decide (p ∈ cfg.layout.invW) := by
  have hp := (cmnt_positions h).2
  unfold wayMask
  generalize cfg.layout.invW = l at hp
  induction l with
  | nil => simp
  | cons q l ih =>
    rw [List.foldr_cons, getBit_or, ih fun x hx => hp x (List.mem_cons_of_mem _ hx), getBit_bit]
    have := (hp q List.mem_cons_self).1
    simp [this, eq_comm]

/-- A way's invalidate bit is one of CMNT's, and not GO (R46). -/
theorem invPos_mem {cfg : Config} (h : configWf cfg = true) {w : Nat} (hw : w < cfg.nways) :
    invPos cfg.layout w ∈ cfg.layout.invW := by
  have hl := (configWf_shape h).1
  have hw' : w < cfg.layout.invW.length := by omega
  rw [invPos, List.getD_eq_getElem _ _ hw']
  exact List.getElem_mem hw'

/-- The way mask keeps clear of GO (R46). -/
theorem getBit_wayMask_go {cfg : Config} (h : configWf cfg = true) :
    getBit (wayMask cfg.layout) cfg.layout.go = false := by
  rw [getBit_wayMask h, decide_eq_false_iff_not]
  exact fun hm => ((cmnt_positions h).2 _ hm).2 rfl

/-- The positions of CRSIZE (R44). -/
theorem crsize_positions {cfg : Config} (h : configWf cfg = true) :
    cfg.layout.len + cfg.lenWidth ≤ 32 ∧ cfg.layout.strt < 32 ∧
    (∀ q, cfg.layout.len ≤ q → q < cfg.layout.len + cfg.lenWidth → q ≠ cfg.layout.strt) := by
  have := (configWf_parts h).1.2.2.2.2.2.2.2.1
  simp only [fieldsOk, fieldsApart, List.mem_cons, List.not_mem_nil, or_false, forall_eq_or_imp,
    forall_eq, List.pairwise_cons, List.Pairwise.nil, and_true, IsEmpty.forall_iff, implies_true] at this
  refine ⟨by omega, by omega, fun q h1 h2 => by omega⟩

theorem mem_allRegions (r : Region) : r ∈ allRegions := by cases r <;> simp [allRegions]

/-- `LINE` is a power of two below 2^32 (R243). -/
theorem line_pow {cfg : Config} (h : configWf cfg = true) : ∃ k, k < 32 ∧ cfg.line = 2 ^ k := by
  obtain ⟨k, hk, hl⟩ := (configWf_parts h).2.2.2.2.1
  exact ⟨k, List.mem_range.mp hk, hl⟩

/-- There is a partition, and the default is one (R9). -/
theorem npart_pos {cfg : Config} (h : configWf cfg = true) : 0 < cfg.npart :=
  Nat.zero_lt_of_lt (configWf_shape h).2.2.2

/-- A poll with a budget makes at least one read (R137). -/
theorem pollCount_pos {cfg : Config} (h : configWf cfg = true) {b : Nat} (hb : b ≠ 0) :
    0 < pollCount cfg b :=
  Nat.mul_pos (Nat.pos_of_ne_zero hb) (configWf_parts h).2.2.1

/-! ## Region masks (R50) -/

theorem getBit_foldr_or {α : Type} (f : α → Nat) (l : List α) (p : Nat) :
    getBit (l.foldr (fun x m => bit (f x) ||| m) 0#32) p = l.any fun x => getBit (bit (f x)) p := by
  induction l with
  | nil => simp
  | cons x l ih => simp [ih]

theorem getBit_ceMask (L : Layout) (r : Region) (p : Nat) :
    getBit (ceMask L r) p = (regionPos L r).slots.any fun q => getBit (bit q.ce) p :=
  getBit_foldr_or SlotPos.ce _ p

theorem getBit_wpMask (L : Layout) (r : Region) (p : Nat) :
    getBit (wpMask L r) p = (regionPos L r).slots.any fun q => getBit (bit q.wp) p :=
  getBit_foldr_or SlotPos.wp _ p

/-- The positions of a slot of a region are bits of a register. -/
theorem slot_positions {cfg : Config} (h : configWf cfg = true) {r : Region} {q : SlotPos}
    (hq : q ∈ (regionPos cfg.layout r).slots) : q.ce < 32 ∧ q.wp < 32 :=
  (configWf_parts h).1.2.2.2.2.2.2.2.2.1.1 r (mem_allRegions r) q hq

/-- The CE bit of a slot is in the region's CE mask, and not in its WP mask (R50). -/
theorem slot_ce {cfg : Config} (h : configWf cfg = true) {r : Region} {q : SlotPos}
    (hq : q ∈ (regionPos cfg.layout r).slots) :
    getBit (ceMask cfg.layout r) q.ce = true ∧ getBit (wpMask cfg.layout r) q.ce = false := by
  have hce : getBit (ceMask cfg.layout r) q.ce = true := by
    rw [getBit_ceMask, List.any_eq_true]
    exact ⟨q, hq, getBit_bit_self (slot_positions h hq).1⟩
  refine ⟨hce, ?_⟩
  have hd := (configWf_parts h).1.2.2.2.2.2.2.2.2.1.2.2.1 r (mem_allRegions r)
  have := congrArg (fun x => getBit x q.ce) hd
  simpa [hce] using this

/-- The WP bit of a slot is in the region's WP mask, and not in its CE mask (R50). -/
theorem slot_wp {cfg : Config} (h : configWf cfg = true) {r : Region} {q : SlotPos}
    (hq : q ∈ (regionPos cfg.layout r).slots) :
    getBit (wpMask cfg.layout r) q.wp = true ∧ getBit (ceMask cfg.layout r) q.wp = false := by
  have hwp : getBit (wpMask cfg.layout r) q.wp = true := by
    rw [getBit_wpMask, List.any_eq_true]
    exact ⟨q, hq, getBit_bit_self (slot_positions h hq).2⟩
  refine ⟨hwp, ?_⟩
  have hd := (configWf_parts h).1.2.2.2.2.2.2.2.2.1.2.2.1 r (mem_allRegions r)
  have := congrArg (fun x => getBit x q.wp) hd
  simpa [hwp] using this

/-- Regions of one register share no bit (R50). -/
theorem regions_apart {cfg : Config} (h : configWf cfg = true) {r r' : Region} (hne : r ≠ r')
    (hreg : rgnReg cfg.layout r = rgnReg cfg.layout r') (p : Nat)
    (hp : getBit (regionMask cfg.layout r) p = true) : getBit (regionMask cfg.layout r') p = false := by
  have hd := (configWf_parts h).1.2.2.2.2.2.2.2.2.1.2.2.2 r (mem_allRegions r) r' (mem_allRegions r')
    hne hreg
  have := congrArg (fun x => getBit x p) hd
  simp only [getBit_and, getBit_zero, hp, Bool.true_and] at this
  exact this

/-- `Apply` changes only the region's bits (R220). -/
theorem getBit_applyPolicy_outside (L : Layout) (v : Word) (r : Region) (p : Policy) (q : Nat)
    (hq : getBit (regionMask L r) q = false) : getBit (applyPolicy L v r p) q = getBit v q := by
  simp only [regionMask, getBit_or, Bool.or_eq_false_iff] at hq
  cases p <;> simp only [applyPolicy, getBit_and_not, getBit_or, hq.1, hq.2, Bool.or_false,
    Bool.not_false, Bool.and_true]

/-- `Apply` gives every slot of the region the policy's pair (R220, R227). -/
theorem getBit_applyPolicy_slot {cfg : Config} (h : configWf cfg = true) (v : Word) {r : Region}
    (p : Policy) {q : SlotPos} (hq : q ∈ (regionPos cfg.layout r).slots) :
    (getBit (applyPolicy cfg.layout v r p) q.ce, getBit (applyPolicy cfg.layout v r p) q.wp) =
      policyPair p := by
  obtain ⟨h1, h2⟩ := slot_ce h hq
  obtain ⟨h3, h4⟩ := slot_wp h hq
  cases p <;> simp [applyPolicy, policyPair, getBit_and_not, -getBit_and, h1, h2, h3, h4]

/-- A region register's implemented bits are those of the regions in it (R49). -/
theorem getBit_rgnRegMask (L : Layout) (q : RgnReg) (p : Nat) :
    getBit (rgnRegMask L q) p =
      allRegions.any fun r => decide ((regionPos L r).reg = q) && getBit (regionMask L r) p := by
  simp only [rgnRegMask, allRegions, List.foldr, List.any]
  repeat' split
  all_goals simp_all

/-- A region's bits are implemented in its register. -/
theorem cacheRw_rgnReg (cfg : Config) (r : Region) (p : Nat)
    (hp : getBit (regionMask cfg.layout r) p = true) :
    getBit (cacheRw cfg (rgnReg cfg.layout r)) p = true := by
  have key : getBit (rgnRegMask cfg.layout (regionPos cfg.layout r).reg) p = true := by
    rw [getBit_rgnRegMask, List.any_eq_true]
    exact ⟨r, mem_allRegions r, by simp [hp]⟩
  unfold rgnReg RgnReg.toCacheReg
  cases hr : (regionPos cfg.layout r).reg <;> rw [hr] at key <;> exact key

end Sys2Proof.Machine
end

