-- ==== Sys2Proof/Laws/Moves.lean ====
section
/-! SUPPORT. Everything a move of each agent can do, said once: an engine step, a host access, an ENV
step, and which of them a step of the machine makes. -/

namespace Sys2Proof.Machine

theorem putBit_self {v : Word} {p : Nat} {b : Bool} (h : p < 32) : getBit (putBit v p b) p = b := by
  rw [getBit_putBit, if_pos ⟨rfl, h⟩]

theorem putBit_other {v : Word} {p q : Nat} {b : Bool} (h : q ≠ p) :
    getBit (putBit v p b) q = getBit v q := by
  rw [getBit_putBit, if_neg]; rintro ⟨h1, _⟩; exact h h1.symm

theorem field_putBit {v : Word} {p q w : Nat} {b : Bool} (h : ∀ i, q ≤ i → i < q + w → i ≠ p) :
    field (putBit v p b) q w = field v q w :=
  field_congr fun i h1 h2 => putBit_other (h i h1 h2)

/-! ## ENV -/

/-- A rule that is not enabled does not fire. -/
theorem envStep_off {e : EnvEvent} {s : State} (h : envEnabled e s = false) : envStep e s = s := by
  simp [envStep, h]

/-- An enabled rule fires and is recorded (R58). -/
theorem envStep_on {e : EnvEvent} {s : State} (h : envEnabled e s = true) :
    envStep e s = (envEffect e s).log (.env e) := by simp [envStep, h]

/-! ## HOST -/

/-- Everything a host access that answers a next state does: a mapped register is read, or written where
no fault is raised. -/
theorem hostStep_shape {a : HostAccess} {s t : State} (h : hostStep a s = .next t) :
    ∃ b r, blockOf? s.cfg (accessAddr a) = some b ∧ regOfAddr? s.cfg b (accessAddr a) = some r ∧
      ((∃ x w, a = .read x w ∧ t = hostRead r s) ∨
        ∃ x w v, a = .write x w v ∧ writeFault? r s = none ∧ t = hostWrite r v s) := by
  unfold hostStep at h
  split at h
  · simp at h
  · split at h
    · simp at h
    · split at h
      · simp at h
      · split at h
        · simp at h
        · rename_i b hb _ _ _ r hr
          refine ⟨b, r, hb, hr, ?_⟩
          unfold hostAccess at h
          split at h
          · cases h; exact .inl ⟨_, _, rfl, rfl⟩
          · split at h
            · simp at h
            · cases h; exact .inr ⟨_, _, _, rfl, by assumption, rfl⟩

/-! ## ENGINE -/

/-- Everything an engine move that answers a next state does. -/
theorem engineStep_shape {s t : State} (h : engineStep s = .next t) :
    (s.engine = .idle ∧ t = s) ∨
    (∃ pos loc i, s.engine = .run pos loc ∧ decode loc.cmd = .ok i ∧ exec i s = .next t) ∨
    ∃ loc e, s.engine = .run .start loc ∧ decode loc.cmd = .error e ∧ t = finish .err s := by
  unfold engineStep at h
  split at h
  · cases h; exact .inl ⟨by assumption, rfl⟩
  · rename_i hs
    split at h
    · exact .inr (.inl ⟨_, _, _, hs, by assumption, h⟩)
    · unfold rejectedStep at h
      split at h
      · cases h; exact .inr (.inr ⟨_, _, hs, by assumption, rfl⟩)
      · cases h

/-! ## The step -/

/-- A step that answers a next state is a move of the next agent. -/
theorem step_shape {s t : State} (h : step s = .next t) :
    configWf s.cfg = true ∧ perform (nextEvent s) (popEvent s) = .next t := by
  unfold step stepOnce at h
  split at h
  · exact ⟨by assumption, h⟩
  · cases h

/-- In a well-formed configuration a step is the next agent's move. -/
theorem step_eq {s : State} (h : configWf s.cfg = true) : step s = perform (nextEvent s) (popEvent s) := by
  rw [step, stepOnce, if_pos h]

/-- Taking a move off the agenda changes nothing of the machine but the model's own fields. -/
theorem popEvent_eq (s : State) : ∃ a d, popEvent s = { s with agenda := a, draws := d } := by
  unfold popEvent; split
  · exact ⟨_, _, rfl⟩
  · exact ⟨_, s.draws, rfl⟩

/-! ## Sources -/

theorem sourceOfBit_sourceBit (k : Source) : sourceOfBit (sourceBit k) = k := by cases k <;> rfl

theorem sourceBit_sourceOfBit (b : Bool) : sourceBit (sourceOfBit b) = b := by cases b <;> rfl

theorem stablePos_lt {cfg : Config} (h : configWf cfg = true) (k : Source) :
    stablePos cfg.layout k < 32 := by
  have := osc_positions h; cases k <;> simp [stablePos] <;> omega

theorem enPos_lt {cfg : Config} (h : configWf cfg = true) (k : Source) : enPos cfg.layout k < 32 := by
  have := osc_positions h; cases k <;> simp [enPos] <;> omega

/-- A poll of SEL_STAT sees the source exactly when the field names it (R153, step 4). -/
theorem selStat_match {s : State} (h : configWf s.cfg = true) (k : Source) :
    s.cpm.sysClk &&& bit s.cfg.layout.selStat = flag s.cfg.layout.selStat (sourceBit k) ↔
      s.selStat = k := by
  rw [and_bit_eq_flag _ (sys_positions h).2.1]
  unfold State.selStat
  cases getBit s.cpm.sysClk s.cfg.layout.selStat <;> cases k <;> simp [sourceBit, sourceOfBit]

/-- A poll of STABLE sees a match exactly when the bit is 1 (R153, step 2). -/
theorem oscStable_match {s : State} (h : configWf s.cfg = true) (k : Source) :
    s.cpm.oscCs &&& bit (stablePos s.cfg.layout k) = bit (stablePos s.cfg.layout k) ↔
      s.oscStable k = true := by
  exact and_bit_eq_flag s.cpm.oscCs (stablePos_lt h k) true

end Sys2Proof.Machine
end

