-- ==== Sys2Proof/Laws/Keys.lean ====
section
/-! SUPPORT. What TRIM's key writes do, said once: the override bit, the key automaton, and that nothing else
of CPM or CMDIF moves (42_trim.md R171, R174, R175). -/

namespace Sys2Proof.Machine

/-- A word below `2 ^ k` has no bit at `k` or above. -/
theorem getBit_of_lt {v : Word} {k i : Nat} (h : v.toNat < 2 ^ k) (hi : k ≤ i) : getBit v i = false := by
  rw [getBit, BitVec.getLsbD]
  exact Nat.testBit_lt_two_pow (Nat.lt_of_lt_of_le h (Nat.pow_le_pow_right (by omega) hi))

/-- What a read of PROT_KEY draws lies in the KEY field (R41). -/
theorem getBit_keyDraw {s : State} {p : Nat} (h : p < s.cfg.layout.key ∨ s.cfg.layout.key + 2 ≤ p) :
    getBit (keyDraw s) p = false := by
  rw [keyDraw, getBit_shiftLeft]
  rcases h with h | h
  · simp [Nat.not_le.mpr h]
  · rw [getBit_of_lt (k := 2) (by simp; omega) (by omega)]
    simp

/-- TRIM_OVR as a read of PROT_KEY returns it (R41). -/
theorem protKey_read_trimOvr {s : State} (hc : configWf s.cfg = true) :
    getBit (readValue (.cpm .protKey) s) s.cfg.layout.trimOvr = s.trimOvr := by
  have hk := key_positions hc
  have h : s.cfg.layout.trimOvr < s.cfg.layout.key ∨ s.cfg.layout.key + 2 ≤ s.cfg.layout.trimOvr := by
    by_contra h
    exact hk.2.2 s.cfg.layout.trimOvr (by omega) (by omega) rfl
  simp [readValue, getBit_keyDraw h, State.trimOvr]

/-- A read-modify-write of PROT_KEY: the write of the merged word, one draw, one entry of TRACE. -/
theorem regRmw_protKey (m x : Word) (s : State) :
    regRmw (.cpm .protKey) m x s =
      (writeProtKey (merge m (readValue (.cpm .protKey) s) x) (s.setDraws (s.draws + 1))).log
        (.modify .engine (.cpm .protKey) (readValue (.cpm .protKey) s)
          (merge m (readValue (.cpm .protKey) s) x)) := by
  rw [regRmw, writeReg_protKey]; rfl

/-- Everything a read-modify-write of PROT_KEY does, given the key and the override bit of its word. -/
theorem regRmw_protKey_effect {m x : Word} {s : State} {k : Nat} {o : Bool} (hc : configWf s.cfg = true)
    (hk : field (merge m (readValue (.cpm .protKey) s) x) s.cfg.layout.key 2 = k)
    (ho : getBit (merge m (readValue (.cpm .protKey) s) x) s.cfg.layout.trimOvr = o) :
    (regRmw (.cpm .protKey) m x s).trimOvr = o ∧
      (regRmw (.cpm .protKey) m x s).keyState = keyNext s.keyState k o ∧
      (regRmw (.cpm .protKey) m x s).cpm =
        { s.cpm with protKey := (regRmw (.cpm .protKey) m x s).cpm.protKey } ∧
      (regRmw (.cpm .protKey) m x s).cmdif = s.cmdif := by
  rw [regRmw_protKey]
  refine ⟨?_, ?_, by simp [writeProtKey], by simp [writeProtKey]⟩
  · simp only [State.trimOvr, writeProtKey, State.log_cpm, State.log_cfg, State.setKey_cpm,
      State.setKey_cfg, State.setCpm_cpm, State.setCpm_cfg, State.setDraws_cfg, cpmRw, getBit_merge m]
    rw [getBit_merge, if_pos (getBit_bit_self (key_positions hc).2.1), ho]
  · simp only [writeProtKey, State.log_keyState, State.setKey_keyState, State.setDraws_cfg,
      State.setDraws_keyState, hk, ho]

/-- Everything a key write does: TRIM_OVR stays, the automaton moves by the key (R171, R174, R175). -/
theorem keyWrite_effect {s : State} (hc : configWf s.cfg = true) (k : Word) :
    (keyWrite k s).trimOvr = s.trimOvr ∧
      (keyWrite k s).keyState = keyNext s.keyState (k.toNat % 4) s.trimOvr ∧
      (keyWrite k s).cpm = { s.cpm with protKey := (keyWrite k s).cpm.protKey } ∧
      (keyWrite k s).cmdif = s.cmdif := by
  have hk := key_positions hc
  refine regRmw_protKey_effect hc (field_merge_shiftLeft hk.1 fun q h1 h2 => ?_) ?_
  · rw [getBit_bits]; simp; omega
  · rw [getBit_merge, if_neg, protKey_read_trimOvr hc]
    rw [getBit_bits]; simp; intro _ h; by_contra h2; exact hk.2.2 _ h (by omega) rfl

/-- Everything the last unlock write does: TRIM_OVR is set with key 11 (R174). -/
theorem keyWriteOverride_effect {s : State} (hc : configWf s.cfg = true) :
    (keyWriteOverride s).trimOvr = true ∧
      (keyWriteOverride s).keyState = keyNext s.keyState 3 true ∧
      (keyWriteOverride s).cpm = { s.cpm with protKey := (keyWriteOverride s).cpm.protKey } ∧
      (keyWriteOverride s).cmdif = s.cmdif := by
  have hk := key_positions hc
  refine regRmw_protKey_effect hc ?_ ?_
  · rw [field_congr (v' := 3#32 <<< s.cfg.layout.key), field_shiftLeft hk.1]
    · rfl
    · intro q h1 h2
      rw [getBit_merge, if_pos (by simp [getBit_bits]; left; omega), getBit_or,
        getBit_bit_ne (Ne.symm (hk.2.2 q h1 h2))]
      simp
  · rw [getBit_merge, if_pos (by simp [hk.2.1])]; simp [hk.2.1]

end Sys2Proof.Machine
end

