-- ==== Sys2Proof/Laws/Memory.lean ====
section
/-! SUPPORT. The OTP image keeps its canonical form under every operation on it, and reads back what was
set. -/

namespace Sys2Proof.Machine

/-- The canonical form as a proposition. -/
theorem memoryWf_iff (m : Memory) :
    memoryWf m = true ↔
      m.Pairwise (fun x y => x.1 < y.1) ∧ ∀ c ∈ m, c.1 < 2 ^ 32 ∧ c.2 ≠ unlistedByte := by
  simp [memoryWf]

/-- The addresses of an image after `writeByte`: the old ones and the one set. -/
theorem mem_writeByte {m : Memory} {a : Nat} {b : Byte} {c : Host.Cell} (h : c ∈ writeByte m a b) :
    c ∈ m ∨ (c = (a, b) ∧ b ≠ unlistedByte) := by
  induction m with
  | nil =>
    simp only [writeByte] at h
    split at h
    · simp at h
    · exact .inr ⟨by simpa using h, by assumption⟩
  | cons d m ih =>
    simp only [writeByte] at h
    split at h
    · split at h
      · exact .inl h
      · rcases List.mem_cons.mp h with h | h
        · exact .inr ⟨h, by assumption⟩
        · exact .inl h
    · split at h
      · split at h
        · exact .inl (List.mem_cons_of_mem _ h)
        · rcases List.mem_cons.mp h with h | h
          · exact .inr ⟨h, by assumption⟩
          · exact .inl (List.mem_cons_of_mem _ h)
      · rcases List.mem_cons.mp h with h | h
        · exact .inl (by simp [h])
        · exact (ih h).imp_left (List.mem_cons_of_mem _)

/-- Setting a byte below 2^32 keeps the canonical form. -/
theorem writeByte_wf {m : Memory} (hm : memoryWf m = true) {a : Nat} (ha : a < 2 ^ 32) (b : Byte) :
    memoryWf (writeByte m a b) = true := by
  rw [memoryWf_iff] at hm ⊢
  obtain ⟨hs, hc⟩ := hm
  refine ⟨?_, fun c h => ?_⟩
  · induction m with
    | nil => simp only [writeByte]; split <;> simp
    | cons d m ih =>
      rw [List.pairwise_cons] at hs
      have ih := ih hs.2 fun c h => hc c (List.mem_cons_of_mem _ h)
      simp only [writeByte]
      split
      · split
        · exact List.pairwise_cons.mpr hs
        · refine List.pairwise_cons.mpr ⟨fun c h => ?_, List.pairwise_cons.mpr hs⟩
          rcases List.mem_cons.mp h with h | h
          · subst h; assumption
          · have := hs.1 c h; simp only; omega
      · split
        · split
          · exact hs.2
          · refine List.pairwise_cons.mpr ⟨fun c h => ?_, hs.2⟩
            have := hs.1 c h; simp only; omega
        · refine List.pairwise_cons.mpr ⟨fun c h => ?_, ih⟩
          rcases mem_writeByte h with h | ⟨h, _⟩
          · exact hs.1 c h
          · subst h; simp only; omega
  · rcases mem_writeByte h with h | ⟨h, hb⟩
    · exact hc c h
    · subst h; exact ⟨ha, hb⟩

/-- Setting a word whose four bytes lie below 2^32 keeps the canonical form. -/
theorem writeWord_wf {m : Memory} (hm : memoryWf m = true) {a : Nat} (ha : a + 3 < 2 ^ 32) (v : Word) :
    memoryWf (writeWord m a v) = true :=
  writeByte_wf (writeByte_wf (writeByte_wf (writeByte_wf hm (by omega) _) (by omega) _)
    (by omega) _) ha _

/-- No address below every listed one is listed. -/
theorem readByte_of_lt {m : Memory} {a : Nat} (h : ∀ c ∈ m, a < c.1) : readByte m a = unlistedByte := by
  unfold readByte
  split
  · rename_i c hc
    have h1 := List.find?_some hc
    have h2 := h c (List.mem_of_find?_eq_some hc)
    simp only [decide_eq_true_eq] at h1
    omega
  · rfl

theorem readByte_cons (d : Host.Cell) (m : Memory) (x : Nat) :
    readByte (d :: m) x = if d.1 = x then d.2 else readByte m x := by
  unfold readByte
  by_cases h : d.1 = x <;> simp [h]

/-- A byte reads as last set, and every other byte as before. -/
theorem readByte_writeByte {m : Memory} (hm : m.Pairwise fun x y => x.1 < y.1) (a : Nat) (b : Byte)
    (x : Nat) : readByte (writeByte m a b) x = if x = a then b else readByte m x := by
  induction m with
  | nil =>
    simp only [writeByte]
    split
    · split <;> simp_all [readByte]
    · rw [readByte_cons]; simp only [eq_comm]
  | cons d m ih =>
    rw [List.pairwise_cons] at hm
    have ih := ih hm.2
    simp only [writeByte]
    split
    · rename_i hlt
      split
      · rename_i hb
        split
        · rename_i hx
          rw [hx, hb]
          exact readByte_of_lt fun c hc => by
            rcases List.mem_cons.mp hc with h | h
            · subst h; exact hlt
            · have := hm.1 c h; omega
        · rfl
      · rw [readByte_cons]; simp only [eq_comm]
    · split
      · rename_i heq
        have hno : readByte m a = unlistedByte :=
          readByte_of_lt fun c hc => by have := hm.1 c hc; omega
        split
        · rename_i hb
          split
          · rename_i hx; rw [hx, hno, hb]
          · rename_i hx; rw [readByte_cons, if_neg (by omega)]
        · rw [readByte_cons, readByte_cons]
          simp only [← heq]
          split
          · rename_i hx; simp [hx]
          · rename_i hx; rw [if_neg (fun h => hx h.symm)]
      · rw [readByte_cons, readByte_cons, ih]
        split
        · rename_i hx
          rw [if_neg (by omega)]
        · rfl

/-- The image of `State.reset` is canonical. -/
theorem memoryWf_reset : memoryWf State.reset.otp = true := by decide

end Sys2Proof.Machine
end

