-- ==== Sys2Proof/Laws/PerInstr.lean ====
section
/-! SUPPORT. Statements about every instruction, one lemma per constructor of `Instr`. -/

namespace Sys2Proof.Laws

/-- The word of an instruction keeps to its row: under the row's mask it is the row's match (R106). -/
def WordKeepsToRow.Statement (i : Instr) : Prop := encode i &&& i.opcode.mask = i.opcode.matchWord

theorem WordKeepsToRow.clksw (src : BitVec 4) : WordKeepsToRow.Statement (.clksw src) := by
  revert src; unfold WordKeepsToRow.Statement; decide

theorem WordKeepsToRow.trim (t : BitVec 4) : WordKeepsToRow.Statement (.trim t) := by
  revert t; unfold WordKeepsToRow.Statement; decide

theorem WordKeepsToRow.ipsdiv : WordKeepsToRow.Statement .ipsdiv := by
  unfold WordKeepsToRow.Statement; decide

theorem WordKeepsToRow.getfreq : WordKeepsToRow.Statement .getfreq := by
  unfold WordKeepsToRow.Statement; decide

theorem WordKeepsToRow.cen (c : CacheId) (en : Bool) : WordKeepsToRow.Statement (.cen c en) := by
  unfold WordKeepsToRow.Statement; cases c <;> cases en <;> decide

theorem WordKeepsToRow.crgn (c : CacheId) (r : BitVec 4) (p : BitVec 2) :
    WordKeepsToRow.Statement (.crgn c r p) := by
  revert r p; unfold WordKeepsToRow.Statement; cases c <;> decide

theorem WordKeepsToRow.crgnall (c : CacheId) : WordKeepsToRow.Statement (.crgnall c) := by
  unfold WordKeepsToRow.Statement; cases c <;> decide

theorem WordKeepsToRow.cinv (c : CacheId) : WordKeepsToRow.Statement (.cinv c) := by
  unfold WordKeepsToRow.Statement; cases c <;> decide

theorem WordKeepsToRow.cinvr (c : CacheId) : WordKeepsToRow.Statement (.cinvr c) := by
  unfold WordKeepsToRow.Statement; cases c <;> decide

theorem WordKeepsToRow.cinit (c : CacheId) : WordKeepsToRow.Statement (.cinit c) := by
  unfold WordKeepsToRow.Statement; cases c <;> decide

end Sys2Proof.Laws
end

