-- ==== Sys2Proof/Laws/Positions.lean ====
section
/-! SUPPORT. Where an engine step can lead: the position after it is one of the command's own,
    and a go-bit
is set after it only where the command polls that go-bit. The result is `exec_positions`. -/

namespace Sys2Proof.Machine

theorem go_congr {s t : State} (h1 : t.cfg = s.cfg) {c : CacheId} (h2 :
    (t.cache c).cmnt = (s.cache c).cmnt) : t.go c = s.go c := by
  simp [State.go, h1, h2]

theorem strt_congr {s t : State} (h1 : t.cfg = s.cfg) {c : CacheId} (h2 :
    (t.cache c).crsize = (s.cache c).crsize) : t.strt c = s.strt c := by
  simp [State.strt, h1, h2]

/-- An access of a cache register leaves every other register of both instances alone (R57). -/
theorem Accessed.cache_word {c : CacheId} {q : CacheReg} {s t : State} (h : Accessed (.cache c q)
    s t) (c' : CacheId) (q' : CacheReg) (hne : c' ≠ c ∨ q' ≠ q) :
    (t.cache c').word q' = (s.cache c').word q' := by
  by_cases hc : c' = c
  · subst hc
    have hq : q' ≠ q := by rcases hne with h | h; exact absurd rfl h; exact h
    rcases h with rfl | ⟨v, e, rfl⟩ | ⟨v, e, rfl⟩
    · rw [regRead_eq _ _ (by simp)]; simp
    · simp [writeReg_cache, Cache.word_setWord, hq]
    · rw [drawnBy_of_ne _ _ (by simp)]; simp [writeReg_cache, Cache.word_setWord, hq]
  · rw [h.clock.2.2.2 c' hc]

theorem Accessed.read_same {r : Reg} {s : State} (c : CacheId) :
    (regRead r s).cache c = s.cache c := by simp [regRead]

/-- No maintenance is in flight in either instance (R55). -/
def Quiet (s : State) : Prop := ∀ c, s.go c = false ∧ s.strt c = false

theorem quiet_cpm {q s t} (h : Accessed (.cpm q) s t) (hs : Quiet s) : Quiet t := by
  intro c
  have e := h.caches.2 c
  rw [go_congr h.world.1 (by rw [e]), strt_congr h.world.1 (by rw [e])]; exact hs c

theorem quiet_cache {c q s t} (h : Accessed (.cache c q) s t) (h1 : q ≠ .cmnt) (h2 : q ≠ .crsize)
    (hs : Quiet s) : Quiet t := by
  intro d
  rw [go_congr h.world.1 (c := d) (h.cache_word d .cmnt (.inr h1.symm)), strt_congr h.world.1 (c :=
      d) (h.cache_word d .crsize (.inr h2.symm))]; exact hs d

theorem quiet_read {r s} (hs : Quiet s) : Quiet (regRead r s) := by
  intro d
  have : (regRead r s).cfg = s.cfg := by simp [regRead]
  rw [go_congr this (c := d) (by rw [Accessed.read_same]), strt_congr this (c := d)
      (by rw [Accessed.read_same])]; exact hs d

theorem quiet_csw {s x} (hs : Quiet s) : Quiet (s.setCsw x) := by
  intro d; simpa [State.go, State.strt] using hs d

theorem quiet_mem {r s} (hs : Quiet s) : Quiet (memRead r s) := by
  intro d; simpa [State.go, State.strt, memRead] using hs d

/-- What holds after an engine step of command `i` whose locals were `loc`: the engine is idle,
    or at a
position of `i`, with a go-bit set only where that position polls it. -/
def FlightAfter (cfg : Config) (i : Instr) (loc : Locals) (t : State) : Prop :=
  t.engine = .idle ∨ ∃ pos' loc', t.engine = .run pos' loc' ∧ sameLatched loc loc' ∧
      legalPos cfg i loc.a0 pos' = true ∧
    ∀ c, (t.go c = true → waitsGo i pos' = some c) ∧ (t.strt c = true → waitsStrt i pos' = some c)

theorem flightAfter_quiet {cfg i loc pos' loc' u} (hl : sameLatched loc loc') (hp :
    legalPos cfg i loc.a0 pos' = true) (hq : Quiet u) : FlightAfter cfg i loc (goto pos' loc' u) := by
  refine .inr ⟨pos', loc', rfl, hl, hp, fun c => ?_⟩
  have := hq c
  simp only [State.go, State.strt] at this
  simp [State.go, State.strt, this]

theorem flightAfter_csw {cfg i loc u x} (h : FlightAfter cfg i loc u) : FlightAfter cfg i loc (u.setCsw x) := by
  rcases h with h | ⟨p, l, h1, h2, h3, h4⟩
  · exact .inl h
  · refine .inr ⟨p, l, h1, h2, h3, fun c => ?_⟩
    have := h4 c
    simp only [State.go, State.strt] at this
    simpa [State.go, State.strt] using this

/-- Only the latched words of the locals matter. -/
theorem flightAfter_latched {cfg i loc loc' u} (hl : sameLatched loc loc') (h : FlightAfter cfg i loc' u) :
    FlightAfter cfg i loc u := by
  rcases h with h | ⟨p, l, h1, h2, h3, h4⟩
  · exact .inl h
  · exact .inr ⟨p, l, h1, ⟨h2.1.trans hl.1, h2.2.1.trans hl.2.1, h2.2.2.trans hl.2.2⟩, hl.2.1 ▸ h3, h4⟩

theorem flightAfter_poll_quiet {cfg i loc s r mask target b here next} (h1 :
    legalPos cfg i loc.a0 here = true) (h2 : legalPos cfg i loc.a0 next = true) (h3 : b ≠ 0 →
    legalPos cfg i loc.a0 (.finishing .timeout) = true)
   (hq : Quiet s) : FlightAfter cfg i loc (pollRead r mask target b here next loc s) := by
  rcases pollRead_cases r mask target b here next loc s with ⟨_, h⟩ | ⟨_, _, k, _, _, h⟩ | ⟨_,
      hb, _, h⟩ <;> rw [h]
  · exact flightAfter_quiet ⟨rfl, rfl, rfl⟩ h2 (quiet_read hq)
  · exact flightAfter_quiet ⟨rfl, rfl, rfl⟩ h1 (quiet_read hq)
  · exact flightAfter_quiet ⟨rfl, rfl, rfl⟩ (h3 hb) (quiet_read hq)

/-- A go-bit is set only where position `pos` of command `i` polls it. -/
def FlightBefore (i : Instr) (pos : Pos) (s : State) : Prop := ∀ c, (s.go c = true →
    waitsGo i pos = some c) ∧ (s.strt c = true → waitsStrt i pos = some c)

theorem quiet_of {i pos s} (h : FlightBefore i pos s) (h1 : waitsGo i pos = none) (h2 :
    waitsStrt i pos = none) : Quiet s := by
  intro c
  have := h c
  rw [h1, h2] at this
  simpa using this

theorem flightAfter_finish {cfg i loc st s} : FlightAfter cfg i loc (finish st s) := .inl rfl

theorem execClksw_positions {src pos loc s t} (hs : s.engine = .run pos loc) (hb :
    FlightBefore (.clksw src) pos s) (h : execClksw src s = .next t) : FlightAfter s.cfg (.clksw src)
    loc t := by
  unfold execClksw at h
  split at h <;> cases h <;> rename_i hs' hk <;> rw [hs] at hs' <;> cases hs'
  · exact flightAfter_finish
  all_goals have hq := quiet_of hb rfl rfl
  · exact flightAfter_quiet ⟨rfl, rfl, rfl⟩ (by simp [legalPos, hk, switchPos])
        (quiet_csw (quiet_cpm (accessed_regSet _ _ s) hq))
  · exact flightAfter_latched (sameLatched_pollEntry _ _ _)
      (flightAfter_poll_quiet (by simp [legalPos, hk, switchPos]) (by simp [legalPos, hk, switchPos])
        (by simp [legalPos, hk, switchPos]) hq)
  · exact flightAfter_poll_quiet (by simp [legalPos, hk, switchPos]) (by simp [legalPos, hk,
        switchPos]) (by simp [legalPos, hk, switchPos]) hq
  · exact flightAfter_quiet ⟨rfl, rfl, rfl⟩ (by simp [legalPos, hk, switchPos])
        (quiet_csw (quiet_cpm (accessed_regRmw _ _ _ s) hq))
  · exact flightAfter_latched (sameLatched_pollEntry _ _ _) (flightAfter_csw
      (flightAfter_poll_quiet (by simp [legalPos, hk, switchPos]) (by simp [legalPos, hk, switchPos])
        (by simp [legalPos, hk, switchPos]) hq))
  · exact flightAfter_csw (flightAfter_poll_quiet (by simp [legalPos, hk, switchPos])
        (by simp [legalPos, hk, switchPos]) (by simp [legalPos, hk, switchPos]) hq)
  · exact flightAfter_finish
  · exact flightAfter_finish

/-- A validity read leads to the key read or to the next lower partition (R181). -/
theorem flightAfter_validity {tg loc s i} (hk : targetOfCode? tg = some .primary) (hq : Quiet s)
    (hi : i ≤ firstPart s.cfg) : FlightAfter s.cfg (.trim tg) loc (trimValidity i loc s) := by
  have key : ∀ j, j ≤ firstPart s.cfg ∨ j = s.cfg.defaultPart →
      legalPos s.cfg (.trim tg) loc.a0 (.otpKey j) = true := fun j hj => by simp [legalPos, hk, otpPos, hj]
  unfold trimValidity; dsimp only; split
  · exact flightAfter_quiet ⟨rfl, rfl, rfl⟩ (key i (.inl hi)) (quiet_mem hq)
  · cases i with
    | zero => exact flightAfter_quiet ⟨rfl, rfl, rfl⟩ (key _ (.inr rfl)) (quiet_mem hq)
    | succ j =>
      exact flightAfter_quiet ⟨rfl, rfl, rfl⟩
        (by simp only [legalPos, hk, otpPos]; simp; omega) (quiet_mem hq)

theorem execTrim_positions {tg pos loc s t} (hs : s.engine = .run pos loc)
    (hl : legalPos s.cfg (.trim tg) loc.a0 pos = true) (hb :
    FlightBefore (.trim tg) pos s) (h : execTrim tg s = .next t) : FlightAfter s.cfg (.trim tg)
    loc t := by
  unfold execTrim at h
  split at h <;> cases h <;> rename_i hs' hk <;> rw [hs] at hs' <;> cases hs'
  · exact flightAfter_finish
  all_goals have hq := quiet_of hb rfl rfl
  · exact flightAfter_quiet ⟨rfl, rfl, rfl⟩ (by simp [legalPos, hk, switchPos])
        (quiet_csw (quiet_cpm (accessed_regSet _ _ s) hq))
  · exact flightAfter_latched (sameLatched_pollEntry _ _ _)
      (flightAfter_poll_quiet (by simp [legalPos, hk, switchPos]) (by simp [legalPos, hk, switchPos])
        (by simp [legalPos, hk, switchPos]) hq)
  · exact flightAfter_poll_quiet (by simp [legalPos, hk, switchPos]) (by simp [legalPos, hk,
        switchPos]) (by simp [legalPos, hk, switchPos]) hq
  · exact flightAfter_quiet ⟨rfl, rfl, rfl⟩ (by simp [legalPos, hk, switchPos])
        (quiet_csw (quiet_cpm (accessed_regRmw _ _ _ s) hq))
  · exact flightAfter_latched (sameLatched_pollEntry _ _ _) (flightAfter_csw
      (flightAfter_poll_quiet (by simp [legalPos, hk, switchPos]) (by simp [legalPos, hk, switchPos])
        (by simp [legalPos, hk, switchPos]) hq))
  · exact flightAfter_csw (flightAfter_poll_quiet (by simp [legalPos, hk, switchPos])
        (by simp [legalPos, hk, switchPos]) (by simp [legalPos, hk, switchPos]) hq)
  · exact flightAfter_latched (loc' := statusOk _) ⟨rfl, rfl, rfl⟩
      (flightAfter_csw (flightAfter_validity hk hq (Nat.le_refl _)))
  · apply flightAfter_csw; unfold trimSecondary; dsimp only; split <;> exact flightAfter_quiet ⟨rfl,
        rfl, rfl⟩ (by simp [legalPos, hk, unlockPos]) (quiet_mem hq)
  · refine flightAfter_validity hk hq (Nat.le_of_lt ?_)
    simpa [legalPos, hk, otpPos, switchPos, unlockPos] using hl
  · unfold trimKey; dsimp only; split <;> exact flightAfter_quiet ⟨rfl, rfl, rfl⟩
        (by simp [legalPos, hk, otpPos, unlockPos]) (quiet_mem hq)
  · exact flightAfter_quiet ⟨rfl, rfl, rfl⟩ (by simp [legalPos, hk, otpPos, unlockPos])
        (quiet_mem hq)
  · exact flightAfter_quiet ⟨rfl, rfl, rfl⟩ (by simp [legalPos, hk, unlockPos])
        (quiet_cpm (accessed_regRmw _ _ _ s) hq)
  · exact flightAfter_quiet ⟨rfl, rfl, rfl⟩ (by simp [legalPos, hk, unlockPos])
        (quiet_cpm (accessed_regRmw _ _ _ s) hq)
  · exact flightAfter_quiet ⟨rfl, rfl, rfl⟩ (by simp [legalPos, hk, unlockPos])
        (quiet_cpm (accessed_regRmw _ _ _ s) hq)
  · exact flightAfter_quiet ⟨rfl, rfl, rfl⟩ (by simp [legalPos, hk, unlockPos])
        (quiet_cpm (accessed_regRmw _ _ _ s) hq)
  · exact flightAfter_quiet ⟨rfl, rfl, rfl⟩ (by simp [legalPos, hk, unlockPos])
        (quiet_cpm (accessed_regWrite _ _ s) hq)
  · exact flightAfter_quiet ⟨rfl, rfl, rfl⟩ (by simp [legalPos, hk, unlockPos])
        (quiet_cpm (accessed_regRmw _ _ _ s) hq)
  · exact flightAfter_finish
  · exact flightAfter_finish

theorem execIpsdiv_positions {pos loc s t} (hs : s.engine = .run pos loc) (hb :
    FlightBefore .ipsdiv pos s) (h : execIpsdiv s = .next t) : FlightAfter s.cfg .ipsdiv loc t := by
  have hq := quiet_of hb rfl rfl
  unfold execIpsdiv at h
  split at h <;> rename_i hs' <;> rw [hs] at hs' <;> cases hs'
  · split at h <;> cases h
    · exact flightAfter_finish
    · exact flightAfter_quiet ⟨rfl, rfl, rfl⟩ rfl (quiet_cpm (accessed_regSet _ _ s) hq)
  · cases h; exact flightAfter_quiet ⟨rfl, rfl, rfl⟩ rfl (quiet_cpm (accessed_regRmw _ _ _ s) hq)
  · cases h; exact flightAfter_quiet ⟨rfl, rfl, rfl⟩ rfl (quiet_cpm (accessed_regSet _ _ s) hq)
  · cases h; exact flightAfter_finish
  · cases h

theorem execGetfreq_positions {pos loc s t} (hs : s.engine = .run pos loc) (hb :
    FlightBefore .getfreq pos s) (h : execGetfreq s = .next t) : FlightAfter s.cfg .getfreq loc t := by
  have hq := quiet_of hb rfl rfl
  unfold execGetfreq at h
  split at h <;> cases h <;> rename_i hs' <;> rw [hs] at hs' <;> cases hs'
  · exact flightAfter_quiet ⟨rfl, rfl, rfl⟩ rfl (quiet_cpm (accessed_regRead _ s) hq)
  · exact flightAfter_quiet ⟨rfl, rfl, rfl⟩ rfl (quiet_cpm (accessed_regRead _ s) hq)
  · exact flightAfter_finish

theorem execCen_positions {c en pos loc s t} (hs : s.engine = .run pos loc) (hb :
    FlightBefore (.cen c en) pos s) (h : execCen c en s = .next t) : FlightAfter s.cfg (.cen c en)
    loc t := by
  have hq := quiet_of hb rfl rfl
  unfold execCen at h
  split at h <;> cases h <;> rename_i hs' <;> rw [hs] at hs' <;> cases hs'
  · exact flightAfter_quiet ⟨rfl, rfl, rfl⟩ rfl (quiet_cache (accessed_cacheEnWrite _ _ s) (by simp)
        (by simp) hq)
  · exact flightAfter_finish

theorem rgnReg_ne (L : Layout) (r : Region) : rgnReg L r ≠ .cmnt ∧ rgnReg L r ≠ .crsize := by
  unfold rgnReg RgnReg.toCacheReg; split <;> simp

theorem execCrgn_positions {c r p pos loc s t} (hs : s.engine = .run pos loc) (hb :
    FlightBefore (.crgn c r p) pos s) (h : execCrgn c r p s = .next t) : FlightAfter s.cfg (.crgn c r p)
    loc t := by
  have hq := quiet_of hb rfl rfl
  unfold execCrgn at h
  cases hr : regionOfCode? r <;> cases hp : policyOfCode? p <;> simp only [hs, hr, hp] at h
  · cases pos <;> simp at h; subst h; exact flightAfter_finish
  · cases pos <;> simp at h; subst h; exact flightAfter_finish
  · cases pos <;> simp at h; subst h; exact flightAfter_finish
  · cases pos <;> simp at h
    · subst h; exact flightAfter_quiet ⟨rfl, rfl, rfl⟩ (by simp [legalPos, hr, hp]) (quiet_read hq)
    · split at h <;> cases h
      exact flightAfter_quiet ⟨rfl, rfl, rfl⟩ (by simp [legalPos, hr, hp])
          (quiet_cache (accessed_regWrite _ _ s) (rgnReg_ne _ _).1 (rgnReg_ne _ _).2 hq)
    · subst h; exact flightAfter_finish

theorem setAllAfter_ne (r last) : setAllAfter r last = last ∨ ∃ q,
    setAllAfter r last = .setRead q := by
  unfold setAllAfter; split; exact .inr ⟨_, rfl⟩; exact .inl rfl

theorem execCrgnall_positions {c pos loc s t} (hs : s.engine = .run pos loc) (hl :
    legalPos s.cfg (.crgnall c) loc.a0 pos = true) (hb : FlightBefore (.crgnall c) pos s) (h :
    execCrgnall c s = .next t) : FlightAfter s.cfg (.crgnall c) loc t := by
  have hq := quiet_of hb rfl rfl
  unfold execCrgnall at h
  split at h <;> rename_i hs' <;> rw [hs] at hs' <;> cases hs'
  · split at h <;> cases h
    · exact flightAfter_quiet ⟨rfl, rfl, rfl⟩ (by simp [legalPos, setAllPos, *]) (quiet_read hq)
    · exact flightAfter_finish
  · cases h; exact flightAfter_quiet ⟨rfl, rfl, rfl⟩ (by simpa [legalPos, setAllPos] using hl)
        (quiet_read hq)
  · split at h <;> cases h
    refine flightAfter_quiet ⟨rfl, rfl, rfl⟩ ?_ (quiet_cache (accessed_regWrite _ _ s)
        (rgnReg_ne _ _).1 (rgnReg_ne _ _).2 hq)
    simp [legalPos, setAllPos] at hl
    rcases setAllAfter_ne ‹_› (.finishing .ok) with h | ⟨q, h⟩ <;> simp [h, legalPos, setAllPos, hl]
  · cases h; exact flightAfter_finish
  · cases h

/-- A read of the poll of GO (R241). -/
theorem flightAfter_goPoll {c s here next loc} (hc : configWf s.cfg = true) {i} (hg : ∀ d,
    waitsGo i here = some d ↔ d = c) (hst : waitsStrt i here = none) (h1 :
    legalPos s.cfg i loc.a0 here = true) (h2 : legalPos s.cfg i loc.a0 next = true)
   (hb : FlightBefore i here s) : FlightAfter s.cfg i loc (pollRead (.cache c .cmnt)
       (bit s.cfg.layout.go) 0#32 0 here next loc s) := by
  have hp := cmnt_positions hc
  have hne : ∀ d, (s.go d = true → d = c) ∧ s.strt d = false := by
    intro d; have := hb d; rw [hst] at this
    exact ⟨fun h => (hg d).mp (this.1 h), by simpa using this.2⟩
  have hr : (regRead (.cache c .cmnt) s).cfg = s.cfg := by simp [regRead]
  rcases pollRead_cases (.cache c .cmnt) (bit s.cfg.layout.go) 0#32 0 here next loc s with ⟨hm, h⟩
      | ⟨_, _, k, _, _, h⟩ | ⟨_, hb, _, h⟩
  · rw [h]
    refine flightAfter_quiet ⟨rfl, rfl, rfl⟩ h2 (quiet_read fun d => ⟨?_, (hne d).2⟩)
    by_contra hd
    have hd : s.go d = true := by simpa using hd
    have := (hne d).1 hd; subst this
    rw [zero_eq_flag s.cfg.layout.go, and_bit_eq_flag _ (by omega)] at hm
    simp only [State.go] at hd
    rw [readValue_cache] at hm
    simp [Cache.word, hd] at hm
  · rw [h]
    refine .inr ⟨here, _, rfl, ⟨rfl, rfl, rfl⟩, h1, fun d => ?_⟩
    have := hne d
    have e1 : (regRead (.cache c .cmnt) s).go d = s.go d := go_congr hr (by rw [Accessed.read_same])
    have e2 : (regRead (.cache c .cmnt) s).strt d = s.strt d :=
        strt_congr hr (by rw [Accessed.read_same])
    refine ⟨fun hd => (hg d).mpr (this.1 (by rw [← e1]; simpa [State.go] using hd)), fun hd => ?_⟩
    have : s.strt d = true := by rw [← e2]; simpa [State.strt] using hd
    simp_all
  · exact absurd rfl hb

/-- A read of the poll of STRT (R243). -/
theorem flightAfter_strtPoll {c s here next loc} (hc : configWf s.cfg = true) {i} (hg : ∀ d,
    waitsStrt i here = some d ↔ d = c) (hst : waitsGo i here = none) (h1 :
    legalPos s.cfg i loc.a0 here = true) (h2 : legalPos s.cfg i loc.a0 next = true)
   (hb : FlightBefore i here s) : FlightAfter s.cfg i loc (pollRead (.cache c .crsize)
       (bit s.cfg.layout.strt) 0#32 0 here next loc s) := by
  have hp := crsize_positions hc
  have hne : ∀ d, (s.strt d = true → d = c) ∧ s.go d = false := by
    intro d; have := hb d; rw [hst] at this
    exact ⟨fun h => (hg d).mp (this.2 h), by simpa using this.1⟩
  have hr : (regRead (.cache c .crsize) s).cfg = s.cfg := by simp [regRead]
  rcases pollRead_cases (.cache c .crsize) (bit s.cfg.layout.strt) 0#32 0 here next loc s with ⟨hm,
      h⟩ | ⟨_, _, k, _, _, h⟩ | ⟨_, hb, _, h⟩
  · rw [h]
    refine flightAfter_quiet ⟨rfl, rfl, rfl⟩ h2 (quiet_read fun d => ⟨(hne d).2, ?_⟩)
    by_contra hd
    have hd : s.strt d = true := by simpa using hd
    have := (hne d).1 hd; subst this
    rw [zero_eq_flag s.cfg.layout.strt, and_bit_eq_flag _ (by omega)] at hm
    simp only [State.strt] at hd
    rw [readValue_cache] at hm
    simp [Cache.word, hd] at hm
  · rw [h]
    refine .inr ⟨here, _, rfl, ⟨rfl, rfl, rfl⟩, h1, fun d => ?_⟩
    have := hne d
    have e1 : (regRead (.cache c .crsize) s).go d = s.go d :=
        go_congr hr (by rw [Accessed.read_same])
    have e2 : (regRead (.cache c .crsize) s).strt d = s.strt d :=
        strt_congr hr (by rw [Accessed.read_same])
    refine ⟨fun hd => ?_, fun hd => (hg d).mpr (this.1 (by rw [← e2]; simpa [State.strt] using hd))⟩
    have : s.go d = true := by rw [← e1]; simpa [State.go] using hd
    simp_all
  · exact absurd rfl hb

/-- The start write of `GlobalInv` (R241). -/
theorem flightAfter_invStart {c s loc} {i} (hq : Quiet s) (hg : waitsGo i .invPoll = some c) (h1 :
    legalPos s.cfg i loc.a0 .invPoll = true) : FlightAfter s.cfg i loc (globalInvStart c loc s) := by
  have ha := accessed_regSet (.cache c .cmnt) (globalInvMask s.cfg.layout) s
  refine .inr ⟨_, _, rfl, ⟨rfl, rfl, rfl⟩, h1, fun d => ⟨fun hd => ?_, fun hd => ?_⟩⟩
  · by_cases h : d = c
    · rw [h]; exact hg
    · have : (regSet (.cache c .cmnt) (globalInvMask s.cfg.layout) s).go d = s.go d :=
          go_congr ha.world.1 (ha.cache_word d .cmnt (.inl h))
      have h2 : (regSet (.cache c .cmnt) (globalInvMask s.cfg.layout)
          s).go d = true := by simpa [State.go, globalInvStart] using hd
      rw [this, (hq d).1] at h2; cases h2
  · have : (regSet (.cache c .cmnt) (globalInvMask s.cfg.layout) s).strt d = s.strt d :=
        strt_congr ha.world.1 (ha.cache_word d .crsize (.inr (by simp)))
    have h2 : (regSet (.cache c .cmnt) (globalInvMask s.cfg.layout)
        s).strt d = true := by simpa [State.strt, globalInvStart] using hd
    rw [this, (hq d).2] at h2; cases h2

theorem execCinv_positions {c pos loc s t} (hc : configWf s.cfg = true) (hs :
    s.engine = .run pos loc) (hb : FlightBefore (.cinv c) pos s) (h : execCinv c s = .next t) :
    FlightAfter s.cfg (.cinv c) loc t := by
  unfold execCinv at h
  split at h <;> cases h <;> rename_i hs' <;> rw [hs] at hs' <;> cases hs'
  · exact flightAfter_invStart (quiet_of hb rfl rfl) rfl rfl
  · exact flightAfter_goPoll hc (by simp [waitsGo, eq_comm]) rfl rfl rfl hb
  · exact flightAfter_finish

theorem execCinvr_positions {c pos loc s t} (hc : configWf s.cfg = true) (hs :
    s.engine = .run pos loc) (hb : FlightBefore (.cinvr c) pos s) (h : execCinvr c s = .next t) :
    FlightAfter s.cfg (.cinvr c) loc t := by
  unfold execCinvr at h
  split at h <;> cases h <;> rename_i hs' <;> rw [hs] at hs' <;> cases hs'
  · refine flightAfter_quiet ⟨rfl, rfl, rfl⟩ ?_ (quiet_read (quiet_of hb rfl rfl))
    unfold rangeAfterCheck; split; rfl; split <;> rfl
  · exact flightAfter_quiet ⟨rfl, rfl, rfl⟩ rfl (quiet_cache (accessed_regWrite _ _ s) (by simp)
        (by simp) (quiet_of hb rfl rfl))
  · have hq := quiet_of hb rfl rfl
    have ha := accessed_regWrite (.cache c .crsize)
        ((BitVec.ofNat 32 loc.alen <<< s.cfg.layout.len) ||| bit s.cfg.layout.strt) s
    refine .inr ⟨_, _, rfl, ⟨rfl, rfl, rfl⟩, rfl, fun d => ⟨fun hd => ?_, fun hd => ?_⟩⟩
    · have := go_congr ha.world.1 (ha.cache_word d .cmnt (.inr (by simp)))
      have h2 : (regWrite (.cache c .crsize)
          ((BitVec.ofNat 32 loc.alen <<< s.cfg.layout.len) ||| bit s.cfg.layout.strt)
          s).go d = true := by simpa [State.go, rangeWriteSize] using hd
      rw [this, (hq d).1] at h2; cases h2
    · by_cases h : d = c
      · rw [h]; rfl
      · have := strt_congr ha.world.1 (ha.cache_word d .crsize (.inl h))
        have h2 : (regWrite (.cache c .crsize)
            ((BitVec.ofNat 32 loc.alen <<< s.cfg.layout.len) ||| bit s.cfg.layout.strt)
            s).strt d = true := by simpa [State.strt, rangeWriteSize] using hd
        rw [this, (hq d).2] at h2; cases h2
  · exact flightAfter_strtPoll hc (by simp [waitsStrt, eq_comm]) rfl rfl rfl hb
  · exact flightAfter_finish

theorem execCinit_positions {c pos loc s t} (hc : configWf s.cfg = true) (hs :
    s.engine = .run pos loc) (hl : legalPos s.cfg (.cinit c) loc.a0 pos = true) (hb :
    FlightBefore (.cinit c) pos s) (h : execCinit c s = .next t) : FlightAfter s.cfg (.cinit c)
    loc t := by
  unfold execCinit at h
  split at h <;> rename_i hs' <;> rw [hs] at hs' <;> cases hs'
  · split at h <;> cases h
    · exact flightAfter_quiet ⟨rfl, rfl, rfl⟩ (by simp [legalPos, setAllPos, *])
          (quiet_cache (accessed_cacheEnWrite _ _ s) (by simp) (by simp) (quiet_of hb rfl rfl))
    · exact flightAfter_finish
  · cases h; exact flightAfter_quiet ⟨rfl, rfl, rfl⟩ (by simpa [legalPos, setAllPos] using hl)
        (quiet_read (quiet_of hb rfl rfl))
  · split at h <;> cases h
    refine flightAfter_quiet ⟨rfl, rfl, rfl⟩ ?_ (quiet_cache (accessed_regWrite _ _ s)
        (rgnReg_ne _ _).1 (rgnReg_ne _ _).2 (quiet_of hb rfl rfl))
    simp [legalPos, setAllPos] at hl
    rcases setAllAfter_ne ‹_› .invStart with h | ⟨q, h⟩ <;> simp [h, legalPos, setAllPos, hl]
  · cases h; exact flightAfter_invStart (quiet_of hb rfl rfl) rfl (by simpa [legalPos, setAllPos]
        using hl)
  · cases h; exact flightAfter_goPoll hc (by simp [waitsGo, eq_comm]) rfl (by simpa [legalPos,
        setAllPos] using hl) (by simpa [legalPos, setAllPos] using hl) hb
  · cases h; exact flightAfter_quiet ⟨rfl, rfl, rfl⟩ (by simpa [legalPos, setAllPos] using hl)
        (quiet_cache (accessed_cacheEnWrite _ _ s) (by simp) (by simp) (quiet_of hb rfl rfl))
  · cases h; exact flightAfter_finish
  · cases h

/-- Every engine step leads to a position of its command or to `Idle`,
    and leaves a go-bit set only where that
position polls it (R31, R55). -/
theorem exec_positions {i pos loc s t} (hc : configWf s.cfg = true) (hs : s.engine = .run pos loc)
    (hl : legalPos s.cfg i loc.a0 pos = true) (hb : FlightBefore i pos s) (h : exec i s = .next t) :
    FlightAfter s.cfg i loc t := by
  cases i
  exacts [execClksw_positions hs hb h, execTrim_positions hs hl hb h, execIpsdiv_positions hs hb h,
      execGetfreq_positions hs hb h, execCen_positions hs hb h, execCrgn_positions hs hb h,
      execCrgnall_positions hs hl hb h, execCinv_positions hc hs hb h,
      execCinvr_positions hc hs hb h, execCinit_positions hc hs hl hb h]

end Sys2Proof.Machine
end

