-- ==== Sys2Proof/Laws/Registers.lean ====
section
/-! SUPPORT. Reserved bits stay 0 and residency sets stay canonical: what register writes, engine steps and
ENV steps do to the words of registers and to the resident lines. -/

namespace Sys2Proof.Machine

/-! ## Words within a mask -/

/-- Every 1 of `v` lies in the mask `m`: the form of `regsOk`, one register at a time (R52). -/
def Within (v m : Word) : Prop := v &&& ~~~m = 0#32

/-- The same, one bit at a time. -/
theorem within_iff {v m : Word} : Within v m ↔ ∀ p, getBit v p = true → getBit m p = true := by
  unfold Within
  constructor
  · intro h p hp
    have := congrArg (fun x => getBit x p) h
    simp only [getBit_and_not, getBit_zero, hp, Bool.true_and] at this
    simpa using this
  · intro h
    apply word_ext
    intro p _
    rw [getBit_and_not, getBit_zero]
    cases hv : getBit v p
    · rfl
    · simp [h p hv]

/-- A merge of a word that keeps to the mask keeps to it. -/
theorem within_merge {rw impl old new : Word} (h1 : Within rw impl) (h2 : Within old impl) :
    Within (merge rw old new) impl := by
  rw [within_iff] at *
  intro p hp
  rw [getBit_merge] at hp
  split at hp
  · exact h1 p (by assumption)
  · exact h2 p hp

theorem within_putBit {v m : Word} {p b} (h : Within v m) (hm : getBit m p = true) :
    Within (putBit v p b) m := by
  rw [within_iff] at *
  intro q hq
  rw [getBit_putBit] at hq
  split at hq
  · rename_i h'; rw [← h'.1]; exact hm
  · exact h q hq

theorem within_refl (m : Word) : Within m m := within_iff.mpr fun _ h => h

theorem within_or_left (a b : Word) : Within a (a ||| b) := within_iff.mpr fun _ h => by simp [h]

theorem within_trans {a b c} (h1 : Within a b) (h2 : Within b c) : Within a c := by
  rw [within_iff] at *
  exact fun p h => h2 p (h1 p h)

theorem within_or {a b c : Word} (h1 : Within a c) (h2 : Within b c) : Within (a ||| b) c := by
  rw [within_iff] at *
  intro p h
  rw [getBit_or, Bool.or_eq_true] at h
  exact h.elim (h1 p) (h2 p)

theorem cpmRw_within (cfg q) : Within (cpmRw cfg q) (cpmImpl cfg q) := by
  cases q <;> simp only [cpmImpl]
  · exact within_trans (within_or_left _ _) (within_or_left _ _)
  · exact within_or_left _ _
  all_goals exact within_refl _

theorem cacheRw_within (cfg q) : Within (cacheRw cfg q) (cacheImpl cfg q) := by
  cases q <;> simp only [cacheImpl]
  all_goals first | exact within_refl _ | exact within_or_left _ _

/-- A CPM write keeps every CPM register within its implemented bits. -/
theorem cpm_word_write (q : CpmReg) (v : Word) (s : State) (h : ∀ r, Within (s.cpm.word r)
    (cpmImpl s.cfg r)) (r : CpmReg) :
    Within ((writeReg (.cpm q) v s).cpm.word r) (cpmImpl s.cfg r) := by
  by_cases h1 : q = .protKey
  · subst h1; rw [writeReg_protKey]
    cases r <;> simp [writeProtKey, Cpm.word]
    case protKey => exact within_merge (within_refl _) (h .protKey)
    all_goals first | exact h .oscCs | exact h .sysClk | exact h .ipsDiv | exact h .hsTrim
  by_cases h2 : q = .hsTrim
  · subst h2
    cases ht : trimAdmitted s
    · rw [writeReg_hsTrim_ignored _ _ ht]; simpa using h r
    · rw [writeReg_hsTrim_admitted _ _ ht]
      cases r <;> simp [Cpm.word]
      case hsTrim =>
        apply within_iff.mpr
        intro p hp
        have h32 : p < 32 := by by_contra hc; rw [getBit_ge (by omega)] at hp; cases hp
        simp only [cpmImpl, cpmRw, getBit]
        rw [BitVec.getLsbD_allOnes]
        simp [h32]
      all_goals first | exact h .oscCs | exact h .sysClk | exact h .ipsDiv | exact h .protKey
  · rw [writeReg_cpm_plain _ _ _ h1 h2]
    simp [Cpm.word_setWord]
    split
    · rename_i he; subst he; exact within_merge (cpmRw_within _ _) (h _)
    · exact h r

theorem within_and_right (a b : Word) :
    Within (a &&& b) b := within_iff.mpr fun p h => by simp at h; exact h.2

/-- A cache write keeps the register within its implemented bits. -/
theorem cacheWritten_within (cfg en r old v) (h : Within old (cacheImpl cfg r)) :
    Within (cacheWritten cfg en r old v) (cacheImpl cfg r) := by
  cases r <;> simp only [cacheWritten]
  case cmnt =>
    unfold cmntWritten
    refine within_or (within_merge (cacheRw_within _ _) h) (within_trans (within_and_right _ _) ?_)
    simp only [cacheImpl]; exact within_iff.mpr fun p h => by simp [h]
  case crsize =>
    unfold crsizeWritten; split
    · refine within_or (within_merge (cacheRw_within _ _) h) (within_trans (within_and_right _ _) ?_)
      simp only [cacheImpl]; exact within_iff.mpr fun p h => by simp [h]
    · exact h
  all_goals exact within_merge (cacheRw_within _ _) h

theorem regsOk_iff (s) : regsOk s ↔ (∀ r, Within (s.cpm.word r)
    (cpmImpl s.cfg r)) ∧ ∀ c r, Within ((s.cache c).word r) (cacheImpl s.cfg r) := Iff.rfl

/-- No register write sets a reserved bit. -/
theorem regsOk_write {r : Reg} {v s} (h : regsOk s) : regsOk (writeReg r v s) := by
  rw [regsOk_iff] at *
  rcases r with (q | q | ⟨c, q⟩)
  · obtain ⟨x, e, d, k, h'⟩ := writeReg_cmdif_fields q v s
    simp only [h', State.setKey_cpm, State.setDraws_cpm, State.setEngine_cpm, State.setCmdif_cpm,
      State.setKey_cfg, State.setDraws_cfg, State.setEngine_cfg, State.setCmdif_cfg,
      State.setKey_cache, State.setDraws_cache, State.setEngine_cache, State.setCmdif_cache]
    exact h
  · rw [writeReg_cfg]
    refine ⟨cpm_word_write q v s h.1, ?_⟩
    intro c r
    have := writeReg_cpm_caches q v s
    have e : (writeReg (.cpm q) v s).cache c = s.cache c := by cases c; exacts [this.1, this.2]
    rw [e]; exact h.2 c r
  · rw [writeReg_cfg]
    refine ⟨fun r => by rw [(writeReg_cache_frame c q v s).1]; exact h.1 r, fun d r => ?_⟩
    by_cases hd : d = c
    · subst hd
      simp only [writeReg_cache, State.setKey_cache, State.setCache_cache_self, Cache.word_setWord]
      split
      · rename_i he; subst he; exact cacheWritten_within _ _ _ _ _ (h.2 d r)
      · exact h.2 d r
    · rw [(writeReg_cache_frame c q v s).2.2 d hd]; exact h.2 d r

theorem regsOk_congr {s t} (h1 : t.cfg = s.cfg) (h2 : t.cpm = s.cpm)
    (h3 : ∀ c r, (t.cache c).word r = (s.cache c).word r) (h : regsOk s) : regsOk t := by
  rw [regsOk_iff] at *; rw [h1, h2]; exact ⟨h.1, fun c r => by rw [h3]; exact h.2 c r⟩

/-- No access sets a reserved bit. -/
theorem regsOk_accessed {r s t} (ha : Accessed r s t) (h : regsOk s) : regsOk t := by
  rcases ha with rfl | ⟨v, e, rfl⟩ | ⟨v, e, rfl⟩
  · exact regsOk_congr (by simp [regRead]) (by simp [regRead]) (by simp [regRead]) h
  · exact regsOk_congr (s := writeReg r v s) rfl rfl (by simp) (regsOk_write h)
  · refine regsOk_congr (s := writeReg r v (drawnBy r s)) rfl rfl (by simp) (regsOk_write ?_)
    exact regsOk_congr (by simp) (by simp) (by simp) h

/-- The residency sets of an instance that has not changed. -/
theorem lines_congr {s t : State} {c : CacheId} (h : (t.cache c).lines = (s.cache c).lines) (w : Nat) :
    t.lines c w = s.lines c w := by rw [State.lines, State.lines, h]

/-- No access moves a resident line (R53, R323). -/
theorem residents_accessed {r s t} (ha : Accessed r s t) (hr : ∀ q, r ≠ .cmdif q) (c) :
    (t.cache c).lines = (s.cache c).lines := by
  have key : ∀ (v : Word) s', ((writeReg r v s').cache c).lines = (s'.cache c).lines := by
    intro v s'
    rcases r with (q | q | ⟨d, q⟩)
    · exact absurd rfl (hr q)
    · have := writeReg_cpm_caches q v s'
      have e : (writeReg (.cpm q) v s').cache c = s'.cache c := by cases c; exacts [this.1, this.2]
      rw [e]
    · by_cases hd : c = d
      · subst hd; simp [writeReg_cache]
      · rw [(writeReg_cache_frame d q v s').2.2 c hd]
  rcases ha with rfl | ⟨v, e, rfl⟩ | ⟨v, e, rfl⟩
  · simp [regRead]
  · simpa using key v s
  · simpa using key v (drawnBy r s)

/-- The same, one way at a time. -/
theorem lines_accessed {r s t} (ha : Accessed r s t) (hr : ∀ q, r ≠ .cmdif q) (c w) :
    t.lines c w = s.lines c w := lines_congr (residents_accessed ha hr c) w

theorem resid_congr {s t} (h1 : t.cfg = s.cfg) (h2 : ∀ c, (t.cache c).lines = (s.cache c).lines)
    (h : residencyOk s) : residencyOk t :=
  ⟨fun c => by rw [h1, h2]; exact h.1 c, fun c w => by rw [h1, lines_congr (h2 c)]; exact h.2 c w⟩

/-- No engine step sets a reserved bit. -/
theorem exec_regs {i s t} (h : exec i s = .next t) (hr : regsOk s) : regsOk t := by
  rcases exec_shape h with ⟨_, _, _, _, r, u, y, _, _, hu, _, _, rfl⟩ |
    ⟨_, _, _, _, a, y, _, _, _, _, rfl⟩ | ⟨_, _, _, y, _, _, _, rfl⟩
  · exact regsOk_congr (s := u) rfl rfl (by simp) (regsOk_accessed hu hr)
  · exact regsOk_congr (s := s) rfl rfl (by simp [memRead]) hr
  · exact regsOk_congr (s := s) rfl rfl (by simp) hr

/-- No engine step moves a resident line. -/
theorem exec_residents {i s t} (h : exec i s = .next t) (c) :
    (t.cache c).lines = (s.cache c).lines := by
  rcases exec_shape h with ⟨_, _, _, _, r, u, y, _, hr, hu, _, _, rfl⟩ |
    ⟨_, _, _, _, a, y, _, _, _, _, rfl⟩ | ⟨_, _, _, y, _, _, _, rfl⟩
  · simpa using residents_accessed hu (ownReg_not_cmdif hr) c
  · simp [memRead]
  · simp

/-- The same, one way at a time. -/
theorem exec_lines {i s t} (h : exec i s = .next t) (c w) : t.lines c w = s.lines c w :=
  lines_congr (exec_residents h c) w

theorem linesWf_iff (cfg ls) :
    linesWf cfg ls = true ↔ ls.Pairwise (fun x y => x.toNat < y.toNat) ∧
      ∀ a ∈ ls, lineAligned cfg a = true :=
  by
  simp [linesWf]

theorem mem_insertLine {a b : Word} {ls} : b ∈ insertLine a ls ↔ b = a ∨ b ∈ ls := by
  induction ls with
  | nil => simp [insertLine]
  | cons x ls ih =>
    simp only [insertLine]
    split
    · simp
    · split
      · rename_i h; subst h; simp
      · simp [ih]; tauto

/-- A fill keeps the canonical form of a residency set. -/
theorem insertLine_wf {cfg a ls} (h : linesWf cfg ls = true) (ha : lineAligned cfg a = true) :
    linesWf cfg (insertLine a ls) = true := by
  rw [linesWf_iff] at *
  refine ⟨?_, ?_⟩
  · induction ls with
    | nil => simp [insertLine]
    | cons x ls ih =>
      have h1 := List.pairwise_cons.mp h.1
      simp only [insertLine]
      split
      · refine List.pairwise_cons.mpr ⟨fun b hb => ?_, h.1⟩
        rcases List.mem_cons.mp hb with rfl | hb
        · assumption
        · have := h1.1 b hb; omega
      · split
        · exact h.1
        · refine List.pairwise_cons.mpr ⟨fun b hb => ?_,
            ih ⟨h1.2, fun b hb => h.2 b (List.mem_cons_of_mem _ hb)⟩⟩
          rcases mem_insertLine.mp hb with rfl | hb
          · rename_i hlt hne; have : b.toNat ≠ x.toNat := fun h => hne (BitVec.eq_of_toNat_eq h); omega
          · exact h1.1 b hb
  · intro b hb; rcases mem_insertLine.mp hb with rfl | hb; exact ha; exact h.2 b hb

theorem filter_wf {cfg ls} (f) (h : linesWf cfg ls = true) : linesWf cfg (ls.filter f) = true := by
  rw [linesWf_iff] at *
  exact ⟨h.1.filter f, fun a ha => h.2 a (List.mem_filter.mp ha).1⟩

theorem lines_set (s : State) (c x d w) :
    (s.setCache c x).lines d w = if d = c then x.lines.getD w [] else s.lines d w := by
  by_cases h : d = c
  · subst h; simp [State.lines]
  · simp [State.lines, h]

/-- The lines a global completion leaves: none in the ways whose bit is set (R84, R320). -/
theorem lines_globalComplete (c v s d w) :
    (globalComplete c v s).lines d w =
      if d = c ∧ s.invWay c w = true then [] else s.lines d w := by
  simp only [globalComplete, lines_set]
  by_cases hd : d = c
  · subst hd
    simp only [true_and, if_true, List.getD_eq_getElem?_getD, List.getElem?_mapIdx, State.lines]
    cases h : (s.cache d).lines[w]? <;> by_cases hw : s.invWay d w = true <;> simp [hw]
  · simp [hd]

/-- The lines a range completion leaves: those outside the range (R84, R321). -/
theorem lines_rangeComplete (c s d w) :
    (rangeComplete c s).lines d w =
      if d = c then outsideRange (s.cache c).craddr (s.rangeLen c) (s.lines c w) else s.lines d w := by
  simp only [rangeComplete, lines_set]
  by_cases hd : d = c
  · subst hd
    simp only [if_true, List.getD_eq_getElem?_getD, List.getElem?_map, State.lines]
    cases h : (s.cache d).lines[w]? <;> simp [outsideRange]
  · simp [hd]

/-- The lines after a fill of a way that exists (R323). -/
theorem lines_fillLine {c w a s} (hw : w < (s.cache c).lines.length) (d w') :
    (fillLine c w a s).lines d w' =
      if d = c ∧ w' = w then insertLine a (s.lines c w) else s.lines d w' := by
  simp only [fillLine, lines_set, Cache.setLines_lines]
  by_cases hd : d = c
  · subst hd
    simp only [true_and, if_true, List.getD_eq_getElem?_getD, List.getElem?_set, State.lines]
    by_cases h : w = w'
    · subst h; simp [hw]
    · simp [h, Ne.symm h]
  · simp [hd]

/-- ENV changes the number of ways of no instance. -/
theorem env_ways (e s c) : ((envEffect e s).cache c).lines.length = (s.cache c).lines.length := by
  cases e with
  | globalDone d v =>
    by_cases h : c = d
    · subst h; simp [envEffect, globalComplete]
    · simp [envEffect, globalComplete, h]
  | rangeDone d =>
    by_cases h : c = d
    · subst h; simp [envEffect, rangeComplete]
    · simp [envEffect, rangeComplete, h]
  | fill d w a =>
    by_cases h : c = d
    · subst h; simp [envEffect, fillLine]
    · simp [envEffect, fillLine, h]
  | stabilise k => simp [envEffect, setStable]
  | disturb => simp [envEffect, setStable]
  | oscStop k => simp [envEffect, setStable]
  | switchTakes => simp [envEffect, setSelStat]

/-- ENV changes no parameter. -/
theorem envEffect_cfg (e s) : (envEffect e s).cfg = s.cfg := by
  cases e <;> simp [envEffect, setStable, setSelStat, globalComplete, rangeComplete, fillLine]

/-- ENV keeps the canonical form of every residency set. -/
theorem env_resid {e s} (h : residencyOk s) : residencyOk (envStep e s) := by
  by_cases he : envEnabled e s = true
  swap
  · rw [envStep_off (by simpa using he)]; exact h
  rw [envStep_on he]
  refine resid_congr (s := envEffect e s) rfl (by simp) ⟨fun c => ?_, fun c w => ?_⟩
  · rw [env_ways, envEffect_cfg]; exact h.1 c
  rw [envEffect_cfg]
  have h2 := h.2 c w
  cases e with
  | globalDone d v =>
    rw [envEffect, lines_globalComplete]
    split
    · rfl
    · exact h2
  | rangeDone d =>
    rw [envEffect, lines_rangeComplete]
    split
    · exact filter_wf _ (h.2 d w)
    · exact h2
  | fill d w' a =>
    simp [envEnabled] at he
    rw [envEffect, lines_fillLine (by rw [h.1 d]; exact he.1.2)]
    split
    · exact insertLine_wf (h.2 d w') he.2
    · exact h2
  | stabilise k =>
    rw [lines_congr (s := s) (by simp [envEffect, setStable])]; exact h2
  | disturb =>
    rw [lines_congr (s := s) (by simp [envEffect, setStable])]; exact h2
  | oscStop k =>
    rw [lines_congr (s := s) (by simp [envEffect, setStable])]; exact h2
  | switchTakes =>
    rw [lines_congr (s := s) (by simp [envEffect, setSelStat])]; exact h2

/-- ENV sets no reserved bit. -/
theorem env_regs {e s} (h : regsOk s) : regsOk (envStep e s) := by
  by_cases he : envEnabled e s = true
  swap
  · rw [envStep_off (by simpa using he)]; exact h
  rw [envStep_on he]
  have hl : ∀ (u : State), regsOk u → regsOk (u.log (.env e)) :=
    fun u hu => regsOk_congr (s := u) rfl rfl (by simp) hu
  apply hl
  rw [regsOk_iff] at *
  have hst : ∀ (k : Source) (p : Nat), getBit (bit (stablePos s.cfg.layout k)) p = true →
      getBit (cpmImpl s.cfg .oscCs) p = true := by
    intro k p hp; cases k <;> simp [cpmImpl, stablePos] at hp ⊢ <;> simp [hp]
  have sp : ∀ (v m : Word) (p : Nat) (b : Bool), Within v m →
      (∀ q, getBit (bit p) q = true → getBit m q = true) → Within (putBit v p b) m := by
    intro v m p b hv hm
    by_cases h32 : p < 32
    · exact within_putBit hv (hm p (getBit_bit_self h32))
    · rw [within_iff] at *; intro q hq; rw [getBit_putBit, if_neg (by omega)] at hq; exact hv q hq
  cases e with
  | stabilise k =>
    refine ⟨fun r => ?_, fun c r => by simpa [envEffect, setStable] using h.2 c r⟩
    cases r <;> simp only [envEffect, setStable, State.setCpm_cpm, Cpm.word, State.setCpm_cfg]
    · exact sp _ _ _ _ (h.1 .oscCs) (hst k)
    all_goals first
      | exact h.1 .oscCs | exact h.1 .sysClk | exact h.1 .ipsDiv | exact h.1 .protKey
      | exact h.1 .hsTrim
  | disturb =>
    refine ⟨fun r => ?_, fun c r => by simpa [envEffect, setStable] using h.2 c r⟩
    cases r <;> simp only [envEffect, setStable, State.setCpm_cpm, Cpm.word, State.setCpm_cfg,
      State.setDisturb_cpm, State.setDisturb_cfg]
    · exact sp _ _ _ _ (h.1 .oscCs) (hst _)
    all_goals first
      | exact h.1 .oscCs | exact h.1 .sysClk | exact h.1 .ipsDiv | exact h.1 .protKey
      | exact h.1 .hsTrim
  | oscStop k =>
    refine ⟨fun r => ?_, fun c r => by simpa [envEffect, setStable] using h.2 c r⟩
    cases r <;> simp only [envEffect, setStable, State.setCpm_cpm, Cpm.word, State.setCpm_cfg]
    · exact sp _ _ _ _ (h.1 .oscCs) (hst k)
    all_goals first
      | exact h.1 .oscCs | exact h.1 .sysClk | exact h.1 .ipsDiv | exact h.1 .protKey
      | exact h.1 .hsTrim
  | switchTakes =>
    refine ⟨fun r => ?_, fun c r => by simpa [envEffect, setSelStat] using h.2 c r⟩
    cases r <;> simp only [envEffect, setSelStat, State.setCpm_cpm, Cpm.word, State.setCpm_cfg]
    case sysClk => exact sp _ _ _ _ (h.1 .sysClk) (by intro q hq; simp [cpmImpl, hq])
    all_goals first
      | exact h.1 .oscCs | exact h.1 .sysClk | exact h.1 .ipsDiv | exact h.1 .protKey
      | exact h.1 .hsTrim
  | globalDone c v =>
    refine ⟨fun r => by simpa [envEffect, globalComplete] using h.1 r, fun d r => ?_⟩
    simp only [envEffect, globalComplete, State.setCache_cfg, State.setCache_cache]
    split
    · rename_i hd; subst hd
      cases r <;> simp only [Cache.word]
      case cmnt => 
        refine within_merge (within_iff.mpr fun q hq => ?_) (sp _ _ _ _ (h.2 d .cmnt) ?_)
        · simp [cacheImpl, cacheRw, hq]
        · intro q hq; simp [cacheImpl, hq]
      all_goals first
        | exact h.2 d .ccr | exact h.2 d .cmnt | exact h.2 d .craddr | exact h.2 d .crsize
        | exact h.2 d .crgn0 | exact h.2 d .crgn1
    · exact h.2 d r
  | rangeDone c =>
    refine ⟨fun r => by simpa [envEffect, rangeComplete] using h.1 r, fun d r => ?_⟩
    simp only [envEffect, rangeComplete, State.setCache_cfg, State.setCache_cache]
    split
    · rename_i hd; subst hd
      cases r <;> simp only [Cache.word]
      case crsize => 
        refine sp _ _ _ _ (h.2 d .crsize) ?_ ; (intro q hq; simp [cacheImpl, hq])
      all_goals first
        | exact h.2 d .ccr | exact h.2 d .cmnt | exact h.2 d .craddr | exact h.2 d .crsize
        | exact h.2 d .crgn0 | exact h.2 d .crgn1
    · exact h.2 d r
  | fill c w a =>
    refine ⟨fun r => by simpa [envEffect, fillLine] using h.1 r, fun d r => ?_⟩
    simp only [envEffect, fillLine, State.setCache_cfg, State.setCache_cache]
    split
    · rename_i hd; subst hd
      simpa using h.2 d r
    · exact h.2 d r

end Sys2Proof.Machine
end

