-- ==== Sys2Proof/Tests/Slice0.lean ====
section
/-! SUPPORT. Tests. Expected values are those of spec/ (file 95's vectors, the words of 30_encoding.md R117,
or a hand calculation from the rule named). The last part shows, for every statement that has hypotheses,
a state and operands that meet them. -/

namespace Sys2Proof.Machine

/-! ## Well-formedness: each check refuses an ill-formed term -/

theorem test_source_two_refused : (Instr.clksw 2).wellFormed = false := by decide
theorem test_source_one_accepted : (Instr.clksw 1).wellFormed = true := by decide
theorem test_target_two_refused : (Instr.trim 2).wellFormed = false := by decide
theorem test_region_five_refused : (Instr.crgn .icache 5 1).wellFormed = false := by decide
theorem test_region_four_accepted : (Instr.crgn .icache 4 2).wellFormed = true := by decide
theorem test_policy_three_refused : (Instr.crgn .icache 1 3).wellFormed = false := by decide

/-- The reference configuration is well-formed (R9, R23, R36, R44). -/
theorem configWf_reference : configWf Config.reference = true := by decide

/-- Fields of one register that overlap are refused. -/
theorem test_overlapping_fields_refused :
    configWf { Config.reference with layout := { Layout.reference with hsEn := 0 } } = false := by decide

/-- Overlapping blocks are refused (R70, R73). -/
theorem test_overlapping_blocks_refused :
    configWf { Config.reference with cpmBase := 0x50000800 } = false := by decide

/-- An unaligned OTP address is refused (R73). -/
theorem test_unaligned_otp_refused :
    configWf { Config.reference with otpSecAddr := 0x1FFF0401 } = false := by decide

/-- A base and offsets that are not multiples of 4 are refused, even where their sums are (R73). -/
theorem test_unaligned_otp_base_refused :
    configWf { Config.reference with otpPartBase := 0x1FFF0012, otpValOff := 2, otpKeyOff := 6 } = false := by
  decide

/-- Three partitions with two validity addresses, and three ways with two way bits, are refused (R9). -/
theorem test_counts_and_layout_disagree_refused :
    configWf { Config.reference with otpValidAddrs := [0x1FFF0000, 0x1FFF0100] } = false ∧
    configWf { Config.reference with nways := 3 } = false := by decide

/-- Four ways and two partitions are accepted when the layout has them (R9, I20). -/
theorem test_other_counts_accepted :
    configWf { Config.reference with
      layout := { Layout.reference with invW := [0, 1, 2, 3] }, nways := 4
      npart := 2, defaultPart := 1, otpValidAddrs := [0x1FFF0000, 0x1FFF0100] } = true := by decide

/-- XLEN = 64 is refused (R72). -/
theorem test_xlen_refused : configWf { Config.reference with xlen := 64 } = false := by decide

/-- K = 0 is refused (R9). -/
theorem test_zero_k_refused : configWf { Config.reference with pollItersPerMs := 0 } = false := by decide

/-! ## Decoding: words written out from the table of R106, field by field -/

-- OP = 0000_0001, A = 0001
theorem test_decode_clksw : decode 0b0000000000000000_0_0_00_0001_00000001#32 = .ok (.clksw 1) := by decide
-- OP = 0000_0010, A = 0001
theorem test_decode_trim : decode 0b0000000000000000_0_0_00_0001_00000010#32 = .ok (.trim 1) := by decide
-- OP = 0000_0011
theorem test_decode_ipsdiv : decode 0b0000000000000000_0_0_00_0000_00000011#32 = .ok .ipsdiv := by decide
-- OP = 0000_0100
theorem test_decode_getfreq : decode 0b0000000000000000_0_0_00_0000_00000100#32 = .ok .getfreq := by decide
-- OP = 0001_0000, A[0] = 1, I = 1
theorem test_decode_cen : decode 0b0000000000000000_1_0_00_0001_00010000#32 = .ok (.cen .dcache true) := by
  decide
-- OP = 0001_0001, A = 0011, P = 10, I = 1
theorem test_decode_crgn : decode 0b0000000000000000_1_0_10_0011_00010001#32 = .ok (.crgn .dcache 3 2) := by
  decide
-- OP = 0001_0010, I = 1
theorem test_decode_crgnall : decode 0b0000000000000000_1_0_00_0000_00010010#32 = .ok (.crgnall .dcache) := by
  decide
-- OP = 0001_0011, I = 0
theorem test_decode_cinv : decode 0b0000000000000000_0_0_00_0000_00010011#32 = .ok (.cinv .icache) := by decide
-- OP = 0001_0100, I = 1
theorem test_decode_cinvr : decode 0b0000000000000000_1_0_00_0000_00010100#32 = .ok (.cinvr .dcache) := by
  decide
-- OP = 0001_0101, I = 0
theorem test_decode_cinit : decode 0b0000000000000000_0_0_00_0000_00010101#32 = .ok (.cinit .icache) := by
  decide

/-- V-DC-1 to V-DC-4: illegal opcodes. -/
theorem test_illegal_opcodes :
    decode 0x00000000#32 = .error (.illegalOpcode 0x00) ∧
    decode 0x00000007#32 = .error (.illegalOpcode 0x07) ∧
    decode 0x00000016#32 = .error (.illegalOpcode 0x16) ∧
    decode 0x000000FF#32 = .error (.illegalOpcode 0xFF) := by decide

/-- V-DC-5 to V-DC-9: a bit that must be 0 is set. -/
theorem test_reserved_bits :
    decode 0x00010004#32 = .error (.reservedBits 0x00010004#32) ∧
    decode 0x00004101#32 = .error (.reservedBits 0x00004101#32) ∧
    decode 0x00008001#32 = .error (.reservedBits 0x00008001#32) ∧
    decode 0x00000103#32 = .error (.reservedBits 0x00000103#32) ∧
    decode 0x00004202#32 = .error (.reservedBits 0x00004202#32) := by decide

/-- V-CE-3, V-CR-9, V-CI-4 and V-RI-10: the same in the cache rows. -/
theorem test_reserved_bits_cache :
    decode 0x00000210#32 = .error (.reservedBits 0x00000210#32) ∧
    decode 0x00004111#32 = .error (.reservedBits 0x00004111#32) ∧
    decode 0x00000113#32 = .error (.reservedBits 0x00000113#32) ∧
    decode 0x00000114#32 = .error (.reservedBits 0x00000114#32) := by decide

/-- No word matches two rows: each pair of rows differs in a bit both of them fix. -/
theorem test_rows_disjoint :
    Opcode.all.Pairwise fun o p => (o.matchWord ^^^ p.matchWord) &&& o.mask &&& p.mask ≠ 0#32 := by decide

theorem test_table_word : decodeTableWord 32 0x0000A311 = some (.crgn .dcache 3 2) := by decide

/-! ## Memory -/

/-- The worked byte order of R74: the byte at the lowest address is the least significant. -/
theorem test_otp_little_endian : readWord [(16, 0x3C#8), (17, 0x5A#8), (18, 0#8), (19, 0#8)] 16 = 0x00005A3C#32 := by
  decide

theorem test_otp_canonical : memoryWf (writeWord [] 16 0xFF005A3C#32) = true ∧
    (writeWord [] 16 0xFF005A3C#32).length = 3 := by decide

/-! ## Small states -/

/-- Locals that hold a command word and its arguments, the rest 0. -/
def testLocals (cmd a0 a1 : Word) : Locals where
  cmd := cmd
  a0 := a0
  a1 := a1
  n := 0
  v := 0#32
  w := 0#32
  p := 0
  st := .ok
  base := 0
  alen := 0

/-- The reset state with a command running at a position. -/
def testRun (pos : Pos) (loc : Locals) : State :=
  { State.reset with
    engine := .run pos loc
    cmdif := { Cmdif.reset Config.reference with
      cmd := loc.cmd, arg0 := loc.a0, arg1 := loc.a1, busy := true } }

/-- The same with OSC_CS and SYS_CLK. -/
def testClock (oscCs sysClk : Word) (pos : Pos) (loc : Locals) : State :=
  { testRun pos loc with cpm := { Cpm.zero with oscCs := oscCs, sysClk := sysClk } }

/-- The same with cache D. -/
def testDcache (x : Cache) (pos : Pos) (loc : Locals) : State := { testRun pos loc with dcache := x }

/-- The state of a next outcome. -/
def nextState? (o : Host.Outcome State Fault Refusal) : Option State :=
  match o with
  | .next t => some t
  | .fault _ => none
  | .refused _ => none

/-! ## One step of each command -/

/-- V-CS-2, step 1. -/
theorem test_clksw_enables :
    (nextState? (exec (.clksw 1) (testClock 0x101 0 .start (testLocals 0x101 10 0)))).map
      (fun t => (t.cpm.oscCs, t.cmdif.csw)) = some (0x103#32, .oscillatorEnabling) := by decide

/-- V-CS-8, step 3. -/
theorem test_clksw_selects :
    (nextState? (exec (.clksw 1) (testClock 0x303 0x50000 .select (testLocals 0x101 1 0)))).map
      (fun t => (t.cpm.sysClk, t.trace)) =
    some (0x50001#32, [.modify .engine (.cpm .sysClk) 0x50000#32 0x50001#32]) := by decide

/-- V-CS-3: budget 1 with K = 4 makes four reads; the first assigns the count and uses one (R12, R137). -/
theorem test_first_poll_read_counts :
    (nextState? (exec (.clksw 1) (testClock 0x103 0 .pollStableFirst (testLocals 0x101 1 0)))).map
      (fun t => t.engine) =
    some (.run .pollStable { testLocals 0x101 1 0 with n := 3, v := 0x103#32 }) := by decide

/-- V-TR-6: the tag is the top byte. -/
theorem test_trim_tag :
    (nextState? (exec (.trim 1) { testClock 0x303 0 .switched (testLocals 0x102 0 0) with
      otp := writeWord [] 0x1FFF0400 0xA5001234#32 })).map
      (fun t => (t.engine, t.cmdif.csw)) =
    some (.run .unlock00 { testLocals 0x102 0 0 with w := 0xA5001234#32 }, .switched) := by decide

/-- V-TR-2: after partition 0 the default, partition 2. -/
theorem test_trim_default_partition :
    (nextState? (exec (.trim 0) (testClock 0x303 0 (.otpValid 0) (testLocals 2 0 0)))).map
      (fun t => t.engine) =
    some (.run (.otpKey 2) { testLocals 2 0 0 with w := 0xFFFFFFFF#32 }) := by decide

/-- V-IP-1, step 2. -/
theorem test_ipsdiv_field :
    (nextState? (exec .ipsdiv { testRun .ipsField (testLocals 3 5 0) with
      cpm := { Cpm.zero with ipsDiv := 0x001#32 } })).map (fun t => (t.cpm.ipsDiv, t.trace)) =
    some (0x051#32, [.modify .engine (.cpm .ipsDiv) 0x001#32 0x051#32]) := by decide

/-- V-IP-4: 16 is out of range. -/
theorem test_ipsdiv_out_of_range :
    (nextState? (exec .ipsdiv (testRun .start (testLocals 3 16 0)))).map
      (fun t => (t.cmdif.res, t.cmdif.busy, t.trace)) = some (.err, false, []) := by decide

/-- V-GF-4. -/
theorem test_getfreq_truncates :
    (nextState? (exec .getfreq { testClock 0x303 0x20101 .freqDone (testLocals 4 0 0) with
      engine := .run .freqDone { testLocals 4 0 0 with w := 0x20101#32, base := 400000000 } })).map
      (fun t => t.cmdif.result) = some 133333333#32 := by decide

/-- V-GF-6: the base follows SEL_STAT. -/
theorem test_getfreq_base_follows_status :
    freqBase 0x1#32 State.reset = 8000000 ∧ freqBase 0x101#32 State.reset = 320000000 := by decide

/-- V-CE-1. -/
theorem test_cen_clears :
    (nextState? (exec (.cen .dcache false) (testDcache { Cache.zero with ccr := 1#32 } .start
      (testLocals 0x8010 0 0)))).map (fun t => (t.dcache.ccr, t.trace)) =
    some (0#32, [.modify .engine (.cache .dcache .ccr) 1#32 0#32]) := by decide

/-- V-CR-4, the write. -/
theorem test_crgn_writes :
    (nextState? (exec (.crgn .dcache 4 1) (testDcache { Cache.zero with crgn1 := 0x00FFFFFF#32 }
      (.setWrite .spiMap3) { testLocals 0x9411 0 0 with v := 0x00FFFFFF#32 }))).map
      (fun t => t.dcache.crgn1) = some 0x0055FFFF#32 := by decide

/-- V-CR-8: policy code 3. -/
theorem test_crgn_bad_policy :
    (nextState? (exec (.crgn .icache 1 3) (testRun .start (testLocals 0x3111 0 0)))).map
      (fun t => (t.cmdif.res, t.trace)) = some (.err, []) := by decide

/-- V-CR-6: BOOT comes first. -/
theorem test_crgnall_first_write :
    (nextState? (exec (.crgnall .icache) (testRun (.setWrite .boot) (testLocals 0x12 0x246 0)))).map
      (fun t => (t.icache.crgn0, t.engine)) =
    some (0x0FF#32, .run (.setRead .rom) (testLocals 0x12 0x246 0)) := by decide

/-- V-CR-10 and V-CR-11. -/
theorem test_policy_sets : validSet 0x300#32 = false ∧ validSet 0x400#32 = false ∧
    validSet 0x246#32 = true := by decide

/-- V-CI-1, step 1. -/
theorem test_cinv_starts :
    (nextState? (exec (.cinv .icache) (testRun .start (testLocals 0x13 0 0)))).map
      (fun t => (t.icache.cmnt, t.trace)) =
    some (0x8003#32, [.modify .engine (.cache .icache .cmnt) 0#32 0x8003#32]) := by decide

/-- V-RI-1, the size write. -/
theorem test_cinvr_size :
    (nextState? (exec (.cinvr .dcache) (testDcache { Cache.zero with ccr := 1#32 } .rangeSize
      { testLocals 0x8014 0x1007 20 with alen := 32 }))).map (fun t => t.dcache.crsize) =
    some 0x80000020#32 := by decide

/-- V-RI-1, V-RI-4, V-RI-6 and V-RI-9: base and length. -/
theorem test_cinvr_alignment :
    (alignBase Config.reference 0x1007#32, alignedLength Config.reference 0x1007#32 20#32) =
      (0x1000#32, 32) ∧
    alignedLength Config.reference 0x1004#32 0#32 = 16 ∧
    (alignBase Config.reference 0xFFFFFFF8#32, alignedLength Config.reference 0xFFFFFFF8#32 16#32) =
      (0xFFFFFFF0#32, 32) ∧
    alignedLength Config.reference 0xF#32 0xFFFFFFFF#32 = 0x100000010 := by decide

/-- P3, step 1. -/
theorem test_cinit_disables :
    (nextState? (exec (.cinit .dcache) (testDcache { Cache.zero with ccr := 1#32 } .start
      (testLocals 0x8015 0x246 0)))).map (fun t => (t.dcache.ccr, t.engine)) =
    some (0#32, .run (.setRead .boot) (testLocals 0x8015 0x246 0)) := by decide

/-- V-IN-2: an invalid set does not disable the cache. -/
theorem test_cinit_bad_set :
    (nextState? (exec (.cinit .dcache) (testDcache { Cache.zero with ccr := 1#32 } .start
      (testLocals 0x8015 3 0)))).map (fun t => (t.dcache.ccr, t.cmdif.res)) =
    some (1#32, .err) := by decide

/-! ## Agents -/

/-- V-EN-2: the switch takes effect. -/
theorem test_env_switch : (envStep .switchTakes
    { State.reset with cpm := { Cpm.zero with oscCs := 0x202#32, sysClk := 0x001#32 } }).cpm.sysClk =
    0x101#32 := by decide

/-- V-RI-6: the removed range wraps. -/
theorem test_env_range_wraps :
    outsideRange 0xFFFFFFF0#32 32 [0x00000000#32, 0x00000010#32, 0xFFFFFFE0#32, 0xFFFFFFF0#32] =
      [0x00000010#32, 0xFFFFFFE0#32] := by decide

/-- V-KY-1, V-KY-2, V-KY-8, V-KY-10 and V-KY-11. -/
theorem test_key_sequences :
    keyAfter .locked [(0, false), (1, false), (2, false), (3, true)] = .unlocked ∧
    keyAfter .locked [(0, false), (1, false), (2, false), (3, false)] = .locked ∧
    keyAfter .locked [(0, false), (0, false), (1, false), (2, false), (3, true)] = .unlocked ∧
    keyAfter .unlocked [(3, false)] = .locked ∧
    keyAfter .locked [(0, true), (1, true), (2, true), (3, false)] = .locked := by decide

/-- The fault of a fault outcome. -/
def fault? (o : Host.Outcome State Fault Refusal) : Option Fault :=
  match o with
  | .next _ => none
  | .fault f => some f
  | .refused _ => none

/-- V-HF-1 and the items 2 and 5 to 7 of R276 (V-HF-6, V-HF-7 and V-HF-8). -/
theorem test_host_faults :
    fault? (hostStep (.write 0x50000004#32 32 1#32) (testRun .pollStable (testLocals 0x101 0 0))) =
      some (.host .cmdifWhileBusy (.write 0x50000004#32 32 1#32)) ∧
    fault? (hostStep (.write 0x50001000#32 32 0#32) (testRun .pollStable (testLocals 0x101 0 0))) =
      some (.host .blockWhileBusy (.write 0x50001000#32 32 0#32)) ∧
    fault? (hostStep (.write 0x50003000#32 32 0#32) (testRun .pollStable (testLocals 0x101 0 0))) =
      some (.host .blockWhileBusy (.write 0x50003000#32 32 0#32)) ∧
    fault? (hostStep (.write 0x50001004#32 8 0#32) State.reset) =
      some (.host .width (.write 0x50001004#32 8 0#32)) ∧
    fault? (hostStep (.read 0x50001002#32 32) State.reset) =
      some (.host .misaligned (.read 0x50001002#32 32)) ∧
    fault? (hostStep (.read 0x50001014#32 32) State.reset) =
      some (.host .unmapped (.read 0x50001014#32 32)) := by decide

/-- V-HF-4 and V-HF-5. -/
theorem test_host_faults_in_flight :
    fault? (hostStep (.write 0x50003008#32 32 0#32)
        { State.reset with dcache := { Cache.zero with crsize := 0x80000000#32 } }) =
      some (.host .maintWhileInFlight (.write 0x50003008#32 32 0#32)) ∧
    fault? (hostStep (.write 0x50000000#32 32 4#32)
        { State.reset with dcache := { Cache.zero with cmnt := 0x8000#32 } }) =
      some (.host .cmdWhileInFlight (.write 0x50000000#32 32 4#32)) := by decide

/-- With KEYSEQ_STRICT an idle host write of STAT, a register other than PROT_KEY, breaks the sequence, and
leaves UNLOCKED alone (R172); without it KEYSTATE stays. -/
theorem test_read_only_write_breaks_the_sequence :
    (nextState? (hostStep (.write 0x5000000C#32 32 0xFF#32) { State.reset with
      cfg := { Config.reference with keyseqStrict := true }, keyState := .k2 })).map
      (fun t => (t.keyState, t.cmdif)) = some (.locked, State.reset.cmdif) ∧
    (nextState? (hostStep (.write 0x5000000C#32 32 0xFF#32) { State.reset with
      cfg := { Config.reference with keyseqStrict := true }, keyState := .unlocked })).map
      (fun t => t.keyState) = some .unlocked ∧
    (nextState? (hostStep (.write 0x5000000C#32 32 0xFF#32) { State.reset with keyState := .k2 })).map
      (fun t => t.keyState) = some .k2 := by decide

/-- A host write of NOMFREQ while TRIM unlocks has no effect, with KEYSEQ_STRICT too (R52, R172, R178). -/
theorem test_read_only_write_while_unlocking :
    (nextState? (hostStep (.write 0x50000014#32 32 5#32) { testRun .unlock10 (testLocals 2 0 0) with
      cfg := { Config.reference with keyseqStrict := true }, keyState := .k1 })).map
      (fun t => (t.keyState, t.cmdif.nomfreq)) = some (.k1, 320000000#32) := by decide

/-- V-HF-3: STAT reads BUSY = 1, RES = 0, CSW 1 while a CLKSW polls. -/
theorem test_stat_word :
    statWord Layout.reference { Cmdif.reset Config.reference with busy := true, csw := .oscillatorEnabling } =
      0x11#32 := by decide

/-! ## Witnesses: states and operands that meet the hypotheses of the statements -/

theorem witness_DecodeEncodeRoundTrip : decode 0x0000A311#32 = .ok (.crgn .dcache 3 2) := by decide

theorem witness_RejectedWordsFinishErr :
    (testRun .start (testLocals 0x7 0 0)).engine = .run .start (testLocals 0x7 0 0) ∧
    decode 0x7#32 = .error (.illegalOpcode 0x07) ∧ decode 0x10004#32 = .error (.reservedBits 0x10004) := by
  decide

theorem witness_InvalidCodesFinishErr :
    (testRun .start (testLocals 0x12 0x400 0)).engine = .run .start (testLocals 0x12 0x400 0) ∧
    (Instr.clksw 2).wellFormed = false ∧ (Instr.trim 15).wellFormed = false ∧
    (Instr.crgn .icache 5 0).wellFormed = false ∧ (Instr.crgn .icache 4 3).wellFormed = false ∧
    0x400#32 >>> 10 ≠ 0#32 ∧ (0x3#32).extractLsb' (2 * 0) 2 = 3#2 ∧
    (0x300#32).extractLsb' (2 * 4) 2 = 3#2 := by decide

theorem witness_StepRunsLatchedCommand :
    configWf (testRun .start (testLocals 3 5 0)).cfg = true ∧
    { testRun .start (testLocals 3 5 0) with agenda := [.engine] }.agenda = [.engine] ∧
    Runs .ipsdiv .start (testLocals 3 5 0)
      { testRun .start (testLocals 3 5 0) with agenda := [.engine] } :=
  ⟨configWf_reference, rfl, rfl, by decide⟩

theorem witness_StepMovesOneAgent :
    configWf State.reset.cfg = true ∧ State.reset.agenda = [] ∧ State.reset.engine = .idle ∧
    { State.reset with agenda := [.host (.read 0#32 32)] }.agenda = [.host (.read 0#32 32)] ∧
    { State.reset with agenda := [.env .disturb] }.agenda = [.env .disturb] ∧
    configWf { Config.reference with pollItersPerMs := 0 } = false :=
  ⟨configWf_reference, rfl, rfl, rfl, rfl, test_zero_k_refused⟩

/-- A latched word that is no command, at its first step and (in no run) at a later one. -/
theorem witness_StepMovesOneAgent_rejected :
    (testRun .start (testLocals 0x7 0 0)).engine = .run .start (testLocals 0x7 0 0) ∧
    (testRun .select (testLocals 0x10004 0 0)).engine = .run .select (testLocals 0x10004 0 0) ∧
    { testRun .start (testLocals 0x7 0 0) with agenda := [.engine] }.agenda = [.engine] ∧
    decode 0x7#32 = .error (.illegalOpcode 0x07) ∧ decode 0x10004#32 = .error (.reservedBits 0x10004) := by
  decide

theorem witness_LegalPositionsComplete :
    (testRun .select (testLocals 0x101 0 0)).engine = .run .select (testLocals 0x101 0 0) ∧
    legalPos Config.reference (.clksw 1) 0 .select = true ∧
    legalPos Config.reference (.trim 0) 0 (.otpValid 1) = true ∧
    legalPos Config.reference (.trim 0) 0 (.otpValid 2) = false ∧
    legalPos Config.reference (.cinit .icache) 0x246 (.setWrite .spiMap3) = true := by
  decide

theorem witness_FaultsComeFromHostAccesses :
    step { State.reset with agenda := [.host (.read 0x50001014#32 32)] } =
      .fault (.host .unmapped (.read 0x50001014#32 32)) :=
  (step_eq configWf_reference).trans rfl

/-- A step that every statement about next states applies to: ENV stabilises LFI. -/
theorem witness_ParametersNeverChange :
    ∃ t, step { State.reset with cpm := { Cpm.zero with oscCs := 1#32 }, agenda := [.env (.stabilise .lfi)] } =
      .next t ∧ t.cpm.oscCs = 0x101#32 :=
  ⟨_, (step_eq configWf_reference).trans rfl, by decide⟩

theorem witness_HostWriteOfCmdStartsCommand :
    configWf State.reset.cfg = true ∧ State.reset.cmdif.busy = false ∧
    State.reset.inFlight .icache = false ∧ State.reset.inFlight .dcache = false :=
  ⟨configWf_reference, by decide, by decide, by decide⟩

theorem witness_HostAddressMap : (∀ b ∈ allBlocks,
    ¬ (blockBase Config.reference b ≤ (accessAddr (.read 0x50004000#32 32)).toNat ∧
      (accessAddr (.read 0x50004000#32 32)).toNat < blockBase Config.reference b + 0x1000)) ∧
    (accessAddr (.write 0x50003014#32 32 7#32)).toNat =
      regAddr Config.reference (.cache .dcache .crgn1) ∧
    accessWidth (.write 0x50003014#32 32 7#32) = 32 := by decide

/-- For ResetValues, AlignedRangeCovers and EagerScheduleReachesFixpoint too, which ask no more. -/
theorem witness_ResetStatesSatisfyInvariants :
    configWf Config.reference = true ∧ memoryWf (writeWord [] 0x1FFF0200 0xA5A55A5A#32) = true :=
  ⟨configWf_reference, by decide⟩

/-- The residency sets are well-formed when both ways of the reference configuration are empty. -/
theorem residencyOk_of_empty {s : State} (hc : s.cfg = Config.reference)
    (hn : ∀ c, (s.cache c).lines = [[], []]) : residencyOk s := by
  refine ⟨fun c => by rw [hn c, hc]; rfl, fun c w => ?_⟩
  rw [State.lines, hn c]
  match w with
  | 0 => rfl
  | 1 => rfl
  | _ + 2 => rfl

/-- The invariants hold of a state whose engine runs a command at one of its positions, with nothing in
flight and no line resident. -/
theorem runInv_of_running {s : State} {i : Instr} {pos : Pos} {loc : Locals} (hc : s.cfg = Config.reference)
    (ho : memoryWf s.otp = true) (hs : s.engine = .run pos loc) (hd : decode loc.cmd = .ok i)
    (hl : legalPos Config.reference i loc.a0 pos = true) (hm : s.cmdif = (testRun pos loc).cmdif) (hr : regsOk s)
    (hf : ∀ c, s.inFlight c = false) (hn : ∀ c, (s.cache c).lines = [[], []]) : RunInv s := by
  refine ⟨by rw [hc]; exact configWf_reference, ho, ?_, ?_, ⟨?_, ?_⟩, ?_, hr, ?_, ?_⟩
  · simp [busyOk, hm, hs, testRun]
  · intro p l h
    rw [hs] at h
    cases h
    simp [hm, testRun]
  · rintro j p l ⟨h, hj⟩
    rw [hs] at h
    cases h
    rw [hd] at hj
    cases hj
    rw [hc]
    exact hl
  · intro e p l h he
    rw [hs] at h
    cases h
    rw [hd] at he
    cases he
  · simp [resOk, hm, testRun, Cmdif.reset]
  · intro p l c _
    have := hf c
    simp only [State.inFlight, Bool.or_eq_false_iff] at this
    simp [this.1, this.2]
  · exact residencyOk_of_empty hc hn

/-- CINIT of cache D, about to write EN, at the reset state: both ways are empty. -/
def testCinit : State := testRun .cacheEnable (testLocals 0x8015 0 0)

theorem regsOk_testCinit : regsOk testCinit :=
  ⟨fun r => by cases r <;> decide, fun c r => by cases c <;> cases r <;> decide⟩

theorem runInv_testCinit : RunInv testCinit :=
  runInv_of_running rfl (by decide) rfl (by decide : decode 0x8015#32 = .ok (.cinit .dcache)) (by decide)
    rfl regsOk_testCinit (fun c => by cases c <;> decide) (fun c => by cases c <;> rfl)

theorem step_testCinit :
    ∃ t, step { testCinit with agenda := [.engine] } = .next t ∧ t.cacheEn .dcache = true :=
  ⟨_, (step_eq configWf_reference).trans rfl, by decide⟩

theorem runInv_testCinit_agenda : RunInv { testCinit with agenda := [.engine] } :=
  runInv_of_running rfl (by decide) rfl (by decide : decode 0x8015#32 = .ok (.cinit .dcache)) (by decide)
    rfl regsOk_testCinit (fun c => by cases c <;> decide) (fun c => by cases c <;> rfl)

theorem witness_StepKeepsInvariants :
    RunInv { testCinit with agenda := [.engine] } ∧
    ∃ t, step { testCinit with agenda := [.engine] } = .next t ∧ t.cacheEn .dcache = true :=
  ⟨runInv_testCinit_agenda, step_testCinit⟩

theorem witness_CinitGuarantee_step :
    RunInv { testCinit with agenda := [.engine] } ∧
    cinitProgress .dcache { testCinit with agenda := [.engine] } ∧
    ∃ t, step { testCinit with agenda := [.engine] } = .next t ∧ t.cacheEn .dcache = true := by
  refine ⟨runInv_testCinit_agenda, ?_, step_testCinit⟩
  rintro pos loc ⟨h, _⟩ _ _
  cases h
  refine ⟨by decide, fun r p _ hp => ?_, fun r h => (by cases h), fun h => (by cases h), fun _ => ?_⟩
  · cases r <;> cases hp <;> (unfold holdsPolicy; decide)
  · intro w
    match w with
    | 0 => rfl
    | 1 => rfl
    | _ + 2 => rfl

theorem witness_Reachable : Reachable (resetWith Config.reference [] ResetDraw.zero []) :=
  ⟨_, _, _, _, configWf_reference, by decide, .refl _⟩

/-- A host access of a register with no command running, a write of a read-only register, and STAT. -/
theorem witness_HostCmdifAndReads : State.reset.cmdif.busy = false ∧
    CmdReg.stat ∈ [CmdReg.stat, .result, .nomfreq] ∧ configWf State.reset.cfg = true ∧
    CpmReg.hsTrim ≠ .protKey ∧ 31 ≠ Config.reference.layout.statBusy ∧ ¬ (31 < Config.reference.layout.statRes + 2) ∧
    ¬ (31 < Config.reference.layout.statCsw + 3) :=
  ⟨by decide, by decide, configWf_reference, by decide, by decide, by decide, by decide⟩

/-- Both an enabled and a disabled cache, both an admitted and an ignored write of HS_TRIM, and KEYSEQ_STRICT
both ways. -/
theorem witness_BlockRegisterWrites :
    (configWf State.reset.cfg = true ∧ regsOk State.reset) ∧
    (State.reset.cacheEn .icache = false ∧
      (testDcache { Cache.zero with ccr := 1#32 } .start (testLocals 3 0 0)).cacheEn .dcache = true) ∧
    State.reset.trimOvr = false ∧
    ({ State.reset with cpm := { Cpm.zero with protKey := 0x100#32 }, keyState := .unlocked }.trimOvr = true) ∧
    getBit (regionMask Layout.reference .spiMap3) 23 = true ∧
    (∀ r, getBit (regionMask Layout.reference r) 24 = false) ∧
    (State.reset.cmdif.busy = false ∧ State.reset.inFlight .dcache = false) ∧
    State.reset.cfg.keyseqStrict = false ∧
    (configWf { Config.reference with keyseqStrict := true } = true ∧ KeyState.k2 ≠ .unlocked) ∧
    Reg.cache .dcache .cmnt ≠ .cpm .hsTrim ∧ Reg.cpm .hsTrim ≠ .cpm .protKey :=
  ⟨⟨configWf_reference, fun r => by cases r <;> decide, fun c r => by cases c <;> cases r <;> decide⟩,
    by decide, by decide, by decide, by decide, fun r => by cases r <;> decide, ⟨by decide, by decide⟩,
    by decide, ⟨configWf_reference, by decide⟩, by decide, by decide⟩

/-- A write of HS_TRIM that is admitted leaves KEYSTATE UNLOCKED, with KEYSEQ_STRICT too (R173, R177). -/
theorem test_admitted_write_does_not_relock :
    (writeReg (.cpm .hsTrim) 5#32 { State.reset with
      cfg := { Config.reference with keyseqStrict := true }, keyState := .unlocked,
      cpm := { Cpm.zero with protKey := 0x100#32 } }).keyState = .unlocked := by decide

theorem witness_ProtKeyReads : configWf State.reset.cfg = true ∧ regsOk State.reset ∧
    State.reset.cfg.layout.trimOvr ≠ 31 ∧ State.reset.cfg.layout.key + 1 ≠ 31 :=
  ⟨configWf_reference, ⟨fun r => by cases r <;> decide, fun c r => by cases c <;> cases r <;> decide⟩,
    by decide, by decide⟩

/-! ### Fields of CMDIF -/

theorem witness_CmdifFields_res :
    ∃ t, step { testRun (.finishing .err) (testLocals 0x102 0 0) with agenda := [.engine] } = .next t ∧
      t.cmdif.res ≠ .ok :=
  ⟨_, (step_eq configWf_reference).trans rfl, by decide⟩

theorem witness_CmdifFields_csw :
    ∃ t, step { testRun .start (testLocals 0x101 0 0) with agenda := [.engine] } = .next t ∧
      t.cmdif.csw ≠ .sourceUnselected :=
  ⟨_, (step_eq configWf_reference).trans rfl, by decide⟩

theorem witness_CmdifFields_result :
    ∃ t, step { testRun .freqDone { testLocals 4 0 0 with base := 8 } with agenda := [.engine] } =
      .next t ∧ t.cmdif.result ≠ 0#32 :=
  ⟨_, (step_eq configWf_reference).trans rfl, by decide⟩

theorem witness_CmdifFields_nomfreq :
    ∃ t, step { testRun .trimDone (testLocals 0x102 0 0) with agenda := [.engine] } = .next t ∧
      t.cmdif.nomfreq ≠ Config.reference.hsoscDefaultHz :=
  ⟨_, (step_eq configWf_reference).trans rfl, by decide⟩

/-! ### The switch -/

theorem witness_SwitchEnablesOscillator :
    configWf (testRun .start (testLocals 0x101 7 0)).cfg = true ∧
    switchArgs Config.reference (.clksw 0) (testLocals 1 7 0) = some (.lfi, 7) ∧
    switchArgs Config.reference (.clksw 1) (testLocals 0x101 7 0) = some (.hsosc, 7) ∧
    switchArgs Config.reference (.trim 1) (testLocals 0x102 7 0) = some (.lfi, 1) :=
  ⟨configWf_reference, by decide, by decide, by decide⟩

/-- Stable; not stable with budget 0; not stable with reads left, and at the last read. -/
theorem witness_SwitchPollsRead_stable :
    (testClock 0x200 0 .pollStable (testLocals 0x101 0 0)).oscStable .hsosc = true ∧
    (testClock 0x103 0 .pollStable (testLocals 0x101 0 0)).oscStable .hsosc = false ∧
    switchArgs Config.reference (.clksw 1) (testLocals 0x101 0 0) = some (.hsosc, 0) ∧
    switchArgs Config.reference (.clksw 1) { testLocals 0x101 1 0 with n := 2 } = some (.hsosc, 1) ∧
    1 < { testLocals 0x101 1 0 with n := 2 }.n ∧ { testLocals 0x101 1 0 with n := 1 }.n ≤ 1 := by decide

/-- The first reads: of the one read that K = 1 and budget 1 leave, and of the four of the reference. -/
theorem witness_SwitchPollsRead_first :
    (testRun .pollStableFirst (testLocals 0x101 1 0)).engine =
      .run .pollStableFirst (testLocals 0x101 1 0) ∧
    (testRun .pollSwitchFirst (testLocals 0x101 1 0)).engine =
      .run .pollSwitchFirst (testLocals 0x101 1 0) ∧
    1 < 1 * Config.reference.pollItersPerMs ∧
    1 * { Config.reference with pollItersPerMs := 1 }.pollItersPerMs ≤ 1 ∧
    configWf { Config.reference with pollItersPerMs := 1 } = true := by decide

theorem witness_SwitchPollsRead_status :
    (testClock 0 0x101 .pollSwitch (testLocals 0x101 1 0)).selStat = .hsosc ∧
    (testClock 0 0x001 .pollSwitch (testLocals 0x101 1 0)).selStat ≠ .hsosc := by decide

theorem witness_SwitchSelectsSource :
    configWf (testRun .select (testLocals 0x101 7 0)).cfg = true ∧
    (testRun .select (testLocals 0x101 7 0)).engine = .run .select (testLocals 0x101 7 0) ∧
    switchArgs Config.reference (.clksw 1) (testLocals 0x101 7 0) = some (.hsosc, 7) :=
  ⟨configWf_reference, rfl, by decide⟩

theorem witness_ClkswFinishes : sourceOfCode? 1#4 = some .hsosc ∧
    (testRun .switched (testLocals 0x101 1 0)).engine = .run .switched (testLocals 0x101 1 0) ∧
    (testRun (.finishing .timeout) (testLocals 0x101 1 0)).engine =
      .run (.finishing .timeout) (testLocals 0x101 1 0) := by decide

/-- V-CS-5. -/
theorem witness_ClkswToTheRunningSource :
    configWf (testClock 0x101 0 .start (testLocals 1 5 0)).cfg = true ∧ sourceOfCode? 0#4 = some .lfi ∧
    (testClock 0x101 0 .start (testLocals 1 5 0)).oscStable .lfi = true ∧
    (testClock 0x101 0 .start (testLocals 1 5 0)).selStat = .lfi :=
  ⟨configWf_reference, by decide, by decide, by decide⟩

/-- V-CS-3; the hypotheses hold for TRIM too (V-TR-9). -/
theorem witness_StabilityTimeoutAfterExactReads :
    configWf (testClock 0x101 0 .start (testLocals 0x101 1 0)).cfg = true ∧
    switchArgs Config.reference (.clksw 1) (testLocals 0x101 1 0) = some (.hsosc, 1) ∧
    (testClock 0x101 0 .start (testLocals 0x101 1 0)).oscStable .hsosc = false ∧
    switchArgs Config.reference (.trim 0) (testLocals 2 0 0) = some (.lfi, 1) ∧
    (testClock 0x202 0x101 .start (testLocals 2 0 0)).oscStable .lfi = false :=
  ⟨configWf_reference, by decide, by decide, by decide, by decide⟩

/-- V-CS-4. -/
theorem witness_SwitchStatusTimeoutAfterExactReads :
    configWf (testClock 0x303 0 .start (testLocals 0x101 2 0)).cfg = true ∧
    switchArgs Config.reference (.clksw 1) (testLocals 0x101 2 0) = some (.hsosc, 2) ∧
    (testClock 0x303 0 .start (testLocals 0x101 2 0)).oscStable .hsosc = true ∧
    (testClock 0x303 0 .start (testLocals 0x101 2 0)).selStat ≠ .hsosc :=
  ⟨configWf_reference, by decide, by decide, by decide⟩

/-- V-CS-6. -/
theorem witness_BudgetZeroNeverTimesOut :
    configWf (testClock 0x101 0 .start (testLocals 0x101 0 0)).cfg = true ∧
    sourceOfCode? 1#4 = some .hsosc ∧ (testLocals 0x101 0 0).a0 = 0 ∧
    (testClock 0x101 0 .start (testLocals 0x101 0 0)).oscStable .hsosc = false ∧
    ∃ t, exec (.clksw 1) (testClock 0x101 0 .pollStable (testLocals 0x101 0 0)) = .next t :=
  ⟨configWf_reference, by decide, rfl, by decide, _, rfl⟩

theorem witness_SwitchCommandsAreBounded :
    configWf (testClock 0x101 0 .start (testLocals 0x101 1 0)).cfg = true ∧
    legalPos Config.reference (.clksw 1) 1 .start = true ∧
    legalPos Config.reference (.trim 0) 0 (.otpValid 1) = true ∧
    busyOk (testRun .start (testLocals 0x101 1 0)) ∧
    (∃ t, exec (.clksw 1) (testClock 0x101 0 .start (testLocals 0x101 1 0)) = .next t) ∧
    (∃ t, exec (.trim 0) (testClock 0x303 0 (.otpValid 1) (testLocals 2 0 0)) = .next t) ∧
    ∃ t, perform (.env .disturb) (testRun .start (testLocals 0x101 1 0)) = .next t :=
  ⟨configWf_reference, by decide, by decide, by simp [busyOk, testRun], ⟨_, rfl⟩, ⟨_, rfl⟩, _, rfl⟩

theorem witness_NoCommandClearsAnEnable :
    (testClock 0x303 0x101 .select (testLocals 1 1 0)).oscEn .hsosc = true ∧
    ∃ t, exec (.clksw 0) (testClock 0x303 0x101 .select (testLocals 1 1 0)) = .next t :=
  ⟨by decide, _, rfl⟩

theorem witness_HsoscSelected_engine :
    ∃ t, step { testClock 0x303 0 .select (testLocals 0x101 1 0) with agenda := [.engine] } = .next t ∧
      (testClock 0x303 0 .select (testLocals 0x101 1 0)).sel = .lfi ∧ t.sel = .hsosc :=
  ⟨_, (step_eq configWf_reference).trans rfl, by decide, by decide⟩

theorem witness_HsoscSelected_host :
    ∃ t, step { State.reset with agenda := [.host (.write 0x50001004#32 32 1#32)] } = .next t ∧
      State.reset.sel = .lfi ∧ t.sel = .hsosc :=
  ⟨_, (step_eq configWf_reference).trans rfl, by decide, by decide⟩

/-! ### The protected register and TRIM -/

theorem witness_KeyAutomaton : configWf State.reset.cfg = true ∧
    field 0x100#32 Config.reference.layout.key 2 = 0 ∧ field 0x101#32 Config.reference.layout.key 2 = 1 ∧
    field 0x002#32 Config.reference.layout.key 2 = 2 ∧ field 0x103#32 Config.reference.layout.key 2 = 3 ∧
    ([(3, false)] : List (Fin 4 × Bool)).getLast?.map Prod.fst ≠ some 0 ∧
    keyAfter .locked [(3, false), (0, false), (1, false), (2, false), (3, true)] = .unlocked :=
  ⟨configWf_reference, by decide, by decide, by decide, by decide, by decide, by decide⟩

/-- V-KY-1, the protected write. -/
theorem witness_HsTrimChangesOnlyUnlocked :
    ∃ t, step { State.reset with
        keyState := .unlocked, cpm := { Cpm.zero with protKey := 0x100#32 },
        agenda := [.host (.write 0x50001010#32 32 0x77#32)] } = .next t ∧
      t.cpm.hsTrim ≠ State.reset.cpm.hsTrim ∧ t.hsDisturb = true ∧ State.reset.hsDisturb = false :=
  ⟨_, (step_eq configWf_reference).trans rfl, by decide, by decide, by decide⟩

theorem witness_TrimSelectsPartition :
    (testRun .switched (testLocals 2 0 0)).engine = .run .switched (testLocals 2 0 0) ∧
    (testRun .switched (testLocals 2 0 0)).cfg = Config.reference ∧
    readWord (writeWord [] 0x1FFF0200 0xA5A55A5A#32) (otpValidAddr Config.reference 2) =
      Config.reference.otpValidSig ∧
    readWord [] (otpValidAddr Config.reference 0) ≠ Config.reference.otpValidSig := by decide

theorem witness_TrimChecksEnableKey :
    (testRun (.otpKey 2) (testLocals 2 0 0)).engine = .run (.otpKey 2) (testLocals 2 0 0) ∧
    readWord (writeWord [] 0x1FFF0214 0x1234ABCD#32) (0x1FFF0010 + 2 * 0x100 + 4) =
      Config.reference.otpKeyExpected ∧
    readWord [] (0x1FFF0010 + 2 * 0x100 + 4) ≠ Config.reference.otpKeyExpected := by decide

theorem witness_TrimChecksSecondaryTag :
    (readWord (writeWord [] 0x1FFF0400 0xA5001234#32) 0x1FFF0400).extractLsb' 24 8 =
      Config.reference.otpSecTag ∧
    (readWord (writeWord [] 0x1FFF0400 0x5A001234#32) 0x1FFF0400).extractLsb' 24 8 ≠
      Config.reference.otpSecTag := by decide

theorem witness_TrimUnlocksWritesLocks :
    configWf (testRun .unlock00 (testLocals 2 0 0)).cfg = true ∧
    targetOfCode? 0#4 = some .primary ∧ targetOfCode? 1#4 = some .secondary ∧
    (testRun .unlock00 (testLocals 2 0 0)).engine = .run .unlock00 (testLocals 2 0 0) :=
  ⟨configWf_reference, by decide, by decide, rfl⟩

/-! ### IPSDIV and GETFREQ -/

/-- The largest divider in range and the smallest out of it. -/
theorem witness_Ipsdiv : configWf (testRun .start (testLocals 3 15 0)).cfg = true ∧
    regsOk (testRun .start (testLocals 3 15 0)) ∧
    (testLocals 3 15 0).a0.toNat ≤ Config.reference.ipsdivMax ∧
    Config.reference.ipsdivMax < (testLocals 3 16 0).a0.toNat :=
  ⟨configWf_reference, ⟨fun r => by cases r <;> decide, fun c r => by cases c <;> cases r <;> decide⟩,
    by decide, by decide⟩

theorem witness_Getfreq :
    (testRun .start (testLocals 4 0 0)).engine = .run .start (testLocals 4 0 0) ∧
    (testRun .freqDivider (testLocals 4 0 0)).engine = .run .freqDivider (testLocals 4 0 0) ∧
    (testRun .freqDone (testLocals 4 0 0)).engine = .run .freqDone (testLocals 4 0 0) ∧
    getBit 0x101#32 Config.reference.layout.selStat = true ∧
    getBit 0x001#32 Config.reference.layout.selStat = false := by decide

/-! ### Caches -/

theorem witness_CenWritesEnable : configWf (testRun .start (testLocals 0x110 0 0)).cfg = true ∧
    (testRun .start (testLocals 0x110 0 0)).engine = .run .start (testLocals 0x110 0 0) :=
  ⟨configWf_reference, rfl⟩

theorem witness_CrgnSetsRegionPolicy : configWf (testRun .start (testLocals 0x9411 0 0)).cfg = true ∧
    regionOfCode? 0#4 = some .boot ∧ regionOfCode? 4#4 = some .spiMap3 ∧
    policyOfCode? 2#2 = some .writeBack :=
  ⟨configWf_reference, by decide, by decide, by decide⟩

/-- For CRGNALL and for CINIT. -/
theorem witness_ValidSets : configWf (testRun .start (testLocals 0x12 0x246 0)).cfg = true ∧
    validSet (testLocals 0x12 0x246 0).a0 = true ∧ setPolicy? 0x246#32 .spiMap3 = some .writeBack ∧
    ∀ c, (testRun .start (testLocals 0x8015 0x246 0)).inFlight c = false :=
  ⟨configWf_reference, by decide, by decide, fun c => by cases c <;> decide⟩

theorem witness_CinvEmptiesBothWays : configWf (testRun .start (testLocals 0x13 0 0)).cfg = true ∧
    (testRun .start (testLocals 0x13 0 0)).engine = .run .start (testLocals 0x13 0 0) ∧
    (testRun .start (testLocals 0x13 0 0)).inFlight .icache = false :=
  ⟨configWf_reference, rfl, by decide⟩

/-- V-RI-2. -/
theorem witness_CinvrDisabledIsSilentNoOp :
    (testRun .start (testLocals 0x8014 0x1007 20)).engine =
      .run .start (testLocals 0x8014 0x1007 20) ∧
    (testRun .start (testLocals 0x8014 0x1007 20)).cacheEn .dcache = false := by decide

/-- V-RI-7 and V-RI-8: the longest length that fits and the shortest that does not. -/
theorem witness_CinvrLengths :
    (testDcache { Cache.zero with ccr := 1#32 } .start (testLocals 0x8014 1 0xFFFFF0)).cacheEn .dcache =
      true ∧
    2 ^ Config.reference.lenWidth ≤ alignedLength Config.reference 1#32 0xFFFFF0#32 ∧
    alignedLength Config.reference 0#32 0xFFFFF0#32 < 2 ^ Config.reference.lenWidth := by decide

theorem witness_CinvrRemovesTheRange :
    configWf (testDcache { Cache.zero with ccr := 1#32 } .start (testLocals 0x8014 0 16)).cfg = true ∧
    regsOk (testDcache { Cache.zero with ccr := 1#32 } .start (testLocals 0x8014 0 16)) ∧
    (testDcache { Cache.zero with ccr := 1#32 } .start (testLocals 0x8014 0 16)).inFlight .dcache =
      false :=
  ⟨configWf_reference, ⟨fun r => by cases r <;> decide, fun c r => by cases c <;> cases r <;> decide⟩,
    by decide⟩

/-- `n` steps of the reference configuration. -/
def testRunN : Nat → State → Option State
  | 0, s => some s
  | n + 1, s =>
    if s.cfg = Config.reference then
      match perform (nextEvent s) (popEvent s) with
      | .next t => testRunN n t
      | _ => none
    else none

theorem steps_head {s t u : State} (h : step s = .next t) (hu : Steps t u) : Steps s u := by
  induction hu with
  | refl => exact .tail (.refl _) h
  | tail _ hu ih => exact .tail ih hu

theorem steps_testRunN {n : Nat} {s t : State} (h : testRunN n s = some t) : Steps s t := by
  induction n generalizing s with
  | zero => cases h; exact .refl _
  | succ n ih =>
    unfold testRunN at h
    split at h
    · rename_i hc
      split at h
      · exact steps_head ((step_eq (by rw [hc]; exact configWf_reference)).trans (by assumption)) (ih h)
      · cases h
    · cases h

/-- The host starts CINIT of cache D with ARG0 = 0, which is a valid set; it runs to its enable write. -/
def testCinitRun : State := resetWith Config.reference [] ResetDraw.zero
  (.host (.write 0x50000000#32 32 0x8015#32) ::
    (List.replicate 12 .engine ++ [.env (.globalDone .dcache 3#32), .engine]))

/-- The engine is at CINIT's enable write. -/
def atCinitEnable (s : State) : Bool :=
  match s.engine with
  | .run .cacheEnable loc => decide (decode loc.cmd = .ok (.cinit .dcache))
  | _ => false

theorem testCinitRun_end : (testRunN 15 testCinitRun).any atCinitEnable = true := by decide

theorem witness_CinitGuarantee_reachable :
    ∃ s loc, Reachable s ∧ Runs (.cinit .dcache) .cacheEnable loc s := by
  obtain ⟨s, hs, hp⟩ := (Option.any_eq_true _ _).mp testCinitRun_end
  unfold atCinitEnable at hp
  split at hp
  · rename_i loc he
    exact ⟨s, loc, ⟨_, _, _, _, configWf_reference, by decide, steps_testRunN hs⟩, he,
      of_decide_eq_true hp⟩
  · cases hp

/-! ### A run that reaches the last step of a TRIM -/

theorem engineStep_running {s : State} {pos : Pos} {loc : Locals} {i : Instr}
    (he : s.engine = .run pos loc) (hd : decode loc.cmd = .ok i) : engineStep s = exec i s := by
  unfold engineStep
  rw [he]
  simp only [hd]

/-- A move of the engine under TRIM, in a run. -/
theorem reachable_trim_move {s u : State} {rest : List Event} {pos pos' : Pos} {loc : Locals}
    (h : Reachable s ∧ s.cfg = Config.reference ∧ s.agenda = .engine :: rest ∧
      s.engine = .run pos loc) (hd : decode loc.cmd = .ok (.trim 1))
    (hx : exec (.trim 1) { s with agenda := rest } = .next (goto pos' loc u))
    (hu : sameWorld { s with agenda := rest } u) :
    Reachable (goto pos' loc u) ∧ (goto pos' loc u).cfg = Config.reference ∧
      (goto pos' loc u).agenda = rest ∧ (goto pos' loc u).engine = .run pos' loc := by
  obtain ⟨⟨cfg, otp, d, ag, hw, ho, hs⟩, hc, ha, he⟩ := h
  refine ⟨⟨cfg, otp, d, ag, hw, ho, hs.tail ?_⟩, hu.1.trans hc, hu.2.2, rfl⟩
  rw [step_eq (by rw [hc]; exact configWf_reference), nextEvent, popEvent, ha]
  exact (engineStep_running (s := { s with agenda := rest }) he hd).trans hx

/-- TRIM of the secondary target, with a tagged record, LFI stable in time, and nothing else moving. -/
def testTrimRun : State := resetWith Config.reference (writeWord [] 0x1FFF0400 0xA5001234#32) ResetDraw.zero
  (.host (.write 0x50000000#32 32 0x102#32) :: .engine :: .env (.stabilise .lfi) :: List.replicate 10 .engine)

/-- The engine is at TRIM's first unlock write, with six moves of the agenda left. -/
def atTrimUnlock (s : State) : Bool :=
  decide (s.cfg = Config.reference) && decide (s.agenda = List.replicate 6 .engine) &&
    match s.engine with
    | .run .unlock00 loc => decide (decode loc.cmd = .ok (.trim 1))
    | _ => false

theorem testTrimRun_unlock : (testRunN 7 testTrimRun).any atTrimUnlock = true := by decide

theorem witness_TrimUnlocksWritesLocks_reachable :
    ∃ s loc, Reachable s ∧ Runs (.trim 1) .trimDone loc s ∧ targetOfCode? 1#4 = some .secondary := by
  obtain ⟨s, hs, hp⟩ := (Option.any_eq_true _ _).mp testTrimRun_unlock
  simp only [atTrimUnlock, Bool.and_eq_true, decide_eq_true_eq] at hp
  obtain ⟨⟨hc, ha⟩, hp⟩ := hp
  split at hp
  · rename_i loc he
    have hd := of_decide_eq_true hp
    have hk : targetOfCode? 1 = some .secondary := by decide
    have h0 : Reachable s := ⟨_, _, _, _, configWf_reference, by decide, steps_testRunN hs⟩
    have h1 := reachable_trim_move ⟨h0, hc, ha, he⟩ hd (by simp only [exec, execTrim, he, hk]; rfl)
      (accessed_regRmw _ _ _ _).world
    have h2 := reachable_trim_move h1 hd (by simp only [exec, execTrim, h1.2.2.2, hk]; rfl)
      (accessed_regRmw _ _ _ _).world
    have h3 := reachable_trim_move h2 hd (by simp only [exec, execTrim, h2.2.2.2, hk]; rfl)
      (accessed_regRmw _ _ _ _).world
    have h4 := reachable_trim_move h3 hd (by simp only [exec, execTrim, h3.2.2.2, hk]; rfl)
      (accessed_regRmw _ _ _ _).world
    have h5 := reachable_trim_move h4 hd (by simp only [exec, execTrim, h4.2.2.2, hk]; rfl)
      (accessed_regWrite _ _ _).world
    have h6 := reachable_trim_move h5 hd (by simp only [exec, execTrim, h5.2.2.2, hk]; rfl)
      (accessed_regRmw _ _ _ _).world
    exact ⟨_, loc, h6.1, ⟨h6.2.2.2, hd⟩, hk⟩
  · cases hp

/-- TRIM at the switch-status poll, with LFI selected and reported. -/
theorem witness_TrimUnlocksWritesLocks_step :
    RunInv { testRun .pollSwitch (testLocals 0x102 0 0) with agenda := [.engine] } ∧
    trimProgressOk { testRun .pollSwitch (testLocals 0x102 0 0) with agenda := [.engine] } ∧
    ∃ t, step { testRun .pollSwitch (testLocals 0x102 0 0) with agenda := [.engine] } = .next t := by
  refine ⟨runInv_of_running rfl (by decide) rfl (by decide : decode 0x102#32 = .ok (.trim 1)) (by decide)
    rfl ⟨fun r => by cases r <;> decide, fun c r => by cases c <;> cases r <;> decide⟩
    (fun c => by cases c <;> decide) (fun c => by cases c <;> rfl), ?_,
    _, (step_eq configWf_reference).trans rfl⟩
  rintro tg k pos loc _ ⟨h, _⟩
  cases h
  simp [trimProgress, trimSwitched]
  decide

/-! ### A fair run in which a maintenance command finishes: CINV of cache I -/

/-- The moves of the run: CINV starts, ENV completes the invalidation, the engine goes on alone. -/
def testFairMoves : Nat → Event
  | 1 => .env (.globalDone .icache 0#32)
  | _ => .engine

/-- The states of the run: the go-bit is set by the first move and cleared by the second. -/
def testFairStart : State := testRun .start (testLocals 0x13 0 0)
def testFairSet : State := globalInvStart .icache (testLocals 0x13 0 0) testFairStart
def testFairCleared : State := envStep (.globalDone .icache 0#32) testFairSet
def testFairPolled : State := globalInvPoll .icache (.finishing .ok) (testLocals 0x13 0 0) testFairCleared

def testFairRun : Nat → State
  | 0 => testFairStart
  | 1 => testFairSet
  | 2 => testFairCleared
  | 3 => testFairPolled
  | _ => finish .ok testFairPolled

theorem testFairRun_go_set : testFairSet.go .icache = true := by decide

theorem testFairRun_quiet (c : CacheId) (k : Nat) :
    (testFairRun (k + 2)).go c = false ∧ (testFairRun (k + 2)).strt c = false := by
  match k with
  | 0 => cases c <;> decide
  | 1 => cases c <;> decide
  | k + 2 =>
    have e : testFairRun (k + 2 + 2) = testFairRun 4 := rfl
    rw [e]
    cases c <;> decide

theorem witness_MaintenanceCommandsFinish :
    IsRun testFairMoves testFairRun ∧ RunInv (testFairRun 0) ∧
    EngineFair testFairMoves testFairRun ∧ MaintFair testFairMoves testFairRun ∧
    Runs (.cinv .icache) .start (testLocals 0x13 0 0) (testFairRun 0) ∧
    isMaintenance (.cinv .icache) = true := by
  refine ⟨fun k => ?_, ?_, fun k _ => ⟨k + 2, by omega, rfl⟩, fun c k => ⟨fun h => ?_, fun h => ?_⟩,
    ⟨rfl, by decide⟩, rfl⟩
  · match k with
    | 0 => rfl
    | 1 => rfl
    | 2 => rfl
    | 3 => rfl
    | _ + 4 => rfl
  · exact runInv_of_running rfl (by decide) rfl (by decide : decode 0x13#32 = .ok (.cinv .icache))
      (by decide) rfl ⟨fun r => by cases r <;> decide, fun c r => by cases c <;> cases r <;> decide⟩
      (fun c => by cases c <;> decide) (fun c => by cases c <;> rfl)
  · exact absurd (h (k + 2) (by omega)) (by simp [testFairRun_quiet])
  · exact absurd (h (k + 2) (by omega)) (by simp [testFairRun_quiet])

/-! ### ENV -/

/-- V-EN-1 to V-EN-4. -/
theorem witness_EnvClockRules : configWf State.reset.cfg = true ∧
    ({ State.reset with cpm := { Cpm.zero with oscCs := 0x002#32 } }.oscEn .hsosc = true ∧
      { State.reset with cpm := { Cpm.zero with oscCs := 0x002#32 } }.oscStable .hsosc = false) ∧
    ({ State.reset with cpm := { Cpm.zero with oscCs := 0x202#32, sysClk := 1#32 } }.selStat ≠ .hsosc ∧
      { State.reset with cpm := { Cpm.zero with oscCs := 0x202#32, sysClk := 1#32 } }.sel = .hsosc) ∧
    ({ State.reset with cpm := { Cpm.zero with oscCs := 0x100#32 } }.oscEn .lfi = false ∧
      { State.reset with cpm := { Cpm.zero with oscCs := 0x100#32 } }.oscStable .lfi = true) ∧
    { State.reset with hsDisturb := true }.hsDisturb = true :=
  ⟨configWf_reference, by decide, by decide, by decide, rfl⟩

theorem witness_EnvCompletesMaintenance : configWf State.reset.cfg = true ∧
    { State.reset with dcache := { Cache.zero with cmnt := 0x8003#32 } }.go .dcache = true ∧
    { State.reset with dcache := { Cache.zero with crsize := 0x80000020#32 } }.strt .dcache = true :=
  ⟨configWf_reference, by decide, by decide⟩

/-- An enabled fill of the last way. -/
theorem witness_LinesAppearOnlyByFills_fill :
    residencyOk { State.reset with dcache := { Cache.zero with ccr := 1#32 } } ∧
    { State.reset with dcache := { Cache.zero with ccr := 1#32 } }.cacheEn .dcache = true ∧
    1 < Config.reference.nways ∧ (0xFFFFFFF0#32).toNat % Config.reference.line = 0 :=
  ⟨residencyOk_of_empty rfl fun c => by cases c <;> rfl, by decide, by decide, by decide⟩

theorem witness_LinesAppearOnlyByFills :
    ∃ t, step { State.reset with
        dcache := { Cache.zero with ccr := 1#32 }, agenda := [.env (.fill .dcache 1 0x20000010#32)] } = .next t ∧
      0x20000010#32 ∈ t.lines .dcache 1 ∧ 0x20000010#32 ∉ State.reset.lines .dcache 1 :=
  ⟨_, (step_eq configWf_reference).trans rfl, by decide, by decide⟩

end Sys2Proof.Machine
end

section
/-! SUPPORT. What each agent's move leaves alone: the parameters of the machine (R9, R56), and the fields of
CMDIF that only the engine writes (10_state.md R27 to R30); the values of every reset state (R59 to R62). -/

namespace Sys2Proof.Machine

/-! ## Taking the next move off -/

@[simp] theorem popEvent_cfg (s : State) : (popEvent s).cfg = s.cfg := by
  obtain ⟨a, d, h⟩ := popEvent_eq s; rw [h]

@[simp] theorem popEvent_otp (s : State) : (popEvent s).otp = s.otp := by
  obtain ⟨a, d, h⟩ := popEvent_eq s; rw [h]

@[simp] theorem popEvent_cmdif (s : State) : (popEvent s).cmdif = s.cmdif := by
  obtain ⟨a, d, h⟩ := popEvent_eq s; rw [h]

@[simp] theorem popEvent_engine (s : State) : (popEvent s).engine = s.engine := by
  obtain ⟨a, d, h⟩ := popEvent_eq s; rw [h]

/-! ## What an ENV step never touches (R315) -/

/-- No ENV rule touches the parameters or CMDIF. -/
theorem envEffect_frame (e : EnvEvent) (s : State) :
    (envEffect e s).cfg = s.cfg ∧ (envEffect e s).otp = s.otp ∧ (envEffect e s).cmdif = s.cmdif := by
  refine ⟨envEffect_cfg e s, ?_⟩
  cases e <;> simp [envEffect, setStable, setSelStat, globalComplete, rangeComplete, fillLine]

theorem envStep_frame (e : EnvEvent) (s : State) :
    (envStep e s).cfg = s.cfg ∧ (envStep e s).otp = s.otp ∧ (envStep e s).cmdif = s.cmdif := by
  cases h : envEnabled e s
  · simp [envStep_off h]
  · simpa [envStep_on h] using envEffect_frame e s

/-! ## The parameters (R9, R56) -/

/-- The OTP image and the configuration are as before. -/
def sameParams (s t : State) : Prop := t.otp = s.otp ∧ t.cfg = s.cfg

theorem exec_sameParams {i : Instr} {s t : State} (h : exec i s = .next t) : sameParams s t := by
  rcases exec_shape h with ⟨pos, pos', loc, loc', r, u, y, hs, hr, hu, hl, hy, rfl⟩ |
    ⟨pos, pos', loc, loc', a, y, hs, hi, hl, hy, rfl⟩ | ⟨pos, loc, st, y, hs, hst, hy, rfl⟩
  · obtain ⟨hcfg, hotp, _⟩ := hu.world
    exact ⟨hotp, hcfg⟩
  · exact ⟨rfl, rfl⟩
  · exact ⟨rfl, rfl⟩

theorem engineStep_sameParams {s t : State} (h : engineStep s = .next t) : sameParams s t := by
  rcases engineStep_shape h with ⟨_, rfl⟩ | ⟨pos, loc, i, _, _, hx⟩ | ⟨loc, e, _, _, rfl⟩
  · exact ⟨rfl, rfl⟩
  · exact exec_sameParams hx
  · exact ⟨rfl, rfl⟩

theorem hostStep_sameParams {a : HostAccess} {s t : State} (h : hostStep a s = .next t) :
    sameParams s t := by
  obtain ⟨b, r, _, _, ⟨_, _, _, rfl⟩ | ⟨_, _, v, _, _, rfl⟩⟩ := hostStep_shape h
  · simp [sameParams, hostRead]
  · simp [sameParams, hostWrite]

theorem perform_sameParams {e : Event} {s t : State} (h : perform e s = .next t) : sameParams s t := by
  cases e with
  | engine => exact engineStep_sameParams h
  | host a => exact hostStep_sameParams h
  | env e =>
    cases h
    obtain ⟨hcfg, hotp, _⟩ := envStep_frame e s
    exact ⟨hotp, hcfg⟩

/-- Settles O10: each agent's move keeps both parameters, and so does taking the move off the agenda. -/
theorem parametersNeverChange : Obligations.ParametersNeverChange := by
  intro s t h
  obtain ⟨_, hp⟩ := step_shape h
  simpa [sameParams] using perform_sameParams hp

/-! ## The fields of CMDIF that only the engine writes (R27 to R30) -/

/-- RES, CSW_STATE, RESULT and NOMFREQ are as before. -/
def sameOutputs (x y : Cmdif) : Prop :=
  y.res = x.res ∧ y.csw = x.csw ∧ y.result = x.result ∧ y.nomfreq = x.nomfreq

theorem sameOutputs_refl (x : Cmdif) : sameOutputs x x := ⟨rfl, rfl, rfl, rfl⟩

theorem writeCmdif_sameOutputs (q : CmdReg) (v : Word) (s : State) :
    sameOutputs s.cmdif (writeCmdif q v s).cmdif := by
  cases q <;> exact ⟨rfl, rfl, rfl, rfl⟩

/-- A register write, of whatever register, writes none of them (R52). -/
theorem writeReg_sameOutputs (r : Reg) (v : Word) (s : State) :
    sameOutputs s.cmdif (writeReg r v s).cmdif := by
  rcases r with q | q | ⟨c, q⟩
  · rw [writeReg]
    split
    · exact sameOutputs_refl _
    · obtain ⟨k, hk⟩ := strictKey_setKey (.cmdif q) (writeCmdif q v s)
      rw [hk]
      exact writeCmdif_sameOutputs q v s
  · rw [(writeReg_block_frame (.cpm q) v s (by simp)).1]
    exact sameOutputs_refl _
  · rw [(writeReg_block_frame (.cache c q) v s (by simp)).1]
    exact sameOutputs_refl _

theorem hostStep_sameOutputs {a : HostAccess} {s t : State} (h : hostStep a s = .next t) :
    sameOutputs s.cmdif t.cmdif := by
  obtain ⟨b, r, _, _, ⟨_, _, _, rfl⟩ | ⟨_, _, v, _, _, rfl⟩⟩ := hostStep_shape h
  · simpa [hostRead] using sameOutputs_refl s.cmdif
  · exact writeReg_sameOutputs r v s

/-- Only the commands that contain the switch write CSW_STATE at an access (R28). -/
theorem switches_cases {i : Instr} (h : switches i) : (∃ src, i = .clksw src) ∨ ∃ tg, i = .trim tg := by
  cases i with
  | clksw src => exact .inl ⟨src, rfl⟩
  | trim tg => exact .inr ⟨tg, rfl⟩
  | _ => exact h.elim

/-- Everything a step can do to RES, CSW_STATE, RESULT and NOMFREQ. -/
inductive OutputsMove (s t : State) : Prop where
  /-- They stay: a host or ENV move, or an idle engine. -/
  | kept (h : sameOutputs s.cmdif t.cmdif)
  /-- An access step of the running command. -/
  | access (i : Instr) (pos : Pos) (loc : Locals) (he : nextEvent s = .engine) (hr : Runs i pos loc s)
      (hy : accessCmdif i s.cmdif t.cmdif)
  /-- `finish(st)` of the running command. -/
  | finish (i : Instr) (pos : Pos) (loc : Locals) (st : Status) (he : nextEvent s = .engine)
      (hr : Runs i pos loc s) (hy : finishCmdif i pos st s.cmdif t.cmdif) (ht : t.engine = .idle)
  /-- `finish(ERR)` of a word that decodes to no command (R111, R112). -/
  | rejected (he : nextEvent s = .engine) (hr : s.engine ≠ .idle)
      (hy : t.cmdif = { s.cmdif with res := .err, busy := false }) (ht : t.engine = .idle)

/-- Everything a step of a command can do to CMDIF: an access, or a `finish` that ends the command. -/
theorem exec_cmdif {i : Instr} {s t : State} {pos : Pos} {loc : Locals} (hrun : s.engine = .run pos loc)
    (h : exec i s = .next t) :
    accessCmdif i s.cmdif t.cmdif ∨ ∃ st, finishCmdif i pos st s.cmdif t.cmdif ∧ t.engine = .idle := by
  rcases exec_shape h with ⟨_, _, _, _, r, u, y, hs, _, _, _, hy, rfl⟩ |
    ⟨_, _, _, _, a, y, hs, _, _, hy, rfl⟩ | ⟨_, _, st, y, hs, _, hy, rfl⟩
  · exact .inl hy
  · exact .inl hy
  · cases hs.symm.trans hrun
    exact .inr ⟨st, hy, rfl⟩

theorem outputsMove_of_engineStep {s t : State} (he : nextEvent s = .engine)
    (h : engineStep (popEvent s) = .next t) : OutputsMove s t := by
  rcases engineStep_shape h with ⟨_, rfl⟩ | ⟨pos, loc, i, hrun, hdec, hx⟩ | ⟨loc, e, hrun, _, rfl⟩
  · exact .kept (by simpa using sameOutputs_refl s.cmdif)
  · have hy := exec_cmdif hrun hx
    rw [popEvent_cmdif] at hy
    rw [popEvent_engine] at hrun
    rcases hy with hy | ⟨st, hy, ht⟩
    · exact .access i pos loc he ⟨hrun, hdec⟩ hy
    · exact .finish i pos loc st he ⟨hrun, hdec⟩ hy ht
  · rw [popEvent_engine] at hrun
    exact .rejected he (by simp [hrun]) (by simp [finish_eq]) rfl

theorem outputsMove_of_step {s t : State} (h : step s = .next t) : OutputsMove s t := by
  obtain ⟨_, hp⟩ := step_shape h
  cases he : nextEvent s with
  | engine => rw [he] at hp; exact outputsMove_of_engineStep he hp
  | host a => rw [he] at hp; exact .kept (by simpa using hostStep_sameOutputs hp)
  | env e =>
    rw [he] at hp
    cases hp
    refine .kept ?_
    rw [(envStep_frame e (popEvent s)).2.2, popEvent_cmdif]
    exact sameOutputs_refl _

theorem finishCmdif_busy {i : Instr} {pos : Pos} {st : Status} {x y : Cmdif}
    (h : finishCmdif i pos st x y) : y.busy = false := by
  rcases h with rfl | ⟨_, _, rfl⟩ | ⟨_, _, _, _, rfl⟩ | ⟨_, _, _, _, rfl⟩ <;> rfl

/-- RES changes only at a finish (R27). -/
theorem OutputsMove.res {s t : State} (h : OutputsMove s t) (hne : t.cmdif.res ≠ s.cmdif.res) :
    nextEvent s = .engine ∧ s.engine ≠ .idle ∧ t.engine = .idle ∧ t.cmdif.busy = false := by
  cases h with
  | kept h => exact absurd h.1 hne
  | access i pos loc he hr hy =>
    rcases hy with hy | ⟨_, w, hy⟩ <;> exact absurd (by rw [hy]) hne
  | finish i pos loc st he hr hy ht => exact ⟨he, by simp [hr.1], ht, finishCmdif_busy hy⟩
  | rejected he hr hy ht => exact ⟨he, hr, ht, by rw [hy]⟩

/-- CSW_STATE changes only under the two commands that switch (R28). -/
theorem OutputsMove.csw {s t : State} (h : OutputsMove s t) (hne : t.cmdif.csw ≠ s.cmdif.csw) :
    nextEvent s = .engine ∧ ∃ i pos loc, Runs i pos loc s ∧
      ((∃ src, i = .clksw src) ∨ ∃ tg, i = .trim tg) := by
  cases h with
  | kept h => exact absurd h.2.1 hne
  | access i pos loc he hr hy =>
    rcases hy with hy | ⟨hsw, w, hy⟩
    · exact absurd (by rw [hy]) hne
    · exact ⟨he, i, pos, loc, hr, switches_cases hsw⟩
  | finish i pos loc st he hr hy ht =>
    rcases hy with hy | ⟨hi, _⟩ | ⟨_, _, _, f, hy⟩ | ⟨_, _, _, f, hy⟩
    · exact absurd (by rw [hy]) hne
    · exact ⟨he, i, pos, loc, hr, .inl hi⟩
    · exact absurd (by rw [hy]) hne
    · exact absurd (by rw [hy]) hne
  | rejected he hr hy ht => exact absurd (by rw [hy]) hne

/-- RESULT changes only at GETFREQ's finish (R29, R206). -/
theorem OutputsMove.result {s t : State} (h : OutputsMove s t)
    (hne : t.cmdif.result ≠ s.cmdif.result) :
    nextEvent s = .engine ∧ (∃ loc, Runs .getfreq .freqDone loc s) ∧ t.engine = .idle ∧
      t.cmdif.res = .ok := by
  cases h with
  | kept h => exact absurd h.2.2.1 hne
  | access i pos loc he hr hy =>
    rcases hy with hy | ⟨_, w, hy⟩ <;> exact absurd (by rw [hy]) hne
  | finish i pos loc st he hr hy ht =>
    rcases hy with hy | ⟨_, _, hy⟩ | ⟨_, _, _, f, hy⟩ | ⟨rfl, rfl, rfl, f, hy⟩
    · exact absurd (by rw [hy]) hne
    · exact absurd (by rw [hy]) hne
    · exact absurd (by rw [hy]) hne
    · exact ⟨he, ⟨loc, hr⟩, ht, by rw [hy]⟩
  | rejected he hr hy ht => exact absurd (by rw [hy]) hne

/-- NOMFREQ changes only at a TRIM's last step (R30, R192). -/
theorem OutputsMove.nomfreq {s t : State} (h : OutputsMove s t)
    (hne : t.cmdif.nomfreq ≠ s.cmdif.nomfreq) :
    nextEvent s = .engine ∧ (∃ tg loc, Runs (.trim tg) .trimDone loc s) ∧ t.engine = .idle ∧
      t.cmdif.res = .ok := by
  cases h with
  | kept h => exact absurd h.2.2.2 hne
  | access i pos loc he hr hy =>
    rcases hy with hy | ⟨_, w, hy⟩ <;> exact absurd (by rw [hy]) hne
  | finish i pos loc st he hr hy ht =>
    rcases hy with hy | ⟨_, _, hy⟩ | ⟨⟨tg, rfl⟩, rfl, rfl, f, hy⟩ | ⟨_, _, _, f, hy⟩
    · exact absurd (by rw [hy]) hne
    · exact absurd (by rw [hy]) hne
    · exact ⟨he, ⟨tg, loc, hr⟩, ht, by rw [hy]⟩
    · exact absurd (by rw [hy]) hne
  | rejected he hr hy ht => exact absurd (by rw [hy]) hne

/-- Settles O22: what a step can do to the four fields is said once, and each field is read off it. -/
theorem cmdifFieldsChangeOnlyByTheirCommands : Obligations.CmdifFieldsChangeOnlyByTheirCommands := by
  intro s t h
  have hm := outputsMove_of_step h
  exact ⟨hm.res, hm.csw, hm.result, hm.nomfreq⟩

/-! ## Reset (R59 to R62) -/

/-- LEN keeps clear of STRT (R48). -/
theorem getBit_lenBits_strt {cfg : Config} (h : configWf cfg = true) :
    getBit (bits cfg.layout.len cfg.lenWidth) cfg.layout.strt = false := by
  obtain ⟨_, _, hne⟩ := crsize_positions h
  rw [getBit_bits, Bool.eq_false_iff]
  intro hb
  simp only [Bool.and_eq_true, decide_eq_true_eq] at hb
  obtain ⟨_, hge, hlt⟩ := hb
  exact hne _ hge hlt rfl

/-- A drawn cache has no go-bit set: a draw fills the read-write bits alone (R61). -/
theorem cacheDrawn_goBits {cfg : Config} (h : configWf cfg = true) (d : CacheDraw) :
    getBit (cacheDrawn cfg d).cmnt cfg.layout.go = false ∧
      getBit (cacheDrawn cfg d).crsize cfg.layout.strt = false := by
  simp [cacheDrawn, cacheRw, getBit_wayMask_go h, getBit_lenBits_strt h]

/-- No maintenance is in flight at reset (R55, R61). -/
theorem quiet_resetWith {cfg : Config} (h : configWf cfg = true) (otp : Memory) (d : ResetDraw)
    (agenda : List Event) : Quiet (resetWith cfg otp d agenda) := by
  intro c
  cases c with
  | icache => exact cacheDrawn_goBits h d.icache
  | dcache => exact cacheDrawn_goBits h d.dcache

/-- Settles O17: the drawn words leave the go-bits clear; every other value is the definition's. -/
theorem resetValues : Obligations.ResetValues := by
  intro cfg otp d agenda h
  exact ⟨rfl, rfl, rfl, rfl, rfl, quiet_resetWith h otp d agenda⟩

end Sys2Proof.Machine
end

section
/-! SUPPORT. What the completion of a maintenance command leaves in its instance: CMNT or CRSIZE, read one
bit or field at a time, and the resident lines (20_memory.md R84, 70_reset_and_hazards.md R320, R321). -/

namespace Sys2Proof.Machine

/-! ## Global completion (R320) -/

theorem globalComplete_cfg (c : CacheId) (v : Word) (s : State) : (globalComplete c v s).cfg = s.cfg :=
  envEffect_cfg (.globalDone c v) s

/-- CMNT after a global completion: GO clear, the way bits from `v`, the rest kept. -/
theorem globalComplete_cmnt (c : CacheId) (v : Word) (s : State) :
    ((globalComplete c v s).cache c).cmnt =
      merge (wayMask s.cfg.layout) (putBit (s.cache c).cmnt s.cfg.layout.go false) v := by
  simp [globalComplete]

theorem globalComplete_go {s : State} (h : configWf s.cfg = true) (c : CacheId) (v : Word) :
    (globalComplete c v s).go c = false := by
  rw [State.go, globalComplete_cfg, globalComplete_cmnt, getBit_merge, getBit_wayMask_go h, if_neg (by simp),
    putBit_self (cmnt_positions h).1]

theorem globalComplete_invWay {s : State} (h : configWf s.cfg = true) (c : CacheId) (v : Word) {w : Nat}
    (hw : w < s.cfg.nways) :
    (globalComplete c v s).invWay c w = getBit v (invPos s.cfg.layout w) := by
  have hm : getBit (wayMask s.cfg.layout) (invPos s.cfg.layout w) = true := by
    rw [getBit_wayMask h, decide_eq_true (invPos_mem h hw)]
  rw [State.invWay, globalComplete_cfg, globalComplete_cmnt, getBit_merge, if_pos hm]

theorem globalComplete_strt (c : CacheId) (v : Word) (s : State) :
    (globalComplete c v s).strt c = s.strt c := by simp [State.strt, globalComplete]

/-! ## Range completion (R321) -/

theorem rangeComplete_cfg (c : CacheId) (s : State) : (rangeComplete c s).cfg = s.cfg :=
  envEffect_cfg (.rangeDone c) s

/-- CRSIZE after a range completion: STRT clear, the rest kept. -/
theorem rangeComplete_crsize (c : CacheId) (s : State) :
    ((rangeComplete c s).cache c).crsize = putBit (s.cache c).crsize s.cfg.layout.strt false := by
  simp [rangeComplete]

theorem rangeComplete_strt {s : State} (h : configWf s.cfg = true) (c : CacheId) :
    (rangeComplete c s).strt c = false := by
  obtain ⟨_, hstrt, _⟩ := crsize_positions h
  rw [State.strt, rangeComplete_cfg, rangeComplete_crsize, putBit_self hstrt]

/-- LEN keeps clear of STRT, so clearing STRT keeps it (R48). -/
theorem rangeComplete_rangeLen {s : State} (h : configWf s.cfg = true) (c : CacheId) :
    (rangeComplete c s).rangeLen c = s.rangeLen c := by
  obtain ⟨_, _, hapart⟩ := crsize_positions h
  rw [State.rangeLen, rangeComplete_cfg, rangeComplete_crsize, field_putBit hapart, State.rangeLen]

theorem rangeComplete_go (c : CacheId) (s : State) : (rangeComplete c s).go c = s.go c := by
  simp [State.go, rangeComplete]

/-- The lines outside a range, with the distance from its base as a natural (R84). -/
theorem mem_outsideRange {a B : Word} {L : Nat} {ls : List Word} :
    a ∈ outsideRange B L ls ↔ a ∈ ls ∧ L ≤ (a.toNat + 2 ^ 32 - B.toNat) % 2 ^ 32 := by
  have hsub : (a - B).toNat = (a.toNat + 2 ^ 32 - B.toNat) % 2 ^ 32 := by
    rw [BitVec.toNat_sub]
    congr 1
    have := B.isLt
    omega
  rw [outsideRange, List.mem_filter, decide_eq_true_iff, hsub]

/-- Settles O58: each rule fires once its go-bit is set, and what it leaves is read off the lemmas above. -/
theorem envCompletesMaintenance : Obligations.EnvCompletesMaintenance := by
  intro s c h
  constructor
  · intro v hgo
    have henv : envStep (.globalDone c v) s = (globalComplete c v s).log (.env (.globalDone c v)) :=
      envStep_on hgo
    rw [henv]
    refine ⟨globalComplete_go h c v, fun w hw => globalComplete_invWay h c v hw,
      globalComplete_strt c v s, fun w => ?_⟩
    rw [lines_congr (s := globalComplete c v s) (by simp)]
    simpa using lines_globalComplete c v s c w
  · intro hstrt
    have henv : envStep (.rangeDone c) s = (rangeComplete c s).log (.env (.rangeDone c)) :=
      envStep_on hstrt
    rw [henv]
    refine ⟨rangeComplete_strt h c, rangeComplete_rangeLen h c, rangeComplete_go c s, fun w a => ?_⟩
    have hlines := lines_rangeComplete c s c w
    rw [if_pos rfl] at hlines
    rw [lines_congr (s := rangeComplete c s) (by simp), hlines]
    exact mem_outsideRange

end Sys2Proof.Machine
end

section
/-! SUPPORT. Who can move SYS_CLK, and with it SEL: the select step of the switch sub-sequence, a host write to
the register itself, and the hardware on SEL_STAT alone (41_clock_switch.md R153, R163; R319). -/

namespace Sys2Proof.Machine

/-! ## Accesses that keep SYS_CLK -/

/-- A write to any other register keeps SYS_CLK. -/
theorem writeReg_sysClk {r : Reg} (hr : r ≠ .cpm .sysClk) (v : Word) (s : State) :
    (writeReg r v s).cpm.sysClk = s.cpm.sysClk := by
  rcases r with q | q | ⟨c, q⟩
  · obtain ⟨x, e, d, k, hw⟩ := writeReg_cmdif_fields q v s
    simp [hw]
  · cases q with
    | sysClk => exact absurd rfl hr
    | oscCs => rw [writeReg_cpm_plain _ _ _ (by decide) (by decide)]; rfl
    | ipsDiv => rw [writeReg_cpm_plain _ _ _ (by decide) (by decide)]; rfl
    | protKey => rw [writeReg_protKey]; rfl
    | hsTrim =>
      cases ht : trimAdmitted s
      · rw [writeReg_hsTrim_ignored _ _ ht]; rfl
      · rw [writeReg_hsTrim_admitted _ _ ht]; rfl
  · rw [(writeReg_cache_frame c q v s).1]

@[simp] theorem regRead_cpm (r : Reg) (s : State) : (regRead r s).cpm = s.cpm := by simp [regRead]

/-- An access of any other register keeps SYS_CLK. -/
theorem Accessed.sysClk {r : Reg} {s t : State} (h : Accessed r s t) (hr : r ≠ .cpm .sysClk) :
    t.cpm.sysClk = s.cpm.sysClk := by
  rcases h with rfl | ⟨v, e, rfl⟩ | ⟨v, e, rfl⟩
  · rw [regRead_cpm]
  · exact writeReg_sysClk hr v s
  · simpa using writeReg_sysClk hr v (drawnBy r s)

@[simp] theorem memRead_cpm (a : Nat) (s : State) : (memRead a s).cpm = s.cpm := rfl

@[simp] theorem finish_cpm (st : Status) (s : State) : (finish st s).cpm = s.cpm := rfl

/-- A poll reads, and writes nothing (R138). -/
@[simp] theorem pollRead_cpm (r : Reg) (mask target : Word) (budget : Nat) (here next : Pos) (loc : Locals)
    (s : State) : (pollRead r mask target budget here next loc s).cpm = s.cpm := by
  rcases pollRead_cases r mask target budget here next loc s with
    ⟨_, h⟩ | ⟨_, _, k, _, _, h⟩ | ⟨_, _, _, h⟩ <;> simp [h]

/-! ## Command steps that keep SYS_CLK -/

@[simp] theorem switchEnable_sysClk (k : Source) (loc : Locals) (s : State) :
    (switchEnable k loc s).cpm.sysClk = s.cpm.sysClk :=
  (accessed_regSet (.cpm .oscCs) _ s).sysClk (by decide)

@[simp] theorem switchPollStable_cpm (k : Source) (b : Nat) (loc : Locals) (s : State) :
    (switchPollStable k b loc s).cpm = s.cpm := by simp [switchPollStable]

@[simp] theorem switchPollStableFirst_cpm (k : Source) (b : Nat) (loc : Locals) (s : State) :
    (switchPollStableFirst k b loc s).cpm = s.cpm := by simp [switchPollStableFirst]

@[simp] theorem switchPollStatus_cpm (k : Source) (b : Nat) (loc : Locals) (s : State) :
    (switchPollStatus k b loc s).cpm = s.cpm := by simp [switchPollStatus]

@[simp] theorem switchPollStatusFirst_cpm (k : Source) (b : Nat) (loc : Locals) (s : State) :
    (switchPollStatusFirst k b loc s).cpm = s.cpm := by simp [switchPollStatusFirst]

@[simp] theorem trimValidity_cpm (i : Nat) (loc : Locals) (s : State) :
    (trimValidity i loc s).cpm = s.cpm := by
  obtain ⟨pos, h⟩ := trimValidity_cases i loc s
  simp [h]

@[simp] theorem trimSecondary_cpm (loc : Locals) (s : State) : (trimSecondary loc s).cpm = s.cpm := rfl

@[simp] theorem trimKey_cpm (i : Nat) (loc : Locals) (s : State) : (trimKey i loc s).cpm = s.cpm := rfl

@[simp] theorem trimValue_cpm (loc : Locals) (s : State) : (trimValue loc s).cpm = s.cpm := rfl

@[simp] theorem keyWrite_sysClk (k : Word) (s : State) :
    (keyWrite k s).cpm.sysClk = s.cpm.sysClk :=
  (accessed_regRmw (.cpm .protKey) _ _ s).sysClk (by decide)

@[simp] theorem keyWriteOverride_sysClk (s : State) :
    (keyWriteOverride s).cpm.sysClk = s.cpm.sysClk :=
  (accessed_regRmw (.cpm .protKey) _ _ s).sysClk (by decide)

@[simp] theorem regWrite_hsTrim_sysClk (v : Word) (s : State) :
    (regWrite (.cpm .hsTrim) v s).cpm.sysClk = s.cpm.sysClk :=
  (accessed_regWrite (.cpm .hsTrim) v s).sysClk (by decide)

@[simp] theorem ipsEnable_sysClk (loc : Locals) (s : State) :
    (ipsEnable loc s).cpm.sysClk = s.cpm.sysClk :=
  (accessed_regSet (.cpm .ipsDiv) _ s).sysClk (by decide)

@[simp] theorem ipsWriteField_sysClk (loc : Locals) (s : State) :
    (ipsWriteField loc s).cpm.sysClk = s.cpm.sysClk :=
  (accessed_regRmw (.cpm .ipsDiv) _ _ s).sysClk (by decide)

@[simp] theorem ipsAssertUpdate_sysClk (loc : Locals) (s : State) :
    (ipsAssertUpdate loc s).cpm.sysClk = s.cpm.sysClk :=
  (accessed_regSet (.cpm .ipsDiv) _ s).sysClk (by decide)

@[simp] theorem freqReadStatus_cpm (loc : Locals) (s : State) : (freqReadStatus loc s).cpm = s.cpm := rfl

@[simp] theorem freqReadDivider_cpm (loc : Locals) (s : State) : (freqReadDivider loc s).cpm = s.cpm := rfl

/-! ## What an engine step can do to SYS_CLK -/

/-- Everything a step of command `i` can do to SYS_CLK: nothing, or the select step of the switch it runs
(R153, step 3). -/
inductive SysClkMove (i : Instr) (s t : State) : Prop where
  | kept (h : t.cpm.sysClk = s.cpm.sysClk)
  | select (loc : Locals) (k : Source) (b : Nat) (hs : s.engine = .run .select loc)
      (hk : switchArgs s.cfg i loc = some (k, b)) (ht : t = switchSelect k loc s)

theorem execClksw_sysClk {src : BitVec 4} {s t : State} (h : execClksw src s = .next t) :
    SysClkMove (.clksw src) s t := by
  unfold execClksw at h
  split at h <;> cases h
  case h_7 loc k hs hk => exact .select loc k loc.a0.toNat hs (by simp [switchArgs, hk]) rfl
  all_goals exact .kept (by simp)

/-- TRIM's select step is its safety switch's, to LFI (R184). -/
theorem execTrim_sysClk {tg : BitVec 4} {s t : State} (h : execTrim tg s = .next t) :
    SysClkMove (.trim tg) s t := by
  unfold execTrim at h
  split at h <;> cases h
  case h_7 loc k hs hk => exact .select loc .lfi s.cfg.trimSwitchTimeoutMs hs (by simp [switchArgs, hk]) rfl
  all_goals exact .kept (by simp)

theorem execIpsdiv_sysClk {s t : State} (h : execIpsdiv s = .next t) :
    t.cpm.sysClk = s.cpm.sysClk := by
  unfold execIpsdiv at h
  split at h
  case h_2 => split at h <;> cases h <;> simp
  all_goals cases h <;> simp

theorem execGetfreq_cpm {s t : State} (h : execGetfreq s = .next t) : t.cpm = s.cpm := by
  unfold execGetfreq at h
  split at h <;> cases h <;> simp

/-- A command whose own registers are a cache's leaves the Clock & Power block alone (R57). -/
theorem ExecShape.cpm_of_cache {i : Instr} {c : CacheId} {s t : State} (h : ExecShape i s t)
    (hown : ∀ r, ownReg i r → ∃ q, r = .cache c q) (hi : ∀ tg, i ≠ .trim tg) : t.cpm = s.cpm := by
  rcases h with ⟨_, _, _, _, r, u, _, _, hr, hu, _, _, rfl⟩ | ⟨_, _, _, _, _, _, _, ⟨tg, htg⟩, _⟩ |
    ⟨_, _, _, _, _, _, _, rfl⟩
  · obtain ⟨q, rfl⟩ := hown r hr
    simp [hu.clock.1]
  · exact absurd htg (hi tg)
  · rfl

theorem exec_sysClk {i : Instr} {s t : State} (h : exec i s = .next t) : SysClkMove i s t := by
  have hcache : ∀ c, (∀ r, ownReg i r → ∃ q, r = .cache c q) → (∀ tg, i ≠ .trim tg) →
      SysClkMove i s t := fun c hown hi => .kept (by rw [(exec_shape h).cpm_of_cache hown hi])
  cases i with
  | clksw src => exact execClksw_sysClk h
  | trim tg => exact execTrim_sysClk h
  | ipsdiv => exact .kept (execIpsdiv_sysClk h)
  | getfreq => exact .kept (by rw [execGetfreq_cpm h])
  | cen c en => exact hcache c (fun _ hr => hr) (by simp)
  | crgn c r p => exact hcache c (fun _ hr => hr) (by simp)
  | crgnall c => exact hcache c (fun _ hr => hr) (by simp)
  | cinv c => exact hcache c (fun _ hr => hr) (by simp)
  | cinvr c => exact hcache c (fun _ hr => hr) (by simp)
  | cinit c => exact hcache c (fun _ hr => hr) (by simp)

/-! ## SEL (R38) -/

/-- SEL is a field of SYS_CLK and nothing else. -/
theorem sel_congr {s t : State} (hcfg : t.cfg = s.cfg) (hclk : t.cpm.sysClk = s.cpm.sysClk) :
    t.sel = s.sel := by rw [State.sel, State.sel, hcfg, hclk]

/-- What a read-modify-write leaves in SYS_CLK: the read-write fields of the merged word (R38, R133). -/
theorem regRmw_sysClk (m x : Word) (s : State) :
    (regRmw (.cpm .sysClk) m x s).cpm.sysClk =
      merge (cpmRw s.cfg .sysClk) s.cpm.sysClk (merge m s.cpm.sysClk x) := by
  rw [regRmw, writeReg_cpm_plain _ _ _ (by decide) (by decide)]
  rfl

/-- The select step leaves the source it switches to in SEL (R153, step 3). -/
theorem switchSelect_sel {s : State} (h : configWf s.cfg = true) (k : Source) (loc : Locals) :
    (switchSelect k loc s).sel = k := by
  have hsel := (sys_positions h).1
  have hclk : (switchSelect k loc s).cpm.sysClk = merge (cpmRw s.cfg .sysClk) s.cpm.sysClk
      (merge (bit s.cfg.layout.sel) s.cpm.sysClk (flag s.cfg.layout.sel (sourceBit k))) :=
    regRmw_sysClk _ _ s
  have hrw : getBit (cpmRw s.cfg .sysClk) s.cfg.layout.sel = true := by simp [cpmRw, hsel]
  have hcfg : (switchSelect k loc s).cfg = s.cfg := by simp [switchSelect, regRmw]
  rw [State.sel, hcfg, hclk, getBit_merge, if_pos hrw, getBit_merge, if_pos (getBit_bit_self hsel),
    getBit_flag]
  simp [hsel, sourceOfBit_sourceBit]

/-- No ENV rule moves SEL: the switch that takes effect writes SEL_STAT (R319). -/
theorem envEffect_sel {s : State} (h : configWf s.cfg = true) (e : EnvEvent) :
    (envEffect e s).sel = s.sel := by
  obtain ⟨_, _, hne, _⟩ := sys_positions h
  rw [State.sel, envEffect_cfg]
  cases e with
  | switchTakes => simp [envEffect, setSelStat, putBit_other hne, State.sel]
  | _ => simp [envEffect, setStable, globalComplete, rangeComplete, fillLine, State.sel]

theorem envStep_sel {s : State} (h : configWf s.cfg = true) (e : EnvEvent) :
    (envStep e s).sel = s.sel := by
  cases he : envEnabled e s
  · rw [envStep_off he]
  · rw [envStep_on he]
    exact envEffect_sel h e

/-- A host move that changes SEL is a write to SYS_CLK. -/
theorem hostStep_sel {a : HostAccess} {s t : State} (h : hostStep a s = .next t) (hne : t.sel ≠ s.sel) :
    ∃ x w v b, a = .write x w v ∧ blockOf? s.cfg x = some b ∧
      regOfAddr? s.cfg b x = some (.cpm .sysClk) := by
  obtain ⟨b, r, hb, hr, ⟨_, _, _, rfl⟩ | ⟨x, w, v, rfl, _, rfl⟩⟩ := hostStep_shape h
  · exact absurd (sel_congr (by simp [hostRead]) (by simp [hostRead])) hne
  · by_cases hclk : r = .cpm .sysClk
    · exact ⟨x, w, v, b, rfl, hb, hclk ▸ hr⟩
    · exact absurd (sel_congr (writeReg_cfg r v s) (writeReg_sysClk hclk v s)) hne

/-- An engine move that changes SEL is the select step of a switch, and SEL takes the switch's source. -/
theorem engineStep_sel {s t : State} (hc : configWf s.cfg = true) (h : engineStep s = .next t)
    (hne : t.sel ≠ s.sel) :
    ∃ i loc b, Runs i .select loc s ∧ switchArgs s.cfg i loc = some (t.sel, b) := by
  rcases engineStep_shape h with ⟨_, rfl⟩ | ⟨pos, loc, i, hrun, hdec, hx⟩ | ⟨_, _, _, _, rfl⟩
  · exact absurd rfl hne
  · cases exec_sysClk hx with
    | kept hclk => exact absurd (sel_congr (exec_sameParams hx).2 hclk) hne
    | select loc' k b hs hk ht =>
      cases hs.symm.trans hrun
      refine ⟨i, loc, b, ⟨hrun, hdec⟩, ?_⟩
      rw [ht, switchSelect_sel hc, hk]
  · exact absurd rfl hne

/-- Only a CLKSW with source code 1 switches to HSOSC: TRIM's safety switch goes to LFI (R151, R184). -/
theorem clksw_of_switchArgs_hsosc {cfg : Config} {i : Instr} {loc : Locals} {b : Nat}
    (h : switchArgs cfg i loc = some (.hsosc, b)) : i = .clksw 1 := by
  cases i with
  | clksw src =>
    simp only [switchArgs, sourceOfCode?] at h
    split at h
    · simp at h
    · split at h
      · next hsrc => rw [hsrc]; rfl
      · simp at h
  | trim tg => simp [switchArgs] at h
  | _ => simp [switchArgs] at h

/-- Settles O33: SEL moves only with SYS_CLK, at the engine's select step or at a host write to it; and the one
command whose select step brings HSOSC is CLKSW with source 1. -/
theorem hsoscSelectedOnlyByClkswOrHost : Obligations.HsoscSelectedOnlyByClkswOrHost := by
  intro s t h hlfi hhs
  obtain ⟨hc, hp⟩ := step_shape h
  obtain ⟨ag, d, hpop⟩ := popEvent_eq s
  have hsel : (popEvent s).sel = s.sel := by rw [hpop]; rfl
  have hne : t.sel ≠ (popEvent s).sel := by simp [hsel, hlfi, hhs]
  rw [← popEvent_cfg s] at hc
  cases he : nextEvent s with
  | engine =>
    rw [he] at hp
    obtain ⟨i, loc, b, ⟨hrun, hdec⟩, hk⟩ := engineStep_sel hc hp hne
    rw [hhs] at hk
    rw [clksw_of_switchArgs_hsosc hk] at hdec
    rw [popEvent_engine] at hrun
    exact .inl ⟨rfl, loc, hrun, hdec⟩
  | host a =>
    rw [he] at hp
    obtain ⟨x, w, v, b, rfl, hb, hr⟩ := hostStep_sel hp hne
    rw [popEvent_cfg] at hb hr
    exact .inr ⟨x, w, v, b, rfl, hb, hr⟩
  | env e =>
    rw [he] at hp
    cases hp
    exact absurd (envStep_sel hc e) hne

end Sys2Proof.Machine
end

section
/-! SUPPORT. Operand codes outside their enumerations (30_encoding.md R102, R108, R114): which codes name no
member, which policy sets are invalid, and the first step of a command that holds one. -/

namespace Sys2Proof.Machine

/-! ## Codes that name no member -/

theorem sourceOfCode?_isSome (src : BitVec 4) : (sourceOfCode? src).isSome = sourceCodeOk src := by
  revert src; decide

theorem targetOfCode?_isSome (tg : BitVec 4) : (targetOfCode? tg).isSome = targetCodeOk tg := by
  revert tg; decide

theorem regionOfCode?_isSome (r : BitVec 4) : (regionOfCode? r).isSome = regionCodeOk r := by
  revert r; decide

theorem policyOfCode?_isSome (p : BitVec 2) : (policyOfCode? p).isSome = policyCodeOk p := by
  revert p; decide

/-- 3 is the one policy code that names no policy (R51, R225). -/
theorem policyOfCode?_isSome_iff (p : BitVec 2) : (policyOfCode? p).isSome = true ↔ p ≠ 3#2 := by
  revert p; decide

/-! ## Policy sets -/

/-- Every number below 5 is a region's place in the policy set (R108). -/
theorem exists_regionIndex {k : Nat} (h : k < 5) : ∃ r, regionIndex r = k := by
  match k, h with
  | 0, _ => exact ⟨.boot, rfl⟩
  | 1, _ => exact ⟨.rom, rfl⟩
  | 2, _ => exact ⟨.spiMap1, rfl⟩
  | 3, _ => exact ⟨.spiMap2, rfl⟩
  | 4, _ => exact ⟨.spiMap3, rfl⟩

/-- A policy set is valid when its high bits are 0 and no region has code 3 (R108, R229). -/
theorem validSet_iff (ps : Word) : validSet ps = true ↔ ps >>> 10 = 0#32 ∧ ∀ r, setCode ps r ≠ 3#2 := by
  simp only [validSet, Bool.and_eq_true, decide_eq_true_eq, List.all_eq_true, setPolicy?,
    policyOfCode?_isSome_iff]
  exact and_congr_right fun _ => ⟨fun h r => h r (mem_allRegions r), fun h r _ => h r⟩

/-- A bit above bit 9, or a code 3 in one of the five fields, makes a policy set invalid (R225, R229). -/
theorem validSet_eq_false {ps : Word}
    (h : ps >>> 10 ≠ 0#32 ∨ ∃ k, k < 5 ∧ ps.extractLsb' (2 * k) 2 = 3#2) : validSet ps = false := by
  rw [Bool.eq_false_iff, Ne, validSet_iff]
  rintro ⟨hhigh, hcodes⟩
  rcases h with h | ⟨k, hk, hcode⟩
  · exact h hhigh
  · obtain ⟨r, rfl⟩ := exists_regionIndex hk
    exact hcodes r hcode

/-! ## The first step -/

theorem exec_clksw_start_invalid {src : BitVec 4} {s : State} {loc : Locals}
    (hs : s.engine = .run .start loc) (h : sourceCodeOk src = false) :
    exec (.clksw src) s = .next (finish .err s) := by
  have hnone : sourceOfCode? src = none := by simpa [← sourceOfCode?_isSome] using h
  simp only [exec, execClksw, hs, hnone]

theorem exec_trim_start_invalid {tg : BitVec 4} {s : State} {loc : Locals}
    (hs : s.engine = .run .start loc) (h : targetCodeOk tg = false) :
    exec (.trim tg) s = .next (finish .err s) := by
  have hnone : targetOfCode? tg = none := by simpa [← targetOfCode?_isSome] using h
  simp only [exec, execTrim, hs, hnone]

/-- One invalid code of the two is enough (R224, R225). -/
theorem exec_crgn_start_invalid {c : CacheId} {r : BitVec 4} {p : BitVec 2} {s : State} {loc : Locals}
    (hs : s.engine = .run .start loc) (h : (regionCodeOk r && policyCodeOk p) = false) :
    exec (.crgn c r p) s = .next (finish .err s) := by
  rw [← regionOfCode?_isSome, ← policyOfCode?_isSome] at h
  cases hr : regionOfCode? r with
  | none => simp only [exec, execCrgn, hs, hr]
  | some _ =>
    cases hp : policyOfCode? p with
    | none => simp only [exec, execCrgn, hs, hr, hp]
    | some _ => simp [hr, hp] at h

theorem exec_crgnall_start_invalid {c : CacheId} {s : State} {loc : Locals}
    (hs : s.engine = .run .start loc) (h : validSet loc.a0 = false) :
    exec (.crgnall c) s = .next (finish .err s) := by
  simp [exec, execCrgnall, hs, h]

theorem exec_cinit_start_invalid {c : CacheId} {s : State} {loc : Locals}
    (hs : s.engine = .run .start loc) (h : validSet loc.a0 = false) :
    exec (.cinit c) s = .next (finish .err s) := by
  simp [exec, execCinit, hs, h]

/-- A word whose operand codes are not all in their enumerations finishes with ERR at once (R114). -/
theorem exec_start_of_not_wellFormed {i : Instr} {s : State} {loc : Locals}
    (hs : s.engine = .run .start loc) (h : i.wellFormed = false) : exec i s = .next (finish .err s) := by
  cases i with
  | clksw src => exact exec_clksw_start_invalid hs h
  | trim tg => exact exec_trim_start_invalid hs h
  | crgn c r p => exact exec_crgn_start_invalid hs h
  | _ => simp [Instr.wellFormed] at h

/-- Settles O5: each first step of a command with an invalid code is `finish(ERR)`, and `finish` says the
rest. -/
theorem invalidCodesFinishErr : Obligations.InvalidCodesFinishErr := by
  refine ⟨fun i s loc hs h => ?_, fun c s loc hs h => ?_⟩
  · rw [exec_start_of_not_wellFormed hs h, finish_eq]
  · have hset := validSet_eq_false h
    rw [exec_crgnall_start_invalid hs hset, exec_cinit_start_invalid hs hset, finish_eq]
    exact ⟨rfl, rfl⟩

end Sys2Proof.Machine
end

section
/-! SUPPORT. The key automaton: what a write to PROT_KEY does to every field, and which lists of writes unlock
(42_trim.md R171). -/

namespace Sys2Proof.Machine

/-! ## One write to PROT_KEY -/

/-- TRIM_OVR is the one field of PROT_KEY that a write stores (R41). -/
theorem writeProtKey_trimOvr {s : State} (hc : configWf s.cfg = true) (v : Word) :
    (writeProtKey v s).trimOvr = getBit v s.cfg.layout.trimOvr := by
  obtain ⟨_, hovr, _⟩ := key_positions hc
  have hstored : (writeProtKey v s).trimOvr =
      getBit (merge (bit s.cfg.layout.trimOvr) s.cpm.protKey v) s.cfg.layout.trimOvr := rfl
  rw [hstored, getBit_merge, if_pos (getBit_bit_self hovr)]

@[simp] theorem writeProtKey_keyState (v : Word) (s : State) :
    (writeProtKey v s).keyState =
      keyNext s.keyState (field v s.cfg.layout.key 2) (getBit v s.cfg.layout.trimOvr) := rfl

theorem writeProtKey_cpm (v : Word) (s : State) :
    (writeProtKey v s).cpm = { s.cpm with protKey := (writeProtKey v s).cpm.protKey } := rfl

@[simp] theorem writeProtKey_cmdif (v : Word) (s : State) : (writeProtKey v s).cmdif = s.cmdif := rfl

theorem writeProtKey_sameCaches (v : Word) (s : State) : sameCaches s (writeProtKey v s) := ⟨rfl, rfl⟩

/-! ## Which write leads to a state of the sequence -/

theorem keyNext_eq_unlocked {st : KeyState} {k : Fin 4} {o : Bool} (h : keyNext st k o = .unlocked) :
    st = .k2 ∧ k = 3 ∧ o = true := by
  cases st <;> revert k o <;> decide

theorem keyNext_eq_k2 {st : KeyState} {k : Fin 4} {o : Bool} (h : keyNext st k o = .k2) :
    st = .k1 ∧ k = 2 := by
  cases st <;> revert k o <;> decide

theorem keyNext_eq_k1 {st : KeyState} {k : Fin 4} {o : Bool} (h : keyNext st k o = .k1) :
    st = .k0 ∧ k = 1 := by
  cases st <;> revert k o <;> decide

theorem keyNext_eq_k0 {st : KeyState} {k : Fin 4} {o : Bool} (h : keyNext st k o = .k0) : k = 0 := by
  cases st <;> revert k o <;> decide

/-! ## Lists of writes -/

theorem keyAfter_append (st : KeyState) (ws ws' : List (Fin 4 × Bool)) :
    keyAfter st (ws ++ ws') = keyAfter (keyAfter st ws) ws' := List.foldl_append

/-- Writes that leave LOCKED are not none: the last of them led to the state reached. -/
theorem keyAfter_locked_last {ws : List (Fin 4 × Bool)} {x : KeyState} (hx : x ≠ .locked)
    (h : keyAfter .locked ws = x) :
    ∃ (pre : List (Fin 4 × Bool)) (k : Fin 4) (o : Bool), ws = pre ++ [(k, o)] ∧
      keyNext (keyAfter .locked pre) k o = x := by
  rcases List.eq_nil_or_concat' ws with rfl | ⟨pre, ⟨k, o⟩, rfl⟩
  · exact absurd h.symm hx
  · exact ⟨pre, k, o, rfl, by rw [keyAfter_append] at h; exact h⟩

/-- Only the exact sequence unlocks: read backwards, each state of it has one key that leads to it. -/
theorem keyAfter_locked_unlocked {ws : List (Fin 4 × Bool)} (h : keyAfter .locked ws = .unlocked) :
    ∃ pre o0 o1 o2, ws = pre ++ [(0, o0), (1, o1), (2, o2), (3, true)] := by
  obtain ⟨ws2, k, o, rfl, hkey3⟩ := keyAfter_locked_last (by decide) h
  obtain ⟨hk2, rfl, rfl⟩ := keyNext_eq_unlocked hkey3
  obtain ⟨ws1, k, o2, rfl, hkey2⟩ := keyAfter_locked_last (by decide) hk2
  obtain ⟨hk1, rfl⟩ := keyNext_eq_k2 hkey2
  obtain ⟨ws0, k, o1, rfl, hkey1⟩ := keyAfter_locked_last (by decide) hk1
  obtain ⟨hk0, rfl⟩ := keyNext_eq_k1 hkey1
  obtain ⟨pre, k, o0, rfl, hkey0⟩ := keyAfter_locked_last (by decide) hk0
  obtain rfl := keyNext_eq_k0 hkey0
  exact ⟨pre, o0, o1, o2, by simp⟩

/-- The exact sequence unlocks from whatever state: key 00 leads to K0 from each. -/
theorem keyAfter_sequence (st : KeyState) (o0 o1 o2 : Bool) :
    keyAfter st [(0, o0), (1, o1), (2, o2), (3, true)] = .unlocked := rfl

/-- Settles O34: the fields of a PROT_KEY write one by one, then the two directions for lists of writes. The
second half of the claim on sequences follows for every state the earlier writes leave. -/
theorem keyAutomatonAcceptsExactSequence : Obligations.KeyAutomatonAcceptsExactSequence := by
  refine ⟨fun s v hc => ?_, fun ws h => keyAfter_locked_unlocked h, fun pre o0 o1 o2 _ => ?_⟩
  · rw [writeReg_protKey]
    have hkey : ∀ k, field v s.cfg.layout.key 2 = k → (writeProtKey v s).keyState =
        keyNext s.keyState k (getBit v s.cfg.layout.trimOvr) := fun k hk => by
      rw [writeProtKey_keyState, hk]
    exact ⟨writeProtKey_trimOvr hc v, hkey 0, hkey 1, hkey 2, hkey 3, writeProtKey_cpm v s,
      writeProtKey_cmdif v s, writeProtKey_sameCaches v s⟩
  · rw [keyAfter_append, keyAfter_sequence]

end Sys2Proof.Machine
end

section
/-! SUPPORT. TRIM's OTP reads (42_trim.md R182, R183, R186 to R188): the step at each of their positions, what
a read of OTP leaves alone, and where the checks of the enable key and of the secondary tag lead. -/

namespace Sys2Proof.Machine

/-! ## Steps of a command, one after another -/

theorem execTimes_succ {i : Instr} {s t : State} (k : Nat) (h : exec i s = .next t) :
    execTimes (k + 1) i s = execTimes k i t := by
  simp only [execTimes, h]

theorem execTimes_two {i : Instr} {s t u : State} (ht : exec i s = .next t) (hu : exec i t = .next u) :
    execTimes 2 i s = .next u := by
  rw [execTimes_succ 1 ht, execTimes_succ 0 hu, execTimes]

/-! ## The read frame -/

/-- An OTP read changes TRACE alone (R56, R75). -/
theorem readFrame_memRead (a : Nat) (s : State) : readFrame s (memRead a s) :=
  ⟨⟨rfl, rfl, rfl⟩, ⟨rfl, rfl⟩, rfl, rfl, rfl, rfl⟩

theorem readFrame_trans {s t u : State} (h : readFrame s t) (h' : readFrame t u) : readFrame s u := by
  obtain ⟨⟨hcfg, hotp, hag⟩, ⟨hi, hd⟩, hcpm, hdist, hdraws, hkey⟩ := h
  obtain ⟨⟨hcfg', hotp', hag'⟩, ⟨hi', hd'⟩, hcpm', hdist', hdraws', hkey'⟩ := h'
  exact ⟨⟨hcfg'.trans hcfg, hotp'.trans hotp, hag'.trans hag⟩, ⟨hi'.trans hi, hd'.trans hd⟩,
    hcpm'.trans hcpm, hdist'.trans hdist, hdraws'.trans hdraws, hkey'.trans hkey⟩

theorem readFrame_goto {s t : State} (h : readFrame s t) (pos : Pos) (loc : Locals) :
    readFrame s (goto pos loc t) := h

theorem readFrame_setCsw {s t : State} (h : readFrame s t) (x : CswState) : readFrame s (t.setCsw x) := h

theorem readFrame_finish {s t : State} (h : readFrame s t) (st : Status) : readFrame s (finish st t) := h

/-! ## The step at each position -/

theorem exec_trim_switched_secondary {s : State} {loc : Locals} (hs : s.engine = .run .switched loc) :
    exec (.trim 1) s = .next ((trimSecondary (statusOk loc) s).setCsw .switched) := by
  have hk : targetOfCode? 1 = some .secondary := rfl
  simp only [exec, execTrim, hs, hk]

theorem exec_trim_otpKey {s : State} {p : Nat} {loc : Locals} (hs : s.engine = .run (.otpKey p) loc) :
    exec (.trim 0) s = .next (trimKey p loc s) := by
  have hk : targetOfCode? 0 = some .primary := rfl
  simp only [exec, execTrim, hs, hk]

theorem exec_trim_otpValue {s : State} {loc : Locals} (hs : s.engine = .run .otpValue loc) :
    exec (.trim 0) s = .next (trimValue loc s) := by
  have hk : targetOfCode? 0 = some .primary := rfl
  simp only [exec, execTrim, hs, hk]

theorem exec_trim_finishing {tg : BitVec 4} {k : Target} {s : State} {st : Status} {loc : Locals}
    (hk : targetOfCode? tg = some k) (hs : s.engine = .run (.finishing st) loc) :
    exec (.trim tg) s = .next (finish st s) := by
  simp only [exec, execTrim, hs, hk]

/-! ## Where the checks lead -/

/-- The expected key leads to the value read, with `p` and the key word assigned (R12, R182). -/
theorem trimKey_match {s : State} {p : Nat} (loc : Locals)
    (h : readWord s.otp (otpKeyAddr s.cfg p) = s.cfg.otpKeyExpected) :
    trimKey p loc s = goto .otpValue { loc with w := readWord s.otp (otpKeyAddr s.cfg p), p := p }
      (memRead (otpKeyAddr s.cfg p) s) := by
  rw [trimKey, if_pos h]

/-- Any other key leads to `finish(ERR)` (R186). -/
theorem trimKey_mismatch {s : State} {p : Nat} (loc : Locals)
    (h : readWord s.otp (otpKeyAddr s.cfg p) ≠ s.cfg.otpKeyExpected) :
    trimKey p loc s = goto (.finishing .err)
      { loc with w := readWord s.otp (otpKeyAddr s.cfg p), p := p } (memRead (otpKeyAddr s.cfg p) s) := by
  rw [trimKey, if_neg h]

/-- The tag leads to the unlock, with the whole word assigned (R187). -/
theorem trimSecondary_match {s : State} (loc : Locals)
    (h : (readWord s.otp s.cfg.otpSecAddr).extractLsb' 24 8 = s.cfg.otpSecTag) :
    trimSecondary loc s = goto .unlock00 { loc with w := readWord s.otp s.cfg.otpSecAddr }
      (memRead s.cfg.otpSecAddr s) := by
  rw [trimSecondary, if_pos h]

/-- Any other top byte leads to `finish(ERR)` (R188). -/
theorem trimSecondary_mismatch {s : State} (loc : Locals)
    (h : (readWord s.otp s.cfg.otpSecAddr).extractLsb' 24 8 ≠ s.cfg.otpSecTag) :
    trimSecondary loc s = goto (.finishing .err) { loc with w := readWord s.otp s.cfg.otpSecAddr }
      (memRead s.cfg.otpSecAddr s) := by
  rw [trimSecondary, if_neg h]

/-- Settles O37: after the key read the engine stands at the value read, or at `finish(ERR)`, and its second
step is taken there. -/
theorem trimChecksEnableKey : Obligations.TrimChecksEnableKey := by
  rintro s loc p _ _ hs rfl rfl
  have hkey := exec_trim_otpKey hs
  have hread := readFrame_memRead (otpKeyAddr s.cfg p) s
  constructor
  · intro h
    rw [trimKey_match loc h] at hkey
    exact ⟨_, _, execTimes_two hkey (exec_trim_otpValue rfl), rfl, rfl, rfl, rfl, rfl,
      readFrame_trans (readFrame_goto hread _ _) (readFrame_goto (readFrame_memRead _ _) _ _)⟩
  · intro h
    rw [trimKey_mismatch loc h] at hkey
    exact ⟨_, execTimes_two hkey (exec_trim_finishing (k := .primary) rfl rfl), ⟨rfl, rfl⟩, rfl,
      readFrame_finish (readFrame_goto hread _ _) _⟩

/-- Settles O38: after the one OTP read the engine stands at the unlock, or at `finish(ERR)`, which is the
second step. -/
theorem trimChecksSecondaryTag : Obligations.TrimChecksSecondaryTag := by
  intro s loc hs
  have hsec := exec_trim_switched_secondary hs
  have hread := readFrame_memRead s.cfg.otpSecAddr s
  constructor
  · intro h
    rw [trimSecondary_match _ h] at hsec
    exact ⟨_, _, hsec, rfl, rfl, rfl, rfl, readFrame_setCsw (readFrame_goto hread _ _) _⟩
  · intro h
    rw [trimSecondary_mismatch _ h] at hsec
    exact ⟨_, execTimes_two hsec (exec_trim_finishing (k := .secondary) rfl rfl), rfl, rfl, rfl,
      readFrame_finish (readFrame_setCsw (readFrame_goto hread _ _) _) _⟩

end Sys2Proof.Machine
end

section
/-! SUPPORT. IPSDIV's range check on its first step (43_clock_aux.md R202). -/

namespace Sys2Proof.Machine

/-- A divider above `IPSDIV_MAX` is rejected before the first access (R202). -/
theorem exec_ipsdiv_start_outOfRange {s : State} {loc : Locals} (hs : s.engine = .run .start loc)
    (hrange : s.cfg.ipsdivMax < loc.a0.toNat) : exec .ipsdiv s = .next (finish .err s) := by
  simp only [exec, execIpsdiv, hs, if_pos hrange]

/-- Settles O41: the range check leads to `finish(ERR)` at once, and `finish` writes RES, BUSY and the
engine alone. -/
theorem ipsdivOutOfRangeFinishesErr : Obligations.IpsdivOutOfRangeFinishesErr := by
  intro s loc hs hrange
  rw [exec_ipsdiv_start_outOfRange hs hrange, finish_eq]

end Sys2Proof.Machine
end

section
/-! SUPPORT. CINVR's enable read (45_cache_maint.md R243, R245): what a read of a register that draws nothing
leaves alone, and where the check of `CCR.EN` leads. -/

namespace Sys2Proof.Machine

/-- A register read has no side effect beyond TRACE (R52, R58); one of PROT_KEY also draws a KEY value (R41). -/
theorem readFrame_regRead {r : Reg} (h : r ≠ .cpm .protKey) (s : State) : readFrame s (regRead r s) := by
  rw [regRead_eq r s h]
  exact ⟨⟨rfl, rfl, rfl⟩, ⟨rfl, rfl⟩, rfl, rfl, rfl, rfl⟩

theorem exec_cinvr_start {c : CacheId} {s : State} {loc : Locals} (hs : s.engine = .run .start loc) :
    exec (.cinvr c) s = .next (rangeCheck c loc s) := by
  simp only [exec, execCinvr, hs]

theorem exec_cinvr_finishing {c : CacheId} {s : State} {st : Status} {loc : Locals}
    (hs : s.engine = .run (.finishing st) loc) : exec (.cinvr c) s = .next (finish st s) := by
  simp only [exec, execCinvr, hs]

/-- A disabled cache leads to `finish(OK)` whatever the range, an oversized one included (R245). -/
theorem rangeCheck_disabled {c : CacheId} {s : State} (loc : Locals) (h : s.cacheEn c = false) :
    rangeCheck c loc s = goto (.finishing .ok) { loc with v := (s.cache c).ccr }
      (regRead (.cache c .ccr) s) := by
  have hen : getBit (readValue (.cache c .ccr) s) s.cfg.layout.cacheEn = false := h
  rw [rangeCheck, rangeAfterCheck, if_pos hen]
  rfl

/-- Settles O49: the enable read leads to `finish(OK)`, which is the second step; the read is the one access,
and neither step changes a register. -/
theorem cinvrDisabledIsSilentNoOp : Obligations.CinvrDisabledIsSilentNoOp := by
  intro c s loc hs hen
  have hcheck := exec_cinvr_start (c := c) hs
  rw [rangeCheck_disabled loc hen] at hcheck
  have hread := readFrame_regRead (r := .cache c .ccr) (by simp) s
  exact ⟨_, execTimes_two hcheck (exec_cinvr_finishing rfl), ⟨rfl, rfl⟩, rfl,
    readFrame_finish (readFrame_goto hread _ _) _⟩

end Sys2Proof.Machine
end

section
/-! SUPPORT. Command words: what a word that decodes looks like, and how its operand bits and its row's mask make
up the whole word (30_encoding.md R100 to R114). -/

namespace Sys2Proof

open Machine

/-! ## The opcode byte -/

theorem Opcode.ofCode?_code (o : Opcode) : Opcode.ofCode? o.code = some o := by cases o <;> decide

/-- The `OP` bytes of no row (R111). -/
theorem Opcode.ofCode?_eq_none_iff (op : BitVec 8) :
    Opcode.ofCode? op = none ↔
      op.toNat = 0 ∨ (0x05 ≤ op.toNat ∧ op.toNat ≤ 0x0F) ∨ 0x16 ≤ op.toNat := by
  revert op; decide

theorem toNat_fieldOp (w : Word) : (fieldOp w).toNat = w.toNat % 256 := by
  simp [fieldOp]

/-- Every row's mask holds the whole `OP` byte, so a word that matches the row has its code (R106). -/
theorem fieldOp_of_match {o : Opcode} {w : Word} (h : w &&& o.mask = o.matchWord) :
    fieldOp w = o.code := by
  have hop : fieldOp (w &&& o.mask) = fieldOp w &&& fieldOp o.mask := BitVec.extractLsb'_and
  have hmask : fieldOp o.mask = BitVec.allOnes 8 := by cases o <;> decide
  have hcode : fieldOp o.matchWord = o.code := by cases o <;> decide
  rw [h, hcode, hmask, BitVec.and_allOnes] at hop
  exact hop.symm

/-! ## Decoding -/

/-- A word decodes to an instruction exactly when it matches a row, which assembles it (R114). -/
theorem decode_eq_ok_iff (w : Word) (i : Instr) :
    decode w = .ok i ↔ ∃ o : Opcode, w &&& o.mask = o.matchWord ∧ o.assemble w = i := by
  constructor
  · intro h
    unfold decode at h
    split at h
    · cases h
    · next o _ =>
      split at h
      · next hm => exact ⟨o, hm, by injection h⟩
      · cases h
  · rintro ⟨o, hm, rfl⟩
    simp only [decode, fieldOp_of_match hm, Opcode.ofCode?_code, if_pos hm]

/-- Decoding rejects the opcode exactly when the `OP` byte is of no row (R111). -/
theorem decode_eq_illegalOpcode_iff (w : Word) :
    decode w = .error (.illegalOpcode (fieldOp w)) ↔ Opcode.ofCode? (fieldOp w) = none := by
  unfold decode
  split
  · next h => simp [h]
  · next o h => split <;> simp [h]

/-! ## The operands of a word, in their places -/

theorem placeA_fieldA (w : Word) : placeA (fieldA w) = w &&& bits 8 4 := by
  apply word_ext
  intro p hp
  rw [placeA, getBit_shiftLeft, getBit_and, getBit_bits]
  simp only [getBit, fieldA, BitVec.getLsbD_setWidth, BitVec.getLsbD_extractLsb']
  by_cases h : 8 ≤ p
  · have hsum : 8 + (p - 8) = p := by omega
    have hlt : p - 8 < 32 := by omega
    have hiff : p - 8 < 4 ↔ p < 8 + 4 := by omega
    simp [h, hp, hsum, hlt, hiff, Bool.and_comm]
  · simp [h]

theorem placeP_fieldP (w : Word) : placeP (fieldP w) = w &&& bits 12 2 := by
  apply word_ext
  intro p hp
  rw [placeP, getBit_shiftLeft, getBit_and, getBit_bits]
  simp only [getBit, fieldP, BitVec.getLsbD_setWidth, BitVec.getLsbD_extractLsb']
  by_cases h : 12 ≤ p
  · have hsum : 12 + (p - 12) = p := by omega
    have hlt : p - 12 < 32 := by omega
    have hiff : p - 12 < 2 ↔ p < 12 + 2 := by omega
    simp [h, hp, hsum, hlt, hiff, Bool.and_comm]
  · simp [h]

theorem placeI_fieldI (w : Word) : placeI (fieldI w) = w &&& bit 15 := by
  rw [and_bit, fieldI, getBit]
  cases w.getLsbD 15 <;> rfl

theorem placeEn_fieldEn (w : Word) : placeEn (fieldEn w) = w &&& bit 8 := by
  rw [and_bit, fieldEn, getBit]
  cases w.getLsbD 8 <;> rfl

/-- The operand bits of an assembled word are its bits outside the row's mask: none is dropped (R105, R106). -/
theorem operandBits_assemble (o : Opcode) (w : Word) : (o.assemble w).operandBits = w &&& ~~~o.mask := by
  cases o with
  | clksw => exact placeA_fieldA w
  | trim => exact placeA_fieldA w
  | ipsdiv => exact (BitVec.and_zero (x := w)).symm
  | getfreq => exact (BitVec.and_zero (x := w)).symm
  | cen =>
    simp only [Opcode.assemble, Instr.operandBits, placeEn_fieldEn, placeI_fieldI, ← BitVec.and_or_distrib_left]
    rfl
  | crgn =>
    simp only [Opcode.assemble, Instr.operandBits, placeA_fieldA, placeP_fieldP, placeI_fieldI,
      ← BitVec.and_or_distrib_left]
    rfl
  | crgnall => exact placeI_fieldI w
  | cinv => exact placeI_fieldI w
  | cinvr => exact placeI_fieldI w
  | cinit => exact placeI_fieldI w

theorem opcode_assemble (o : Opcode) (w : Word) : (o.assemble w).opcode = o := by cases o <;> rfl

/-- A word that matches its row is its row's match and its operand bits. -/
theorem encode_assemble {o : Opcode} {w : Word} (h : w &&& o.mask = o.matchWord) :
    encode (o.assemble w) = w := by
  rw [encode, opcode_assemble, operandBits_assemble, ← h, ← BitVec.and_or_distrib_left, BitVec.or_not_self,
    BitVec.and_allOnes]

/-! ## Encoding -/

/-- The operand fields of an encoded word are the operands (R106, R117). -/
theorem assemble_encode (i : Instr) : i.opcode.assemble (encode i) = i := by
  cases i with
  | clksw src => revert src; decide
  | trim tg => revert tg; decide
  | ipsdiv => rfl
  | getfreq => rfl
  | cen c en => cases c <;> cases en <;> rfl
  | crgn c r p => revert r p; cases c <;> decide
  | crgnall c => cases c <;> rfl
  | cinv c => cases c <;> rfl
  | cinvr c => cases c <;> rfl
  | cinit c => cases c <;> rfl

theorem encode_and_mask (i : Instr) : encode i &&& i.opcode.mask = i.opcode.matchWord := by
  cases i with
  | clksw src => exact Laws.WordKeepsToRow.clksw src
  | trim tg => exact Laws.WordKeepsToRow.trim tg
  | ipsdiv => exact Laws.WordKeepsToRow.ipsdiv
  | getfreq => exact Laws.WordKeepsToRow.getfreq
  | cen c en => exact Laws.WordKeepsToRow.cen c en
  | crgn c r p => exact Laws.WordKeepsToRow.crgn c r p
  | crgnall c => exact Laws.WordKeepsToRow.crgnall c
  | cinv c => exact Laws.WordKeepsToRow.cinv c
  | cinvr c => exact Laws.WordKeepsToRow.cinvr c
  | cinit c => exact Laws.WordKeepsToRow.cinit c

/-- Settles O1: an encoded word matches its row and assembles to its instruction; a word that matches a row is
put together again from the row's match and the operand bits. -/
theorem decodeEncodeRoundTrip : Obligations.DecodeEncodeRoundTrip := by
  refine ⟨fun i => ?_, fun w i h => ?_⟩
  · rw [decode_eq_ok_iff]
    exact ⟨i.opcode, encode_and_mask i, assemble_encode i⟩
  · obtain ⟨o, hm, rfl⟩ := (decode_eq_ok_iff w i).mp h
    exact encode_assemble hm

/-- The ten rows of R106 are those of the opcodes. -/
theorem Opcode.exists_row_iff (P : Word × Word → Prop) :
    (∃ row ∈ Opcode.all.map fun o => (o.matchWord, o.mask), P row) ↔ ∃ o : Opcode, P (o.matchWord, o.mask) := by
  have hall : ∀ o : Opcode, o ∈ Opcode.all := fun o => by cases o <;> decide
  simp [hall]

/-- Settles O2: decoding succeeds on the words of a row, and the row's match and mask are the opcode's; the
illegal `OP` bytes are counted out. -/
theorem wordsOfTheTableDecode : Obligations.WordsOfTheTableDecode := by
  refine ⟨fun w => ?_, fun w => ?_⟩
  · have hrow := Opcode.exists_row_iff fun row => w &&& row.2 = row.1
    refine Iff.trans ?_ hrow.symm
    constructor
    · rintro ⟨i, h⟩
      obtain ⟨o, hm, _⟩ := (decode_eq_ok_iff w i).mp h
      exact ⟨o, hm⟩
    · rintro ⟨o, hm⟩
      exact ⟨o.assemble w, (decode_eq_ok_iff w _).mpr ⟨o, hm, rfl⟩⟩
  · rw [← toNat_fieldOp, ← Opcode.ofCode?_eq_none_iff]
    exact decode_eq_illegalOpcode_iff w

/-- Settles O3: each word is evaluated. -/
theorem sampleWordsDecode : Obligations.SampleWordsDecode := by
  unfold Obligations.SampleWordsDecode; decide

end Sys2Proof
end

section
/-! SUPPORT. Which agent a step moves (00_scope.md R15, R31), what a latched word that is no command does
(30_encoding.md R111, R112), and who can fault (60_exceptions.md R276). -/

namespace Sys2Proof.Machine

/-! ## The engine's move -/

theorem engineStep_rejected {s : State} {pos : Pos} {loc : Locals} {e : DecodeError}
    (hs : s.engine = .run pos loc) (hd : decode loc.cmd = .error e) : engineStep s = rejectedStep pos s := by
  simp only [engineStep, hs, hd]

theorem engineStep_idle {s : State} (hs : s.engine = .idle) : engineStep s = .next s := by
  simp only [engineStep, hs]

theorem rejectedStep_of_ne_start {pos : Pos} (h : pos ≠ .start) (s : State) :
    rejectedStep pos s = .refused .strayPosition := by
  unfold rejectedStep
  split
  · exact absurd rfl h
  · rfl

/-- Settles O4: the engine's move of a rejected word at its first step is `finish(ERR)`. -/
theorem rejectedWordsFinishErr : Obligations.RejectedWordsFinishErr := by
  intro s loc e hs hd
  rw [engineStep_rejected hs hd, rejectedStep, finishRejected, finish_eq]

/-! ## The agenda's next move -/

theorem step_agenda {s : State} {e : Event} {rest : List Event} (hc : configWf s.cfg = true)
    (ha : s.agenda = e :: rest) : step s = perform e { s with agenda := rest } := by
  rw [step_eq hc, nextEvent, popEvent, ha]

theorem step_free {s : State} (hc : configWf s.cfg = true) (ha : s.agenda = []) :
    step s = perform (Config.freeEvent s.draws) { s with draws := s.draws + 1 } := by
  rw [step_eq hc, nextEvent, popEvent, ha]

/-- Settles O6: the agenda's move is the engine's, which runs the decoded word. -/
theorem stepRunsLatchedCommand : Obligations.StepRunsLatchedCommand := by
  rintro s rest pos loc i hc ha ⟨hs, hd⟩
  rw [step_agenda hc ha]
  exact engineStep_running (s := { s with agenda := rest }) hs hd

/-- Settles O7: each clause is the agenda's move, or the free one, at the state with the move taken off. -/
theorem stepMovesOneAgent : Obligations.StepMovesOneAgent := by
  refine ⟨fun s rest a hc ha => step_agenda hc ha, fun s rest e hc ha => step_agenda hc ha,
    fun s rest hc ha hs => ?_, fun s rest pos loc e hc ha hs hd => ?_, fun s hc ha => step_free hc ha,
    fun s hc => ?_⟩
  · rw [step_agenda hc ha]
    exact engineStep_idle (s := { s with agenda := rest }) hs
  · have hstep : step s = rejectedStep pos { s with agenda := rest } :=
      (step_agenda hc ha).trans (engineStep_rejected (s := { s with agenda := rest }) hs hd)
    refine ⟨fun hp => ?_, fun hp => ?_⟩
    · rw [hstep, hp]; rfl
    · rw [hstep, rejectedStep_of_ne_start hp]
  · rw [step, stepOnce, if_neg (by simp [hc])]

/-! ## Faults -/

/-- No command's step faults (R276, R278). -/
theorem exec_ne_fault (i : Instr) (s : State) (f : Fault) : exec i s ≠ .fault f := by
  cases i with
  | clksw src => simp only [exec, execClksw]; split <;> simp
  | trim tg => simp only [exec, execTrim]; split <;> simp
  | ipsdiv => simp only [exec, execIpsdiv]; repeat' split
              all_goals simp
  | getfreq => simp only [exec, execGetfreq]; split <;> simp
  | cen c en => simp only [exec, execCen]; split <;> simp
  | crgn c r p => simp only [exec, execCrgn]; repeat' split
                  all_goals simp
  | crgnall c => simp only [exec, execCrgnall]; repeat' split
                 all_goals simp
  | cinv c => simp only [exec, execCinv]; split <;> simp
  | cinvr c => simp only [exec, execCinvr]; split <;> simp
  | cinit c => simp only [exec, execCinit]; repeat' split
               all_goals simp

/-- No engine move faults, whatever the latched word (R276). -/
theorem engineStep_ne_fault (s : State) (f : Fault) : engineStep s ≠ .fault f := by
  cases hs : s.engine with
  | idle => simp [engineStep_idle hs]
  | run pos loc =>
    cases hd : decode loc.cmd with
    | ok i => rw [engineStep_running hs hd]; exact exec_ne_fault i s f
    | error e =>
      rw [engineStep_rejected hs hd]
      by_cases hp : pos = .start
      · simp [hp, rejectedStep]
      · simp [rejectedStep_of_ne_start hp]

/-- A fault of a host access carries that access (R277). -/
theorem hostStep_fault {a : HostAccess} {s : State} {f : Fault} (h : hostStep a s = .fault f) :
    ∃ why, f = .host why a := by
  unfold hostStep at h
  split at h
  · cases h
  · split at h
    · cases h; exact ⟨_, rfl⟩
    · split at h
      · cases h; exact ⟨_, rfl⟩
      · split at h
        · cases h; exact ⟨_, rfl⟩
        · unfold hostAccess at h
          split at h
          · cases h
          · split at h <;> cases h
            exact ⟨_, rfl⟩

/-- Settles O9: of the three agents' moves only the host's faults, with its own access. -/
theorem faultsComeFromHostAccesses : Obligations.FaultsComeFromHostAccesses := by
  intro s f h
  have hp : perform (nextEvent s) (popEvent s) = .fault f := by
    unfold step stepOnce at h
    split at h
    · exact h
    · cases h
  cases he : nextEvent s with
  | engine => rw [he] at hp; exact absurd hp (engineStep_ne_fault _ _)
  | host a =>
    rw [he] at hp
    obtain ⟨why, hf⟩ := hostStep_fault hp
    exact ⟨why, a, rfl, hf⟩
  | env e => rw [he] at hp; cases hp

/-! ## Values written out -/

/-- Settles O18: both sides are evaluated. -/
theorem resetStateIsTheZeroDraw : Obligations.ResetStateIsTheZeroDraw := by
  unfold Obligations.ResetStateIsTheZeroDraw; decide

/-- Settles O46: the pairs are the definition's, and the four codes are evaluated. -/
theorem policyPairs : Obligations.PolicyPairs := ⟨rfl, rfl, rfl, by decide, by decide, by decide, by decide⟩

end Sys2Proof.Machine
end

section
/-! SUPPORT. The alignment arithmetic of CINVR (45_cache_maint.md R243, R244), over the naturals. -/

namespace Sys2Proof.Machine

/-- The low bits cut off a word are its remainder by `LINE` (R243). -/
theorem toNat_and_not_lineLow {cfg : Config} (h : configWf cfg = true) (v : Word) :
    (v &&& ~~~lineLow cfg).toNat = v.toNat - v.toNat % cfg.line := by
  obtain ⟨k, hk, hline⟩ := line_pow h
  have hsplit : v &&& ~~~lineLow cfg = (v >>> k) <<< k := by
    apply word_ext
    intro p hp
    rw [getBit_and_not, lineLow, hline, getBit_ofNat_ones, getBit_shiftLeft]
    simp only [getBit, BitVec.getLsbD_ushiftRight]
    by_cases hkp : k ≤ p
    · simp [hp, hkp, Nat.not_lt.mpr hkp]
    · simp [hp, hkp, Nat.lt_of_not_le hkp]
  have hle : v.toNat / 2 ^ k * 2 ^ k ≤ v.toNat := Nat.div_mul_le_self _ _
  rw [hsplit, hline, BitVec.toNat_shiftLeft, BitVec.toNat_ushiftRight, Nat.shiftLeft_eq,
    Nat.shiftRight_eq_div_pow, Nat.mod_eq_of_lt (Nat.lt_of_le_of_lt hle v.isLt)]
  have := Nat.div_add_mod v.toNat (2 ^ k)
  rw [Nat.mul_comm] at this
  omega

theorem alignBase_toNat {cfg : Config} (h : configWf cfg = true) (addr : Word) :
    (alignBase cfg addr).toNat = addr.toNat - addr.toNat % cfg.line := toNat_and_not_lineLow h addr

/-- Rounding up gives the next multiple: no less than the number, and less than a line more (R244). -/
theorem roundUp_bounds {L : Nat} (hL : 0 < L) (x : Nat) :
    roundUp x L % L = 0 ∧ x ≤ roundUp x L ∧ roundUp x L < x + L := by
  have hdiv := Nat.div_add_mod (x + L - 1) L
  have hmod := Nat.mod_lt (x + L - 1) hL
  rw [Nat.mul_comm] at hdiv
  refine ⟨Nat.mul_mod_left _ _, ?_, ?_⟩ <;> unfold roundUp <;> omega

/-- Settles O52: the base takes the remainder off the address, the length adds it before rounding up. -/
theorem alignedRangeCovers : Obligations.AlignedRangeCovers := by
  intro cfg addr len h
  obtain ⟨k, _, hline⟩ := line_pow h
  have hpos : 0 < cfg.line := hline ▸ Nat.two_pow_pos k
  have hbase := alignBase_toNat h addr
  have hrem := Nat.mod_le addr.toNat cfg.line
  have hrest : addr.toNat - (alignBase cfg addr).toNat = addr.toNat % cfg.line := by omega
  obtain ⟨hmul, hge, hlt⟩ := roundUp_bounds hpos (addr.toNat % cfg.line + len.toNat)
  have hlen : alignedLength cfg addr len = roundUp (addr.toNat % cfg.line + len.toNat) cfg.line := by
    rw [alignedLength, hrest]
  rw [hlen]
  exact ⟨hbase, hmul, by omega, by omega⟩

end Sys2Proof.Machine
end

section
/-! SUPPORT. What the ENV rules leave alone, one lemma per field, and what each clock rule does
(70_reset_and_hazards.md R315 to R319). -/

namespace Sys2Proof.Machine

/-! ## Fields that no rule touches (R315) -/

@[simp] theorem envStep_cfg (e : EnvEvent) (s : State) : (envStep e s).cfg = s.cfg := (envStep_frame e s).1
@[simp] theorem envStep_otp (e : EnvEvent) (s : State) : (envStep e s).otp = s.otp := (envStep_frame e s).2.1
@[simp] theorem envStep_cmdif (e : EnvEvent) (s : State) : (envStep e s).cmdif = s.cmdif :=
  (envStep_frame e s).2.2

/-- What holds of the effect of every rule, and of no effect, holds after a step. -/
theorem envStep_induction {P : State → Prop} {e : EnvEvent} {s : State} (hoff : P s)
    (hon : P ((envEffect e s).log (.env e))) : P (envStep e s) := by
  cases he : envEnabled e s
  · rwa [envStep_off he]
  · rwa [envStep_on he]

theorem envEffect_model (e : EnvEvent) (s : State) :
    (envEffect e s).agenda = s.agenda ∧ (envEffect e s).engine = s.engine ∧
      (envEffect e s).keyState = s.keyState ∧ (envEffect e s).draws = s.draws := by
  cases e <;> simp [envEffect, setStable, setSelStat, globalComplete, rangeComplete, fillLine]

theorem envStep_model (e : EnvEvent) (s : State) :
    (envStep e s).agenda = s.agenda ∧ (envStep e s).engine = s.engine ∧
      (envStep e s).keyState = s.keyState ∧ (envStep e s).draws = s.draws :=
  envStep_induction (P := fun t => t.agenda = s.agenda ∧ t.engine = s.engine ∧ t.keyState = s.keyState ∧
    t.draws = s.draws) ⟨rfl, rfl, rfl, rfl⟩ (envEffect_model e s)

@[simp] theorem envStep_agenda (e : EnvEvent) (s : State) : (envStep e s).agenda = s.agenda :=
  (envStep_model e s).1
@[simp] theorem envStep_engine (e : EnvEvent) (s : State) : (envStep e s).engine = s.engine :=
  (envStep_model e s).2.1
@[simp] theorem envStep_keyState (e : EnvEvent) (s : State) : (envStep e s).keyState = s.keyState :=
  (envStep_model e s).2.2.1
@[simp] theorem envStep_draws (e : EnvEvent) (s : State) : (envStep e s).draws = s.draws :=
  (envStep_model e s).2.2.2

/-! ## The Clock & Power block -/

/-- No rule writes IPS_DIV, PROT_KEY or HS_TRIM. -/
theorem envEffect_cpm (e : EnvEvent) (s : State) :
    (envEffect e s).cpm =
      { s.cpm with oscCs := (envEffect e s).cpm.oscCs, sysClk := (envEffect e s).cpm.sysClk } := by
  cases e <;> simp [envEffect, setStable, setSelStat, globalComplete, rangeComplete, fillLine]

/-- Of OSC_CS only the STABLE bits move. -/
theorem envEffect_oscCs {s : State} {p : Nat} (hl : p ≠ s.cfg.layout.lfiStable)
    (hh : p ≠ s.cfg.layout.hsStable) (e : EnvEvent) :
    getBit (envEffect e s).cpm.oscCs p = getBit s.cpm.oscCs p := by
  have hstable : ∀ k, p ≠ stablePos s.cfg.layout k := fun k => by cases k; exacts [hl, hh]
  cases e with
  | stabilise k => simp [envEffect, setStable, putBit_other (hstable k)]
  | disturb => simp [envEffect, setStable, putBit_other (hstable .hsosc)]
  | oscStop k => simp [envEffect, setStable, putBit_other (hstable k)]
  | switchTakes => simp [envEffect, setSelStat]
  | globalDone c v => simp [envEffect, globalComplete]
  | rangeDone c => simp [envEffect, rangeComplete]
  | fill c w a => simp [envEffect, fillLine]

/-- Of SYS_CLK only SEL_STAT moves. -/
theorem envEffect_sysClk {s : State} {p : Nat} (hp : p ≠ s.cfg.layout.selStat) (e : EnvEvent) :
    getBit (envEffect e s).cpm.sysClk p = getBit s.cpm.sysClk p := by
  cases e with
  | switchTakes => simp [envEffect, setSelStat, putBit_other hp]
  | _ => simp [envEffect, setStable, globalComplete, rangeComplete, fillLine]

/-! ## The cache instances -/

/-- An instance keeps its registers but CMNT and CRSIZE, whatever rule fires. -/
theorem envEffect_cache_word {q : CacheReg} (hm : q ≠ .cmnt) (hr : q ≠ .crsize) (e : EnvEvent) (s : State)
    (c : CacheId) : ((envEffect e s).cache c).word q = (s.cache c).word q := by
  cases e with
  | globalDone d v =>
    by_cases hd : c = d
    · subst hd; cases q <;> simp [envEffect, globalComplete, Cache.word] at hm ⊢
    · simp [envEffect, globalComplete, hd]
  | rangeDone d =>
    by_cases hd : c = d
    · subst hd; cases q <;> simp [envEffect, rangeComplete, Cache.word] at hr ⊢
    · simp [envEffect, rangeComplete, hd]
  | fill d w a =>
    by_cases hd : c = d
    · subst hd; simp [envEffect, fillLine]
    · simp [envEffect, fillLine, hd]
  | _ => simp [envEffect, setStable, setSelStat]

/-- The way mask has no bit but the ways' (R46). -/
theorem getBit_wayMask_of_not_mem {L : Layout} {p : Nat} (h : p ∉ L.invW) : getBit (wayMask L) p = false := by
  refine (getBit_foldr_or id L.invW p).trans (List.any_eq_false.mpr fun q hq => ?_)
  have hne : q ≠ p := fun he => h (he ▸ hq)
  simpa using getBit_bit_ne hne

/-- Of CMNT only GO and the way bits move. -/
theorem envEffect_cmnt {s : State} {p : Nat} (hgo : p ≠ s.cfg.layout.go) (hway : p ∉ s.cfg.layout.invW)
    (e : EnvEvent) (c : CacheId) :
    getBit ((envEffect e s).cache c).cmnt p = getBit (s.cache c).cmnt p := by
  cases e with
  | globalDone d v =>
    by_cases hd : c = d
    · subst hd
      rw [envEffect, globalComplete_cmnt, getBit_merge, getBit_wayMask_of_not_mem hway, if_neg (by simp),
        putBit_other hgo]
    · simp [envEffect, globalComplete, hd]
  | rangeDone d =>
    by_cases hd : c = d
    · subst hd; simp [envEffect, rangeComplete]
    · simp [envEffect, rangeComplete, hd]
  | fill d w a =>
    by_cases hd : c = d
    · subst hd; simp [envEffect, fillLine, Cache.setLines]
    · simp [envEffect, fillLine, hd]
  | _ => simp [envEffect, setStable, setSelStat]

/-- Of CRSIZE only STRT moves. -/
theorem envEffect_crsize {s : State} {p : Nat} (hp : p ≠ s.cfg.layout.strt) (e : EnvEvent) (c : CacheId) :
    getBit ((envEffect e s).cache c).crsize p = getBit (s.cache c).crsize p := by
  cases e with
  | globalDone d v =>
    by_cases hd : c = d
    · subst hd; simp [envEffect, globalComplete]
    · simp [envEffect, globalComplete, hd]
  | rangeDone d =>
    by_cases hd : c = d
    · subst hd; rw [envEffect, rangeComplete_crsize, putBit_other hp]
    · simp [envEffect, rangeComplete, hd]
  | fill d w a =>
    by_cases hd : c = d
    · subst hd; simp [envEffect, fillLine, Cache.setLines]
    · simp [envEffect, fillLine, hd]
  | _ => simp [envEffect, setStable, setSelStat]

/-- Settles O56: each field of a step is that of the rule's effect, or the old one where no rule fires. -/
theorem envChangesOnlyItsFields : Obligations.EnvChangesOnlyItsFields := by
  intro e s
  refine ⟨⟨by simp, by simp, by simp⟩, by simp, by simp, by simp, by simp, ?_, fun p hl hh => ?_,
    fun p hp => ?_, fun c => ⟨fun q hm hr => ?_, fun p hgo hway => ?_, fun p hp => ?_⟩⟩
  · exact envStep_induction (P := fun t => t.cpm = { s.cpm with oscCs := t.cpm.oscCs, sysClk := t.cpm.sysClk })
      rfl (envEffect_cpm e s)
  · exact envStep_induction (P := fun t => getBit t.cpm.oscCs p = getBit s.cpm.oscCs p) rfl
      (envEffect_oscCs hl hh e)
  · exact envStep_induction (P := fun t => getBit t.cpm.sysClk p = getBit s.cpm.sysClk p) rfl
      (envEffect_sysClk hp e)
  · exact envStep_induction (P := fun t => (t.cache c).word q = (s.cache c).word q) rfl
      (by simpa using envEffect_cache_word hm hr e s c)
  · exact envStep_induction (P := fun t => getBit (t.cache c).cmnt p = getBit (s.cache c).cmnt p) rfl
      (by simpa using envEffect_cmnt hgo hway e c)
  · exact envStep_induction (P := fun t => getBit (t.cache c).crsize p = getBit (s.cache c).crsize p) rfl
      (by simpa using envEffect_crsize hp e c)

/-! ## The clock rules (R316 to R319) -/

/-- What `STABLE[k] <- b` does to OSC_CS, and that it does nothing else (R37). -/
theorem setStable_effect {s : State} (h : configWf s.cfg = true) (k : Source) (b : Bool) :
    (setStable k b s).oscStable k = b ∧
      (∀ p, p ≠ stablePos s.cfg.layout k → getBit (setStable k b s).cpm.oscCs p = getBit s.cpm.oscCs p) ∧
      (setStable k b s).cpm = { s.cpm with oscCs := (setStable k b s).cpm.oscCs } :=
  ⟨putBit_self (stablePos_lt h k), fun _ hp => putBit_other hp, rfl⟩

/-- What `SEL_STAT <- k` does to SYS_CLK, and that it does nothing else (R38). -/
theorem setSelStat_effect {s : State} (h : configWf s.cfg = true) (k : Source) :
    (setSelStat k s).selStat = k ∧
      (∀ p, p ≠ s.cfg.layout.selStat → getBit (setSelStat k s).cpm.sysClk p = getBit s.cpm.sysClk p) ∧
      (setSelStat k s).cpm = { s.cpm with sysClk := (setSelStat k s).cpm.sysClk } := by
  refine ⟨?_, fun _ hp => putBit_other hp, rfl⟩
  have hbit : getBit (setSelStat k s).cpm.sysClk s.cfg.layout.selStat = sourceBit k :=
    putBit_self (sys_positions h).2.1
  exact (congrArg sourceOfBit hbit).trans (sourceOfBit_sourceBit k)

/-- Settles O57: each rule is on exactly when its condition holds; its effect is one field's update and the
entry of TRACE. -/
theorem envClockRules : Obligations.EnvClockRules := by
  intro s h
  refine ⟨?_, ?_, ?_, ?_⟩
  · rintro k _ rfl
    refine ⟨fun hon => ?_, fun hoff => envStep_off ?_⟩
    · rw [envStep_on (by simp [envEnabled, hon])]
      obtain ⟨hstable, hrest, hcpm⟩ := setStable_effect h k true
      exact ⟨hstable, hrest, hcpm, rfl, ⟨rfl, rfl⟩, rfl⟩
    · simpa [envEnabled] using hoff
  · rintro _ rfl
    refine ⟨fun hon => ?_, fun hoff => envStep_off hoff⟩
    rw [envStep_on (e := .disturb) hon]
    obtain ⟨hstable, hrest, hcpm⟩ := setStable_effect h .hsosc false
    exact ⟨hstable, rfl, hrest, hcpm, ⟨rfl, rfl⟩, rfl⟩
  · rintro k _ rfl
    refine ⟨fun hon => ?_, fun hoff => envStep_off ?_⟩
    · rw [envStep_on (by simp [envEnabled, hon])]
      obtain ⟨hstable, hrest, hcpm⟩ := setStable_effect h k false
      exact ⟨hstable, hrest, hcpm, rfl, ⟨rfl, rfl⟩, rfl⟩
    · simpa [envEnabled] using hoff
  · rintro _ rfl
    refine ⟨fun hon => ?_, fun hoff => envStep_off ?_⟩
    · rw [envStep_on (by simp [envEnabled, hon])]
      obtain ⟨hstat, hrest, hcpm⟩ := setSelStat_effect h s.sel
      exact ⟨hstat, hrest, hcpm, rfl, ⟨rfl, rfl⟩, rfl⟩
    · simpa [envEnabled] using hoff

end Sys2Proof.Machine
end

section
/-! SUPPORT. Resident lines: no access and no command moves one, and of the ENV rules only a fill adds one
(10_state.md R53, 70_reset_and_hazards.md R323). -/

namespace Sys2Proof.Machine

/-- No register write moves a resident line, one of CMDIF included (R53). -/
theorem writeReg_residents (r : Reg) (v : Word) (s : State) (c : CacheId) :
    ((writeReg r v s).cache c).lines = (s.cache c).lines := by
  rcases r with q | q | ⟨d, q⟩
  · obtain ⟨x, e, d, k, h⟩ := writeReg_cmdif_fields q v s
    simp [h]
  · simpa using residents_accessed (.write v (.write .host (.cpm q) v) rfl) (by simp) c
  · simpa using residents_accessed (.write v (.write .host (.cache d q) v) rfl) (by simp) c

theorem hostStep_residents {a : HostAccess} {s t : State} (h : hostStep a s = .next t) (c : CacheId) :
    (t.cache c).lines = (s.cache c).lines := by
  obtain ⟨b, r, _, _, ⟨_, _, _, rfl⟩ | ⟨_, _, v, _, _, rfl⟩⟩ := hostStep_shape h
  · simp [hostRead]
  · simpa [hostWrite] using writeReg_residents r v s c

theorem engineStep_residents {s t : State} (h : engineStep s = .next t) (c : CacheId) :
    (t.cache c).lines = (s.cache c).lines := by
  rcases engineStep_shape h with ⟨_, rfl⟩ | ⟨pos, loc, i, _, _, hx⟩ | ⟨loc, e, _, _, rfl⟩
  · rfl
  · exact exec_residents hx c
  · cases c <;> rfl

theorem popEvent_cache (s : State) (c : CacheId) : (popEvent s).cache c = s.cache c := by
  obtain ⟨a, d, h⟩ := popEvent_eq s
  rw [h]; cases c <;> rfl

/-- A fill adds at most its own line to its own way (R323). -/
theorem mem_lines_fillLine {c d : CacheId} {w w' : Nat} {a b : Word} {s : State}
    (h : b ∈ (fillLine c w a s).lines d w') : b ∈ s.lines d w' ∨ (d = c ∧ w' = w ∧ b = a) := by
  by_cases hw : w < (s.cache c).lines.length
  · rw [lines_fillLine hw] at h
    split at h
    · next heq =>
      obtain ⟨rfl, rfl⟩ := heq
      rcases mem_insertLine.mp h with rfl | h
      · exact .inr ⟨rfl, rfl, rfl⟩
      · exact .inl h
    · exact .inl h
  · left
    have hset : (s.cache c).setLines w (insertLine a (s.lines c w)) = s.cache c := by
      rw [Cache.setLines, List.set_eq_of_length_le (Nat.le_of_not_lt hw)]
    rw [fillLine, hset, lines_set] at h
    split at h
    · next heq => subst heq; exact h
    · exact h

/-- Every line an ENV rule leaves was there before, but the line of a fill. -/
theorem mem_lines_envEffect {e : EnvEvent} {d : CacheId} {w : Nat} {b : Word} {s : State}
    (h : b ∈ (envEffect e s).lines d w) : b ∈ s.lines d w ∨ e = .fill d w b := by
  cases e with
  | globalDone c v =>
    rw [envEffect, lines_globalComplete] at h
    split at h
    · simp at h
    · exact .inl h
  | rangeDone c =>
    rw [envEffect, lines_rangeComplete] at h
    split at h
    · next heq => subst heq; exact .inl (List.mem_filter.mp h).1
    · exact .inl h
  | fill c w' a =>
    rcases mem_lines_fillLine h with h | ⟨rfl, rfl, rfl⟩
    · exact .inl h
    · exact .inr rfl
  | _ => rw [lines_congr (s := s) (by simp [envEffect, setStable, setSelStat])] at h; exact .inl h

/-- An ENV step that adds a line is the enabled fill of that line. -/
theorem fill_of_mem_lines_envStep {e : EnvEvent} {d : CacheId} {w : Nat} {b : Word} {s : State}
    (h : b ∈ (envStep e s).lines d w) (hno : b ∉ s.lines d w) :
    e = .fill d w b ∧ envEnabled (.fill d w b) s = true := by
  cases he : envEnabled e s with
  | false => rw [envStep_off he] at h; exact absurd h hno
  | true =>
    rw [envStep_on he, lines_congr (s := envEffect e s) (by simp)] at h
    rcases mem_lines_envEffect h with h | rfl
    · exact absurd h hno
    · exact ⟨rfl, he⟩

theorem fill_enabled_iff {c : CacheId} {w : Nat} {a : Word} {s : State} :
    envEnabled (.fill c w a) s = true ↔ s.cacheEn c = true ∧ w < s.cfg.nways ∧ a.toNat % s.cfg.line = 0 := by
  simp [envEnabled, lineAligned, and_assoc]

/-- Everything an enabled fill does (R323). -/
theorem fillLine_effect {s : State} (hres : residencyOk s) (c : CacheId) {w : Nat} (hw : w < s.cfg.nways)
    (a : Word) :
    (∀ b, b ∈ (fillLine c w a s).lines c w ↔ b = a ∨ b ∈ s.lines c w) ∧
      (∀ w', w' ≠ w → (fillLine c w a s).lines c w' = s.lines c w') ∧
      (fillLine c w a s).cache c = { s.cache c with lines := ((fillLine c w a s).cache c).lines } ∧
      (fillLine c w a s).cache (otherCache c) = s.cache (otherCache c) := by
  have hlen : w < (s.cache c).lines.length := by rw [hres.1 c]; exact hw
  refine ⟨fun b => ?_, fun w' hne => ?_, ?_, ?_⟩
  · rw [lines_fillLine hlen, if_pos ⟨rfl, rfl⟩]
    exact mem_insertLine
  · rw [lines_fillLine hlen, if_neg (fun h => hne h.2)]
  · simp [fillLine, Cache.setLines]
  · cases c <;> rfl

/-- Settles O59: a line that is new was put there by the one rule that adds lines, while it was enabled; and
what an enabled fill does is read off its effect. -/
theorem linesAppearOnlyByFills : Obligations.LinesAppearOnlyByFills := by
  refine ⟨fun s t c w a hstep hin hnot => ?_, fun s c w a hres hen hw ha => ?_⟩
  · obtain ⟨_, hp⟩ := step_shape hstep
    have hpop : (popEvent s).lines c w = s.lines c w := by rw [State.lines, State.lines, popEvent_cache]
    rw [← hpop] at hnot
    have hkept : (t.cache c).lines ≠ ((popEvent s).cache c).lines := fun h =>
      hnot (lines_congr h w ▸ hin)
    cases he : nextEvent s with
    | engine => rw [he] at hp; exact absurd (engineStep_residents hp c) hkept
    | host b => rw [he] at hp; exact absurd (hostStep_residents hp c) hkept
    | env e =>
      rw [he] at hp
      cases hp
      obtain ⟨rfl, hon⟩ := fill_of_mem_lines_envStep hin hnot
      obtain ⟨hen, hw, ha⟩ := fill_enabled_iff.mp hon
      rw [popEvent_cfg] at hw ha
      exact ⟨rfl, by simpa [State.cacheEn, popEvent_cache] using hen, hw, ha⟩
  · have hon : envEnabled (.fill c w a) s = true := fill_enabled_iff.mpr ⟨hen, hw, ha⟩
    obtain ⟨hmem, hways, hself, hother⟩ := fillLine_effect hres c hw a
    have hstep : envStep (.fill c w a) s = (fillLine c w a s).log (.env (.fill c w a)) := envStep_on hon
    refine ⟨_, rfl, ?_⟩
    have hres' := env_resid (e := .fill c w a) hres
    rw [hstep] at hres' ⊢
    refine ⟨?_, fun w' hne => ?_, hres', by simpa using hself, by simpa using hother, by simp [fillLine],
      by simp [fillLine], by simp [fillLine], by simp [fillLine], by simp [fillLine], by simp [fillLine],
      by simp [fillLine], by simp [fillLine], by simp [fillLine], by simp [fillLine]⟩
    · rw [lines_congr (s := fillLine c w a s) (by simp)]
      exact hmem
    · rw [lines_congr (s := fillLine c w a s) (by simp)]
      exact hways w' hne

end Sys2Proof.Machine
end

section
/-! SUPPORT. The eager schedule of the test vectors (70_reset_and_hazards.md R324): each of its rules is off once
it has had its turn, and no later rule turns it on again. -/

namespace Sys2Proof.Machine

/-! ## A rule is off after its turn -/

theorem envEnabled_log (e : EnvEvent) (s : State) (x : TraceEntry) :
    envEnabled e (s.log x) = envEnabled e s := by
  cases e <;> rfl

/-- A rule whose effect turns it off is off after its step. -/
theorem envStep_disabled {e : EnvEvent} {s : State} (h : envEnabled e (envEffect e s) = false) :
    envEnabled e (envStep e s) = false := by
  cases he : envEnabled e s
  · rwa [envStep_off he]
  · rwa [envStep_on he, envEnabled_log]

theorem stabilise_disabled {s : State} (h : configWf s.cfg = true) (k : Source) :
    envEnabled (.stabilise k) (envStep (.stabilise k) s) = false :=
  envStep_disabled (by simp [envEnabled, envEffect, (setStable_effect h k true).1])

theorem switchTakes_disabled {s : State} (h : configWf s.cfg = true) :
    envEnabled .switchTakes (envStep .switchTakes s) = false := by
  apply envStep_disabled
  have hsel : (setSelStat s.sel s).sel = s.sel := envEffect_sel h .switchTakes
  have hstat : (setSelStat s.sel s).selStat = s.sel := (setSelStat_effect h s.sel).1
  simp [envEnabled, envEffect, hsel, hstat]

theorem globalDone_disabled {s : State} (h : configWf s.cfg = true) (c : CacheId) (v : Word) :
    (envStep (.globalDone c v) s).go c = false :=
  envStep_disabled (e := .globalDone c v) (globalComplete_go h c v)

theorem rangeDone_disabled {s : State} (h : configWf s.cfg = true) (c : CacheId) :
    (envStep (.rangeDone c) s).strt c = false :=
  envStep_disabled (e := .rangeDone c) (rangeComplete_strt h c)

/-! ## What the later rules leave alone -/

/-- A switch that takes effect leaves the oscillators alone. -/
theorem switchTakes_oscCs (s : State) : (envStep .switchTakes s).cpm.oscCs = s.cpm.oscCs :=
  envStep_induction (P := fun t => t.cpm.oscCs = s.cpm.oscCs) rfl rfl

theorem stabilise_enabled_congr {s t : State} (hcfg : t.cfg = s.cfg) (hosc : t.cpm.oscCs = s.cpm.oscCs)
    (k : Source) : envEnabled (.stabilise k) t = envEnabled (.stabilise k) s := by
  simp [envEnabled, State.oscEn, State.oscStable, hcfg, hosc]

theorem switchTakes_enabled_iff {s : State} :
    envEnabled .switchTakes s = true ↔ s.selStat ≠ s.sel ∧ s.oscStable s.sel = true := by
  simp [envEnabled]

theorem switchTakes_enabled_congr {s t : State} (hcfg : t.cfg = s.cfg) (hcpm : t.cpm = s.cpm) :
    envEnabled .switchTakes t = envEnabled .switchTakes s := by
  rw [Bool.eq_iff_iff, switchTakes_enabled_iff, switchTakes_enabled_iff]
  simp only [State.selStat, State.sel, State.oscStable, hcfg, hcpm]

/-- One oscillator's rule leaves the other's as it is. -/
theorem stabilise_other {s : State} (h : configWf s.cfg = true) :
    envEnabled (.stabilise .lfi) (envStep (.stabilise .hsosc) s) = envEnabled (.stabilise .lfi) s := by
  obtain ⟨_, _, _, hen, _, _, hstable⟩ := osc_positions h
  refine envStep_induction (P := fun t => envEnabled (.stabilise .lfi) t = envEnabled (.stabilise .lfi) s) rfl ?_
  rw [envEnabled_log]
  simp [envEnabled, envEffect, setStable, State.oscEn, State.oscStable, stablePos, enPos, putBit_other hen,
    putBit_other hstable]

/-- Maintenance completion touches caches alone. -/
theorem eagerMaint_cpm (c : CacheId) (s : State) : (eagerMaint c s).cpm = s.cpm := by
  have hg : ∀ v t, (envStep (.globalDone c v) t).cpm = t.cpm := fun v t =>
    envStep_induction (P := fun u => u.cpm = t.cpm) rfl (by simp [envEffect, globalComplete])
  have hr : ∀ t, (envStep (.rangeDone c) t).cpm = t.cpm := fun t =>
    envStep_induction (P := fun u => u.cpm = t.cpm) rfl (by simp [envEffect, rangeComplete])
  rw [eagerMaint, hr, hg]

@[simp] theorem eagerMaint_cfg (c : CacheId) (s : State) : (eagerMaint c s).cfg = s.cfg := by simp [eagerMaint]

theorem eagerMaint_cache_ne {c d : CacheId} (h : d ≠ c) (s : State) :
    (eagerMaint c s).cache d = s.cache d := by
  have hg : ∀ v t, (envStep (.globalDone c v) t).cache d = t.cache d := fun v t =>
    envStep_induction (P := fun u => u.cache d = t.cache d) rfl (by simp [envEffect, globalComplete, h])
  have hr : ∀ t, (envStep (.rangeDone c) t).cache d = t.cache d := fun t =>
    envStep_induction (P := fun u => u.cache d = t.cache d) rfl (by simp [envEffect, rangeComplete, h])
  rw [eagerMaint, hr, hg]

/-- A range completion leaves GO alone, so neither rule of the pair is left on. -/
theorem eagerMaint_quiet {s : State} (h : configWf s.cfg = true) (c : CacheId) :
    (eagerMaint c s).go c = false ∧ (eagerMaint c s).strt c = false := by
  have hgo : ∀ t, (envStep (.rangeDone c) t).go c = t.go c := fun t =>
    envStep_induction (P := fun u => u.go c = t.go c) rfl
      ((go_congr rfl (by simp)).trans (rangeComplete_go c t))
  refine ⟨?_, rangeDone_disabled (by simpa using h) c⟩
  rw [eagerMaint, hgo]
  exact globalDone_disabled h c _

theorem eagerEnv_quiet {s : State} (h : configWf s.cfg = true) (c : CacheId) :
    (eagerEnv s).go c = false ∧ (eagerEnv s).strt c = false := by
  cases c with
  | dcache => exact eagerMaint_quiet (by simpa using h) .dcache
  | icache =>
    have hkeep := fun t => eagerMaint_cache_ne (c := .dcache) (d := .icache) (by decide) t
    rw [eagerEnv, go_congr (eagerMaint_cfg _ _) (congrArg Cache.cmnt (hkeep _)),
      strt_congr (eagerMaint_cfg _ _) (congrArg Cache.crsize (hkeep _))]
    exact eagerMaint_quiet (by simpa using h) .icache

/-- Settles O60: in the order of the schedule each rule is turned off, and what follows leaves it off. -/
theorem eagerScheduleReachesFixpoint : Obligations.EagerScheduleReachesFixpoint := by
  intro s h
  have hcfg : ∀ t, (eagerMaint .dcache (eagerMaint .icache t)).cfg = t.cfg := by simp
  have hcpm : ∀ t, (eagerMaint .dcache (eagerMaint .icache t)).cpm = t.cpm := fun t => by
    rw [eagerMaint_cpm, eagerMaint_cpm]
  refine ⟨fun k => ?_, ?_, fun c v => eagerEnv_quiet h c⟩
  · rw [eagerEnv, stabilise_enabled_congr (hcfg _) (by rw [hcpm]),
      stabilise_enabled_congr (envStep_cfg _ _) (switchTakes_oscCs _)]
    cases k with
    | hsosc => exact stabilise_disabled (by simpa using h) .hsosc
    | lfi =>
      rw [stabilise_other (by simpa using h)]
      exact stabilise_disabled h .lfi
  · rw [eagerEnv, switchTakes_enabled_congr (hcfg _) (hcpm _)]
    exact switchTakes_disabled (by simpa using h)

end Sys2Proof.Machine
end

section
/-! SUPPORT. The invariants of a run (RunInv): reset states have them and every move of every agent keeps them, so
every reachable state has them; and with them no engine move is refused (10_state.md R24, R26, R31, R52, R53,
60_exceptions.md R276, R278, R290). -/

namespace Sys2Proof.Machine

/-! ## Every position of a command has a step (R31) -/

/-- An engine step adds at most one entry to TRACE (R58, R135). -/
theorem exec_trace {i : Instr} {s t : State} (h : exec i s = .next t) :
    t.trace = s.trace ∨ ∃ e, t.trace = e :: s.trace := by
  rcases exec_shape h with ⟨_, _, _, _, r, u, y, _, _, hu, _, _, rfl⟩ | ⟨_, _, _, _, a, y, _, _, _, _, rfl⟩ |
    ⟨_, _, _, y, _, _, _, rfl⟩
  · right
    rcases hu with rfl | ⟨v, e, rfl⟩ | ⟨v, e, rfl⟩
    · exact ⟨_, by simp [regRead]; rfl⟩
    · exact ⟨e, by simp⟩
    · exact ⟨e, by simp⟩
  · exact .inr ⟨_, rfl⟩
  · exact .inl rfl

theorem execClksw_complete {src : BitVec 4} {s : State} {pos : Pos} {loc : Locals}
    (hs : s.engine = .run pos loc) (hl : legalPos s.cfg (.clksw src) loc.a0 pos = true) :
    ∃ t, execClksw src s = .next t := by
  cases hk : sourceOfCode? src with
  | none =>
    obtain rfl : pos = .start := by simpa [legalPos, hk] using hl
    exact ⟨_, by simp only [execClksw, hs, hk]; rfl⟩
  | some k =>
    simp only [execClksw, hs, hk]
    cases pos <;> first | exact ⟨_, rfl⟩ | simp [legalPos, hk, switchPos] at hl

theorem execTrim_complete {tg : BitVec 4} {s : State} {pos : Pos} {loc : Locals}
    (hs : s.engine = .run pos loc) (hl : legalPos s.cfg (.trim tg) loc.a0 pos = true) :
    ∃ t, execTrim tg s = .next t := by
  cases hk : targetOfCode? tg with
  | none =>
    obtain rfl : pos = .start := by simpa [legalPos, hk] using hl
    exact ⟨_, by simp only [execTrim, hs, hk]; rfl⟩
  | some k =>
    simp only [execTrim, hs, hk]
    cases k <;> cases pos <;>
      first | exact ⟨_, rfl⟩ | simp [legalPos, hk, switchPos, unlockPos, otpPos] at hl

theorem execIpsdiv_complete {s : State} {pos : Pos} {loc : Locals} (hs : s.engine = .run pos loc)
    (hl : legalPos s.cfg .ipsdiv loc.a0 pos = true) : ∃ t, execIpsdiv s = .next t := by
  simp only [legalPos, decide_eq_true_eq, List.mem_cons, List.not_mem_nil, or_false] at hl
  rcases hl with rfl | rfl | rfl | rfl <;> simp only [execIpsdiv, hs]
  · split <;> exact ⟨_, rfl⟩
  all_goals exact ⟨_, rfl⟩

theorem execGetfreq_complete {s : State} {pos : Pos} {loc : Locals} (hs : s.engine = .run pos loc)
    (hl : legalPos s.cfg .getfreq loc.a0 pos = true) : ∃ t, execGetfreq s = .next t := by
  simp only [legalPos, decide_eq_true_eq, List.mem_cons, List.not_mem_nil, or_false] at hl
  rcases hl with rfl | rfl | rfl <;> exact ⟨_, by simp only [execGetfreq, hs]; rfl⟩

theorem execCen_complete {c : CacheId} {en : Bool} {s : State} {pos : Pos} {loc : Locals}
    (hs : s.engine = .run pos loc) (hl : legalPos s.cfg (.cen c en) loc.a0 pos = true) :
    ∃ t, execCen c en s = .next t := by
  simp only [legalPos, decide_eq_true_eq, List.mem_cons, List.not_mem_nil, or_false] at hl
  rcases hl with rfl | rfl <;> exact ⟨_, by simp only [execCen, hs]; rfl⟩

theorem execCrgn_complete {c : CacheId} {rc : BitVec 4} {pc : BitVec 2} {s : State} {pos : Pos} {loc : Locals}
    (hs : s.engine = .run pos loc) (hl : legalPos s.cfg (.crgn c rc pc) loc.a0 pos = true) :
    ∃ t, execCrgn c rc pc s = .next t := by
  by_cases hp : pos = .start
  · subst hp
    cases hr : regionOfCode? rc <;> cases hq : policyOfCode? pc <;>
      exact ⟨_, by simp only [execCrgn, hs, hr, hq]; rfl⟩
  · simp only [legalPos, hp, decide_false, Bool.false_or, Bool.and_eq_true, Option.isSome_iff_exists] at hl
    obtain ⟨⟨⟨r, hr⟩, p, hq⟩, hl⟩ := hl
    simp only [hr, Option.map_some, Option.some.injEq, Bool.or_eq_true, decide_eq_true_eq] at hl
    rcases hl with rfl | rfl
    · exact ⟨_, by simp only [execCrgn, hs, hr, hq]; rfl⟩
    · exact ⟨_, by simp only [execCrgn, hs, hr, hq, if_true]; rfl⟩

/-- A region of a valid policy set has a policy (R229). -/
theorem exists_setPolicy {ps : Word} (h : validSet ps = true) (r : Region) : ∃ p, setPolicy? ps r = some p := by
  have := ((validSet_iff ps).mp h).2 r
  exact Option.isSome_iff_exists.mp ((policyOfCode?_isSome_iff _).mpr this)

theorem execCrgnall_complete {c : CacheId} {s : State} {pos : Pos} {loc : Locals}
    (hs : s.engine = .run pos loc) (hl : legalPos s.cfg (.crgnall c) loc.a0 pos = true) :
    ∃ t, execCrgnall c s = .next t := by
  by_cases hp : pos = .start
  · subst hp
    simp only [execCrgnall, hs]
    split <;> exact ⟨_, rfl⟩
  · simp only [legalPos, hp, decide_false, Bool.false_or, Bool.and_eq_true] at hl
    obtain ⟨hset, hl⟩ := hl
    simp only [execCrgnall, hs]
    cases pos with
    | setWrite r =>
      obtain ⟨p, hr⟩ := exists_setPolicy hset r
      exact ⟨_, by simp only [hr]; rfl⟩
    | setRead r => exact ⟨_, rfl⟩
    | finishing st => exact ⟨_, rfl⟩
    | _ => simp [setAllPos] at hl hp

theorem execCinv_complete {c : CacheId} {s : State} {pos : Pos} {loc : Locals}
    (hs : s.engine = .run pos loc) (hl : legalPos s.cfg (.cinv c) loc.a0 pos = true) :
    ∃ t, execCinv c s = .next t := by
  simp only [legalPos, decide_eq_true_eq, List.mem_cons, List.not_mem_nil, or_false] at hl
  rcases hl with rfl | rfl | rfl <;> exact ⟨_, by simp only [execCinv, hs]; rfl⟩

theorem execCinvr_complete {c : CacheId} {s : State} {pos : Pos} {loc : Locals}
    (hs : s.engine = .run pos loc) (hl : legalPos s.cfg (.cinvr c) loc.a0 pos = true) :
    ∃ t, execCinvr c s = .next t := by
  simp only [legalPos, decide_eq_true_eq, List.mem_cons, List.not_mem_nil, or_false] at hl
  rcases hl with rfl | rfl | rfl | rfl | rfl | rfl <;> exact ⟨_, by simp only [execCinvr, hs]; rfl⟩

theorem execCinit_complete {c : CacheId} {s : State} {pos : Pos} {loc : Locals}
    (hs : s.engine = .run pos loc) (hl : legalPos s.cfg (.cinit c) loc.a0 pos = true) :
    ∃ t, execCinit c s = .next t := by
  by_cases hp : pos = .start
  · subst hp
    simp only [execCinit, hs]
    split <;> exact ⟨_, rfl⟩
  · simp only [legalPos, hp, decide_false, Bool.false_or, Bool.and_eq_true] at hl
    obtain ⟨hset, hl⟩ := hl
    simp only [execCinit, hs]
    cases pos with
    | setWrite r =>
      obtain ⟨p, hr⟩ := exists_setPolicy hset r
      exact ⟨_, by simp only [hr]; rfl⟩
    | setRead r => exact ⟨_, rfl⟩
    | invStart => exact ⟨_, rfl⟩
    | invPoll => exact ⟨_, rfl⟩
    | cacheEnable => exact ⟨_, rfl⟩
    | finishing st => exact ⟨_, rfl⟩
    | _ => simp [setAllPos] at hl hp

/-- At each of its positions every command takes its step (R31, R278). -/
theorem exec_complete {i : Instr} {s : State} {pos : Pos} {loc : Locals} (hs : s.engine = .run pos loc)
    (hl : legalPos s.cfg i loc.a0 pos = true) : ∃ t, exec i s = .next t := by
  cases i with
  | clksw src => exact execClksw_complete hs hl
  | trim tg => exact execTrim_complete hs hl
  | ipsdiv => exact execIpsdiv_complete hs hl
  | getfreq => exact execGetfreq_complete hs hl
  | cen c en => exact execCen_complete hs hl
  | crgn c r p => exact execCrgn_complete hs hl
  | crgnall c => exact execCrgnall_complete hs hl
  | cinv c => exact execCinv_complete hs hl
  | cinvr c => exact execCinvr_complete hs hl
  | cinit c => exact execCinit_complete hs hl

/-- Settles O8: the step exists, and its shape bounds the trace. -/
theorem legalPositionsComplete : Obligations.LegalPositionsComplete := by
  intro i pos loc s hs hl
  obtain ⟨t, ht⟩ := exec_complete hs hl
  exact ⟨t, ht, exec_trace ht⟩

/-! ## The invariants of an idle state, and of a reset state -/

/-- With the engine idle the invariants about the running command are void. -/
theorem runInv_of_idle {s : State} (hconf : configWf s.cfg = true) (hotp : memoryWf s.otp = true)
    (hidle : s.engine = .idle) (hbusy : s.cmdif.busy = false) (hres : resOk s) (hregs : regsOk s)
    (hlines : residencyOk s) : RunInv s where
  config := hconf
  otp := hotp
  busy := by simp [busyOk, hidle, hbusy]
  latched := by simp [latchedOk, hidle]
  pos := by simp [posOk, Runs, hidle]
  res := hres
  regs := hregs
  flight := by simp [flightOk, hidle]
  residency := hlines

theorem lineSet_wf (cfg : Config) (ls : List Word) : linesWf cfg (lineSet cfg ls) = true := by
  have hall : ∀ a ∈ ls.filter (lineAligned cfg), lineAligned cfg a = true := fun a ha =>
    (List.mem_filter.mp ha).2
  unfold lineSet
  generalize ls.filter (lineAligned cfg) = aligned at hall
  induction aligned with
  | nil => rfl
  | cons a rest ih =>
    exact insertLine_wf (ih fun b hb => hall b (List.mem_cons_of_mem _ hb)) (hall a List.mem_cons_self)

/-- A drawn instance keeps its reserved bits 0 (R52, R61). -/
theorem cacheDrawn_within (cfg : Config) (d : CacheDraw) (q : CacheReg) :
    Within ((cacheDrawn cfg d).word q) (cacheImpl cfg q) := by
  have hdraw : ∀ v, Within (v &&& cacheRw cfg q) (cacheImpl cfg q) := fun v =>
    within_trans (within_and_right _ _) (cacheRw_within cfg q)
  cases q <;> exact hdraw _

/-- Drawn CPM registers keep their reserved bits 0 (R52, R60). -/
theorem cpmDrawn_within (cfg : Config) (d : ResetDraw) (q : CpmReg) :
    Within ((cpmDrawn cfg d).word q) (cpmImpl cfg q) := by
  cases q <;> exact within_and_right _ _

/-- A drawn instance has a canonical set for each way (R53, R61). -/
theorem cacheDrawn_lines (cfg : Config) (d : CacheDraw) :
    (cacheDrawn cfg d).lines.length = cfg.nways ∧
      ∀ w, linesWf cfg ((cacheDrawn cfg d).lines.getD w []) = true := by
  refine ⟨by simp [cacheDrawn], fun w => ?_⟩
  by_cases hw : w < cfg.nways
  · simp [cacheDrawn, List.getD_eq_getElem?_getD, List.getElem?_range hw, lineSet_wf]
  · have : (List.range cfg.nways)[w]? = none := by simpa using Nat.le_of_not_lt hw
    simp [cacheDrawn, List.getD_eq_getElem?_getD, this, linesWf]

/-- Settles O19: nothing runs at reset, and the draws fill implemented bits and canonical sets. -/
theorem resetStatesSatisfyInvariants : Obligations.ResetStatesSatisfyInvariants := by
  intro cfg otp d agenda hc ho
  refine runInv_of_idle hc ho rfl rfl (by simp [resOk, resetWith, Cmdif.reset]) ?_ ?_
  · exact ⟨cpmDrawn_within cfg d, fun c q => by cases c <;> exact cacheDrawn_within cfg _ q⟩
  · refine ⟨fun c => ?_, fun c w => ?_⟩
    · cases c <;> exact (cacheDrawn_lines cfg _).1
    · cases c <;> exact (cacheDrawn_lines cfg _).2 w

/-! ## Moves of the engine -/

/-- The invariants speak of neither KEYSTATE, HS_DISTURB, TRACE nor the model's own fields. -/
theorem runInv_congr {s t : State} (hcfg : t.cfg = s.cfg) (hotp : t.otp = s.otp) (hcmdif : t.cmdif = s.cmdif)
    (heng : t.engine = s.engine) (hcpm : t.cpm = s.cpm) (hcache : sameCaches s t) (h : RunInv s) :
    RunInv t := by
  obtain ⟨hi, hd⟩ := hcache
  cases s
  cases t
  subst hcfg hotp hcmdif heng hcpm hi hd
  exact ⟨h.config, h.otp, h.busy, h.latched, h.pos, h.res, h.regs, h.flight, h.residency⟩

/-- What an access or an OTP read leaves of CMDIF: all but CSW_STATE. -/
theorem accessCmdif_fields {i : Instr} {x y : Cmdif} (h : accessCmdif i x y) :
    y.cmd = x.cmd ∧ y.arg0 = x.arg0 ∧ y.arg1 = x.arg1 ∧ y.busy = x.busy ∧ y.res = x.res := by
  rcases h with rfl | ⟨_, w, rfl⟩ <;> exact ⟨rfl, rfl, rfl, rfl, rfl⟩

theorem finishCmdif_res {i : Instr} {pos : Pos} {st : Status} {x y : Cmdif} (h : finishCmdif i pos st x y) :
    y.res = st := by
  rcases h with rfl | ⟨_, _, rfl⟩ | ⟨_, _, _, _, rfl⟩ | ⟨_, _, _, _, rfl⟩ <;> rfl

/-- No command's micro-sequence ends in `finish(BUSY)` (R290). -/
theorem legalPos_finishing_busy (cfg : Config) (i : Instr) (a0 : Word) :
    legalPos cfg i a0 (.finishing .busy) = false := by
  cases i <;> simp [legalPos, switchPos, unlockPos, otpPos, setAllPos]

/-- An engine step ends the command, or leaves BUSY, RES and the latched words of CMDIF as they were. -/
theorem exec_cmdif_cases {i : Instr} {s t : State} {pos : Pos} {loc : Locals} (hs : s.engine = .run pos loc)
    (hl : legalPos s.cfg i loc.a0 pos = true) (h : exec i s = .next t) :
    (t.engine = .idle ∧ t.cmdif.busy = false ∧ t.cmdif.res ≠ .busy) ∨
      (t.engine ≠ .idle ∧ accessCmdif i s.cmdif t.cmdif) := by
  rcases exec_shape h with ⟨_, _, _, _, r, u, y, _, _, _, _, hy, rfl⟩ | ⟨_, _, _, _, a, y, _, _, _, hy, rfl⟩ |
    ⟨_, _, st, y, hs', hst, hy, rfl⟩
  · exact .inr ⟨by simp, hy⟩
  · exact .inr ⟨by simp, hy⟩
  · refine .inl ⟨rfl, finishCmdif_busy hy, ?_⟩
    cases hs.symm.trans hs'
    simp only [State.setCmdif_cmdif, finishCmdif_res hy]
    rcases hst with rfl | rfl | rfl
    · simp
    · simp
    · rintro rfl
      rw [legalPos_finishing_busy] at hl
      cases hl

/-- With the invariants a go-bit is set only where the running command polls it. -/
theorem RunInv.flightBefore {s : State} (h : RunInv s) {i : Instr} {pos : Pos} {loc : Locals}
    (hr : Runs i pos loc s) : FlightBefore i pos s := by
  obtain ⟨hs, hd⟩ := hr
  intro c
  obtain ⟨hgo, hstrt⟩ := h.flight pos loc c hs
  refine ⟨fun hg => ?_, fun hg => ?_⟩
  · obtain ⟨j, hj, hw⟩ := hgo hg
    rw [hd] at hj
    cases hj
    exact hw
  · obtain ⟨j, hj, hw⟩ := hstrt hg
    rw [hd] at hj
    cases hj
    exact hw

theorem RunInv.legalPos {s : State} (h : RunInv s) {i : Instr} {pos : Pos} {loc : Locals}
    (hr : Runs i pos loc s) : legalPos s.cfg i loc.a0 pos = true := h.pos.1 i pos loc hr

/-- Every step of the running command keeps the invariants. -/
theorem exec_runInv {i : Instr} {pos : Pos} {loc : Locals} {s t : State} (h : RunInv s)
    (hr : Runs i pos loc s) (hx : exec i s = .next t) : RunInv t := by
  obtain ⟨hotp, hcfg⟩ := exec_sameParams hx
  have hlegal := h.legalPos hr
  have hconf : configWf t.cfg = true := hcfg ▸ h.config
  have hmem : memoryWf t.otp = true := hotp ▸ h.otp
  have hregs := exec_regs hx h.regs
  have hlines := resid_congr hcfg (exec_residents hx) h.residency
  rcases exec_cmdif_cases hr.1 hlegal hx with ⟨hidle, hbusy, hres⟩ | ⟨hrun, hy⟩
  · exact runInv_of_idle hconf hmem hidle hbusy hres hregs hlines
  · obtain ⟨hcmd, harg0, harg1, hbusy, hres⟩ := accessCmdif_fields hy
    obtain ⟨hlcmd, hla0, hla1⟩ := h.latched pos loc hr.1
    have hwasBusy : s.cmdif.busy = true := h.busy.mpr (by simp [hr.1])
    rcases exec_positions h.config hr.1 hlegal (h.flightBefore hr) hx with hidle |
      ⟨pos', loc', hs', ⟨hcmd', ha0', ha1'⟩, hlegal', hflight⟩
    · exact absurd hidle hrun
    · have hdec : decode loc'.cmd = .ok i := by rw [hcmd']; exact hr.2
      refine ⟨hconf, hmem, ?_, ?_, ⟨?_, ?_⟩, ?_, hregs, ?_, hlines⟩
      · simp [busyOk, hrun, hbusy, hwasBusy]
      · intro p l hpl
        cases hs'.symm.trans hpl
        exact ⟨by rw [hcmd', hlcmd, hcmd], by rw [ha0', hla0, harg0], by rw [ha1', hla1, harg1]⟩
      · rintro j p l ⟨hpl, hj⟩
        cases hs'.symm.trans hpl
        cases hdec.symm.trans hj
        rw [hcfg, ha0']
        exact hlegal'
      · intro e p l hpl he
        cases hs'.symm.trans hpl
        cases hdec.symm.trans he
      · simp only [resOk, hres]
        exact h.res
      · intro p l c hpl
        cases hs'.symm.trans hpl
        exact ⟨fun hg => ⟨i, hdec, (hflight c).1 hg⟩, fun hg => ⟨i, hdec, (hflight c).2 hg⟩⟩

theorem engineStep_runInv {s t : State} (h : RunInv s) (hx : engineStep s = .next t) : RunInv t := by
  rcases engineStep_shape hx with ⟨_, rfl⟩ | ⟨pos, loc, i, hs, hd, hx⟩ | ⟨loc, e, _, _, rfl⟩
  · exact h
  · exact exec_runInv h ⟨hs, hd⟩ hx
  · refine runInv_of_idle h.config h.otp rfl rfl (by simp [resOk, finish_eq]) ?_ ?_
    · exact regsOk_congr rfl rfl (fun c r => by cases c <;> rfl) h.regs
    · exact resid_congr rfl (fun c => by cases c <;> rfl) h.residency

/-! ## Moves of the host -/

theorem drawnBy_runInv {s : State} (h : RunInv s) (r : Reg) : RunInv (drawnBy r s) :=
  runInv_congr (by simp) (by simp) (by simp) (by simp) (by simp) ⟨by simp, by simp⟩ h

theorem log_runInv {s : State} (h : RunInv s) (x : TraceEntry) : RunInv (s.log x) :=
  runInv_congr (s := s) rfl rfl rfl rfl rfl ⟨rfl, rfl⟩ h

theorem setKey_runInv {s : State} (h : RunInv s) (k : KeyState) : RunInv (s.setKey k) :=
  runInv_congr (s := s) rfl rfl rfl rfl rfl ⟨rfl, rfl⟩ h

/-- While BUSY the only writes that raise no fault are those of read-only registers (R276). -/
theorem writeFault_none_busy {r : Reg} {s : State} (hb : s.cmdif.busy = true) (h : writeFault? r s = none) :
    ∃ q, r = .cmdif q ∧ cmdReadOnly q = true := by
  rcases r with q | q | ⟨c, q⟩
  · cases q <;> simp [writeFault?, hb] at h <;> exact ⟨_, rfl, rfl⟩
  · simp [writeFault?, hb] at h
  · simp [writeFault?, hb] at h

/-- A write of CMD that raises no fault finds no maintenance in flight (R276, item 4). -/
theorem writeFault_none_cmd {s : State} (h : writeFault? (.cmdif .cmd) s = none) :
    s.cmdif.busy = false ∧ Quiet s := by
  simp only [writeFault?] at h
  split at h
  · cases h
  · next hb =>
    split at h
    · cases h
    · next hf =>
      simp only [State.inFlight, Bool.or_eq_true, not_or, Bool.not_eq_true] at hf
      obtain ⟨⟨hgoI, hstrtI⟩, hgoD, hstrtD⟩ := hf
      exact ⟨by simpa using hb, fun c => by cases c; exacts [⟨hgoI, hstrtI⟩, ⟨hgoD, hstrtD⟩]⟩

theorem legalPos_start (cfg : Config) (i : Instr) (a0 : Word) : legalPos cfg i a0 .start = true := by
  cases i <;> simp [legalPos]

/-- The start of a command, with nothing in flight, has the invariants (R25). -/
theorem startCommand_runInv {s : State} (h : RunInv s) (hq : Quiet s) (w : Word) :
    RunInv (startCommand w s) where
  config := h.config
  otp := h.otp
  busy := by simp [busyOk, startCommand]
  latched := by
    intro pos loc hs
    cases hs
    exact ⟨rfl, rfl, rfl⟩
  pos := by
    refine ⟨?_, ?_⟩
    · rintro i pos loc ⟨hs, _⟩
      cases hs
      exact legalPos_start _ i _
    · intro e pos loc hs _
      cases hs
      rfl
  res := h.res
  regs := regsOk_congr rfl rfl (fun c r => by cases c <;> rfl) h.regs
  flight := by
    intro pos loc c _
    have hgo : (startCommand w s).go c = false := (go_congr rfl (by simp [startCommand])).trans (hq c).1
    have hstrt : (startCommand w s).strt c = false := (strt_congr rfl (by simp [startCommand])).trans (hq c).2
    simp [hgo, hstrt]
  residency := resid_congr rfl (fun c => by cases c <;> rfl) h.residency

/-- A write of ARG0 or ARG1 with no command running keeps the invariants (R24). -/
theorem writeArg_runInv {s : State} (h : RunInv s) (hidle : s.engine = .idle) (hb : s.cmdif.busy = false)
    {x : Cmdif} (hres : x.res = s.cmdif.res) (hbusy : x.busy = s.cmdif.busy) : RunInv (s.setCmdif x) := by
  refine runInv_of_idle h.config h.otp hidle (by simp [hbusy, hb]) ?_ ?_ ?_
  · simp only [resOk, State.setCmdif_cmdif, hres]
    exact h.res
  · exact regsOk_congr rfl rfl (fun c r => by cases c <;> rfl) h.regs
  · exact resid_congr rfl (fun c => by cases c <;> rfl) h.residency

/-- A write of a block register with no command running keeps the invariants. -/
theorem writeReg_block_runInv {r : Reg} {v : Word} {s : State} (h : RunInv s) (hidle : s.engine = .idle)
    (hb : s.cmdif.busy = false) (hr : ∀ q, r ≠ .cmdif q) : RunInv (writeReg r v s) := by
  obtain ⟨hcmdif, heng, _⟩ := writeReg_block_frame r v s hr
  refine runInv_of_idle (by simpa using h.config) (by simpa using h.otp) (heng.trans hidle)
    (by rw [hcmdif, hb]) ?_ (regsOk_write h.regs) ?_
  · simp only [resOk, hcmdif]
    exact h.res
  · exact resid_congr (writeReg_cfg r v s) (writeReg_residents r v s) h.residency

/-- A write that raises no fault keeps the invariants. -/
theorem writeReg_runInv {r : Reg} {v : Word} {s : State} (h : RunInv s) (hf : writeFault? r s = none) :
    RunInv (writeReg r v s) := by
  cases hb : s.cmdif.busy with
  | true =>
    obtain ⟨q, rfl, hro⟩ := writeFault_none_busy hb hf
    rw [writeReg_insideCommand hro hb]
    exact h
  | false =>
    have hidle : s.engine = .idle := by
      by_contra hrun
      rw [h.busy.mpr hrun] at hb
      cases hb
    rcases r with q | q | ⟨c, q⟩
    · obtain ⟨k, hk⟩ := strictKey_setKey (.cmdif q) (writeCmdif q v s)
      rw [writeReg, hb, Bool.and_false, if_neg (by simp), hk]
      apply setKey_runInv
      cases q with
      | cmd => exact startCommand_runInv h (writeFault_none_cmd hf).2 v
      | arg0 => exact writeArg_runInv h hidle hb rfl rfl
      | arg1 => exact writeArg_runInv h hidle hb rfl rfl
      | _ => exact h
    · exact writeReg_block_runInv h hidle hb (by simp)
    · exact writeReg_block_runInv h hidle hb (by simp)

theorem hostStep_runInv {a : HostAccess} {s t : State} (h : RunInv s) (hx : hostStep a s = .next t) :
    RunInv t := by
  obtain ⟨b, r, _, _, ⟨_, _, _, rfl⟩ | ⟨_, _, v, _, hf, rfl⟩⟩ := hostStep_shape hx
  · exact log_runInv (drawnBy_runInv h r) _
  · exact log_runInv (writeReg_runInv h hf) _

/-! ## Moves of ENV -/

/-- No ENV rule sets GO (R315). -/
theorem envStep_go {e : EnvEvent} {s : State} (hc : configWf s.cfg = true) {c : CacheId}
    (h : (envStep e s).go c = true) : s.go c = true := by
  revert h
  refine envStep_induction (P := fun t => t.go c = true → s.go c = true) id fun h => ?_
  rw [go_congr (s := envEffect e s) (t := (envEffect e s).log (.env e)) rfl (by simp)] at h
  cases e with
  | globalDone d v =>
    by_cases hd : c = d
    · subst hd
      rw [envEffect, globalComplete_go hc] at h
      cases h
    · simpa [envEffect, globalComplete, State.go, hd] using h
  | rangeDone d =>
    by_cases hd : c = d
    · subst hd
      rwa [envEffect, rangeComplete_go] at h
    · simpa [envEffect, rangeComplete, State.go, hd] using h
  | fill d w a =>
    by_cases hd : c = d
    · subst hd
      simpa [envEffect, fillLine, Cache.setLines, State.go] using h
    · simpa [envEffect, fillLine, State.go, hd] using h
  | _ => simpa [envEffect, setStable, setSelStat, State.go] using h

/-- No ENV rule sets STRT (R315). -/
theorem envStep_strt {e : EnvEvent} {s : State} (hc : configWf s.cfg = true) {c : CacheId}
    (h : (envStep e s).strt c = true) : s.strt c = true := by
  revert h
  refine envStep_induction (P := fun t => t.strt c = true → s.strt c = true) id fun h => ?_
  rw [strt_congr (s := envEffect e s) (t := (envEffect e s).log (.env e)) rfl (by simp)] at h
  cases e with
  | globalDone d v =>
    by_cases hd : c = d
    · subst hd
      rwa [envEffect, globalComplete_strt] at h
    · simpa [envEffect, globalComplete, State.strt, hd] using h
  | rangeDone d =>
    by_cases hd : c = d
    · subst hd
      rw [envEffect, rangeComplete_strt hc] at h
      cases h
    · simpa [envEffect, rangeComplete, State.strt, hd] using h
  | fill d w a =>
    by_cases hd : c = d
    · subst hd
      simpa [envEffect, fillLine, Cache.setLines, State.strt] using h
    · simpa [envEffect, fillLine, State.strt, hd] using h
  | _ => simpa [envEffect, setStable, setSelStat, State.strt] using h

theorem envStep_runInv {e : EnvEvent} {s : State} (h : RunInv s) : RunInv (envStep e s) where
  config := by simpa using h.config
  otp := by simpa using h.otp
  busy := by simpa [busyOk] using h.busy
  latched := by simpa [latchedOk] using h.latched
  pos := by simpa [posOk, Runs] using h.pos
  res := by simpa [resOk] using h.res
  regs := env_regs h.regs
  flight := by
    intro pos loc c hs
    rw [envStep_engine] at hs
    obtain ⟨hgo, hstrt⟩ := h.flight pos loc c hs
    exact ⟨fun hg => hgo (envStep_go h.config hg), fun hg => hstrt (envStep_strt h.config hg)⟩
  residency := env_resid h.residency

/-! ## Steps and runs -/

/-- Every move of every agent keeps the invariants. -/
theorem perform_runInv {e : Event} {s t : State} (h : RunInv s) (hp : perform e s = .next t) : RunInv t := by
  cases e with
  | engine => exact engineStep_runInv h hp
  | host a => exact hostStep_runInv h hp
  | env e => cases hp; exact envStep_runInv h

theorem popEvent_runInv {s : State} (h : RunInv s) : RunInv (popEvent s) := by
  obtain ⟨a, d, hpop⟩ := popEvent_eq s
  rw [hpop]
  exact runInv_congr (s := s) rfl rfl rfl rfl rfl ⟨rfl, rfl⟩ h

/-- Settles O20: a step is a move of one agent, after the move is taken off the agenda. -/
theorem stepKeepsInvariants : Obligations.StepKeepsInvariants := by
  intro s t h hstep
  exact perform_runInv (popEvent_runInv h) (step_shape hstep).2

/-- What holds at reset and is kept by every step from a state with the invariants holds in every run. -/
theorem reachable_induction {P : State → Prop}
    (hreset : ∀ cfg otp d agenda, configWf cfg = true → P (resetWith cfg otp d agenda))
    (hstep : ∀ s t, RunInv s → P s → step s = .next t → P t) {s : State} (h : Reachable s) :
    RunInv s ∧ P s := by
  obtain ⟨cfg, otp, d, agenda, hc, ho, hsteps⟩ := h
  have hinv : RunInv (resetWith cfg otp d agenda) := resetStatesSatisfyInvariants cfg otp d agenda hc ho
  have hP := hreset cfg otp d agenda hc
  induction hsteps with
  | refl => exact ⟨hinv, hP⟩
  | tail _ hu ih =>
    obtain ⟨hi, hp⟩ := ih
    exact ⟨stepKeepsInvariants _ _ hi hu, hstep _ _ hi hp hu⟩

theorem reachable_runInv {s : State} (h : Reachable s) : RunInv s :=
  (reachable_induction (P := fun _ => True) (fun _ _ _ _ _ => trivial) (fun _ _ _ _ _ => trivial) h).1

/-- With the invariants the engine's move always succeeds. -/
theorem engineStep_complete {s : State} (h : RunInv s) : ∃ t, engineStep s = .next t := by
  cases hs : s.engine with
  | idle => exact ⟨s, engineStep_idle hs⟩
  | run pos loc =>
    cases hd : decode loc.cmd with
    | ok i =>
      rw [engineStep_running hs hd]
      exact exec_complete hs (h.legalPos ⟨hs, hd⟩)
    | error e =>
      rw [engineStep_rejected hs hd, h.pos.2 e pos loc hs hd]
      exact ⟨_, rfl⟩

/-- A host move is refused only for its address (R71). -/
theorem hostStep_refused {a : HostAccess} {s : State} {r : Refusal} (h : hostStep a s = .refused r) :
    r = .outsideBlocks a := by
  unfold hostStep at h
  split at h
  · cases h; rfl
  · split at h
    · cases h
    · split at h
      · cases h
      · split at h
        · cases h
        · unfold hostAccess at h
          split at h
          · cases h
          · split at h <;> cases h

/-- With the invariants a step is refused only for a host access outside the blocks. -/
theorem step_refused {s : State} {r : Refusal} (h : RunInv s) (hstep : step s = .refused r) :
    ∃ a, r = .outsideBlocks a := by
  rw [step_eq h.config] at hstep
  cases he : nextEvent s with
  | engine =>
    rw [he] at hstep
    obtain ⟨t, ht⟩ := engineStep_complete (popEvent_runInv h)
    cases ht.symm.trans hstep
  | host a => rw [he] at hstep; exact ⟨a, hostStep_refused hstep⟩
  | env e => rw [he] at hstep; cases hstep

/-- Settles O21: the one refusal left is that of an address, and the engine's move succeeds. -/
theorem reachableStatesNeverStray : Obligations.ReachableStatesNeverStray := by
  have key : ∀ s : State, RunInv s → step s ≠ .refused .illFormedConfig ∧ step s ≠ .refused .engineIdle ∧
      step s ≠ .refused .strayPosition ∧ (nextEvent s = .engine → ∃ t, step s = .next t) := by
    intro s h
    have hno : ∀ r, (∀ a, r ≠ .outsideBlocks a) → step s ≠ .refused r := fun r hr hstep => by
      obtain ⟨a, ha⟩ := step_refused h hstep
      exact hr a ha
    refine ⟨hno _ (by simp), hno _ (by simp), hno _ (by simp), fun he => ?_⟩
    rw [step_eq h.config, he]
    exact engineStep_complete (popEvent_runInv h)
  exact ⟨key, fun s hs => ⟨reachable_runInv hs, key s (reachable_runInv hs)⟩⟩

end Sys2Proof.Machine
end

section
/-! SUPPORT. Host accesses: which register an address reaches (20_memory.md R70 to R73, R79), which accesses fault
(60_exceptions.md R276), and what an access of CMDIF does (10_state.md R23 to R25). -/

namespace Sys2Proof.Machine

/-! ## Addresses (R70, R79) -/

/-- A search finds the one element that passes. -/
theorem find?_eq_some_of_unique {α : Type} {p : α → Bool} {l : List α} {x : α} (hx : x ∈ l) (hp : p x = true)
    (huniq : ∀ y ∈ l, p y = true → y = x) : l.find? p = some x := by
  cases h : l.find? p with
  | none => exact absurd hp (List.find?_eq_none.mp h x hx)
  | some y => rw [huniq y (List.mem_of_find?_eq_some h) (List.find?_some h)]

theorem mem_allBlocks (b : Block) : b ∈ allBlocks := by
  rcases b with _ | _ | c
  · simp [allBlocks]
  · simp [allBlocks]
  · cases c <;> simp [allBlocks]

theorem inBlock_iff {cfg : Config} {a : Word} {b : Block} :
    inBlock cfg a b = true ↔ blockBase cfg b ≤ a.toNat ∧ a.toNat < blockBase cfg b + blockSpan := by
  simp [inBlock]

/-- No address lies in two blocks (R70). -/
theorem inBlock_unique {cfg : Config} (h : configWf cfg = true) {a : Word} {b b' : Block}
    (hb : inBlock cfg a b = true) (hb' : inBlock cfg a b' = true) : b' = b := by
  have hapart := (configWf_parts h).2.1.2.1
  simp only [allBlocks, List.map_cons, List.map_nil, List.pairwise_cons, List.mem_cons, List.not_mem_nil,
    or_false, forall_eq_or_imp, forall_eq, blocksApart] at hapart
  rw [inBlock_iff] at hb hb'
  rcases b with _ | _ | c <;> rcases b' with _ | _ | c' <;> try cases c
  all_goals try cases c'
  all_goals first | rfl | (exfalso; omega)

theorem blockOf?_eq_some {cfg : Config} (h : configWf cfg = true) {a : Word} {b : Block}
    (hb : inBlock cfg a b = true) : blockOf? cfg a = some b :=
  find?_eq_some_of_unique (mem_allBlocks b) hb fun _ _ hb' => inBlock_unique h hb hb'

/-- Distinct offsets are each found (R80). -/
theorem atOffset?_of_mem {α : Type} {os : List (Nat × α)} {o : Nat} {x : α} (hnodup : (os.map Prod.fst).Nodup)
    (hm : (o, x) ∈ os) : atOffset? os o = some x := by
  have hfind : os.find? (fun p => p.1 = o) = some (o, x) :=
    find?_eq_some_of_unique hm (by simp) fun y hy ho =>
      List.inj_on_of_nodup_map hnodup hy hm (by simpa using ho)
  rw [atOffset?, hfind, Option.map_some]

/-- Every register has an offset in its block's table, which its address adds to the base (R23, R36, R44). -/
theorem exists_offset_cmdif (cfg : Config) (q : CmdReg) :
    ∃ o, (o, q) ∈ cmdOffsets cfg.layout ∧ regAddr cfg (.cmdif q) = blockBase cfg .cmdif + o := by
  cases q <;> exact ⟨_, by simp [cmdOffsets], rfl⟩

theorem exists_offset_cpm (cfg : Config) (q : CpmReg) :
    ∃ o, (o, q) ∈ cpmOffsets cfg.layout ∧ regAddr cfg (.cpm q) = blockBase cfg .cpm + o := by
  cases q <;> exact ⟨_, by simp [cpmOffsets], rfl⟩

theorem exists_offset_cache (cfg : Config) (c : CacheId) (q : CacheReg) :
    ∃ o, (o, q) ∈ cacheOffsets cfg.layout ∧ regAddr cfg (.cache c q) = blockBase cfg (.cache c) + o := by
  cases q <;> exact ⟨_, by simp [cacheOffsets], rfl⟩

/-- A register's address is its block's base and an aligned offset, where the register is found. -/
theorem exists_offset {cfg : Config} (h : configWf cfg = true) (r : Reg) :
    ∃ b o, regAddr cfg r = blockBase cfg b + o ∧ o % 4 = 0 ∧ o < blockSpan ∧
      regAt? cfg.layout b o = some r := by
  obtain ⟨_, _, _, _, _, _, _, _, _, ⟨hcmd, hcmdN⟩, ⟨hcpm, hcpmN⟩, hcache, hcacheN⟩ := (configWf_parts h).1
  rcases r with q | q | ⟨c, q⟩
  · obtain ⟨o, hm, ha⟩ := exists_offset_cmdif cfg q
    obtain ⟨h4, hlt⟩ := hcmd o (List.mem_map_of_mem (f := Prod.fst) hm)
    exact ⟨.cmdif, o, ha, h4, hlt, by rw [regAt?, atOffset?_of_mem hcmdN hm]; rfl⟩
  · obtain ⟨o, hm, ha⟩ := exists_offset_cpm cfg q
    obtain ⟨h4, hlt⟩ := hcpm o (List.mem_map_of_mem (f := Prod.fst) hm)
    exact ⟨.cpm, o, ha, h4, hlt, by rw [regAt?, atOffset?_of_mem hcpmN hm]; rfl⟩
  · obtain ⟨o, hm, ha⟩ := exists_offset_cache cfg c q
    obtain ⟨h4, hlt⟩ := hcache o (List.mem_map_of_mem (f := Prod.fst) hm)
    exact ⟨.cache c, o, ha, h4, hlt, by rw [regAt?, atOffset?_of_mem hcacheN hm]; rfl⟩

/-- A 32-bit access at a register's address is the access of that register (R70, R79). -/
theorem hostStep_at {s : State} (h : configWf s.cfg = true) {a : HostAccess} {r : Reg}
    (ha : (accessAddr a).toNat = regAddr s.cfg r) (hw : accessWidth a = 32) :
    hostStep a s = hostAccess a r s := by
  obtain ⟨b, o, haddr, ho4, hlt, hreg⟩ := exists_offset h r
  have hbase := ((configWf_parts h).2.1.1 b (mem_allBlocks b)).1
  have hblock : blockOf? s.cfg (accessAddr a) = some b :=
    blockOf?_eq_some h (inBlock_iff.mpr ⟨by omega, by omega⟩)
  have hoff : regOfAddr? s.cfg b (accessAddr a) = some r := by
    rw [regOfAddr?, ha, haddr, Nat.add_sub_cancel_left, hreg]
  have halign : (accessAddr a).toNat % 4 = 0 := by omega
  simp [hostStep, hblock, hw, halign, hoff]

theorem regAddr_lt {cfg : Config} (h : configWf cfg = true) (r : Reg) : regAddr cfg r < 2 ^ 32 := by
  obtain ⟨b, o, haddr, _, hlt, _⟩ := exists_offset h r
  have := ((configWf_parts h).2.1.1 b (mem_allBlocks b)).2
  omega

/-- Settles O14: the search for the block fails outside all four, and finds the block and the register at a
register's address; the reference addresses are evaluated. -/
theorem hostAddressMap : Obligations.HostAddressMap := by
  refine ⟨fun s a hout => ?_, fun s a r h ha hw => hostStep_at h ha hw, by decide, by decide, by decide,
    by decide, by decide, by decide, by decide, by decide, by decide⟩
  have hnone : blockOf? s.cfg (accessAddr a) = none := by
    rw [blockOf?, List.find?_eq_none]
    intro b hb hin
    exact hout b hb (inBlock_iff.mp hin)
  simp only [hostStep, hnone]

/-! ## Faults (R276) -/

/-- The writes that items 1 to 4 of R276 list. -/
def writeFaults (r : Reg) (s : State) : Prop :=
  (s.cmdif.busy = true ∧ r ∈ [Reg.cmdif .cmd, .cmdif .arg0, .cmdif .arg1]) ∨
  (s.cmdif.busy = true ∧ ((∃ q, r = .cpm q) ∨ ∃ c q, r = .cache c q)) ∨
  (∃ c, (s.go c = true ∨ s.strt c = true) ∧ r ∈ [Reg.cache c .cmnt, .cache c .craddr, .cache c .crsize]) ∨
  (r = .cmdif .cmd ∧ ∃ c, s.go c = true ∨ s.strt c = true)

theorem exists_cacheId {P : CacheId → Prop} : (∃ c, P c) ↔ P .icache ∨ P .dcache :=
  ⟨fun ⟨c, h⟩ => by cases c; exacts [.inl h, .inr h], fun h => h.elim (⟨_, ·⟩) (⟨_, ·⟩)⟩

theorem inFlight_iff {s : State} {c : CacheId} : s.inFlight c = true ↔ s.go c = true ∨ s.strt c = true := by
  simp [State.inFlight]

theorem writeFault?_cmdif_iff (q : CmdReg) (s : State) :
    writeFault? (.cmdif q) s ≠ none ↔ writeFaults (.cmdif q) s := by
  cases q with
  | cmd =>
    simp only [writeFault?, writeFaults, exists_cacheId, ← inFlight_iff]
    cases s.cmdif.busy <;> cases s.inFlight .icache <;> simp
  | arg0 => cases hb : s.cmdif.busy <;> simp [writeFault?, writeFaults, hb]
  | arg1 => cases hb : s.cmdif.busy <;> simp [writeFault?, writeFaults, hb]
  | _ => simp [writeFault?, writeFaults]

theorem writeFault?_cpm_iff (q : CpmReg) (s : State) :
    writeFault? (.cpm q) s ≠ none ↔ writeFaults (.cpm q) s := by
  cases hb : s.cmdif.busy <;> simp [writeFault?, writeFaults, hb]

theorem writeFault?_cache_iff (c : CacheId) (q : CacheReg) (s : State) :
    writeFault? (.cache c q) s ≠ none ↔ writeFaults (.cache c q) s := by
  cases hb : s.cmdif.busy
  · cases hf : s.inFlight c <;> cases q <;>
      simp [writeFault?, writeFaults, hb, maintHeld, ← inFlight_iff, hf]
  · simp [writeFault?, writeFaults, hb]

theorem writeFault?_iff (r : Reg) (s : State) : writeFault? r s ≠ none ↔ writeFaults r s := by
  rcases r with q | q | ⟨c, q⟩
  · exact writeFault?_cmdif_iff q s
  · exact writeFault?_cpm_iff q s
  · exact writeFault?_cache_iff c q s

/-- An access of a mapped register faults exactly when it is a write that R276 lists. -/
theorem hostAccess_fault_iff (a : HostAccess) (r : Reg) (s : State) :
    (∃ why, hostAccess a r s = .fault (.host why a)) ↔ ∃ x w v, a = .write x w v ∧ writeFaults r s := by
  cases a with
  | read x w => simp [hostAccess]
  | write x w v =>
    have hiff := writeFault?_iff r s
    cases hf : writeFault? r s with
    | none => rw [hf] at hiff; simpa [hostAccess, hf] using hiff
    | some why => rw [hf] at hiff; simpa [hostAccess, hf] using hiff

/-- Settles O13: the checks of an access one after another, each a fault or passed. -/
theorem hostFaultsAreExactlyTheListed : Obligations.HostFaultsAreExactlyTheListed := by
  refine ⟨engineStep_ne_fault, fun s a => ?_⟩
  cases hb : blockOf? s.cfg (accessAddr a) with
  | none => simp [hostStep, hb]
  | some b =>
    simp only [Option.some.injEq, exists_eq_left', hostStep, hb]
    by_cases hw : accessWidth a ≠ 32
    · simp [hw]
    by_cases h4 : (accessAddr a).toNat % 4 ≠ 0
    · simp [hw, h4]
    rw [if_neg hw, if_neg h4]
    cases hr : regOfAddr? s.cfg b (accessAddr a) with
    | none => simp
    | some r =>
      refine (hostAccess_fault_iff a r s).trans ⟨?_, ?_⟩
      · rintro ⟨x, w, v, rfl, hf⟩
        exact .inr (.inr (.inr ⟨x, w, v, r, rfl, hr, hf⟩))
      · rintro (h | h | h | ⟨x, w, v, r', rfl, hr', hf⟩)
        · exact absurd h hw
        · exact absurd h h4
        · cases h
        · cases hr.symm.trans hr'
          exact ⟨x, w, v, rfl, hf⟩

/-! ## Writes of CMDIF (R24, R25) -/

/-- A host write that raises no fault is made and recorded. -/
theorem hostAccess_write {r : Reg} {s : State} (h : writeFault? r s = none) (a v : Word) (w : Nat) :
    hostAccess (.write a w v) r s = .next (hostWrite r v s) := by simp only [hostAccess, h]

/-- Settles O11: the address is CMD's, the write raises no fault, and it starts the command. -/
theorem hostWriteOfCmdStartsCommand : Obligations.HostWriteOfCmdStartsCommand := by
  intro s w hc hb hi hd
  have haddr : (BitVec.ofNat 32 (s.cfg.cmdifBase + s.cfg.layout.cmdOff)).toNat = regAddr s.cfg (.cmdif .cmd) := by
    rw [BitVec.toNat_ofNat]
    exact Nat.mod_eq_of_lt (regAddr_lt hc (.cmdif .cmd))
  have hfault : writeFault? (.cmdif .cmd) s = none := by simp [writeFault?, hb, hi, hd]
  have hwrite : writeReg (.cmdif .cmd) w s = (startCommand w s).setKey (keyAfterOther s) := by
    rw [writeReg, hb, Bool.and_false, if_neg (by simp), strictKey_eq _ _ (by simp)]
    rfl
  refine ⟨hostWrite (.cmdif .cmd) w s, freshLocals s.cfg.npart s.draws w s.cmdif.arg0 s.cmdif.arg1, ?_, ?_⟩
  · exact (hostStep_at hc (by exact haddr) rfl).trans (hostAccess_write hfault _ w 32)
  · rw [hostWrite, hwrite]
    exact ⟨rfl, rfl, rfl, rfl, rfl, rfl, ⟨rfl, rfl⟩, ⟨rfl, rfl, rfl⟩, rfl, rfl, rfl⟩

/-- A write of an argument register with no command running (R24, R172). -/
theorem writeReg_arg {q : CmdReg} {s : State} (hb : s.cmdif.busy = false) (v : Word) :
    writeReg (.cmdif q) v s = (writeCmdif q v s).setKey (keyAfterOther (writeCmdif q v s)) := by
  rw [writeReg, hb, Bool.and_false, if_neg (by simp), strictKey_eq _ _ (by simp)]

/-! ## Reads of STAT (R23, R32, R35) -/

/-- The positions of STAT (R23). -/
theorem stat_positions {cfg : Config} (h : configWf cfg = true) :
    cfg.layout.statBusy < 32 ∧ cfg.layout.statRes + 2 ≤ 32 ∧ cfg.layout.statCsw + 3 ≤ 32 ∧
    (cfg.layout.statBusy < cfg.layout.statRes ∨ cfg.layout.statRes + 2 ≤ cfg.layout.statBusy) ∧
    (cfg.layout.statBusy < cfg.layout.statCsw ∨ cfg.layout.statCsw + 3 ≤ cfg.layout.statBusy) ∧
    (cfg.layout.statRes + 2 ≤ cfg.layout.statCsw ∨ cfg.layout.statCsw + 3 ≤ cfg.layout.statRes) := by
  have := (configWf_parts h).1.1
  simp only [fieldsOk, fieldsApart, List.mem_cons, List.not_mem_nil, or_false, forall_eq_or_imp,
    forall_eq, List.pairwise_cons, List.Pairwise.nil, and_true, IsEmpty.forall_iff, implies_true] at this
  omega

/-- A small value placed at a field's position has bits there alone. -/
theorem getBit_shiftLeft_outside {v : Word} {p w q : Nat} (hv : v.toNat < 2 ^ w) (hq : q < p ∨ p + w ≤ q) :
    getBit (v <<< p) q = false := by
  rw [getBit_shiftLeft]
  rcases hq with hq | hq
  · simp [Nat.not_le.mpr hq]
  · simp [getBit_of_lt hv (show w ≤ q - p by omega)]

theorem statusCode_lt (st : Status) : (statusCode st).toNat < 2 ^ 2 := by cases st <;> decide

theorem cswCode_lt (x : CswState) : (cswCode x).toNat < 2 ^ 3 := by cases x <;> decide

theorem getBit_flag_other {p q : Nat} (h : q ≠ p) (b : Bool) : getBit (flag p b) q = false := by
  simp [getBit_flag, Ne.symm h]

theorem getBit_statWord_busy {cfg : Config} (h : configWf cfg = true) (x : Cmdif) :
    getBit (statWord cfg.layout x) cfg.layout.statBusy = x.busy := by
  obtain ⟨hlt, _, _, hres, hcsw, _⟩ := stat_positions h
  simp [statWord, getBit_flag, hlt, getBit_shiftLeft_outside (statusCode_lt x.res) hres,
    getBit_shiftLeft_outside (cswCode_lt x.csw) hcsw]

/-- The RES field of STAT holds the status's code (R32). -/
theorem field_statWord_res {cfg : Config} (h : configWf cfg = true) (x : Cmdif) :
    field (statWord cfg.layout x) cfg.layout.statRes 2 = (statusCode x.res).toNat := by
  obtain ⟨_, hle, _, hbusy, _, hcsw⟩ := stat_positions h
  rw [field_congr (v' := statusCode x.res <<< cfg.layout.statRes), field_shiftLeft hle,
    Nat.mod_eq_of_lt (statusCode_lt x.res)]
  intro q h1 h2
  have hflag : getBit (flag cfg.layout.statBusy x.busy) q = false := getBit_flag_other (by omega) _
  simp [statWord, hflag, getBit_shiftLeft_outside (cswCode_lt x.csw) (q := q)
    (p := cfg.layout.statCsw) (by omega)]

/-- The CSW_STATE field of STAT holds the state's code (R35). -/
theorem field_statWord_csw {cfg : Config} (h : configWf cfg = true) (x : Cmdif) :
    field (statWord cfg.layout x) cfg.layout.statCsw 3 = (cswCode x.csw).toNat := by
  obtain ⟨_, _, hle, _, hbusy, hres⟩ := stat_positions h
  rw [field_congr (v' := cswCode x.csw <<< cfg.layout.statCsw), field_shiftLeft hle,
    Nat.mod_eq_of_lt (cswCode_lt x.csw)]
  intro q h1 h2
  have hflag : getBit (flag cfg.layout.statBusy x.busy) q = false := getBit_flag_other (by omega) _
  simp [statWord, hflag, getBit_shiftLeft_outside (statusCode_lt x.res) (q := q)
    (p := cfg.layout.statRes) (by omega)]

/-- Reserved bits of STAT read 0 (R52). -/
theorem getBit_statWord_reserved {L : Layout} {x : Cmdif} {p : Nat} (hbusy : p ≠ L.statBusy)
    (hres : ¬ (L.statRes ≤ p ∧ p < L.statRes + 2)) (hcsw : ¬ (L.statCsw ≤ p ∧ p < L.statCsw + 3)) :
    getBit (statWord L x) p = false := by
  simp [statWord, getBit_flag_other hbusy,
    getBit_shiftLeft_outside (statusCode_lt x.res) (q := p) (p := L.statRes) (by omega),
    getBit_shiftLeft_outside (cswCode_lt x.csw) (q := p) (p := L.statCsw) (by omega)]

/-- Settles O12: the writes are register writes that raise no fault; a read is recorded and no more; and the
fields of STAT are read off its word. -/
theorem hostCmdifAndReads : Obligations.HostCmdifAndReads := by
  refine ⟨fun s a v hb => ?_, fun s a v hb => ?_, fun s a v q hq => ?_, fun s a r => ?_, fun s => ?_,
    fun s hc => ⟨getBit_statWord_busy hc _, (field_statWord_res hc _).trans ?_,
      (field_statWord_csw hc _).trans ?_, fun p => getBit_statWord_reserved⟩⟩
  · refine ⟨hostWrite (.cmdif .arg0) v s, hostAccess_write (by simp [writeFault?, hb]) a v 32, ?_⟩
    rw [hostWrite, writeReg_arg hb]
    exact ⟨rfl, rfl⟩
  · refine ⟨hostWrite (.cmdif .arg1) v s, hostAccess_write (by simp [writeFault?, hb]) a v 32, ?_⟩
    rw [hostWrite, writeReg_arg hb]
    exact ⟨rfl, rfl⟩
  · have hro : cmdReadOnly q = true ∧ writeFault? (.cmdif q) s = none := by
      simp only [List.mem_cons, List.not_mem_nil, or_false] at hq
      rcases hq with rfl | rfl | rfl <;> exact ⟨rfl, rfl⟩
    rw [hostAccess_write hro.2, hostWrite, writeReg_readOnly hro.1]
    rfl
  · exact ⟨hostRead r s, rfl, by simp [hostRead], by simp [hostRead], by simp [hostRead], by simp [hostRead],
      ⟨by simp [hostRead], by simp [hostRead]⟩, ⟨by simp [hostRead], by simp [hostRead], by simp [hostRead]⟩,
      by simp [hostRead], by simp [hostRead]⟩
  · refine ⟨rfl, rfl, rfl, rfl, rfl, fun q hq => ?_, fun c q => rfl⟩
    cases q with
    | protKey => exact absurd rfl hq
    | _ => rfl
  · cases s.cmdif.res <;> rfl
  · cases s.cmdif.csw <;> rfl

/-! ## Reads of PROT_KEY (R41) -/

/-- Settles O16: the stored word has TRIM_OVR alone, and what a read draws lies in KEY. -/
theorem protKeyReads : Obligations.ProtKeyReads := by
  intro s hc hregs
  refine ⟨protKey_read_trimOvr hc, fun p hovr h0 h1 => ?_, rfl, rfl⟩
  have hstored : getBit s.cpm.protKey p = false := by
    by_contra hp
    have himpl := within_iff.mp (hregs.1 .protKey) p (by simpa [Cpm.word] using hp)
    simp [cpmImpl, cpmRw, getBit_bit_ne (Ne.symm hovr)] at himpl
  simp [readValue, hstored, getBit_keyDraw (s := s) (p := p) (by omega)]

end Sys2Proof.Machine
end

section
/-! SUPPORT. What a write stores in each register of CPM and of a cache instance, one bit at a time, and what it
leaves alone (10_state.md R37 to R42, R45 to R49, R52, R54, R57; 42_trim.md R172, R173). -/

namespace Sys2Proof.Machine

/-! ## The bits a write of a CPM register stores (R37 to R39) -/

theorem getBit_cpmRw_oscCs {cfg : Config} (h : configWf cfg = true) (p : Nat) :
    getBit (cpmRw cfg .oscCs) p = decide (p = cfg.layout.lfiEn ∨ p = cfg.layout.hsEn) := by
  obtain ⟨⟨hl, hh, _, _⟩, _⟩ := osc_positions h
  simp [cpmRw, getBit_bit, hl, hh, eq_comm]

/-- The bits of a field that ends within the register (R10). -/
theorem getBit_bits_of_le {p w : Nat} (h : p + w ≤ 32) (q : Nat) :
    getBit (bits p w) q = decide (p ≤ q ∧ q < p + w) := by
  rw [getBit_bits, Bool.eq_iff_iff]
  simp only [Bool.and_eq_true, decide_eq_true_eq]
  omega

theorem getBit_cpmRw_sysClk {cfg : Config} (h : configWf cfg = true) (p : Nat) :
    getBit (cpmRw cfg .sysClk) p = decide (p = cfg.layout.sel ∨
      (cfg.layout.sysDiv ≤ p ∧ p < cfg.layout.sysDiv + cfg.sysdivWidth)) := by
  obtain ⟨hsel, _, _, hdiv, _⟩ := sys_positions h
  simp [cpmRw, getBit_bit, hsel, getBit_bits_of_le hdiv, eq_comm]

theorem getBit_cpmRw_ipsDiv {cfg : Config} (h : configWf cfg = true) (p : Nat) :
    getBit (cpmRw cfg .ipsDiv) p = decide (p = cfg.layout.ipsEn ∨
      (cfg.layout.div ≤ p ∧ p < cfg.layout.div + cfg.layout.divWidth)) := by
  obtain ⟨hen, _, _, hdiv, _⟩ := ips_positions h
  simp [cpmRw, getBit_bit, hen, getBit_bits_of_le hdiv, eq_comm]

theorem writeReg_oscCs (v : Word) (s : State) :
    (writeReg (.cpm .oscCs) v s).cpm.oscCs = merge (cpmRw s.cfg .oscCs) s.cpm.oscCs v := by
  rw [writeReg_cpm_plain _ _ _ (by decide) (by decide)]; rfl

theorem writeReg_sysClk_self (v : Word) (s : State) :
    (writeReg (.cpm .sysClk) v s).cpm.sysClk = merge (cpmRw s.cfg .sysClk) s.cpm.sysClk v := by
  rw [writeReg_cpm_plain _ _ _ (by decide) (by decide)]; rfl

theorem writeReg_ipsDiv (v : Word) (s : State) :
    (writeReg (.cpm .ipsDiv) v s).cpm.ipsDiv = merge (cpmRw s.cfg .ipsDiv) s.cpm.ipsDiv v := by
  rw [writeReg_cpm_plain _ _ _ (by decide) (by decide)]; rfl

theorem writeReg_protKey_self (v : Word) (s : State) :
    (writeReg (.cpm .protKey) v s).cpm.protKey = merge (bit s.cfg.layout.trimOvr) s.cpm.protKey v := by
  rw [writeReg_protKey]; rfl

/-- A CPM write leaves the other CPM registers alone. -/
theorem writeReg_cpm_word_ne {q q' : CpmReg} (h : q' ≠ q) (v : Word) (s : State) :
    (writeReg (.cpm q) v s).cpm.word q' = s.cpm.word q' := by
  by_cases hk : q = .protKey
  · subst hk
    rw [writeReg_protKey]
    cases q' <;> first | rfl | exact absurd rfl h
  by_cases ht : q = .hsTrim
  · subst ht
    cases ha : trimAdmitted s
    · rw [writeReg_hsTrim_ignored _ _ ha]; rfl
    · rw [writeReg_hsTrim_admitted _ _ ha]
      cases q' <;> first | rfl | exact absurd rfl h
  · rw [writeReg_cpm_plain _ _ _ hk ht, State.setKey_cpm, State.setCpm_cpm, Cpm.word_setWord, if_neg h]

theorem trimAdmitted_iff {s : State} : trimAdmitted s = true ↔ s.keyState = .unlocked ∧ s.trimOvr = true := by
  simp [trimAdmitted]

/-! ## The bits a write of a cache register stores (R45 to R49) -/

/-- The written register holds what `cacheWritten` says. -/
theorem writeReg_cache_self (c : CacheId) (q : CacheReg) (v : Word) (s : State) :
    ((writeReg (.cache c q) v s).cache c).word q =
      cacheWritten s.cfg (s.cacheEn c) q ((s.cache c).word q) v := by
  rw [writeReg_cache, State.setKey_cache, State.setCache_cache_self, Cache.word_setWord, if_pos rfl]

theorem writeReg_cache_word_ne {q q' : CacheReg} (h : q' ≠ q) (c : CacheId) (v : Word) (s : State) :
    ((writeReg (.cache c q) v s).cache c).word q' = (s.cache c).word q' := by
  rw [writeReg_cache, State.setKey_cache, State.setCache_cache_self, Cache.word_setWord, if_neg h]

theorem getBit_ccrWritten {cfg : Config} (h : configWf cfg = true) (en : Bool) (old v : Word) (p : Nat) :
    getBit (cacheWritten cfg en .ccr old v) p = if p = cfg.layout.cacheEn then getBit v p else getBit old p := by
  simp only [cacheWritten, cacheRw, getBit_merge]
  by_cases hp : p = cfg.layout.cacheEn
  · subst hp; simp [ccr_position h]
  · rw [getBit_bit_ne (Ne.symm hp), if_neg (by simp), if_neg hp]

/-- CMNT after a write: GO is set by a 1 and not cleared by a 0, the way bits are stored (R46). -/
theorem getBit_cmntWritten {cfg : Config} (h : configWf cfg = true) (old v : Word) (p : Nat) :
    getBit (cmntWritten cfg old v) p = if p = cfg.layout.go then (getBit old p || getBit v p)
      else if p ∈ cfg.layout.invW then getBit v p else getBit old p := by
  rw [cmntWritten, getBit_or, getBit_merge, getBit_and]
  by_cases hgo : p = cfg.layout.go
  · subst hgo
    simp [cacheRw, getBit_wayMask_go h, (cmnt_positions h).1]
  · simp [hgo, cacheRw, getBit_wayMask h, getBit_bit_ne (Ne.symm hgo)]

/-- CRSIZE after a write that is not ignored: STRT is set by a 1 and not cleared by a 0, LEN is stored (R48). -/
theorem getBit_crsizeWritten {cfg : Config} (h : configWf cfg = true) (old v : Word) (p : Nat) :
    getBit (crsizeWritten cfg true old v) p = if p = cfg.layout.strt then (getBit old p || getBit v p)
      else if cfg.layout.len ≤ p ∧ p < cfg.layout.len + cfg.lenWidth then getBit v p else getBit old p := by
  obtain ⟨hlen, hstrt, _⟩ := crsize_positions h
  rw [crsizeWritten, if_pos rfl, getBit_or, getBit_merge, getBit_and]
  by_cases hp : p = cfg.layout.strt
  · subst hp
    simp [cacheRw, getBit_lenBits_strt h, hstrt]
  · simp [hp, cacheRw, getBit_bits_of_le hlen, getBit_bit_ne (Ne.symm hp)]

/-- LEN reads back what was written to it (R48). -/
theorem field_crsizeWritten {cfg : Config} (h : configWf cfg = true) (old v : Word) :
    field (crsizeWritten cfg true old v) cfg.layout.len cfg.lenWidth = field v cfg.layout.len cfg.lenWidth := by
  obtain ⟨_, _, hapart⟩ := crsize_positions h
  apply field_congr
  intro q h1 h2
  rw [getBit_crsizeWritten h, if_neg (hapart q h1 h2), if_pos ⟨h1, h2⟩]

/-- With CCR.EN = 0 a write of CRSIZE is ignored (R48). -/
theorem writeReg_crsize_disabled {s : State} {c : CacheId} (h : s.cacheEn c = false) (v : Word) :
    (writeReg (.cache c .crsize) v s).cache c = s.cache c := by
  rw [writeReg_cache, h, State.setKey_cache, State.setCache_cache_self]
  rfl

/-- CRADDR takes the line of the address (R47). -/
theorem writeReg_craddr {s : State} {c : CacheId} (h : Within (s.cache c).craddr (cacheImpl s.cfg .craddr))
    (v : Word) : ((writeReg (.cache c .craddr) v s).cache c).craddr = v &&& ~~~lineLow s.cfg := by
  have hself : ((writeReg (.cache c .craddr) v s).cache c).craddr = merge (~~~lineLow s.cfg) (s.cache c).craddr v :=
    writeReg_cache_self c .craddr v s
  have hold : (s.cache c).craddr &&& ~~~(~~~lineLow s.cfg) = 0#32 := h
  rw [hself, merge, hold, BitVec.zero_or]

theorem cacheWritten_rgn (cfg : Config) (en : Bool) (g : RgnReg) (old v : Word) :
    cacheWritten cfg en (RgnReg.toCacheReg g) old v = merge (rgnRegMask cfg.layout g) old v := by
  cases g <;> rfl

/-- The bit of a region register that some region in it implements (R49). -/
theorem getBit_rgnRegMask_iff {L : Layout} {g : RgnReg} {p : Nat} :
    getBit (rgnRegMask L g) p = true ↔
      ∃ r, rgnReg L r = RgnReg.toCacheReg g ∧ getBit (regionMask L r) p = true := by
  have hinj : ∀ r, rgnReg L r = RgnReg.toCacheReg g ↔ (regionPos L r).reg = g := fun r => by
    rw [rgnReg]
    cases (regionPos L r).reg <;> cases g <;> simp [RgnReg.toCacheReg]
  simp [getBit_rgnRegMask, List.any_eq_true, mem_allRegions, hinj]

/-! ## KEYSTATE -/

/-- What R172 makes of the key automaton, case by case. -/
theorem keyAfterOther_cases (s : State) :
    (s.keyState = .unlocked → keyAfterOther s = .unlocked) ∧
      (s.cfg.keyseqStrict = false → keyAfterOther s = s.keyState) ∧
      (s.cfg.keyseqStrict = true → s.keyState ≠ .unlocked → keyAfterOther s = .locked) := by
  unfold keyAfterOther
  refine ⟨fun h => ?_, fun h => ?_, fun h hne => ?_⟩
  · rw [h]; split <;> rfl
  · simp [h]
  · rw [if_pos h]
    cases hk : s.keyState <;> first | rfl | exact absurd hk hne

/-! ## Host writes of block registers -/

/-- With no command running and nothing in flight where it matters, a host write raises no fault (R276). -/
theorem writeFault?_block_none {r : Reg} {s : State} (hb : s.cmdif.busy = false)
    (hr : (∃ q, r = .cpm q) ∨ (∃ d q, r = .cache d q ∧ q ∈ [CacheReg.ccr, .crgn0, .crgn1]) ∨
      ∃ d q, r = .cache d q ∧ s.inFlight d = false) : writeFault? r s = none := by
  rcases hr with ⟨q, rfl⟩ | ⟨d, q, rfl, hq⟩ | ⟨d, q, rfl, hf⟩
  · simp [writeFault?, hb]
  · simp only [List.mem_cons, List.not_mem_nil, or_false] at hq
    rcases hq with rfl | rfl | rfl <;> simp [writeFault?, hb, maintHeld]
  · cases q <;> simp [writeFault?, hb, maintHeld, hf]

/-- A write of a block register leaves CMDIF, the engine, TRACE, the draws and the parameters alone; HS_DISTURB
moves with HS_TRIM alone, and the key automaton as R172 says but for PROT_KEY (R173). -/
theorem writeReg_block_frames {r : Reg} (hr : ∀ q, r ≠ .cmdif q) (v : Word) (s : State) :
    (writeReg r v s).cmdif = s.cmdif ∧ (writeReg r v s).engine = s.engine ∧
      (writeReg r v s).trace = s.trace ∧ (writeReg r v s).draws = s.draws ∧ sameWorld s (writeReg r v s) ∧
      (r ≠ .cpm .hsTrim → (writeReg r v s).hsDisturb = s.hsDisturb) ∧
      (r ≠ .cpm .protKey →
        (writeReg r v s).keyState = keyAfterOther s ∧
        (s.keyState = .unlocked → (writeReg r v s).keyState = .unlocked) ∧
        (s.cfg.keyseqStrict = false → (writeReg r v s).keyState = s.keyState) ∧
        (s.cfg.keyseqStrict = true → s.keyState ≠ .unlocked → (writeReg r v s).keyState = .locked)) ∧
      regWrite r v s = (writeReg r v s).log (.write .engine r v) := by
  obtain ⟨hcmdif, heng, hdraws⟩ := writeReg_block_frame r v s hr
  refine ⟨hcmdif, heng, writeReg_trace r v s, hdraws,
    ⟨writeReg_cfg r v s, writeReg_otp r v s, writeReg_agenda r v s⟩,
    fun ht => writeReg_block_hsDisturb v s hr ht, fun hk => ?_, rfl⟩
  rw [writeReg_block_keyState v s hr hk]
  exact ⟨rfl, keyAfterOther_cases s⟩

/-- Settles O15: the stored bits of each register, then the frames. -/
theorem blockRegisterWrites : Obligations.BlockRegisterWrites := by
  intro s v c hc hregs
  refine ⟨fun p => ?oscCs, fun p => ?sysClk, fun p => ?ipsDiv, fun p => ?protKey, fun hk ho => ?admitted,
    fun h => ?ignored, fun p => ?ccr, fun p => ?cmnt, ?craddr, fun hen => ?crsize,
    fun hen => writeReg_crsize_disabled hen v, ?region, fun q q' hq => ?otherCpm, fun q q' hq => ?otherCache,
    fun r hr => writeReg_block_frames ?_ v s, fun a r hb hr => hostAccess_write (writeFault?_block_none hb hr) a v 32⟩
  case oscCs => simp [writeReg_oscCs, getBit_merge, getBit_cpmRw_oscCs hc]
  case sysClk => simp [writeReg_sysClk_self, getBit_merge, getBit_cpmRw_sysClk hc]
  case ipsDiv => simp [writeReg_ipsDiv, getBit_merge, getBit_cpmRw_ipsDiv hc]
  case protKey =>
    rw [writeReg_protKey_self, getBit_merge]
    by_cases hp : p = s.cfg.layout.trimOvr
    · subst hp; simp [(key_positions hc).2.1]
    · rw [getBit_bit_ne (Ne.symm hp), if_neg (by simp), if_neg hp]
  case admitted =>
    rw [writeReg_hsTrim_admitted _ _ (trimAdmitted_iff.mpr ⟨hk, ho⟩)]
    exact ⟨rfl, rfl⟩
  case ignored =>
    have hno : trimAdmitted s = false := by
      rw [Bool.eq_false_iff, Ne, trimAdmitted_iff]
      rintro ⟨hk, ho⟩
      rcases h with h | h
      · exact h hk
      · rw [h] at ho; cases ho
    rw [writeReg_hsTrim_ignored _ _ hno]
    exact ⟨rfl, rfl⟩
  case ccr =>
    exact (congrArg (getBit · p) (writeReg_cache_self c .ccr v s)).trans (getBit_ccrWritten hc _ _ _ p)
  case cmnt =>
    refine (congrArg (getBit · p) (writeReg_cache_self c .cmnt v s)).trans ((getBit_cmntWritten hc _ _ p).trans ?_)
    by_cases hp : p = s.cfg.layout.go
    · subst hp; rw [if_pos rfl, if_pos rfl]; rfl
    · rw [if_neg hp, if_neg hp]; rfl
  case craddr => rw [writeReg_craddr (hregs.2 c .craddr), toNat_and_not_lineLow hc]
  case crsize =>
    have hself : ((writeReg (.cache c .crsize) v s).cache c).crsize =
        crsizeWritten s.cfg true (s.cache c).crsize v := by
      rw [← hen]; exact writeReg_cache_self c .crsize v s
    refine ⟨?_, fun p => ?_⟩
    · rw [State.rangeLen, writeReg_cfg, hself, field_crsizeWritten hc]
    · rw [hself, getBit_crsizeWritten hc]
      by_cases hp : p = s.cfg.layout.strt
      · subst hp; rw [if_pos rfl, if_pos rfl]; rfl
      · rw [if_neg hp, if_neg hp]
  case region =>
    rintro g _ p rfl
    rw [writeReg_cache_self, cacheWritten_rgn, getBit_merge]
    refine ⟨fun h => if_pos (getBit_rgnRegMask_iff.mpr h), fun h => if_neg fun hm => ?_⟩
    obtain ⟨r, hr, hp⟩ := getBit_rgnRegMask_iff.mp hm
    rw [h r hr] at hp
    cases hp
  case otherCpm => exact ⟨writeReg_cpm_word_ne hq v s, writeReg_cpm_caches q v s⟩
  case otherCache =>
    obtain ⟨hcpm, _, hother⟩ := writeReg_cache_frame c q v s
    exact ⟨writeReg_cache_word_ne hq c v s, lines_congr (writeReg_residents _ v s c), hcpm,
      hother _ (by cases c <;> simp [otherCache])⟩
  rintro q rfl
  simp at hr

end Sys2Proof.Machine
end

section
/-! SUPPORT. The accesses of OSC_CS, SYS_CLK and IPS_DIV written out, and how the frames of a command's steps
compose (40_poller.md R130 to R134; 42_trim.md R172). -/

namespace Sys2Proof.Machine

/-! ## Accesses of the plain CPM registers -/

theorem readValue_cpm {q : CpmReg} (h : q ≠ .protKey) (s : State) : readValue (.cpm q) s = s.cpm.word q := by
  cases q with
  | protKey => exact absurd rfl h
  | _ => rfl

theorem regRead_cpm_eq {q : CpmReg} (h : q ≠ .protKey) (s : State) :
    regRead (.cpm q) s = s.log (.read .engine (.cpm q) (s.cpm.word q)) := by
  rw [regRead_eq _ _ (by simpa using h), readValue_cpm h]

theorem regSet_cpm_plain {q : CpmReg} (hk : q ≠ .protKey) (ht : q ≠ .hsTrim) (m : Word) (s : State) :
    regSet (.cpm q) m s =
      ((s.setCpm (s.cpm.setWord q (merge (cpmRw s.cfg q) (s.cpm.word q) (s.cpm.word q ||| m)))).setKey
        (keyAfterOther s)).log (.modify .engine (.cpm q) (s.cpm.word q) (s.cpm.word q ||| m)) := by
  rw [regSet, drawnBy_of_ne _ _ (by simpa using hk), readValue_cpm hk, writeReg_cpm_plain _ _ _ hk ht]

theorem regRmw_cpm_plain {q : CpmReg} (hk : q ≠ .protKey) (ht : q ≠ .hsTrim) (m x : Word) (s : State) :
    regRmw (.cpm q) m x s =
      ((s.setCpm (s.cpm.setWord q (merge (cpmRw s.cfg q) (s.cpm.word q) (merge m (s.cpm.word q) x)))).setKey
        (keyAfterOther s)).log (.modify .engine (.cpm q) (s.cpm.word q) (merge m (s.cpm.word q) x)) := by
  rw [regRmw, drawnBy_of_ne _ _ (by simpa using hk), readValue_cpm hk, writeReg_cpm_plain _ _ _ hk ht]

/-! ## Frames of several steps -/

theorem sameWorld_trans {s t u : State} (h : sameWorld s t) (h' : sameWorld t u) : sameWorld s u := by
  obtain ⟨hcfg, hotp, hag⟩ := h
  obtain ⟨hcfg', hotp', hag'⟩ := h'
  exact ⟨hcfg'.trans hcfg, hotp'.trans hotp, hag'.trans hag⟩

theorem sameCaches_trans {s t u : State} (h : sameCaches s t) (h' : sameCaches t u) : sameCaches s u := by
  obtain ⟨hi, hd⟩ := h
  obtain ⟨hi', hd'⟩ := h'
  exact ⟨hi'.trans hi, hd'.trans hd⟩

/-- The sequence is broken once and stays broken (R172). -/
theorem keyAfterOther_of_keyAfterOther {s t : State} (hcfg : t.cfg = s.cfg)
    (hkey : t.keyState = keyAfterOther s) : keyAfterOther t = keyAfterOther s := by
  unfold keyAfterOther at hkey ⊢
  rw [hcfg, hkey]
  split
  · cases s.keyState <;> rfl
  · rfl

theorem keyAfterOther_congr {s t : State} (hcfg : t.cfg = s.cfg) (hkey : t.keyState = s.keyState) :
    keyAfterOther t = keyAfterOther s := by rw [keyAfterOther, keyAfterOther, hcfg, hkey]

theorem clockFrame_trans {s t u : State} (h : clockFrame s t) (h' : clockFrame t u) : clockFrame s u := by
  obtain ⟨hw, hc, hdist, hdraws, hkey⟩ := h
  obtain ⟨hw', hc', hdist', hdraws', hkey'⟩ := h'
  exact ⟨sameWorld_trans hw hw', sameCaches_trans hc hc', hdist'.trans hdist, hdraws'.trans hdraws,
    hkey'.trans (keyAfterOther_of_keyAfterOther hw.1 hkey)⟩

/-- Reads after a write stay in its frame. -/
theorem clockFrame_read {s t u : State} (h : clockFrame s t) (h' : readFrame t u) : clockFrame s u := by
  obtain ⟨hw, hc, hdist, hdraws, hkey⟩ := h
  obtain ⟨hw', hc', _, hdist', hdraws', hkey'⟩ := h'
  exact ⟨sameWorld_trans hw hw', sameCaches_trans hc hc', hdist'.trans hdist, hdraws'.trans hdraws,
    hkey'.trans hkey⟩

theorem readFrame_refl (s : State) : readFrame s s := ⟨⟨rfl, rfl, rfl⟩, ⟨rfl, rfl⟩, rfl, rfl, rfl, rfl⟩

/-! ## Runs of several steps of one command -/

theorem execTimes_one {i : Instr} {s t : State} (h : exec i s = .next t) : execTimes 1 i s = .next t := by
  rw [execTimes_succ 0 h, execTimes]

theorem execTimes_add {i : Instr} {m n : Nat} {s t u : State} (h : execTimes m i s = .next t)
    (h' : execTimes n i t = .next u) : execTimes (m + n) i s = .next u := by
  induction m generalizing s with
  | zero =>
    cases h
    rwa [Nat.zero_add]
  | succ m ih =>
    rw [Nat.succ_add]
    cases hx : exec i s with
    | next r =>
      rw [execTimes_succ m hx] at h
      rw [execTimes_succ (m + n) hx]
      exact ih h
    | fault f => simp [execTimes, hx] at h
    | refused r => simp [execTimes, hx] at h

end Sys2Proof.Machine
end

section
/-! SUPPORT. The switch sub-sequence, step by step, for CLKSW and for TRIM's safety switch together, and the runs it
has when nothing else moves (41_clock_switch.md R150 to R163; 40_poller.md R136 to R140). -/

namespace Sys2Proof.Machine

/-! ## The step at each position -/

/-- The two commands that run the switch, with their operands (R155, R184). -/
theorem switchArgs_eq_some {cfg : Config} {i : Instr} {loc : Locals} {k : Source} {b : Nat}
    (h : switchArgs cfg i loc = some (k, b)) :
    (∃ src, i = .clksw src ∧ sourceOfCode? src = some k ∧ b = loc.a0.toNat) ∨
      ∃ tg x, i = .trim tg ∧ targetOfCode? tg = some x ∧ k = .lfi ∧ b = cfg.trimSwitchTimeoutMs := by
  cases i with
  | clksw src =>
    obtain ⟨k', hk, he⟩ := Option.map_eq_some_iff.mp h
    cases he
    exact .inl ⟨src, rfl, hk, rfl⟩
  | trim tg =>
    obtain ⟨x, hx, he⟩ := Option.map_eq_some_iff.mp h
    cases he
    exact .inr ⟨tg, x, rfl, hx, rfl, rfl⟩
  | _ => simp [switchArgs] at h

/-- The operands of the switch are the latched words and the parameters. -/
theorem switchArgs_congr {cfg cfg' : Config} {i : Instr} {loc loc' : Locals} (hcfg : cfg' = cfg)
    (ha0 : loc'.a0 = loc.a0) : switchArgs cfg' i loc' = switchArgs cfg i loc := by
  subst hcfg
  cases i <;> simp [switchArgs, ha0]

section Steps

variable {i : Instr} {s : State} {loc : Locals} {k : Source} {b : Nat}

theorem exec_switch_start (hk : switchArgs s.cfg i loc = some (k, b)) (hs : s.engine = .run .start loc) :
    exec i s = .next (switchEnable k loc s) := by
  rcases switchArgs_eq_some hk with ⟨src, rfl, hsrc, rfl⟩ | ⟨tg, x, rfl, hx, rfl, rfl⟩
  · simp only [exec, execClksw, hs, hsrc]
  · simp only [exec, execTrim, hs, hx]

theorem exec_switch_pollStableFirst (hk : switchArgs s.cfg i loc = some (k, b))
    (hs : s.engine = .run .pollStableFirst loc) : exec i s = .next (switchPollStableFirst k b loc s) := by
  rcases switchArgs_eq_some hk with ⟨src, rfl, hsrc, rfl⟩ | ⟨tg, x, rfl, hx, rfl, rfl⟩
  · simp only [exec, execClksw, hs, hsrc]
  · simp only [exec, execTrim, hs, hx, trimBudget]

theorem exec_switch_pollStable (hk : switchArgs s.cfg i loc = some (k, b))
    (hs : s.engine = .run .pollStable loc) : exec i s = .next (switchPollStable k b loc s) := by
  rcases switchArgs_eq_some hk with ⟨src, rfl, hsrc, rfl⟩ | ⟨tg, x, rfl, hx, rfl, rfl⟩
  · simp only [exec, execClksw, hs, hsrc]
  · simp only [exec, execTrim, hs, hx, trimBudget]

theorem exec_switch_select (hk : switchArgs s.cfg i loc = some (k, b)) (hs : s.engine = .run .select loc) :
    exec i s = .next (switchSelect k loc s) := by
  rcases switchArgs_eq_some hk with ⟨src, rfl, hsrc, rfl⟩ | ⟨tg, x, rfl, hx, rfl, rfl⟩
  · simp only [exec, execClksw, hs, hsrc]
  · simp only [exec, execTrim, hs, hx]

theorem exec_switch_pollSwitchFirst (hk : switchArgs s.cfg i loc = some (k, b))
    (hs : s.engine = .run .pollSwitchFirst loc) : exec i s = .next (switchPollStatusFirst k b loc s) := by
  rcases switchArgs_eq_some hk with ⟨src, rfl, hsrc, rfl⟩ | ⟨tg, x, rfl, hx, rfl, rfl⟩
  · simp only [exec, execClksw, hs, hsrc]
  · simp only [exec, execTrim, hs, hx, trimBudget]

theorem exec_switch_pollSwitch (hk : switchArgs s.cfg i loc = some (k, b))
    (hs : s.engine = .run .pollSwitch loc) : exec i s = .next (switchPollStatus k b loc s) := by
  rcases switchArgs_eq_some hk with ⟨src, rfl, hsrc, rfl⟩ | ⟨tg, x, rfl, hx, rfl, rfl⟩
  · simp only [exec, execClksw, hs, hsrc]
  · simp only [exec, execTrim, hs, hx, trimBudget]

theorem exec_switch_finishing {st : Status} (hk : switchArgs s.cfg i loc = some (k, b))
    (hs : s.engine = .run (.finishing st) loc) : exec i s = .next (finish st s) := by
  rcases switchArgs_eq_some hk with ⟨src, rfl, hsrc, rfl⟩ | ⟨tg, x, rfl, hx, rfl, rfl⟩
  · simp only [exec, execClksw, hs, hsrc]
  · exact exec_trim_finishing hx hs

end Steps

theorem exec_clksw_switched {src : BitVec 4} {k : Source} {s : State} {loc : Locals}
    (hk : sourceOfCode? src = some k) (hs : s.engine = .run .switched loc) :
    exec (.clksw src) s = .next (finish .ok (s.setCsw .switched)) := by
  simp only [exec, execClksw, hs, hk]

/-! ## Step 1: the enable write (R153) -/

/-- Setting an enable bit leaves it set, and the others as they were. -/
theorem getBit_enableSet {cfg : Config} (h : configWf cfg = true) (k : Source) (old : Word) (p : Nat) :
    getBit (merge (cpmRw cfg .oscCs) old (old ||| bit (enPos cfg.layout k))) p =
      (getBit old p || decide (p = enPos cfg.layout k)) := by
  rw [getBit_merge_set, getBit_bit]
  · simp [enPos_lt h k, eq_comm]
  · by_cases hp : p = enPos cfg.layout k
    · subst hp
      left
      cases k <;> simp [getBit_cpmRw_oscCs h, enPos]
    · exact .inr (getBit_bit_ne (Ne.symm hp))

/-- Settles O23: the step is the enable write; its effect on OSC_CS is read bit by bit. -/
theorem switchEnablesOscillator : Obligations.SwitchEnablesOscillator := by
  intro i s loc k b hc hs hk
  refine ⟨_, exec_switch_start hk hs, ?_⟩
  rw [switchEnable, regSet_cpm_plain (by decide) (by decide)]
  refine ⟨?_, fun p hp => ?_, rfl, rfl, rfl, rfl, ⟨rfl, rfl, rfl⟩, ⟨rfl, rfl⟩, rfl, rfl, rfl⟩
  · exact (getBit_enableSet hc k s.cpm.oscCs _).trans (by simp)
  · exact (getBit_enableSet hc k s.cpm.oscCs p).trans (by simp [hp])

/-! ## Steps 2 and 4: the polls (R138, R153) -/

/-- Everything one read of a poll does: where it goes on, and the count it leaves (R138). -/
theorem pollRead_spec (r : Reg) (mask target : Word) (b : Nat) (here next : Pos) (loc : Locals) (s : State) :
    ∃ pos loc', pollRead r mask target b here next loc s = goto pos loc' (regRead r s) ∧ sameLatched loc loc' ∧
      (readValue r s &&& mask = target → pos = next) ∧
      (readValue r s &&& mask ≠ target → b = 0 → pos = here) ∧
      (readValue r s &&& mask ≠ target → b ≠ 0 → 1 < loc.n → pos = here ∧ loc'.n = loc.n - 1) ∧
      (readValue r s &&& mask ≠ target → b ≠ 0 → loc.n ≤ 1 → pos = .finishing .timeout) := by
  rcases pollRead_cases r mask target b here next loc s with
    ⟨hm, h⟩ | ⟨hm, hb, n, _, hn, h⟩ | ⟨hm, hb, hle, h⟩
  · exact ⟨_, _, h, ⟨rfl, rfl, rfl⟩, fun _ => rfl, fun hno => absurd hm hno, fun hno => absurd hm hno,
      fun hno => absurd hm hno⟩
  · refine ⟨_, _, h, ⟨rfl, rfl, rfl⟩, fun hyes => absurd hyes hm, fun _ _ => rfl, fun _ hb0 _ => ⟨rfl, hn hb0⟩,
      fun _ hb0 hle => ?_⟩
    omega
  · refine ⟨_, _, h, ⟨rfl, rfl, rfl⟩, fun hyes => absurd hyes hm, fun _ hb0 => absurd hb0 hb, fun _ _ hlt => ?_,
      fun _ _ _ => rfl⟩
    omega

/-- One read of the stability poll with `n` reads left (R153, step 2). -/
theorem switchPollStable_spec {s : State} (hc : configWf s.cfg = true) (k : Source) (b : Nat) (loc : Locals) :
    ∃ t pos loc', switchPollStable k b loc s = t ∧ t.engine = .run pos loc' ∧ t.cmdif = s.cmdif ∧
      t.trace = .read .engine (.cpm .oscCs) s.cpm.oscCs :: s.trace ∧ readFrame s t ∧
      loc'.cmd = loc.cmd ∧ loc'.a0 = loc.a0 ∧ loc'.a1 = loc.a1 ∧
      (s.oscStable k = true → pos = .select) ∧
      (s.oscStable k = false → b = 0 → pos = .pollStable) ∧
      (s.oscStable k = false → b ≠ 0 → 1 < loc.n → pos = .pollStable ∧ loc'.n = loc.n - 1) ∧
      (s.oscStable k = false → b ≠ 0 → loc.n ≤ 1 → pos = .finishing .timeout) := by
  obtain ⟨pos, loc', h, ⟨hcmd, ha0, ha1⟩, hmatch, hstay, hcount, hlast⟩ := pollRead_spec (.cpm .oscCs)
    (bit (stablePos s.cfg.layout k)) (bit (stablePos s.cfg.layout k)) b .pollStable .select loc s
  have hiff := oscStable_match hc k
  rw [← Bool.not_eq_true, ← hiff]
  have hread := regRead_cpm_eq (q := .oscCs) (by decide) s
  refine ⟨_, pos, loc', h, rfl, ?_, ?_, readFrame_goto (readFrame_regRead (by decide) s) _ _,
    hcmd, ha0, ha1, hmatch, hstay, hcount, hlast⟩ <;> rw [hread] <;> rfl

/-- One read of the switch-status poll with `n` reads left (R153, step 4). -/
theorem switchPollStatus_spec {s : State} (hc : configWf s.cfg = true) (k : Source) (b : Nat) (loc : Locals) :
    ∃ t pos loc', switchPollStatus k b loc s = t ∧ t.engine = .run pos loc' ∧
      t.cmdif = { s.cmdif with csw := .switching } ∧
      t.trace = .read .engine (.cpm .sysClk) s.cpm.sysClk :: s.trace ∧ readFrame s t ∧
      loc'.cmd = loc.cmd ∧ loc'.a0 = loc.a0 ∧ loc'.a1 = loc.a1 ∧
      (s.selStat = k → pos = .switched) ∧
      (s.selStat ≠ k → b = 0 → pos = .pollSwitch) ∧
      (s.selStat ≠ k → b ≠ 0 → 1 < loc.n → pos = .pollSwitch ∧ loc'.n = loc.n - 1) ∧
      (s.selStat ≠ k → b ≠ 0 → loc.n ≤ 1 → pos = .finishing .timeout) := by
  obtain ⟨pos, loc', h, ⟨hcmd, ha0, ha1⟩, hmatch, hstay, hcount, hlast⟩ := pollRead_spec (.cpm .sysClk)
    (bit s.cfg.layout.selStat) (flag s.cfg.layout.selStat (sourceBit k)) b .pollSwitch .switched loc s
  have hiff := selStat_match hc k
  rw [Ne, ← hiff]
  have hread := regRead_cpm_eq (q := .sysClk) (by decide) s
  refine ⟨_, pos, loc', congrArg (State.setCsw · .switching) h, rfl, ?_, ?_,
    readFrame_setCsw (readFrame_goto (readFrame_regRead (by decide) s) _ _) _,
    hcmd, ha0, ha1, hmatch, hstay, hcount, hlast⟩ <;> rw [hread] <;> rfl

/-- The count with which a poll's first read starts (R137). -/
theorem pollEntry_n {cfg : Config} {b : Nat} (hb : b ≠ 0) (loc : Locals) :
    (pollEntry cfg b loc).n = b * cfg.pollItersPerMs := by
  rw [pollEntry_eq]
  simp [hb, pollCount]

/-- Settles O24: a poll's first read is a later one with the count assigned. -/
theorem switchPollsRead : Obligations.SwitchPollsRead := by
  intro i s loc k b n hc hk
  obtain ⟨hcmd, ha0, ha1⟩ := sameLatched_pollEntry s.cfg b loc
  refine ⟨?_, ?_⟩
  · rintro (⟨hs, rfl⟩ | ⟨hs, rfl⟩)
    · obtain ⟨t, pos, loc', ht, he, hcm, htr, hfr, hcmd', ha0', ha1', hmatch, hstay, hcount, hlast⟩ :=
        switchPollStable_spec hc k b (pollEntry s.cfg b loc)
      refine ⟨t, pos, loc', (exec_switch_pollStableFirst hk hs).trans (congrArg _ ht), he, hcm, htr, hfr,
        hcmd'.trans hcmd, ha0'.trans ha0, ha1'.trans ha1, hmatch, hstay, fun hno hb => ?_, fun hno hb => ?_⟩
      · rw [← pollEntry_n hb loc]; exact hcount hno hb
      · rw [← pollEntry_n hb loc]; exact hlast hno hb
    · obtain ⟨t, pos, loc', ht, h⟩ := switchPollStable_spec hc k b loc
      exact ⟨t, pos, loc', (exec_switch_pollStable hk hs).trans (congrArg _ ht), h⟩
  · rintro (⟨hs, rfl⟩ | ⟨hs, rfl⟩)
    · obtain ⟨t, pos, loc', ht, he, hcm, htr, hfr, hcmd', ha0', ha1', hmatch, hstay, hcount, hlast⟩ :=
        switchPollStatus_spec hc k b (pollEntry s.cfg b loc)
      refine ⟨t, pos, loc', (exec_switch_pollSwitchFirst hk hs).trans (congrArg _ ht), he, hcm, htr, hfr,
        hcmd'.trans hcmd, ha0'.trans ha0, ha1'.trans ha1, hmatch, hstay, fun hno hb => ?_, fun hno hb => ?_⟩
      · rw [← pollEntry_n hb loc]; exact hcount hno hb
      · rw [← pollEntry_n hb loc]; exact hlast hno hb
    · obtain ⟨t, pos, loc', ht, h⟩ := switchPollStatus_spec hc k b loc
      exact ⟨t, pos, loc', (exec_switch_pollSwitch hk hs).trans (congrArg _ ht), h⟩

/-! ## Step 3: the select write (R153) -/

/-- The select write moves SEL alone. -/
theorem getBit_switchSelect_other {s : State} (k : Source) (loc : Locals) {p : Nat}
    (hp : p ≠ s.cfg.layout.sel) : getBit (switchSelect k loc s).cpm.sysClk p = getBit s.cpm.sysClk p := by
  have hclk : (switchSelect k loc s).cpm.sysClk = merge (cpmRw s.cfg .sysClk) s.cpm.sysClk
      (merge (bit s.cfg.layout.sel) s.cpm.sysClk (flag s.cfg.layout.sel (sourceBit k))) := regRmw_sysClk _ _ s
  rw [hclk, getBit_merge, getBit_merge, getBit_bit_ne (Ne.symm hp)]
  simp

/-- Settles O25: the step is the read-modify-write of SEL. -/
theorem switchSelectsSource : Obligations.SwitchSelectsSource := by
  intro i s loc k b hc hs hk
  refine ⟨_, exec_switch_select hk hs, switchSelect_sel hc k loc,
    fun p hp => getBit_switchSelect_other k loc hp, ?_⟩
  rw [switchSelect, regRmw_cpm_plain (by decide) (by decide)]
  exact ⟨rfl, rfl, rfl, rfl, ⟨rfl, rfl, rfl⟩, ⟨rfl, rfl⟩, rfl, rfl, rfl⟩

/-- Settles O26: both last steps are `finish`, the one after a match with SWITCHED. -/
theorem clkswFinishes : Obligations.ClkswFinishes := by
  intro src s loc k hk
  refine ⟨fun hs => ⟨_, exec_clksw_switched hk hs, rfl, rfl, rfl, readFrame_finish (readFrame_setCsw
    (readFrame_refl s) _) _⟩, fun hs => ?_⟩
  have hx : exec (.clksw src) s = .next (finish .timeout s) := by simp only [exec, execClksw, hs, hk]
  exact ⟨_, hx, ⟨rfl, rfl⟩, rfl, readFrame_finish (readFrame_refl s) _⟩

/-! ## Whole runs -/

theorem oscStable_congr {s t : State} (hcfg : t.cfg = s.cfg) (hosc : t.cpm.oscCs = s.cpm.oscCs) (k : Source) :
    t.oscStable k = s.oscStable k := by rw [State.oscStable, State.oscStable, hcfg, hosc]

theorem oscEn_congr {s t : State} (hcfg : t.cfg = s.cfg) (hosc : t.cpm.oscCs = s.cpm.oscCs) (k : Source) :
    t.oscEn k = s.oscEn k := by rw [State.oscEn, State.oscEn, hcfg, hosc]

theorem selStat_congr {s t : State} (hcfg : t.cfg = s.cfg) (hclk : t.cpm.sysClk = s.cpm.sysClk) :
    t.selStat = s.selStat := by rw [State.selStat, State.selStat, hcfg, hclk]

/-- STABLE and the enables are bits of their own (R36). -/
theorem stablePos_ne_enPos {cfg : Config} (h : configWf cfg = true) (k j : Source) :
    stablePos cfg.layout k ≠ enPos cfg.layout j := by
  obtain ⟨_, _, h1, h2, h3, h4, _⟩ := osc_positions h
  cases k <;> cases j <;> simp only [stablePos, enPos] <;> exact Ne.symm ‹_›

/-- What the first step leaves for the polls: STABLE and SYS_CLK are as before. -/
theorem switch_first_step {i : Instr} {s : State} {loc : Locals} {k : Source} {b : Nat}
    (hc : configWf s.cfg = true) (hs : s.engine = .run .start loc) (hk : switchArgs s.cfg i loc = some (k, b)) :
    ∃ t, exec i s = .next t ∧ t.engine = .run .pollStableFirst loc ∧ switchArgs t.cfg i loc = some (k, b) ∧
      t.oscEn k = true ∧ t.oscStable k = s.oscStable k ∧ t.cpm = { s.cpm with oscCs := t.cpm.oscCs } ∧
      (∀ p, p ≠ enPos s.cfg.layout k → getBit t.cpm.oscCs p = getBit s.cpm.oscCs p) ∧
      t.cmdif = { s.cmdif with csw := .oscillatorEnabling } ∧
      t.trace = .modify .engine (.cpm .oscCs) s.cpm.oscCs
        (s.cpm.oscCs ||| bit (enPos s.cfg.layout k)) :: s.trace ∧ clockFrame s t := by
  obtain ⟨t, ht, hen, hbits, hcpm, hcm, he, htr, hfr⟩ := switchEnablesOscillator i s loc k b hc hs hk
  have hcfg : t.cfg = s.cfg := hfr.1.1
  refine ⟨t, ht, he, hcfg.symm ▸ hk, hen, ?_, hcpm, hbits, hcm, htr, hfr⟩
  rw [State.oscStable, State.oscStable, hcfg, hbits _ (stablePos_ne_enPos hc k k)]

/-- Up to the second poll with the source stable: three accesses, with SEL the source at the end (R153). -/
theorem switch_to_second_poll {i : Instr} {s : State} {loc : Locals} {k : Source} {b : Nat}
    (hc : configWf s.cfg = true) (hs : s.engine = .run .start loc) (hk : switchArgs s.cfg i loc = some (k, b))
    (hstable : s.oscStable k = true) :
    ∃ t loc' v0 w0 v1 v2 w2, execTimes 3 i s = .next t ∧ t.engine = .run .pollSwitchFirst loc' ∧
      switchArgs t.cfg i loc' = some (k, b) ∧ t.oscEn k = true ∧ t.sel = k ∧ t.selStat = s.selStat ∧
      (∀ p, p ≠ enPos s.cfg.layout k → getBit t.cpm.oscCs p = getBit s.cpm.oscCs p) ∧
      (∀ p, p ≠ s.cfg.layout.sel → getBit t.cpm.sysClk p = getBit s.cpm.sysClk p) ∧
      t.cpm = { s.cpm with oscCs := t.cpm.oscCs, sysClk := t.cpm.sysClk } ∧
      t.cmdif = { s.cmdif with csw := .oscillatorStable } ∧
      t.trace = .modify .engine (.cpm .sysClk) v2 w2 :: .read .engine (.cpm .oscCs) v1 ::
        .modify .engine (.cpm .oscCs) v0 w0 :: s.trace ∧ clockFrame s t := by
  obtain ⟨t1, hx1, he1, hk1, hen1, hst1, hcpm1, hbits1, hcm1, htr1, hfr1⟩ := switch_first_step hc hs hk
  have hcfg1 : t1.cfg = s.cfg := hfr1.1.1
  obtain ⟨t2, pos, loc2, hx2, he2, hcm2, htr2, hfr2, _, ha2, _, hmatch, _⟩ :=
    (switchPollsRead i t1 loc k b (b * t1.cfg.pollItersPerMs) (hcfg1 ▸ hc) hk1).1 (.inl ⟨he1, rfl⟩)
  rw [hmatch (hst1.trans hstable)] at he2
  have hcfg2 : t2.cfg = s.cfg := hfr2.1.1.trans hcfg1
  have hcpm2 : t2.cpm = t1.cpm := hfr2.2.2.1
  have hk2 : switchArgs t2.cfg i loc2 = some (k, b) := (switchArgs_congr hcfg2 ha2).trans hk
  have hx3 := exec_switch_select hk2 he2
  have hc2 : configWf t2.cfg = true := hcfg2 ▸ hc
  have hsel := switchSelect_sel hc2 k loc2
  have hbits3 : ∀ p, p ≠ s.cfg.layout.sel →
      getBit (switchSelect k loc2 t2).cpm.sysClk p = getBit s.cpm.sysClk p := fun p hp => by
    rw [getBit_switchSelect_other k loc2 (hcfg2 ▸ hp), hcpm2, hcpm1]
  have hfr3 : clockFrame t2 (switchSelect k loc2 t2) := by
    rw [switchSelect, regRmw_cpm_plain (by decide) (by decide)]
    exact ⟨⟨rfl, rfl, rfl⟩, ⟨rfl, rfl⟩, rfl, rfl, rfl⟩
  have hosc : (switchSelect k loc2 t2).cpm.oscCs = t1.cpm.oscCs := by
    rw [switchSelect, regRmw_cpm_plain (by decide) (by decide), ← hcpm2]; rfl
  have hcfg3 : (switchSelect k loc2 t2).cfg = s.cfg := hfr3.1.1.trans hcfg2
  refine ⟨switchSelect k loc2 t2, statusOk loc2, s.cpm.oscCs, s.cpm.oscCs ||| bit (enPos s.cfg.layout k),
    t1.cpm.oscCs, t2.cpm.sysClk, merge (bit t2.cfg.layout.sel) t2.cpm.sysClk
      (flag t2.cfg.layout.sel (sourceBit k)),
    execTimes_add (execTimes_two hx1 hx2) (execTimes_one hx3), rfl,
    (switchArgs_congr hcfg3 ha2).trans hk, ?_, hsel, ?_, ?_, hbits3, ?_, ?_, ?_,
    clockFrame_trans (clockFrame_read hfr1 hfr2) hfr3⟩
  · rw [← hen1]
    exact oscEn_congr (hcfg3.trans hcfg1.symm) hosc k
  · rw [State.selStat, State.selStat, hcfg3, hbits3 _ (Ne.symm (sys_positions hc).2.2.1)]
  · rw [hosc]; exact hbits1
  · rw [switchSelect, regRmw_cpm_plain (by decide) (by decide)]
    simp only [Cpm.setWord, State.log_cpm, State.setCsw_cpm, State.setKey_cpm, State.setCpm_cpm, goto_eq,
      State.setEngine_cpm]
    rw [hcpm2, hcpm1]
  · rw [switchSelect, regRmw_cpm_plain (by decide) (by decide)]
    simp [hcm2, hcm1]
  · rw [switchSelect, regRmw_cpm_plain (by decide) (by decide)]
    simp [htr2, htr1, Cpm.word]

/-- Settles O27: the polls match at their first reads, and the fifth step is the finish. -/
theorem clkswToTheRunningSource : Obligations.ClkswToTheRunningSource := by
  intro src s loc k hc hs hsrc hstable hstat
  have hk : switchArgs s.cfg (.clksw src) loc = some (k, loc.a0.toNat) := by simp [switchArgs, hsrc]
  obtain ⟨t, loc', v0, w0, v1, v2, w2, hx, he, hk', hen, hsel, hstat', hosc, hclk, hcpm, hcm, htr, hfr⟩ :=
    switch_to_second_poll hc hs hk hstable
  have hcfg : t.cfg = s.cfg := hfr.1.1
  obtain ⟨u, pos, loc'', hxu, heu, hcmu, htru, hfru, _, _, _, hmatch, _⟩ :=
    (switchPollsRead (.clksw src) t loc' k _ _ (hcfg ▸ hc) hk').2 (.inl ⟨he, rfl⟩)
  rw [hmatch (hstat'.trans hstat)] at heu
  have hcfgu : u.cfg = t.cfg := hfru.1.1
  have hcpmu : u.cpm = t.cpm := hfru.2.2.1
  have hend := exec_clksw_switched hsrc heu
  refine ⟨finish .ok (u.setCsw .switched), v0, v1, v2, t.cpm.sysClk, w0, w2,
    execTimes_add hx (execTimes_two hxu hend), (oscEn_congr hcfgu (congrArg Cpm.oscCs hcpmu) k).trans hen,
    (sel_congr hcfgu (congrArg Cpm.sysClk hcpmu)).trans hsel,
    (selStat_congr hcfgu (congrArg Cpm.sysClk hcpmu)).trans (hstat'.trans hstat), ?_, ?_, ?_, ?_, rfl, ?_,
    clockFrame_read hfr (readFrame_finish (readFrame_setCsw hfru _) _)⟩
  · simpa [hcpmu] using hosc
  · simpa [hcpmu] using hclk
  · simpa [hcpmu] using hcpm
  · simp [finish_eq, hcmu, hcm]
  · simp [finish_eq, htru, htr]

end Sys2Proof.Machine
end

section
/-! SUPPORT. The polls of the switch that see no match: a bounded one ends after exactly its count of reads, one with
budget 0 never ends (40_poller.md R137 to R140; 41_clock_switch.md R156, R157, R161). -/

namespace Sys2Proof.Machine

/-! ## Bounded polls -/

/-- A stability poll with `m + 1` reads left and no match makes them all and goes on to `finish(TIMEOUT)`. -/
theorem stablePoll_runs_out {i : Instr} {k : Source} {b : Nat} (hb : b ≠ 0) (m : Nat) {s : State} {loc : Locals}
    (hc : configWf s.cfg = true) (hk : switchArgs s.cfg i loc = some (k, b)) (hno : s.oscStable k = false)
    (hs : (s.engine = .run .pollStableFirst loc ∧ m + 1 = b * s.cfg.pollItersPerMs) ∨
      (s.engine = .run .pollStable loc ∧ m + 1 = loc.n)) :
    ∃ t loc', execTimes (m + 1) i s = .next t ∧ t.engine = .run (.finishing .timeout) loc' ∧
      switchArgs t.cfg i loc' = some (k, b) ∧ t.cmdif = s.cmdif ∧ readFrame s t ∧
      t.trace = List.replicate (m + 1) (.read .engine (.cpm .oscCs) s.cpm.oscCs) ++ s.trace := by
  induction m generalizing s loc with
  | zero =>
    obtain ⟨t, pos, loc', hx, he, hcm, htr, hfr, _, ha0, _, _, _, _, hlast⟩ :=
      (switchPollsRead i s loc k b 1 hc hk).1 hs
    rw [hlast hno hb (Nat.le_refl 1)] at he
    exact ⟨t, loc', execTimes_one hx, he, (switchArgs_congr hfr.1.1 ha0).trans hk, hcm, hfr, htr⟩
  | succ m ih =>
    obtain ⟨t, pos, loc', hx, he, hcm, htr, hfr, _, ha0, _, _, _, hcount, _⟩ :=
      (switchPollsRead i s loc k b (m + 2) hc hk).1 hs
    obtain ⟨rfl, hn⟩ := hcount hno hb (by omega)
    have hcfg : t.cfg = s.cfg := hfr.1.1
    have hcpm : t.cpm = s.cpm := hfr.2.2.1
    obtain ⟨u, loc'', hxu, heu, hku, hcmu, hfru, htru⟩ := ih (s := t) (loc := loc') (hcfg ▸ hc)
      ((switchArgs_congr hcfg ha0).trans hk) ((oscStable_congr hcfg (by rw [hcpm]) k).trans hno)
      (.inr ⟨he, by omega⟩)
    refine ⟨u, loc'', (execTimes_succ (m + 1) hx).trans hxu, heu, hku, hcmu.trans hcm, readFrame_trans hfr hfru, ?_⟩
    rw [htru, htr, hcpm, List.append_cons, ← List.replicate_succ']

/-- A switch-status poll with `m + 1` reads left and no match makes them all and goes on to
`finish(TIMEOUT)`. -/
theorem statusPoll_runs_out {i : Instr} {k : Source} {b : Nat} (hb : b ≠ 0) (m : Nat) {s : State} {loc : Locals}
    (hc : configWf s.cfg = true) (hk : switchArgs s.cfg i loc = some (k, b)) (hno : s.selStat ≠ k)
    (hs : (s.engine = .run .pollSwitchFirst loc ∧ m + 1 = b * s.cfg.pollItersPerMs) ∨
      (s.engine = .run .pollSwitch loc ∧ m + 1 = loc.n)) :
    ∃ t loc', execTimes (m + 1) i s = .next t ∧ t.engine = .run (.finishing .timeout) loc' ∧
      switchArgs t.cfg i loc' = some (k, b) ∧ t.cmdif = { s.cmdif with csw := .switching } ∧ readFrame s t ∧
      t.trace.length = s.trace.length + (m + 1) := by
  induction m generalizing s loc with
  | zero =>
    obtain ⟨t, pos, loc', hx, he, hcm, htr, hfr, _, ha0, _, _, _, _, hlast⟩ :=
      (switchPollsRead i s loc k b 1 hc hk).2 hs
    rw [hlast hno hb (Nat.le_refl 1)] at he
    exact ⟨t, loc', execTimes_one hx, he, (switchArgs_congr hfr.1.1 ha0).trans hk, hcm, hfr, by simp [htr]⟩
  | succ m ih =>
    obtain ⟨t, pos, loc', hx, he, hcm, htr, hfr, _, ha0, _, _, _, hcount, _⟩ :=
      (switchPollsRead i s loc k b (m + 2) hc hk).2 hs
    obtain ⟨rfl, hn⟩ := hcount hno hb (by omega)
    have hcfg : t.cfg = s.cfg := hfr.1.1
    have hcpm : t.cpm = s.cpm := hfr.2.2.1
    obtain ⟨u, loc'', hxu, heu, hku, hcmu, hfru, htru⟩ := ih (s := t) (loc := loc') (hcfg ▸ hc)
      ((switchArgs_congr hcfg ha0).trans hk) (by rwa [selStat_congr hcfg (congrArg Cpm.sysClk hcpm)])
      (.inr ⟨he, by omega⟩)
    refine ⟨u, loc'', (execTimes_succ (m + 1) hx).trans hxu, heu, hku, by rw [hcmu, hcm],
      readFrame_trans hfr hfru, ?_⟩
    rw [htru, htr, List.length_cons]
    omega

/-- A poll with a budget makes at least one read (R9, R137). -/
theorem exists_pollReads {cfg : Config} (h : configWf cfg = true) {b : Nat} (hb : b ≠ 0) :
    ∃ m, m + 1 = b * cfg.pollItersPerMs :=
  Nat.exists_eq_add_one.mpr (pollCount_pos h hb) |>.imp fun _ h => h.symm

/-- Settles O28: the enable write, the poll that runs out, and the finish. -/
theorem stabilityTimeoutAfterExactReads : Obligations.StabilityTimeoutAfterExactReads := by
  intro i s loc k b hc hs hk hb hno
  obtain ⟨t, hx, he, hkt, hen, hstable, hcpm, _, hcm, htr, hfr⟩ := switch_first_step hc hs hk
  have hcfg : t.cfg = s.cfg := hfr.1.1
  have hct : configWf t.cfg = true := hcfg ▸ hc
  obtain ⟨m, hm⟩ := exists_pollReads hct hb
  obtain ⟨u, loc', hxu, heu, hku, hcmu, hfru, htru⟩ :=
    stablePoll_runs_out hb m hct hkt (hstable.trans hno) (.inl ⟨he, hm⟩)
  have hcpmu : u.cpm = t.cpm := hfru.2.2.1
  have hend := exec_switch_finishing hku heu
  have hsteps : b * s.cfg.pollItersPerMs + 2 = 1 + (m + 1) + 1 := by rw [hm, hcfg]; omega
  refine ⟨finish .timeout u, ?_, ?_, rfl, ?_, ?_, ?_, clockFrame_read hfr (readFrame_finish hfru _)⟩
  · rw [hsteps]
    exact execTimes_add (execTimes_add (execTimes_one hx) hxu) (execTimes_one hend)
  · simp [finish_eq, hcmu, hcm]
  · exact (oscEn_congr hfru.1.1 (congrArg Cpm.oscCs hcpmu) k).trans hen
  · simpa [hcpmu] using hcpm
  · simp [finish_eq, htru, htr, hcpmu, hm, hcfg]

/-- Settles O29: the switch as far as its second poll, the poll that runs out, and the finish. -/
theorem switchStatusTimeoutAfterExactReads : Obligations.SwitchStatusTimeoutAfterExactReads := by
  intro i s loc k b hc hs hk hb hstable hno
  obtain ⟨t, loc', v0, w0, v1, v2, w2, hx, he, hkt, hen, hsel, hstat, _, _, hcpm, hcm, htr, hfr⟩ :=
    switch_to_second_poll hc hs hk hstable
  have hcfg : t.cfg = s.cfg := hfr.1.1
  have hct : configWf t.cfg = true := hcfg ▸ hc
  obtain ⟨m, hm⟩ := exists_pollReads hct hb
  obtain ⟨u, loc'', hxu, heu, hku, hcmu, hfru, htru⟩ :=
    statusPoll_runs_out hb m hct hkt (by rwa [hstat]) (.inl ⟨he, hm⟩)
  have hcfgu : u.cfg = t.cfg := hfru.1.1
  have hcpmu : u.cpm = t.cpm := hfru.2.2.1
  have hend := exec_switch_finishing hku heu
  have hreads : b * s.cfg.pollItersPerMs = m + 1 := by rw [hm, hcfg]
  refine ⟨finish .timeout u, ?_, ?_, rfl, (sel_congr hcfgu (congrArg Cpm.sysClk hcpmu)).trans hsel,
    (selStat_congr hcfgu (congrArg Cpm.sysClk hcpmu)).trans hstat,
    (oscEn_congr hcfgu (congrArg Cpm.oscCs hcpmu) k).trans hen, by simpa [hcpmu] using hcpm, ?_,
    clockFrame_read hfr (readFrame_finish hfru _)⟩
  · rw [hreads, show m + 1 + 4 = 3 + (m + 1) + 1 by omega]
    exact execTimes_add (execTimes_add hx hxu) (execTimes_one hend)
  · simp [finish_eq, hcmu, hcm]
  · rw [hreads, show (finish .timeout u).trace = u.trace from rfl, htru, htr]
    simp only [List.length_cons]
    omega

/-! ## Budget 0 -/

/-- With budget 0 no read of a poll leads to `finish(TIMEOUT)` (R161). -/
theorem pollRead_zero_engine {r : Reg} {mask target : Word} {here next : Pos} {loc : Locals} {s : State}
    (hhere : here ≠ .finishing .timeout) (hnext : next ≠ .finishing .timeout) (loc' : Locals) :
    (pollRead r mask target 0 here next loc s).engine ≠ .run (.finishing .timeout) loc' := by
  rcases pollRead_cases r mask target 0 here next loc s with ⟨_, h⟩ | ⟨_, _, n, _, _, h⟩ | ⟨_, hb, _, _⟩
  · rw [h]; simp [hnext]
  · rw [h]; simp [hhere]
  · exact absurd rfl hb

/-- No step of a CLKSW with budget 0 leads to `finish(TIMEOUT)` (R161). -/
theorem execClksw_zero_engine {src : BitVec 4} {s t : State} {pos : Pos} {loc : Locals}
    (hs : s.engine = .run pos loc) (ha0 : loc.a0 = 0) (hx : execClksw src s = .next t) (loc' : Locals) :
    t.engine ≠ .run (.finishing .timeout) loc' := by
  have hpoll : ∀ r mask target here next l u, here ≠ .finishing .timeout → next ≠ .finishing .timeout →
      (pollRead r mask target loc.a0.toNat here next l u).engine ≠ .run (.finishing .timeout) loc' := by
    intro r mask target here next l u hhere hnext
    rw [show loc.a0.toNat = 0 by rw [ha0]; rfl]
    exact pollRead_zero_engine hhere hnext loc'
  unfold execClksw at hx
  split at hx <;> cases hx <;> rename_i hs' _ <;> rw [hs] at hs' <;> cases hs'
  · simp [finish_eq]
  · simp [switchEnable]
  · exact hpoll _ _ _ _ _ _ _ (by simp) (by simp)
  · exact hpoll _ _ _ _ _ _ _ (by simp) (by simp)
  · simp [switchSelect]
  · exact hpoll _ _ _ _ _ _ _ (by simp) (by simp)
  · exact hpoll _ _ _ _ _ _ _ (by simp) (by simp)
  · simp [finish_eq]
  · simp [finish_eq]

/-- With budget 0 and the oscillator not stable CLKSW polls on, one read a step (R161, R330). -/
theorem stablePoll_never_ends {src : BitVec 4} {k : Source} {s : State} {loc : Locals}
    (hc : configWf s.cfg = true) (hs : s.engine = .run .start loc)
    (hk : switchArgs s.cfg (.clksw src) loc = some (k, 0)) (hno : s.oscStable k = false) (j : Nat) :
    ∃ t loc', execTimes (j + 1) (.clksw src) s = .next t ∧
      t.engine = .run (if j = 0 then .pollStableFirst else .pollStable) loc' ∧
      t.cmdif = { s.cmdif with csw := .oscillatorEnabling } ∧ t.trace.length = s.trace.length + (j + 1) ∧
      t.cfg = s.cfg ∧ switchArgs t.cfg (.clksw src) loc' = some (k, 0) ∧ t.oscStable k = false := by
  induction j with
  | zero =>
    obtain ⟨t, hx, he, hkt, _, hstable, _, _, hcm, htr, hfr⟩ := switch_first_step hc hs hk
    exact ⟨t, loc, execTimes_one hx, he, hcm, by simp [htr], hfr.1.1, hkt, hstable.trans hno⟩
  | succ j ih =>
    obtain ⟨t, loc', hx, he, hcm, htr, hcfg, hkt, hnot⟩ := ih
    obtain ⟨n, hn⟩ : ∃ n, (t.engine = .run .pollStableFirst loc' ∧ n = 0 * t.cfg.pollItersPerMs) ∨
        (t.engine = .run .pollStable loc' ∧ n = loc'.n) := by
      by_cases hj : j = 0
      · exact ⟨_, .inl ⟨by simpa [hj] using he, rfl⟩⟩
      · exact ⟨_, .inr ⟨by simpa [hj] using he, rfl⟩⟩
    obtain ⟨u, pos, loc'', hxu, heu, hcmu, htru, hfru, _, ha0, _, _, hstay, _⟩ :=
      (switchPollsRead (.clksw src) t loc' k 0 n (hcfg ▸ hc) hkt).1 hn
    rw [hstay hnot rfl] at heu
    have hcfgu : u.cfg = t.cfg := hfru.1.1
    refine ⟨u, loc'', execTimes_add hx (execTimes_one hxu), by simpa using heu, hcmu.trans hcm, ?_,
      hcfgu.trans hcfg, (switchArgs_congr hcfgu ha0).trans hkt,
      (oscStable_congr hcfgu (congrArg Cpm.oscCs hfru.2.2.1) k).trans hnot⟩
    rw [htru, List.length_cons, htr]
    omega

/-- Settles O30: no read with budget 0 times out, and without a match the poll goes on. -/
theorem budgetZeroNeverTimesOut : Obligations.BudgetZeroNeverTimesOut := by
  refine ⟨fun src s t pos loc hs ha0 _ hx loc' => execClksw_zero_engine hs ha0 hx loc',
    fun src s loc k j hc hs ha0 hsrc hno => ?_⟩
  have hk : switchArgs s.cfg (.clksw src) loc = some (k, 0) := by simp [switchArgs, hsrc, ha0]
  obtain ⟨t, loc', hx, he, hcm, htr, _⟩ := stablePoll_never_ends hc hs hk hno j
  exact ⟨t, loc', hx, he, hcm, htr⟩

end Sys2Proof.Machine
end

section
/-! SUPPORT. The enable bits of OSC_CS under every command (41_clock_switch.md R160): only the switch writes the
register, and it sets a bit. -/

namespace Sys2Proof.Machine

/-- An access of another CPM register leaves a CPM register alone. -/
theorem Accessed.cpm_word {q q' : CpmReg} {s t : State} (h : Accessed (.cpm q) s t) (hne : q' ≠ q) :
    t.cpm.word q' = s.cpm.word q' := by
  rcases h with rfl | ⟨v, e, rfl⟩ | ⟨v, e, rfl⟩
  · rw [regRead_cpm]
  · exact writeReg_cpm_word_ne hne v s
  · simpa using writeReg_cpm_word_ne hne v (drawnBy (.cpm q) s)

theorem Accessed.oscCs {q : CpmReg} {s t : State} (h : Accessed (.cpm q) s t) (hne : .oscCs ≠ q) :
    t.cpm.oscCs = s.cpm.oscCs := h.cpm_word hne

@[simp] theorem switchSelect_oscCs (k : Source) (loc : Locals) (s : State) :
    (switchSelect k loc s).cpm.oscCs = s.cpm.oscCs :=
  (accessed_regRmw (.cpm .sysClk) _ _ s).oscCs (by decide)

@[simp] theorem keyWrite_oscCs (k : Word) (s : State) : (keyWrite k s).cpm.oscCs = s.cpm.oscCs :=
  (accessed_regRmw (.cpm .protKey) _ _ s).oscCs (by decide)

@[simp] theorem keyWriteOverride_oscCs (s : State) : (keyWriteOverride s).cpm.oscCs = s.cpm.oscCs :=
  (accessed_regRmw (.cpm .protKey) _ _ s).oscCs (by decide)

@[simp] theorem regWrite_hsTrim_oscCs (v : Word) (s : State) :
    (regWrite (.cpm .hsTrim) v s).cpm.oscCs = s.cpm.oscCs :=
  (accessed_regWrite (.cpm .hsTrim) v s).oscCs (by decide)

@[simp] theorem ipsEnable_oscCs (loc : Locals) (s : State) : (ipsEnable loc s).cpm.oscCs = s.cpm.oscCs :=
  (accessed_regSet (.cpm .ipsDiv) _ s).oscCs (by decide)

@[simp] theorem ipsWriteField_oscCs (loc : Locals) (s : State) : (ipsWriteField loc s).cpm.oscCs = s.cpm.oscCs :=
  (accessed_regRmw (.cpm .ipsDiv) _ _ s).oscCs (by decide)

@[simp] theorem ipsAssertUpdate_oscCs (loc : Locals) (s : State) :
    (ipsAssertUpdate loc s).cpm.oscCs = s.cpm.oscCs :=
  (accessed_regSet (.cpm .ipsDiv) _ s).oscCs (by decide)

/-- Every bit of OSC_CS that is 1 is still 1. -/
def OscKept (s t : State) : Prop := ∀ p, getBit s.cpm.oscCs p = true → getBit t.cpm.oscCs p = true

theorem oscKept_of_eq {s t : State} (h : t.cpm.oscCs = s.cpm.oscCs) : OscKept s t := fun p hp => by rwa [h]

/-- The enable write sets bits alone (R131, R153). -/
theorem oscKept_switchEnable (k : Source) (loc : Locals) (s : State) : OscKept s (switchEnable k loc s) := by
  intro p hp
  have hosc : (switchEnable k loc s).cpm.oscCs = merge (cpmRw s.cfg .oscCs) s.cpm.oscCs
      (s.cpm.oscCs ||| bit (enPos s.cfg.layout k)) := by
    rw [switchEnable, regSet_cpm_plain (by decide) (by decide)]; rfl
  rw [hosc, getBit_merge, getBit_or, hp]
  simp

theorem execClksw_oscKept {src : BitVec 4} {s t : State} (h : execClksw src s = .next t) : OscKept s t := by
  unfold execClksw at h
  split at h <;> cases h
  case h_4 => exact oscKept_switchEnable _ _ s
  all_goals exact oscKept_of_eq (by simp)

theorem execTrim_oscKept {tg : BitVec 4} {s t : State} (h : execTrim tg s = .next t) : OscKept s t := by
  unfold execTrim at h
  split at h <;> cases h
  case h_4 => exact oscKept_switchEnable _ _ s
  all_goals exact oscKept_of_eq (by simp)

theorem execIpsdiv_oscCs {s t : State} (h : execIpsdiv s = .next t) : t.cpm.oscCs = s.cpm.oscCs := by
  unfold execIpsdiv at h
  split at h
  case h_2 => split at h <;> cases h <;> simp
  all_goals cases h <;> simp

theorem exec_oscKept {i : Instr} {s t : State} (h : exec i s = .next t) : OscKept s t := by
  have hcache : ∀ c, (∀ r, ownReg i r → ∃ q, r = .cache c q) → (∀ tg, i ≠ .trim tg) → OscKept s t :=
    fun c hown hi => oscKept_of_eq (by rw [(exec_shape h).cpm_of_cache hown hi])
  cases i with
  | clksw src => exact execClksw_oscKept h
  | trim tg => exact execTrim_oscKept h
  | ipsdiv => exact oscKept_of_eq (execIpsdiv_oscCs h)
  | getfreq => exact oscKept_of_eq (by rw [execGetfreq_cpm h])
  | cen c en => exact hcache c (fun _ hr => hr) (by simp)
  | crgn c r p => exact hcache c (fun _ hr => hr) (by simp)
  | crgnall c => exact hcache c (fun _ hr => hr) (by simp)
  | cinv c => exact hcache c (fun _ hr => hr) (by simp)
  | cinvr c => exact hcache c (fun _ hr => hr) (by simp)
  | cinit c => exact hcache c (fun _ hr => hr) (by simp)

/-- Settles O32: no command's step clears a bit of OSC_CS. -/
theorem noCommandClearsAnEnable : Obligations.NoCommandClearsAnEnable := by
  intro i s t k h hen
  rw [State.oscEn, (exec_sameParams h).2]
  exact exec_oscKept h _ hen

end Sys2Proof.Machine
end

section
/-! SUPPORT. What other agents can do while a command runs: a host move changes nothing but TRACE and the draw
counter (60_exceptions.md R276). And the bound on the engine steps of CLKSW and TRIM (41_clock_switch.md R158,
42_trim.md R184, R191). -/

namespace Sys2Proof.Machine

/-! ## Moves of other agents -/

/-- All but TRACE and the model's own fields is as before. -/
def sameMachine (s t : State) : Prop := ∃ tr ag d, t = { s with trace := tr, agenda := ag, draws := d }

theorem sameMachine_popEvent (s : State) : sameMachine s (popEvent s) := by
  obtain ⟨ag, d, h⟩ := popEvent_eq s
  exact ⟨s.trace, ag, d, h⟩

theorem sameMachine_hostRead (r : Reg) (s : State) : sameMachine s (hostRead r s) := by
  refine ⟨.read .host r (readValue r s) :: s.trace, s.agenda, (drawnBy r s).draws, ?_⟩
  rw [hostRead]
  unfold drawnBy
  split <;> rfl

/-- While BUSY the host can read, and write what has no effect; all else is a fault (R276). -/
theorem sameMachine_hostStep {a : HostAccess} {s t : State} (hb : s.cmdif.busy = true)
    (h : hostStep a s = .next t) : sameMachine s t := by
  obtain ⟨b, r, _, _, ⟨_, _, _, rfl⟩ | ⟨_, _, v, _, hf, rfl⟩⟩ := hostStep_shape h
  · exact sameMachine_hostRead r s
  · obtain ⟨q, rfl, hro⟩ := writeFault_none_busy hb hf
    rw [hostWrite, writeReg_insideCommand hro hb]
    exact ⟨_, _, _, rfl⟩

/-- While a command runs no other agent moves the engine or the parameters. -/
theorem perform_other_engine {e : Event} {s t : State} (he : e ≠ .engine) (hb : s.cmdif.busy = true)
    (h : perform e s = .next t) : t.engine = s.engine ∧ t.cfg = s.cfg := by
  cases e with
  | engine => exact absurd rfl he
  | host a =>
    obtain ⟨tr, ag, d, rfl⟩ := sameMachine_hostStep hb h
    exact ⟨rfl, rfl⟩
  | env e => cases h; exact ⟨envStep_engine e s, envStep_cfg e s⟩

/-! ## The bound of the switch (R158) -/

theorem clkswFuel_congr {s t : State} (heng : t.engine = s.engine) (hcfg : t.cfg = s.cfg) :
    clkswFuel t = clkswFuel s := by rw [clkswFuel, clkswFuel, heng, hcfg]

theorem trimFuel_congr {s t : State} (heng : t.engine = s.engine) (hcfg : t.cfg = s.cfg) :
    trimFuel t = trimFuel s := by rw [trimFuel, trimFuel, heng, hcfg]

/-- One read of a bounded poll with `n` reads left: it goes on, or `n` falls, or it times out. -/
theorem pollRead_engine {r : Reg} {mask target : Word} {b : Nat} (hb : b ≠ 0) (here next : Pos) (loc : Locals)
    (s : State) :
    ∃ pos loc', (pollRead r mask target b here next loc s).engine = .run pos loc' ∧ loc'.a0 = loc.a0 ∧
      (pos = next ∨ (pos = here ∧ 1 < loc.n ∧ loc'.n = loc.n - 1) ∨ pos = .finishing .timeout) := by
  rcases pollRead_cases r mask target b here next loc s with ⟨_, h⟩ | ⟨_, hn, m, _, hm, h⟩ | ⟨_, _, _, h⟩
  · rw [h]; exact ⟨_, _, rfl, rfl, .inl rfl⟩
  · rw [h]
    exact ⟨_, _, rfl, rfl, .inr (.inl ⟨rfl, hn.resolve_left hb, hm hb⟩)⟩
  · rw [h]; exact ⟨_, _, rfl, rfl, .inr (.inr rfl)⟩

/-- The positions of the switch before its match of the second poll. -/
def switchingPos (pos : Pos) : Prop :=
  pos ∈ [.start, .pollStableFirst, .pollStable, .select, .pollSwitchFirst, .pollSwitch]

/-- Every step of the switch lowers the bound, whatever `after` its steps after the switch are. -/
theorem switchFuel_step {i : Instr} {s t : State} {pos : Pos} {loc : Locals} {k : Source} {b after : Nat}
    (hc : configWf s.cfg = true) (hk : switchArgs s.cfg i loc = some (k, b)) (hb : b ≠ 0) (hafter : 1 ≤ after)
    (hs : s.engine = .run pos loc) (hpos : switchingPos pos) (hx : exec i s = .next t) :
    ∃ pos' loc', t.engine = .run pos' loc' ∧ loc'.a0 = loc.a0 ∧ trimTail pos' = 0 ∧
      switchFuel (pollCount s.cfg b) after pos' loc' < switchFuel (pollCount s.cfg b) after pos loc := by
  have hcount := pollCount_pos hc hb
  have hentry : (pollEntry s.cfg b loc).n = pollCount s.cfg b := pollEntry_n hb loc
  simp only [switchingPos, List.mem_cons, List.not_mem_nil, or_false] at hpos
  rcases hpos with rfl | rfl | rfl | rfl | rfl | rfl
  · rw [exec_switch_start hk hs] at hx
    cases hx
    exact ⟨_, _, rfl, rfl, rfl, by simp [switchFuel]⟩
  · rw [exec_switch_pollStableFirst hk hs] at hx
    cases hx
    obtain ⟨pos', loc', he, ha0, hcases⟩ := pollRead_engine (r := .cpm .oscCs)
      (mask := bit (stablePos s.cfg.layout k)) (target := bit (stablePos s.cfg.layout k)) hb .pollStable .select
      (pollEntry s.cfg b loc) s
    refine ⟨pos', loc', he, ha0.trans (sameLatched_pollEntry _ _ _).2.1, ?_⟩
    rcases hcases with rfl | ⟨rfl, hlt, hn⟩ | rfl <;> refine ⟨rfl, ?_⟩ <;> simp only [switchFuel] <;> omega
  · rw [exec_switch_pollStable hk hs] at hx
    cases hx
    obtain ⟨pos', loc', he, ha0, hcases⟩ := pollRead_engine (r := .cpm .oscCs)
      (mask := bit (stablePos s.cfg.layout k)) (target := bit (stablePos s.cfg.layout k)) hb .pollStable .select
      loc s
    refine ⟨pos', loc', he, ha0, ?_⟩
    rcases hcases with rfl | ⟨rfl, hlt, hn⟩ | rfl <;> refine ⟨rfl, ?_⟩ <;> simp only [switchFuel] <;> omega
  · rw [exec_switch_select hk hs] at hx
    cases hx
    exact ⟨_, _, rfl, rfl, rfl, by simp [switchFuel]⟩
  · rw [exec_switch_pollSwitchFirst hk hs] at hx
    cases hx
    obtain ⟨pos', loc', he, ha0, hcases⟩ := pollRead_engine (r := .cpm .sysClk)
      (mask := bit s.cfg.layout.selStat) (target := flag s.cfg.layout.selStat (sourceBit k)) hb .pollSwitch
      .switched (pollEntry s.cfg b loc) s
    refine ⟨pos', loc', he, ha0.trans (sameLatched_pollEntry _ _ _).2.1, ?_⟩
    rcases hcases with rfl | ⟨rfl, hlt, hn⟩ | rfl <;> refine ⟨rfl, ?_⟩ <;> simp only [switchFuel] <;> omega
  · rw [exec_switch_pollSwitch hk hs] at hx
    cases hx
    obtain ⟨pos', loc', he, ha0, hcases⟩ := pollRead_engine (r := .cpm .sysClk)
      (mask := bit s.cfg.layout.selStat) (target := flag s.cfg.layout.selStat (sourceBit k)) hb .pollSwitch
      .switched loc s
    refine ⟨pos', loc', he, ha0, ?_⟩
    rcases hcases with rfl | ⟨rfl, hlt, hn⟩ | rfl <;> refine ⟨rfl, ?_⟩ <;> simp only [switchFuel] <;> omega

theorem switchPos_cases {pos : Pos} (h : switchPos pos = true) :
    switchingPos pos ∨ pos = .switched ∨ pos = .finishing .timeout := by
  simp only [switchPos, decide_eq_true_eq, List.mem_cons, List.not_mem_nil, or_false] at h
  simp only [switchingPos, List.mem_cons, List.not_mem_nil, or_false]
  tauto

/-- Every step of a CLKSW with a budget lowers its bound (R158). -/
theorem execClksw_fuel {src : BitVec 4} {s t : State} {pos : Pos} {loc : Locals} (hc : configWf s.cfg = true)
    (hs : s.engine = .run pos loc) (hl : legalPos s.cfg (.clksw src) loc.a0 pos = true) (hb : loc.a0 ≠ 0)
    (hx : exec (.clksw src) s = .next t) : clkswFuel t < clkswFuel s := by
  have hcfg : t.cfg = s.cfg := (exec_sameParams hx).2
  have hidle : t.engine = .idle → 0 < clkswFuel s → clkswFuel t < clkswFuel s := fun he hpos => by
    rwa [clkswFuel, he]
  cases hk : sourceOfCode? src with
  | none =>
    obtain rfl : pos = .start := by simpa [legalPos, hk] using hl
    refine hidle ?_ (by simp [clkswFuel, hs, switchFuel])
    simp only [exec, execClksw, hs, hk] at hx
    cases hx
    rfl
  | some k =>
    have hargs : switchArgs s.cfg (.clksw src) loc = some (k, loc.a0.toNat) := by simp [switchArgs, hk]
    have hb' : loc.a0.toNat ≠ 0 := fun h => hb (BitVec.eq_of_toNat_eq h)
    have hswitch : switchPos pos = true := by
      simp only [legalPos, hk, Bool.or_eq_true, decide_eq_true_eq] at hl
      rcases hl with rfl | hl
      · rfl
      · simpa using hl
    rcases switchPos_cases hswitch with hpos | rfl | rfl
    · obtain ⟨pos', loc', he, ha0, _, hlt⟩ := switchFuel_step hc hargs hb' (Nat.le_refl 1) hs hpos hx
      simpa only [clkswFuel, hs, he, hcfg, ha0] using hlt
    · rw [exec_clksw_switched hk hs] at hx
      cases hx
      exact hidle rfl (by simp [clkswFuel, hs, switchFuel])
    · rw [exec_switch_finishing hargs hs] at hx
      cases hx
      exact hidle rfl (by simp [clkswFuel, hs, switchFuel])

/-! ## The bound of TRIM (R191) -/

/-- A validity read leads to the key read or to the next lower partition (R181). -/
theorem trimValidity_engine (n : Nat) (loc : Locals) (s : State) :
    ∃ pos loc', (trimValidity n loc s).engine = .run pos loc' ∧
      ((∃ p, pos = .otpKey p) ∨ ∃ m, n = m + 1 ∧ pos = .otpValid m) := by
  unfold trimValidity
  dsimp only
  split
  · exact ⟨_, _, rfl, .inl ⟨n, rfl⟩⟩
  · cases n with
    | zero => exact ⟨_, _, rfl, .inl ⟨_, rfl⟩⟩
    | succ m => exact ⟨_, _, rfl, .inr ⟨m, rfl, rfl⟩⟩

/-- Every step of TRIM after its switch lowers its bound, or ends the command (R191). -/
theorem execTrim_tail {tg : BitVec 4} {s t : State} {pos : Pos} {loc : Locals} (hs : s.engine = .run pos loc)
    (hpos : ¬ switchingPos pos) (N : Nat) (hx : execTrim tg s = .next t) :
    t.engine = .idle ∨ ∃ pos' loc', t.engine = .run pos' loc' ∧
      switchFuel N (10 + firstPart s.cfg) pos' loc' + trimTail pos' <
        switchFuel N (10 + firstPart s.cfg) pos loc + trimTail pos := by
  unfold execTrim at hx
  split at hx <;> cases hx <;> rename_i hs' _ <;> rw [hs] at hs' <;> cases hs'
  case h_2 => exact .inl rfl
  case h_4 => simp [switchingPos] at hpos
  case h_5 => simp [switchingPos] at hpos
  case h_6 => simp [switchingPos] at hpos
  case h_7 => simp [switchingPos] at hpos
  case h_8 => simp [switchingPos] at hpos
  case h_9 => simp [switchingPos] at hpos
  case h_10 =>
    obtain ⟨pos', loc', he, hcases⟩ := trimValidity_engine (firstPart s.cfg) (statusOk loc) s
    refine .inr ⟨pos', loc', he, ?_⟩
    rcases hcases with ⟨p, rfl⟩ | ⟨m, hm, rfl⟩ <;> simp only [switchFuel, trimTail] <;> omega
  case h_11 =>
    refine .inr ⟨_, _, rfl, ?_⟩
    split <;> simp only [switchFuel, trimTail] <;> omega
  case h_12 i _ =>
    obtain ⟨pos', loc', he, hcases⟩ := trimValidity_engine i loc s
    refine .inr ⟨pos', loc', he, ?_⟩
    rcases hcases with ⟨p, rfl⟩ | ⟨m, hm, rfl⟩ <;> simp only [switchFuel, trimTail] <;> omega
  case h_13 =>
    refine .inr ⟨_, _, rfl, ?_⟩
    split <;> simp only [switchFuel, trimTail] <;> omega
  case h_21 => exact .inl rfl
  case h_22 => exact .inl rfl
  all_goals exact .inr ⟨_, _, rfl, by simp [switchFuel, trimTail]⟩

theorem switchFuel_add_tail_pos {N after : Nat} (hafter : 1 ≤ after) {tg : BitVec 4} {cfg : Config} {a0 : Word}
    {pos : Pos} (hN : 1 ≤ N) (hl : legalPos cfg (.trim tg) a0 pos = true) (loc : Locals) :
    0 < switchFuel N after pos loc + trimTail pos := by
  cases pos <;> simp [legalPos, switchPos, unlockPos, otpPos, switchFuel, trimTail] at hl ⊢ <;> omega

/-- Every step of TRIM lowers its bound (R184, R191). -/
theorem execTrim_fuel {tg : BitVec 4} {s t : State} {pos : Pos} {loc : Locals} (hc : configWf s.cfg = true)
    (hs : s.engine = .run pos loc) (hl : legalPos s.cfg (.trim tg) loc.a0 pos = true)
    (hx : exec (.trim tg) s = .next t) : trimFuel t < trimFuel s := by
  have hcfg : t.cfg = s.cfg := (exec_sameParams hx).2
  have hb : s.cfg.trimSwitchTimeoutMs ≠ 0 := Nat.one_le_iff_ne_zero.mp (configWf_parts hc).2.2.2.1
  have hidle : t.engine = .idle → trimFuel t < trimFuel s := fun he => by
    rw [trimFuel, he, trimFuel, hs]
    exact switchFuel_add_tail_pos (by omega) (pollCount_pos hc hb) hl loc
  by_cases hpos : switchingPos pos
  · cases hk : targetOfCode? tg with
    | none =>
      obtain rfl : pos = .start := by simpa [legalPos, hk] using hl
      refine hidle ?_
      simp only [exec, execTrim, hs, hk] at hx
      cases hx
      rfl
    | some x =>
      have hargs : switchArgs s.cfg (.trim tg) loc = some (.lfi, s.cfg.trimSwitchTimeoutMs) := by
        simp [switchArgs, hk]
      obtain ⟨pos', loc', he, _, htail, hlt⟩ :=
        switchFuel_step (after := 10 + firstPart s.cfg) hc hargs hb (by omega) hs hpos hx
      simp only [trimFuel, hs, he, hcfg, htail]
      omega
  · rcases execTrim_tail hs hpos (pollCount s.cfg s.cfg.trimSwitchTimeoutMs) hx with he | ⟨pos', loc', he, hlt⟩
    · exact hidle he
    · simpa only [trimFuel, hs, he, hcfg] using hlt

/-- Settles O31: the two bounds fall with every step of their commands, and no other agent moves them. -/
theorem switchCommandsAreBounded : Obligations.SwitchCommandsAreBounded := by
  refine ⟨fun src s t pos loc hc hs hl hb hx => execClksw_fuel hc hs hl hb hx,
    fun tg s t pos loc hc hs hl hx => execTrim_fuel hc hs hl hx, fun s loc hs => ?_,
    fun s t e he hrun hbusy hp => ?_⟩
  · simp [clkswFuel, hs, switchFuel, pollCount]
  · obtain ⟨heng, hcfg⟩ := perform_other_engine he (hbusy.mpr hrun) hp
    exact ⟨clkswFuel_congr heng hcfg, trimFuel_congr heng hcfg⟩

end Sys2Proof.Machine
end

section
/-! SUPPORT. The protected register (10_state.md R42, R54; 42_trim.md R173): every move of every agent either
keeps HS_TRIM and sets no HS_DISTURB, or is an admitted write. -/

namespace Sys2Proof.Machine

/-- HS_TRIM is kept and HS_DISTURB not set, or the move is an admitted write, which sets HS_DISTURB. -/
inductive ProtectedMove (s t : State) : Prop where
  | kept (htrim : t.cpm.hsTrim = s.cpm.hsTrim) (hdist : t.hsDisturb = true → s.hsDisturb = true)
  | admitted (hadm : trimAdmitted s = true) (hdist : t.hsDisturb = true)

theorem ProtectedMove.of_eq {s t : State} (hcpm : t.cpm = s.cpm) (hdist : t.hsDisturb = s.hsDisturb) :
    ProtectedMove s t := .kept (by rw [hcpm]) (by rw [hdist]; exact id)

/-- The fields the move speaks of, after it. -/
theorem ProtectedMove.congr_right {s t t' : State} (h : ProtectedMove s t) (hcpm : t'.cpm = t.cpm)
    (hdist : t'.hsDisturb = t.hsDisturb) : ProtectedMove s t' := by
  rcases h with ⟨htrim, hd⟩ | ⟨hadm, hd⟩
  · exact .kept (by rw [hcpm, htrim]) (by rw [hdist]; exact hd)
  · exact .admitted hadm (hdist.trans hd)

theorem writeReg_protectedMove (r : Reg) (v : Word) (s : State) : ProtectedMove s (writeReg r v s) := by
  rcases r with q | q | ⟨c, q⟩
  · obtain ⟨x, e, d, k, h⟩ := writeReg_cmdif_fields q v s
    rw [h]
    exact .of_eq rfl rfl
  · by_cases hq : q = .hsTrim
    · subst hq
      cases ha : trimAdmitted s
      · rw [writeReg_hsTrim_ignored _ _ ha]
        exact .of_eq rfl rfl
      · exact .admitted ha (by rw [writeReg_hsTrim_admitted _ _ ha]; rfl)
    · exact .kept (writeReg_cpm_word_ne (q' := .hsTrim) (Ne.symm hq) v s)
        (by rw [writeReg_block_hsDisturb v s (by simp) (by simpa using hq)]; exact id)
  · obtain ⟨hcpm, hdist, _⟩ := writeReg_cache_frame c q v s
    exact .of_eq hcpm hdist

theorem trimAdmitted_drawnBy (r : Reg) (s : State) : trimAdmitted (drawnBy r s) = trimAdmitted s := by
  simp [trimAdmitted, State.trimOvr]

theorem Accessed.protectedMove {r : Reg} {s t : State} (h : Accessed r s t) : ProtectedMove s t := by
  rcases h with rfl | ⟨v, e, rfl⟩ | ⟨v, e, rfl⟩
  · exact .of_eq (by simp) (by simp [regRead])
  · exact (writeReg_protectedMove r v s).congr_right rfl rfl
  · rcases writeReg_protectedMove r v (drawnBy r s) with ⟨htrim, hd⟩ | ⟨hadm, hd⟩
    · exact .kept (by simpa using htrim) (by simpa using hd)
    · exact .admitted (trimAdmitted_drawnBy r s ▸ hadm) hd

theorem exec_protectedMove {i : Instr} {s t : State} (h : exec i s = .next t) : ProtectedMove s t := by
  rcases exec_shape h with ⟨_, _, _, _, _, u, _, _, _, hu, _, _, rfl⟩ | ⟨_, _, _, _, _, _, _, _, _, _, rfl⟩ |
    ⟨_, _, _, _, _, _, _, rfl⟩
  · exact hu.protectedMove.congr_right rfl rfl
  · exact .of_eq rfl rfl
  · exact .of_eq rfl rfl

theorem hostStep_protectedMove {a : HostAccess} {s t : State} (h : hostStep a s = .next t) :
    ProtectedMove s t := by
  obtain ⟨b, r, _, _, ⟨_, _, _, rfl⟩ | ⟨_, _, v, _, _, rfl⟩⟩ := hostStep_shape h
  · exact .of_eq (by simp [hostRead]) (by simp [hostRead])
  · exact (writeReg_protectedMove r v s).congr_right rfl rfl

/-- Of the ENV rules only the disturbance moves HS_DISTURB, and it clears it (R317). -/
theorem envStep_protectedMove (e : EnvEvent) (s : State) : ProtectedMove s (envStep e s) := by
  refine envStep_induction (.of_eq rfl rfl) ?_
  refine .kept (by rw [State.log_cpm, envEffect_cpm]) ?_
  cases e with
  | disturb => simp [envEffect]
  | stabilise k => exact id
  | oscStop k => exact id
  | switchTakes => exact id
  | globalDone c v => simp [envEffect, globalComplete]
  | rangeDone c => simp [envEffect, rangeComplete]
  | fill c w a => simp [envEffect, fillLine]

theorem perform_protectedMove {e : Event} {s t : State} (h : perform e s = .next t) : ProtectedMove s t := by
  cases e with
  | host a => exact hostStep_protectedMove h
  | env e => cases h; exact envStep_protectedMove e s
  | engine =>
    rcases engineStep_shape h with ⟨_, rfl⟩ | ⟨_, _, _, _, _, hx⟩ | ⟨_, _, _, _, rfl⟩
    · exact .of_eq rfl rfl
    · exact exec_protectedMove hx
    · exact .of_eq rfl rfl

/-- Settles O35: a move that is not an admitted write keeps HS_TRIM and sets no HS_DISTURB, and admission is
KEYSTATE = UNLOCKED with TRIM_OVR = 1. -/
theorem hsTrimChangesOnlyUnlocked : Obligations.HsTrimChangesOnlyUnlocked := by
  intro s t h
  obtain ⟨_, hp⟩ := step_shape h
  obtain ⟨ag, d, hpop⟩ := popEvent_eq s
  rw [hpop] at hp
  rcases perform_protectedMove hp with ⟨htrim, hdist⟩ | ⟨hadm, hdist⟩
  · exact ⟨fun hne => absurd htrim hne, fun h1 h0 => absurd (hdist h1) (by simp [h0])⟩
  · obtain ⟨hkey, hovr⟩ := trimAdmitted_iff.mp hadm
    exact ⟨fun _ => ⟨hkey, hovr, hdist⟩, fun _ _ => ⟨hkey, hovr⟩⟩

end Sys2Proof.Machine
end

section
/-! SUPPORT. The partition selector (42_trim.md R181): validity reads from a partition downwards. -/

namespace Sys2Proof.Machine

/-! ## One validity read -/

theorem exec_trim_otpValid {s : State} {i : Nat} {loc : Locals} (hs : s.engine = .run (.otpValid i) loc) :
    exec (.trim 0) s = .next (trimValidity i loc s) := by
  have hk : targetOfCode? 0 = some .primary := rfl
  simp only [exec, execTrim, hs, hk]

theorem exec_trim_switched_primary {s : State} {loc : Locals} (hs : s.engine = .run .switched loc) :
    exec (.trim 0) s = .next ((trimValidity (firstPart s.cfg) (statusOk loc) s).setCsw .switched) := by
  have hk : targetOfCode? 0 = some .primary := rfl
  simp only [exec, execTrim, hs, hk]

/-- Partition `i` holds the validity signature. -/
abbrev partValid (cfg : Config) (otp : Memory) (i : Nat) : Prop :=
  readWord otp (otpValidAddr cfg i) = cfg.otpValidSig

theorem trimValidity_valid {s : State} {i : Nat} (loc : Locals) (h : partValid s.cfg s.otp i) :
    trimValidity i loc s = goto (.otpKey i) { loc with w := readWord s.otp (otpValidAddr s.cfg i) }
      (memRead (otpValidAddr s.cfg i) s) := by
  simp only [trimValidity, if_pos h]

theorem trimValidity_default {s : State} (loc : Locals) (h : ¬ partValid s.cfg s.otp 0) :
    trimValidity 0 loc s = goto (.otpKey s.cfg.defaultPart)
      { loc with w := readWord s.otp (otpValidAddr s.cfg 0) } (memRead (otpValidAddr s.cfg 0) s) := by
  simp only [trimValidity, if_neg h]

theorem trimValidity_next {s : State} {i : Nat} (loc : Locals) (h : ¬ partValid s.cfg s.otp (i + 1)) :
    trimValidity (i + 1) loc s = goto (.otpValid i) { loc with w := readWord s.otp (otpValidAddr s.cfg (i + 1)) }
      (memRead (otpValidAddr s.cfg (i + 1)) s) := by
  simp only [trimValidity, if_neg h]

/-! ## The whole selection -/

/-- The TRACE entry of the validity read of partition `i`. -/
def validityRead (cfg : Config) (otp : Memory) (i : Nat) : TraceEntry :=
  .otp .engine (otpValidAddr cfg i) (readWord otp (otpValidAddr cfg i))

/-- `j` validity reads, the lowest of partition `m`, have led from `s` to the key read of partition `p`. -/
structure Selected (s t : State) (loc loc' : Locals) (m j p : Nat) : Prop where
  engine : t.engine = .run (.otpKey p) loc'
  latched : sameLatched loc loc'
  cmdif : t.cmdif = s.cmdif
  frame : readFrame s t
  trace : t.trace = ((List.range j).map fun q => validityRead s.cfg s.otp (m + q)) ++ s.trace
  above : ∀ q, m < q → q < m + j → ¬ partValid s.cfg s.otp q
  choice : (partValid s.cfg s.otp m ∧ p = m) ∨ (¬ partValid s.cfg s.otp m ∧ p = s.cfg.defaultPart ∧ m = 0)

/-- A valid partition is chosen at once. -/
theorem selected_valid {s : State} {i : Nat} {loc : Locals} (hs : s.engine = .run (.otpValid i) loc)
    (hv : partValid s.cfg s.otp i) :
    ∃ t loc', exec (.trim 0) s = .next t ∧ Selected s t loc loc' i 1 i := by
  have hx := exec_trim_otpValid hs
  rw [trimValidity_valid loc hv] at hx
  exact ⟨_, _, hx, rfl, ⟨rfl, rfl, rfl⟩, rfl, readFrame_goto (readFrame_memRead _ s) _ _, rfl,
    fun q _ _ => by omega, .inl ⟨hv, rfl⟩⟩

/-- After partition 0 the default is chosen. -/
theorem selected_default {s : State} {loc : Locals} (hs : s.engine = .run (.otpValid 0) loc)
    (hv : ¬ partValid s.cfg s.otp 0) :
    ∃ t loc', exec (.trim 0) s = .next t ∧ Selected s t loc loc' 0 1 s.cfg.defaultPart := by
  have hx := exec_trim_otpValid hs
  rw [trimValidity_default loc hv] at hx
  exact ⟨_, _, hx, rfl, ⟨rfl, rfl, rfl⟩, rfl, readFrame_goto (readFrame_memRead _ s) _ _, rfl,
    fun q _ _ => by omega, .inr ⟨hv, rfl, rfl⟩⟩

/-- An invalid partition's read goes before the selection from the next lower one. -/
theorem Selected.after_invalid {s t : State} {loc loc' l : Locals} {i m j p : Nat}
    (hv : ¬ partValid s.cfg s.otp (i + 1)) (hm : m + j = i + 1)
    (h : Selected (goto (.otpValid i) l (memRead (otpValidAddr s.cfg (i + 1)) s)) t l loc' m j p)
    (hl : sameLatched loc l) : Selected s t loc loc' m (j + 1) p where
  engine := h.engine
  latched := ⟨h.latched.1.trans hl.1, h.latched.2.1.trans hl.2.1, h.latched.2.2.trans hl.2.2⟩
  cmdif := h.cmdif
  frame := readFrame_trans (readFrame_goto (readFrame_memRead _ s) _ _) h.frame
  trace := by
    rw [h.trace, List.range_succ, List.map_append, List.append_assoc, List.map_singleton, hm]
    rfl
  above := fun q h1 h2 => by
    by_cases hq : q = i + 1
    · rwa [hq]
    · exact h.above q h1 (by omega)
  choice := h.choice

/-- The selection from partition `i` downwards. -/
theorem selected_from (i : Nat) {s : State} {loc : Locals} (hs : s.engine = .run (.otpValid i) loc) :
    ∃ t loc' m j p, execTimes (j + 1) (.trim 0) s = .next t ∧ m + j = i ∧ Selected s t loc loc' m (j + 1) p := by
  induction i generalizing s loc with
  | zero =>
    by_cases hv : partValid s.cfg s.otp 0
    · obtain ⟨t, loc', ht, hsel⟩ := selected_valid hs hv
      exact ⟨t, loc', 0, 0, _, execTimes_one ht, rfl, hsel⟩
    · obtain ⟨t, loc', ht, hsel⟩ := selected_default hs hv
      exact ⟨t, loc', 0, 0, _, execTimes_one ht, rfl, hsel⟩
  | succ i ih =>
    by_cases hv : partValid s.cfg s.otp (i + 1)
    · obtain ⟨t, loc', ht, hsel⟩ := selected_valid hs hv
      exact ⟨t, loc', i + 1, 0, _, execTimes_one ht, rfl, hsel⟩
    · have hx := exec_trim_otpValid hs
      rw [trimValidity_next loc hv] at hx
      obtain ⟨t, loc', m, j, p, ht, hm, hsel⟩ := ih (s := goto (.otpValid i) _ _) rfl
      exact ⟨t, loc', m, j + 1, p, (execTimes_succ _ hx).trans ht, by omega,
        hsel.after_invalid hv (by omega) ⟨rfl, rfl, rfl⟩⟩

/-- SWITCHED can be shown before the read as well as with it (R152). -/
theorem trimValidity_setCsw (i : Nat) (l : Locals) (s : State) (pos : Pos) (loc : Locals) :
    (trimValidity i l s).setCsw .switched = trimValidity i l (goto pos loc (s.setCsw .switched)) := by
  by_cases hv : partValid s.cfg s.otp i
  · rw [trimValidity_valid _ hv, trimValidity_valid (s := goto _ _ (s.setCsw .switched)) _ hv]
    rfl
  · cases i with
    | zero =>
      rw [trimValidity_default _ hv, trimValidity_default (s := goto _ _ (s.setCsw .switched)) _ hv]
      rfl
    | succ i =>
      rw [trimValidity_next _ hv, trimValidity_next (s := goto _ _ (s.setCsw .switched)) _ hv]
      rfl

/-- The first OTP read is a validity read of the highest partition (R181). -/
theorem exec_trim_first_validity {s : State} {loc : Locals} (hs : s.engine = .run .switched loc) :
    exec (.trim 0) s = exec (.trim 0)
      (goto (.otpValid (firstPart s.cfg)) (statusOk loc) (s.setCsw .switched)) := by
  rw [exec_trim_switched_primary hs, exec_trim_otpValid rfl, trimValidity_setCsw]

/-- With three partitions the choice is written out (R181). -/
theorem choice_of_three {valid : Nat → Prop} [DecidablePred valid] {m j p dflt : Nat} (hm : m + j = 2)
    (habove : ∀ q, m < q → q < 3 → ¬ valid q) (hchoice : (valid m ∧ p = m) ∨ (¬ valid m ∧ p = dflt ∧ m = 0)) :
    if valid 2 then p = 2 ∧ j + 1 = 1
    else if valid 1 then p = 1 ∧ j + 1 = 2
    else if valid 0 then p = 0 ∧ j + 1 = 3
    else p = dflt ∧ j + 1 = 3 := by
  rcases hchoice with ⟨hv, rfl⟩ | ⟨hv, rfl, rfl⟩
  · obtain rfl | rfl | rfl : p = 0 ∨ p = 1 ∨ p = 2 := by omega
    · rw [if_neg (habove 2 (by omega) (by omega)), if_neg (habove 1 (by omega) (by omega)), if_pos hv]
      exact ⟨rfl, by omega⟩
    · rw [if_neg (habove 2 (by omega) (by omega)), if_pos hv]
      exact ⟨rfl, by omega⟩
    · rw [if_pos hv]
      exact ⟨rfl, by omega⟩
  · rw [if_neg (habove 2 (by omega) (by omega)), if_neg (habove 1 (by omega) (by omega)), if_neg hv]
    exact ⟨rfl, by omega⟩

/-- Settles O36, by induction on the partition the selection starts from. -/
theorem trimSelectsPartition : Obligations.TrimSelectsPartition := by
  intro s loc hc hs
  obtain ⟨t, loc', m, j, p, ht, hm, hsel⟩ :=
    selected_from (firstPart s.cfg) (s := goto _ (statusOk loc) (s.setCsw .switched)) rfl
  have hn : s.cfg.npart = m + (j + 1) := by
    have := npart_pos hc
    simp only [firstPart] at hm
    omega
  have hlow : s.cfg.npart - (j + 1) = m := by omega
  refine ⟨t, p, loc', j + 1, ?_, hsel.engine, hsel.latched.2.1, hsel.latched.1, hsel.cmdif, hsel.frame, ?_,
    by omega, by omega, ?_, ?_, fun h3 => ?_⟩
  · rw [← ht, execTimes, execTimes, exec_trim_first_validity hs]
  · rw [hlow]
    exact hsel.trace
  · rw [hlow, hn]
    exact hsel.above
  · rw [hlow]
    rcases hsel.choice with ⟨hv, hp⟩ | ⟨hv, hp, hm0⟩
    · exact if_pos (c := partValid s.cfg s.otp m) hv ▸ hp
    · exact if_neg (c := partValid s.cfg s.otp m) hv ▸ ⟨hp, by omega⟩
  · exact choice_of_three (valid := partValid s.cfg s.otp) (by omega)
      (fun q h1 h2 => hsel.above q h1 (by omega)) hsel.choice

end Sys2Proof.Machine
end

section
/-! SUPPORT. How a fact about a running command's progress is kept: it holds at the command's start, its own
steps carry it on, and no host move or ENV move breaks it (10_state.md R25, R31; 60_exceptions.md R276). -/

namespace Sys2Proof.Machine

/-- A step of a running command ends it, or leaves it running with the words it latched. -/
theorem exec_engine {i : Instr} {s t : State} {pos : Pos} {loc : Locals} (hs : s.engine = .run pos loc)
    (hx : exec i s = .next t) :
    t.engine = .idle ∨ ∃ pos' loc', t.engine = .run pos' loc' ∧ sameLatched loc loc' := by
  rcases exec_shape hx with ⟨_, pos', _, loc', _, _, _, hs', _, _, hl, _, rfl⟩ |
    ⟨_, pos', _, loc', _, _, hs', _, hl, _, rfl⟩ | ⟨_, _, _, _, _, _, _, rfl⟩
  · rw [hs] at hs'
    cases hs'
    exact .inr ⟨pos', loc', rfl, hl⟩
  · rw [hs] at hs'
    cases hs'
    exact .inr ⟨pos', loc', rfl, hl⟩
  · exact .inl rfl

/-- With the engine idle a host move leaves it idle, or starts a command (R25). -/
theorem hostStep_starts {a : HostAccess} {s t : State} (hs : s.engine = .idle) (h : hostStep a s = .next t) :
    t.engine = .idle ∨ ∃ loc, t.engine = .run .start loc := by
  obtain ⟨b, r, _, _, ⟨_, _, _, rfl⟩ | ⟨_, _, v, _, _, rfl⟩⟩ := hostStep_shape h
  · exact .inl (by simpa [hostRead] using hs)
  · rw [hostWrite, State.log_engine]
    rcases r with q | q | ⟨c, q⟩
    · obtain ⟨k, hk⟩ := strictKey_setKey (.cmdif q) (writeCmdif q v s)
      unfold writeReg
      dsimp only
      split
      · exact .inl hs
      · rw [hk, State.setKey_engine]
        cases q with
        | cmd => exact .inr ⟨_, rfl⟩
        | _ => exact .inl hs
    · exact .inl ((writeReg_block_frame (.cpm q) v s (by simp)).2.1.trans hs)
    · exact .inl ((writeReg_block_frame (.cache c q) v s (by simp)).2.1.trans hs)

theorem runs_popEvent {i : Instr} {pos : Pos} {loc : Locals} {s : State} :
    Runs i pos loc (popEvent s) ↔ Runs i pos loc s := by rw [Runs, Runs, popEvent_engine]

/-- The progress `P` of command `i` is kept by every step of every agent. -/
theorem step_progress {i : Instr} {P : Pos → Locals → State → Prop}
    (hstart : ∀ loc s, P .start loc s)
    (hsame : ∀ pos loc s t, sameMachine s t → P pos loc s → P pos loc t)
    (henv : ∀ pos loc s e, RunInv s → Runs i pos loc s → P pos loc s → P pos loc (envStep e s))
    (hexec : ∀ pos loc s t pos' loc', RunInv s → Runs i pos loc s → exec i s = .next t →
      t.engine = .run pos' loc' → P pos loc s → P pos' loc' t)
    {s t : State} (hinv : RunInv s) (hstep : step s = .next t) (hP : ∀ pos loc, Runs i pos loc s → P pos loc s) :
    ∀ pos loc, Runs i pos loc t → P pos loc t := by
  have hinv' := popEvent_runInv hinv
  have hP' : ∀ pos loc, Runs i pos loc (popEvent s) → P pos loc (popEvent s) := fun pos loc hr =>
    hsame pos loc _ _ (sameMachine_popEvent s) (hP pos loc (runs_popEvent.mp hr))
  obtain ⟨_, hp⟩ := step_shape hstep
  generalize popEvent s = u at hinv' hP' hp
  rintro pos' loc' ⟨ht, hdec⟩
  cases he : nextEvent s with
  | host a =>
    rw [he] at hp
    cases hu : u.engine with
    | idle =>
      rcases hostStep_starts hu hp with hidle | ⟨loc, hrun⟩
      · exact absurd (hidle.symm.trans ht) (by simp)
      · cases hrun.symm.trans ht
        exact hstart _ _
    | run pos loc =>
      have hm := sameMachine_hostStep (hinv'.busy.mpr (by simp [hu])) hp
      obtain ⟨_, _, _, rfl⟩ := id hm
      exact hsame pos' loc' u _ hm (hP' _ _ ⟨ht, hdec⟩)
  | env e =>
    rw [he] at hp
    cases hp
    rw [envStep_engine] at ht
    exact henv _ _ u e hinv' ⟨ht, hdec⟩ (hP' _ _ ⟨ht, hdec⟩)
  | engine =>
    rw [he] at hp
    rcases engineStep_shape hp with ⟨hidle, rfl⟩ | ⟨pos, loc, j, hu, hj, hx⟩ | ⟨_, _, _, _, rfl⟩
    · exact absurd (hidle.symm.trans ht) (by simp)
    · rcases exec_engine hu hx with hidle | ⟨pos'', loc'', hrun, hcmd, _⟩
      · exact absurd (hidle.symm.trans ht) (by simp)
      · cases hrun.symm.trans ht
        rw [hcmd, hj] at hdec
        cases hdec
        exact hexec pos loc u t pos' loc' hinv' ⟨hu, hj⟩ hx ht (hP' _ _ ⟨hu, hj⟩)
    · cases ht

end Sys2Proof.Machine
end

section
/-! SUPPORT. TRIM's unlock, protected write and lock (42_trim.md R171 to R175, R183 to R187): each step on its
own, seven of them in a row, and the progress of a TRIM that other agents interleave with. -/

namespace Sys2Proof.Machine

/-! ## The key writes -/

/-- Of CPM only PROT_KEY and HS_TRIM moved, and no cache, parameter or agenda did. -/
def unlockFrame (s t : State) : Prop :=
  t.cpm = { s.cpm with protKey := t.cpm.protKey, hsTrim := t.cpm.hsTrim } ∧ sameCaches s t ∧ sameWorld s t

theorem unlockFrame_trans {s t u : State} (h : unlockFrame s t) (h' : unlockFrame t u) : unlockFrame s u := by
  obtain ⟨hcpm, hc, hw⟩ := h
  obtain ⟨hcpm', hc', hw'⟩ := h'
  refine ⟨?_, sameCaches_trans hc hc', sameWorld_trans hw hw'⟩
  rw [hcpm', hcpm]

/-- Everything a write of key `k` with override bit `o` does (R171, R174, R175). -/
structure KeyWritten (k : Nat) (o : Bool) (s t : State) : Prop where
  trimOvr : t.trimOvr = o
  keyState : t.keyState = keyNext s.keyState k o
  hsTrim : t.cpm.hsTrim = s.cpm.hsTrim
  cmdif : t.cmdif = s.cmdif
  frame : unlockFrame s t
  trace : ∃ v w, t.trace = .modify .engine (.cpm .protKey) v w :: s.trace ∧ field w s.cfg.layout.key 2 = k

theorem regRmw_protKey_written {m x : Word} {s u : State} {k : Nat} {o : Bool} {st : KeyState}
    (hu : u = regRmw (.cpm .protKey) m x s)
    (heffect : u.trimOvr = o ∧ u.keyState = st ∧ u.cpm = { s.cpm with protKey := u.cpm.protKey } ∧
      u.cmdif = s.cmdif) (hst : st = keyNext s.keyState k o)
    (hk : field (merge m (readValue (.cpm .protKey) s) x) s.cfg.layout.key 2 = k) (pos : Pos) (loc : Locals) :
    KeyWritten k o s (goto pos loc u) := by
  subst hu hst
  obtain ⟨hovr, hkey, hcpm, hcm⟩ := heffect
  have hacc := accessed_regRmw (.cpm .protKey) m x s
  have htr : (regRmw (.cpm .protKey) m x s).trace = .modify .engine (.cpm .protKey)
      (readValue (.cpm .protKey) s) (merge m (readValue (.cpm .protKey) s) x) :: s.trace := by
    rw [regRmw_protKey]
    rfl
  have htrim : (regRmw (.cpm .protKey) m x s).cpm.hsTrim = s.cpm.hsTrim := by rw [hcpm]
  refine ⟨hovr, hkey, htrim, hcm, ⟨hcpm.trans ?_, hacc.caches.1, hacc.world⟩, _, _, htr, hk⟩
  exact congrArg (fun v => { s.cpm with protKey := (regRmw (.cpm .protKey) m x s).cpm.protKey, hsTrim := v })
    htrim.symm

/-- A key write of `Unlock` or `Lock` keeps TRIM_OVR (R174, R175). -/
theorem keyWrite_written {s : State} (hc : configWf s.cfg = true) (k : Word) (pos : Pos) (loc : Locals) :
    KeyWritten (k.toNat % 4) s.trimOvr s (goto pos loc (keyWrite k s)) := by
  have hkey := (key_positions hc).1
  refine regRmw_protKey_written rfl (keyWrite_effect hc k) rfl ?_ pos loc
  exact field_merge_shiftLeft hkey fun q h1 h2 => by rw [getBit_bits]; simp; omega

/-- The last unlock write sets TRIM_OVR with key 11 (R174). -/
theorem keyWriteOverride_written {s : State} (hc : configWf s.cfg = true) (pos : Pos) (loc : Locals) :
    KeyWritten 3 true s (goto pos loc (keyWriteOverride s)) := by
  refine regRmw_protKey_written rfl (keyWriteOverride_effect hc) rfl ?_ pos loc
  obtain ⟨hkey, _, hapart⟩ := key_positions hc
  rw [field_congr (v' := 3#32 <<< s.cfg.layout.key), field_shiftLeft hkey]
  · rfl
  · intro q h1 h2
    rw [getBit_merge, if_pos (by simp [getBit_bits]; left; omega), getBit_or,
      getBit_bit_ne (Ne.symm (hapart q h1 h2)), Bool.or_false]

/-! ## The protected write -/

/-- Everything the protected write does once it is admitted; UNLOCKED it stays (R173). -/
structure TrimWritten (v : Word) (s t : State) : Prop where
  trimOvr : t.trimOvr = true
  keyState : t.keyState = .unlocked
  hsTrim : t.cpm.hsTrim = v
  hsDisturb : t.hsDisturb = true
  cmdif : t.cmdif = s.cmdif
  frame : unlockFrame s t
  trace : t.trace = .write .engine (.cpm .hsTrim) v :: s.trace

theorem regWrite_hsTrim_written {s : State} (hkey : s.keyState = .unlocked) (hovr : s.trimOvr = true) (v : Word)
    (pos : Pos) (loc : Locals) : TrimWritten v s (goto pos loc (regWrite (.cpm .hsTrim) v s)) := by
  have hafter : keyAfterOther s = .unlocked := by simp [keyAfterOther, hkey, keyInterrupted]
  rw [regWrite, writeReg_hsTrim_admitted _ _ (trimAdmitted_iff.mpr ⟨hkey, hovr⟩), hafter]
  exact ⟨hovr, rfl, rfl, rfl, rfl, ⟨rfl, ⟨rfl, rfl⟩, rfl, rfl, rfl⟩, rfl⟩

/-! ## The step at each position -/

section
variable {tg : BitVec 4} {k : Target} {s : State} {loc : Locals}

theorem exec_trim_unlock00 (hc : configWf s.cfg = true) (hk : targetOfCode? tg = some k)
    (hs : s.engine = .run .unlock00 loc) :
    ∃ t, exec (.trim tg) s = .next t ∧ t.engine = .run .unlock01 loc ∧ KeyWritten 0 s.trimOvr s t :=
  ⟨_, by simp only [exec, execTrim, hs, hk], rfl, keyWrite_written hc 0#32 .unlock01 loc⟩

theorem exec_trim_unlock01 (hc : configWf s.cfg = true) (hk : targetOfCode? tg = some k)
    (hs : s.engine = .run .unlock01 loc) :
    ∃ t, exec (.trim tg) s = .next t ∧ t.engine = .run .unlock10 loc ∧ KeyWritten 1 s.trimOvr s t :=
  ⟨_, by simp only [exec, execTrim, hs, hk], rfl, keyWrite_written hc 1#32 .unlock10 loc⟩

theorem exec_trim_unlock10 (hc : configWf s.cfg = true) (hk : targetOfCode? tg = some k)
    (hs : s.engine = .run .unlock10 loc) :
    ∃ t, exec (.trim tg) s = .next t ∧ t.engine = .run .unlock11 loc ∧ KeyWritten 2 s.trimOvr s t :=
  ⟨_, by simp only [exec, execTrim, hs, hk], rfl, keyWrite_written hc 2#32 .unlock11 loc⟩

theorem exec_trim_unlock11 (hc : configWf s.cfg = true) (hk : targetOfCode? tg = some k)
    (hs : s.engine = .run .unlock11 loc) :
    ∃ t, exec (.trim tg) s = .next t ∧ t.engine = .run .trimWrite loc ∧ KeyWritten 3 true s t :=
  ⟨_, by simp only [exec, execTrim, hs, hk], rfl, keyWriteOverride_written hc .trimWrite loc⟩

theorem exec_trim_trimWrite (hk : targetOfCode? tg = some k) (hs : s.engine = .run .trimWrite loc)
    (hkey : s.keyState = .unlocked) (hovr : s.trimOvr = true) :
    ∃ t, exec (.trim tg) s = .next t ∧ t.engine = .run .lock loc ∧ TrimWritten (trimWord k loc) s t :=
  ⟨_, by simp only [exec, execTrim, hs, hk], rfl, regWrite_hsTrim_written hkey hovr _ .lock loc⟩

/-- The lock write keeps HS_DISTURB, which the protected write set. -/
theorem exec_trim_lock (hc : configWf s.cfg = true) (hk : targetOfCode? tg = some k)
    (hs : s.engine = .run .lock loc) :
    ∃ t, exec (.trim tg) s = .next t ∧ t.engine = .run .trimDone loc ∧ KeyWritten 0 s.trimOvr s t ∧
      t.hsDisturb = s.hsDisturb := by
  refine ⟨_, by simp only [exec, execTrim, hs, hk], rfl, keyWrite_written hc 0#32 .trimDone loc, ?_⟩
  rw [keyWrite, regRmw_protKey]
  rfl

theorem exec_trim_trimDone (hk : targetOfCode? tg = some k) (hs : s.engine = .run .trimDone loc) :
    exec (.trim tg) s = .next (finish .ok (s.setNomfreq (targetHz s.cfg k))) := by
  simp only [exec, execTrim, hs, hk]

end

/-! ## Seven steps in a row -/

/-- The unlock: whatever KEYSTATE was, the protected write finds it UNLOCKED (R174, R178). -/
theorem trim_unlocks {tg : BitVec 4} {k : Target} {s : State} {loc : Locals} (hc : configWf s.cfg = true)
    (hk : targetOfCode? tg = some k) (hs : s.engine = .run .unlock00 loc) :
    ∃ t v0 v1 v2 v3 w0 w1 w2 w3, execTimes 4 (.trim tg) s = .next t ∧ t.engine = .run .trimWrite loc ∧
      t.keyState = .unlocked ∧ t.trimOvr = true ∧ t.cmdif = s.cmdif ∧ unlockFrame s t ∧
      t.trace = .modify .engine (.cpm .protKey) v3 w3 :: .modify .engine (.cpm .protKey) v2 w2 ::
        .modify .engine (.cpm .protKey) v1 w1 :: .modify .engine (.cpm .protKey) v0 w0 :: s.trace ∧
      field w0 s.cfg.layout.key 2 = 0 ∧ field w1 s.cfg.layout.key 2 = 1 ∧
      field w2 s.cfg.layout.key 2 = 2 ∧ field w3 s.cfg.layout.key 2 = 3 := by
  obtain ⟨s0, x0, e0, h0⟩ := exec_trim_unlock00 hc hk hs
  have hcfg0 : s0.cfg = s.cfg := h0.frame.2.2.1
  obtain ⟨s1, x1, e1, h1⟩ := exec_trim_unlock01 (hcfg0.symm ▸ hc) hk e0
  have hcfg1 : s1.cfg = s.cfg := h1.frame.2.2.1.trans hcfg0
  obtain ⟨s2, x2, e2, h2⟩ := exec_trim_unlock10 (hcfg1.symm ▸ hc) hk e1
  have hcfg2 : s2.cfg = s.cfg := h2.frame.2.2.1.trans hcfg1
  obtain ⟨s3, x3, e3, h3⟩ := exec_trim_unlock11 (hcfg2.symm ▸ hc) hk e2
  obtain ⟨v0, w0, t0, f0⟩ := h0.trace
  obtain ⟨v1, w1, t1, f1⟩ := h1.trace
  obtain ⟨v2, w2, t2, f2⟩ := h2.trace
  obtain ⟨v3, w3, t3, f3⟩ := h3.trace
  rw [hcfg0] at f1
  rw [hcfg1] at f2
  rw [hcfg2] at f3
  refine ⟨s3, v0, v1, v2, v3, w0, w1, w2, w3, ?_, e3, ?_, h3.trimOvr, ?_, ?_, ?_, f0, f1, f2, f3⟩
  · rw [execTimes_succ _ x0, execTimes_succ _ x1, execTimes_two x2 x3]
  · rw [h3.keyState, h2.keyState, h1.keyState, h0.keyState]
    rfl
  · rw [h3.cmdif, h2.cmdif, h1.cmdif, h0.cmdif]
  · exact unlockFrame_trans h0.frame (unlockFrame_trans h1.frame (unlockFrame_trans h2.frame h3.frame))
  · rw [t3, t2, t1, t0]

end Sys2Proof.Machine
end

section
/-! SUPPORT. The progress of a running TRIM (42_trim.md R178, R181 to R187): what it says at each position, its
own steps carry it on, and no other agent breaks it. -/

namespace Sys2Proof.Machine

/-! ## What the progress says at each position -/

section
variable {k : Target} {loc : Locals} {s : State}

theorem trimProgress_start : trimProgress k .start loc s := by simp [trimProgress, trimSwitched]
theorem trimProgress_finishing (st : Status) : trimProgress k (.finishing st) loc s := by
  simp [trimProgress, trimSwitched]
theorem trimProgress_pollStableFirst : trimProgress k .pollStableFirst loc s := by
  simp [trimProgress, trimSwitched]
theorem trimProgress_pollStable : trimProgress k .pollStable loc s := by simp [trimProgress, trimSwitched]
theorem trimProgress_select : trimProgress k .select loc s := by simp [trimProgress, trimSwitched]
theorem trimProgress_pollSwitchFirst : trimProgress k .pollSwitchFirst loc s ↔ s.sel = .lfi := by
  simp [trimProgress, trimSwitched]
theorem trimProgress_pollSwitch : trimProgress k .pollSwitch loc s ↔ s.sel = .lfi := by
  simp [trimProgress, trimSwitched]
theorem trimProgress_switched : trimProgress k .switched loc s ↔ s.sel = .lfi := by
  simp [trimProgress, trimSwitched]
theorem trimProgress_otpValid {i : Nat} : trimProgress k (.otpValid i) loc s ↔
    (s.sel = .lfi ∧ s.cmdif.csw = .switched) ∧
      selectedPart s.cfg s.otp s.cfg.npart = selectedPart s.cfg s.otp (i + 1) := by
  simp [trimProgress, trimSwitched]
theorem trimProgress_otpKey {i : Nat} : trimProgress k (.otpKey i) loc s ↔
    (s.sel = .lfi ∧ s.cmdif.csw = .switched) ∧ i = selectedPart s.cfg s.otp s.cfg.npart := by
  simp [trimProgress, trimSwitched]
theorem trimProgress_otpValue : trimProgress k .otpValue loc s ↔
    (s.sel = .lfi ∧ s.cmdif.csw = .switched) ∧ loc.p = selectedPart s.cfg s.otp s.cfg.npart := by
  simp [trimProgress, trimSwitched]
theorem trimProgress_unlock00 : trimProgress k .unlock00 loc s ↔
    (s.sel = .lfi ∧ s.cmdif.csw = .switched) ∧ trimWord k loc = trimRecord s k := by
  simp [trimProgress, trimSwitched]
theorem trimProgress_unlock01 : trimProgress k .unlock01 loc s ↔
    (s.sel = .lfi ∧ s.cmdif.csw = .switched) ∧ trimWord k loc = trimRecord s k ∧ s.keyState = .k0 := by
  simp [trimProgress, trimSwitched]
theorem trimProgress_unlock10 : trimProgress k .unlock10 loc s ↔
    (s.sel = .lfi ∧ s.cmdif.csw = .switched) ∧ trimWord k loc = trimRecord s k ∧ s.keyState = .k1 := by
  simp [trimProgress, trimSwitched]
theorem trimProgress_unlock11 : trimProgress k .unlock11 loc s ↔
    (s.sel = .lfi ∧ s.cmdif.csw = .switched) ∧ trimWord k loc = trimRecord s k ∧ s.keyState = .k2 := by
  simp [trimProgress, trimSwitched]
theorem trimProgress_trimWrite : trimProgress k .trimWrite loc s ↔
    (s.sel = .lfi ∧ s.cmdif.csw = .switched) ∧ trimWord k loc = trimRecord s k ∧ s.keyState = .unlocked ∧
      s.trimOvr = true := by
  simp [trimProgress, trimSwitched]
theorem trimProgress_lock : trimProgress k .lock loc s ↔
    (s.sel = .lfi ∧ s.cmdif.csw = .switched) ∧ s.trimOvr = true ∧ s.cpm.hsTrim = trimRecord s k := by
  simp [trimProgress, trimSwitched]
theorem trimProgress_trimDone : trimProgress k .trimDone loc s ↔
    (s.sel = .lfi ∧ s.cmdif.csw = .switched) ∧ (s.trimOvr = true ∧ s.cpm.hsTrim = trimRecord s k) ∧
      s.keyState = .k0 := by
  simp [trimProgress, trimSwitched]

end

/-! ## Moves that keep it -/

theorem trimRecord_congr {s t : State} (hcfg : t.cfg = s.cfg) (hotp : t.otp = s.otp) (k : Target) :
    trimRecord t k = trimRecord s k := by cases k <;> simp [trimRecord, hcfg, hotp]

theorem trimProgress_congr {k : Target} {pos : Pos} {loc : Locals} {s t : State} (hcfg : t.cfg = s.cfg)
    (hotp : t.otp = s.otp) (hsel : t.sel = s.sel) (hcm : t.cmdif = s.cmdif) (hkey : t.keyState = s.keyState)
    (hovr : t.trimOvr = s.trimOvr) (htrim : t.cpm.hsTrim = s.cpm.hsTrim) (h : trimProgress k pos loc s) :
    trimProgress k pos loc t := by
  unfold trimProgress at h ⊢
  rw [hcfg, hotp, hsel, hcm, hkey, hovr, htrim, trimRecord_congr hcfg hotp]
  exact h

theorem trimProgress_sameMachine {k : Target} {pos : Pos} {loc : Locals} {s t : State} (hm : sameMachine s t)
    (h : trimProgress k pos loc s) : trimProgress k pos loc t := by
  obtain ⟨tr, ag, d, rfl⟩ := hm
  exact h

/-- No ENV rule moves SEL, the key automaton, PROT_KEY or HS_TRIM (R315). -/
theorem trimProgress_envStep {k : Target} {pos : Pos} {loc : Locals} {s : State} (hc : configWf s.cfg = true)
    (e : EnvEvent) (h : trimProgress k pos loc s) : trimProgress k pos loc (envStep e s) := by
  have hcpm : (envStep e s).cpm.protKey = s.cpm.protKey ∧ (envStep e s).cpm.hsTrim = s.cpm.hsTrim :=
    envStep_induction (P := fun t => t.cpm.protKey = s.cpm.protKey ∧ t.cpm.hsTrim = s.cpm.hsTrim) ⟨rfl, rfl⟩
      (by rw [State.log_cpm, envEffect_cpm]; exact ⟨rfl, rfl⟩)
  obtain ⟨hprot, htrim⟩ := hcpm
  exact trimProgress_congr (envStep_cfg e s) (envStep_otp e s) (envStep_sel hc e) (envStep_cmdif e s)
    (envStep_keyState e s) (by rw [State.trimOvr, State.trimOvr, hprot, envStep_cfg]) htrim h

/-! ## TRIM's own steps -/

/-- A validity read leads on with what is selected from its partition downwards (R181). -/
theorem trimValidity_progress {loc : Locals} {s : State} {i : Nat} (l : Locals) (hsel : s.sel = .lfi)
    (hcsw : s.cmdif.csw = .switched)
    (hpart : selectedPart s.cfg s.otp s.cfg.npart = selectedPart s.cfg s.otp (i + 1))
    {pos' : Pos} (ht : (trimValidity i l s).engine = .run pos' loc) :
    trimProgress .primary pos' loc (trimValidity i l s) := by
  by_cases hv : partValid s.cfg s.otp i
  · rw [trimValidity_valid l hv] at ht ⊢
    cases ht
    exact trimProgress_otpKey.mpr ⟨⟨hsel, hcsw⟩, (hpart.trans (if_pos hv)).symm⟩
  · rw [selectedPart, if_neg hv] at hpart
    cases i with
    | zero =>
      rw [trimValidity_default l hv] at ht ⊢
      cases ht
      exact trimProgress_otpKey.mpr ⟨⟨hsel, hcsw⟩, hpart.symm⟩
    | succ i =>
      rw [trimValidity_next l hv] at ht ⊢
      cases ht
      exact trimProgress_otpValid.mpr ⟨⟨hsel, hcsw⟩, hpart⟩

/-- One read of the second poll stays in the switch, goes on to the OTP reads or times out; SEL is LFI. -/
theorem pollStatus_progress {k : Target} {b : Nat} {l loc : Locals} {s t : State} (hsel : t.sel = .lfi)
    {pos' : Pos} (ht : t = switchPollStatus .lfi b l s) (he : t.engine = .run pos' loc) :
    trimProgress k pos' loc t := by
  subst ht
  rw [switchPollStatus, State.setCsw_engine] at he
  rcases pollRead_cases (.cpm .sysClk) (bit s.cfg.layout.selStat)
    (flag s.cfg.layout.selStat (sourceBit .lfi)) b .pollSwitch .switched l s with
    ⟨_, h⟩ | ⟨_, _, m, _, _, h⟩ | ⟨_, _, _, h⟩ <;> rw [h] at he <;> cases he
  · exact trimProgress_switched.mpr hsel
  · exact trimProgress_pollSwitch.mpr hsel
  · exact trimProgress_finishing _

/-- One read of the first poll. -/
theorem pollStable_progress {k : Target} {b : Nat} {l loc : Locals} {s t : State} {pos' : Pos}
    (ht : t = switchPollStable .lfi b l s) (he : t.engine = .run pos' loc) : trimProgress k pos' loc t := by
  subst ht
  rw [switchPollStable] at he
  rcases pollRead_cases (.cpm .oscCs) (bit (stablePos s.cfg.layout .lfi)) (bit (stablePos s.cfg.layout .lfi))
    b .pollStable .select l s with ⟨_, h⟩ | ⟨_, _, m, _, _, h⟩ | ⟨_, _, _, h⟩ <;> rw [h] at he <;> cases he
  · exact trimProgress_select
  · exact trimProgress_pollStable
  · exact trimProgress_finishing _

theorem execTrim_progress {tg : BitVec 4} {k : Target} {s t : State} {pos pos' : Pos} {loc loc' : Locals}
    (hc : configWf s.cfg = true) (hk : targetOfCode? tg = some k) (hs : s.engine = .run pos loc)
    (hx : exec (.trim tg) s = .next t) (ht : t.engine = .run pos' loc') (hp : trimProgress k pos loc s) :
    trimProgress k pos' loc' t := by
  obtain ⟨hotp, hcfg⟩ := exec_sameParams hx
  have hrec := trimRecord_congr hcfg hotp k
  have hsel : pos ≠ .select → t.sel = s.sel := fun hne => by
    rcases exec_sysClk hx with hclk | ⟨_, _, _, hs', _, _⟩
    · exact sel_congr hcfg hclk
    · rw [hs] at hs'
      cases hs'
      exact absurd rfl hne
  simp only [exec] at hx
  unfold execTrim at hx
  split at hx <;> cases hx <;> rename_i hs' hk' <;> rw [hs] at hs' <;> cases hs' <;> rw [hk] at hk' <;> cases hk'
  case h_4 => cases ht; exact trimProgress_pollStableFirst
  case h_5 => exact pollStable_progress rfl ht
  case h_6 => exact pollStable_progress rfl ht
  case h_7 => cases ht; exact trimProgress_pollSwitchFirst.mpr (switchSelect_sel hc .lfi loc)
  case h_8 => exact pollStatus_progress ((hsel (by simp)).trans (trimProgress_pollSwitchFirst.mp hp)) rfl ht
  case h_9 => exact pollStatus_progress ((hsel (by simp)).trans (trimProgress_pollSwitch.mp hp)) rfl ht
  case h_10 =>
    have hlfi : s.sel = .lfi := trimProgress_switched.mp hp
    have hpart : selectedPart s.cfg s.otp s.cfg.npart = selectedPart s.cfg s.otp (firstPart s.cfg + 1) := by
      rw [firstPart, Nat.sub_add_cancel (npart_pos hc)]
    rw [trimValidity_setCsw _ _ _ .switched loc] at ht ⊢
    exact trimValidity_progress (s := goto .switched loc (s.setCsw .switched)) _ hlfi rfl hpart ht
  case h_11 =>
    simp only [trimSecondary, goto, State.setCsw_engine, State.setEngine_engine] at ht
    split at ht <;> cases ht
    · exact trimProgress_unlock00.mpr ⟨⟨(hsel (by simp)).trans (trimProgress_switched.mp hp), rfl⟩, rfl⟩
    · exact trimProgress_finishing _
  case h_12 =>
    obtain ⟨⟨hlfi, hcsw⟩, hpart⟩ := trimProgress_otpValid.mp hp
    exact trimValidity_progress _ hlfi hcsw hpart ht
  case h_13 =>
    obtain ⟨hsw, rfl⟩ := trimProgress_otpKey.mp hp
    simp only [trimKey, goto, State.setEngine_engine] at ht
    split at ht <;> cases ht
    · exact trimProgress_otpValue.mpr ⟨hsw, rfl⟩
    · exact trimProgress_finishing _
  case h_14 =>
    obtain ⟨hsw, hpart⟩ := trimProgress_otpValue.mp hp
    cases ht
    refine trimProgress_unlock00.mpr ⟨hsw, Eq.trans ?_ hrec.symm⟩
    rw [trimRecord, ← hpart]
    rfl
  case h_15 =>
    obtain ⟨⟨hlfi, hcsw⟩, hword⟩ := trimProgress_unlock00.mp hp
    have hw := keyWrite_written hc 0#32 .unlock01 loc
    cases ht
    exact trimProgress_unlock01.mpr ⟨⟨(hsel (by simp)).trans hlfi, by rw [hw.cmdif, hcsw]⟩, hword.trans hrec.symm,
      hw.keyState⟩
  case h_16 =>
    obtain ⟨⟨hlfi, hcsw⟩, hword, hkey⟩ := trimProgress_unlock01.mp hp
    have hw := keyWrite_written hc 1#32 .unlock10 loc
    cases ht
    exact trimProgress_unlock10.mpr ⟨⟨(hsel (by simp)).trans hlfi, by rw [hw.cmdif, hcsw]⟩, hword.trans hrec.symm,
      by rw [hw.keyState, hkey]; rfl⟩
  case h_17 =>
    obtain ⟨⟨hlfi, hcsw⟩, hword, hkey⟩ := trimProgress_unlock10.mp hp
    have hw := keyWrite_written hc 2#32 .unlock11 loc
    cases ht
    exact trimProgress_unlock11.mpr ⟨⟨(hsel (by simp)).trans hlfi, by rw [hw.cmdif, hcsw]⟩, hword.trans hrec.symm,
      by rw [hw.keyState, hkey]; rfl⟩
  case h_18 =>
    obtain ⟨⟨hlfi, hcsw⟩, hword, hkey⟩ := trimProgress_unlock11.mp hp
    have hw := keyWriteOverride_written hc .trimWrite loc
    cases ht
    exact trimProgress_trimWrite.mpr ⟨⟨(hsel (by simp)).trans hlfi, by rw [hw.cmdif, hcsw]⟩, hword.trans hrec.symm,
      by rw [hw.keyState, hkey]; rfl, hw.trimOvr⟩
  case h_19 =>
    obtain ⟨⟨hlfi, hcsw⟩, hword, hkey, hovr⟩ := trimProgress_trimWrite.mp hp
    have hw := regWrite_hsTrim_written hkey hovr (trimWord k loc) .lock loc
    cases ht
    exact trimProgress_lock.mpr ⟨⟨(hsel (by simp)).trans hlfi, by rw [hw.cmdif, hcsw]⟩, hw.trimOvr,
      hw.hsTrim.trans (hword.trans hrec.symm)⟩
  case h_20 =>
    obtain ⟨⟨hlfi, hcsw⟩, hovr, htrim⟩ := trimProgress_lock.mp hp
    have hw := keyWrite_written hc 0#32 .trimDone loc
    cases ht
    exact trimProgress_trimDone.mpr ⟨⟨(hsel (by simp)).trans hlfi, by rw [hw.cmdif, hcsw]⟩,
      ⟨hw.trimOvr.trans hovr, hw.hsTrim.trans (htrim.trans hrec.symm)⟩, hw.keyState⟩
  case h_21 => cases ht
  case h_22 => cases ht

/-- The progress of a running TRIM is kept by every step of every agent. -/
theorem step_trimProgressOk {s t : State} (h : RunInv s) (hp : trimProgressOk s) (hstep : step s = .next t) :
    trimProgressOk t := fun tg k pos loc hk =>
  step_progress (i := .trim tg) (P := trimProgress k) (fun _ _ => trimProgress_start)
    (fun _ _ _ _ hm hp => trimProgress_sameMachine hm hp)
    (fun _ _ _ e hinv _ hp => trimProgress_envStep hinv.config e hp)
    (fun _ _ _ _ _ _ hinv hr hx ht hp => execTrim_progress hinv.config hk hr.1 hx ht hp)
    h hstep (fun pos loc hr => hp tg k pos loc hk hr) pos loc

/-- In every run the progress of a running TRIM holds. -/
theorem reachable_trimProgressOk {s : State} (h : Reachable s) : trimProgressOk s :=
  (reachable_induction (fun _ _ _ _ _ _ _ _ _ _ hr => by cases hr.1)
    (fun _ _ hinv hp hstep => step_trimProgressOk hinv hp hstep) h).2

/-- Settles O39: the unlock of four key writes, then the protected write, the lock and the finish; the progress
by the step lemma; and the last step of a reachable TRIM finds what the progress says. -/
theorem trimUnlocksWritesLocks : Obligations.TrimUnlocksWritesLocks := by
  refine ⟨fun tg s loc k hc hk hs => ?_, fun s t hinv hp hstep => step_trimProgressOk hinv hp hstep,
    fun tg s loc k hreach hk hr => ?_⟩
  · obtain ⟨s3, v0, v1, v2, v3, w0, w1, w2, w3, x3, e3, hkey3, hovr3, hcm3, hfr3, htr3, f0, f1, f2, f3⟩ :=
      trim_unlocks hc hk hs
    obtain ⟨s4, x4, e4, h4⟩ := exec_trim_trimWrite hk e3 hkey3 hovr3
    have hfr4 := unlockFrame_trans hfr3 h4.frame
    have hcfg4 : s4.cfg = s.cfg := hfr4.2.2.1
    obtain ⟨s5, x5, e5, h5, hdist5⟩ := exec_trim_lock (hcfg4.symm ▸ hc) hk e4
    have hfr5 := unlockFrame_trans hfr4 h5.frame
    have hcfg5 : s5.cfg = s.cfg := hfr5.2.2.1
    obtain ⟨v5, w5, htr5, f5⟩ := h5.trace
    rw [hcfg4] at f5
    have hcm5 : s5.cmdif = s.cmdif := by rw [h5.cmdif, h4.cmdif, hcm3]
    have htr : s5.trace = .modify .engine (.cpm .protKey) v5 w5 ::
        .write .engine (.cpm .hsTrim) (trimWord k loc) :: s3.trace := by rw [htr5, h4.trace]
    rw [htr3] at htr
    refine ⟨finish .ok (s5.setNomfreq (targetHz s5.cfg k)), v0, v1, v2, v3, v5, w0, w1, w2, w3, w5, ?_, ?_,
      h5.keyState, ?_, ?_, ?_, rfl, ?_, ⟨f0, f1, f2, f3, f5⟩, hfr5.1, hfr5.2.1, hfr5.2.2⟩
    · exact execTimes_add (m := 4) (n := 3) x3
        ((execTimes_succ 2 x4).trans (execTimes_two x5 (exec_trim_trimDone hk e5)))
    · exact (h5.hsTrim.trans h4.hsTrim).trans (by cases k <;> rfl)
    · exact h5.trimOvr.trans h4.trimOvr
    · exact hdist5.trans h4.hsDisturb
    · rw [← hcfg5, ← hcm5]
      cases k <;> rfl
    · exact htr.trans (by cases k <;> rfl)
  · obtain ⟨⟨hlfi, hcsw⟩, ⟨hovr, htrim⟩, hkey⟩ :=
      trimProgress_trimDone.mp (reachable_trimProgressOk hreach tg k .trimDone loc hk hr)
    refine ⟨_, exec_trim_trimDone hk hr.1, htrim, rfl, hlfi, hkey, hovr, ?_, rfl⟩
    rw [← hcsw]
    cases k <;> rfl

end Sys2Proof.Machine
end

section
/-! SUPPORT. IPSDIV's three writes (43_clock_aux.md R200, R203) and GETFREQ's two reads (R205 to R208): each step
on its own, then the steps in a row. -/

namespace Sys2Proof.Machine

/-! ## GETFREQ -/

theorem exec_getfreq_start {s : State} {loc : Locals} (hs : s.engine = .run .start loc) :
    exec .getfreq s = .next (freqReadStatus loc s) := by simp only [exec, execGetfreq, hs]

theorem exec_getfreq_freqDivider {s : State} {loc : Locals} (hs : s.engine = .run .freqDivider loc) :
    exec .getfreq s = .next (freqReadDivider loc s) := by simp only [exec, execGetfreq, hs]

theorem exec_getfreq_freqDone {s : State} {loc : Locals} (hs : s.engine = .run .freqDone loc) :
    exec .getfreq s = .next (finish .ok (s.setResult (freqResult loc s))) := by simp only [exec, execGetfreq, hs]

/-- Settles O42: each step is one of the three equations above, and a read leaves everything but TRACE. -/
theorem getfreqComputesFrequency : Obligations.GetfreqComputesFrequency := by
  have hread : ∀ s : State, readFrame s (regRead (.cpm .sysClk) s) := readFrame_regRead (by decide)
  refine ⟨fun s loc hs => ?_, fun s loc hs => ?_, fun s loc hs => ?_⟩
  · exact ⟨_, exec_getfreq_start hs, rfl, rfl, rfl, readFrame_goto (hread s) _ _⟩
  · refine ⟨_, freqBase loc.v s, exec_getfreq_freqDivider hs, rfl, fun h => ?_, fun h => ?_, rfl, rfl,
      readFrame_goto (hread s) _ _⟩
    · rw [freqBase, if_neg (by simp [h])]
    · rw [freqBase, if_pos h]
  · exact ⟨_, exec_getfreq_freqDone hs, rfl, rfl, rfl, readFrame_finish (readFrame_refl s) .ok⟩

/-- The base of the source that SYS_CLK reports (R205, R207). -/
theorem freqBase_sysClk (s : State) :
    freqBase s.cpm.sysClk s = if s.selStat = .lfi then s.cfg.lfiHz.toNat else s.cmdif.nomfreq.toNat := by
  rw [freqBase, State.selStat]
  cases getBit s.cpm.sysClk s.cfg.layout.selStat <;> rfl

theorem freqBase_lt (v : Word) (s : State) : freqBase v s < 2 ^ 32 := by
  rw [freqBase]
  split
  · exact s.cmdif.nomfreq.isLt
  · exact s.cfg.lfiHz.isLt

/-- Settles O43: with no other agent between the reads both see the same SYS_CLK, and a quotient of a 32-bit base
fits 32 bits. -/
theorem getfreqResult : Obligations.GetfreqResult := by
  intro s loc hs
  have h1 := exec_getfreq_start hs
  have h2 : exec .getfreq (freqReadStatus loc s) = .next _ := exec_getfreq_freqDivider rfl
  have h3 : exec .getfreq (freqReadDivider { loc with v := s.cpm.sysClk } (freqReadStatus loc s)) = .next _ :=
    exec_getfreq_freqDone rfl
  have hread : readFrame s (freqReadDivider { loc with v := s.cpm.sysClk } (freqReadStatus loc s)) :=
    readFrame_trans (readFrame_goto (readFrame_regRead (by decide) s) _ _)
      (readFrame_goto (readFrame_regRead (r := .cpm .sysClk) (by decide) _) _ _)
  refine ⟨_, (execTimes_succ 2 h1).trans (execTimes_two h2 h3), ?_, rfl, rfl, rfl, readFrame_finish hread .ok⟩
  rw [← freqBase_sysClk]
  exact (BitVec.toNat_ofNat _ 32).trans (Nat.mod_eq_of_lt (lt_of_le_of_lt (Nat.div_le_self _ _) (freqBase_lt _ s)))

/-! ## IPSDIV -/

/-- Everything a step of IPSDIV that writes the word `w` to IPS_DIV does. -/
structure IpsWritten (w : Word) (s t : State) : Prop where
  ipsDiv : t.cpm.ipsDiv = merge (cpmRw s.cfg .ipsDiv) s.cpm.ipsDiv w
  cpm : t.cpm = { s.cpm with ipsDiv := t.cpm.ipsDiv }
  cmdif : t.cmdif = s.cmdif
  trace : t.trace = .modify .engine (.cpm .ipsDiv) s.cpm.ipsDiv w :: s.trace
  frame : clockFrame s t

theorem exec_ipsdiv_start {s : State} {loc : Locals} (hs : s.engine = .run .start loc)
    (hrange : loc.a0.toNat ≤ s.cfg.ipsdivMax) :
    ∃ t, exec .ipsdiv s = .next t ∧ t.engine = .run .ipsField loc ∧
      IpsWritten (s.cpm.ipsDiv ||| bit s.cfg.layout.ipsEn) s t := by
  refine ⟨ipsEnable loc s, by simp only [exec, execIpsdiv, hs, if_neg (Nat.not_lt.mpr hrange)], rfl, ?_⟩
  rw [ipsEnable, regSet_cpm_plain (by decide) (by decide)]
  exact ⟨rfl, rfl, rfl, rfl, ⟨rfl, rfl, rfl⟩, ⟨rfl, rfl⟩, rfl, rfl, rfl⟩

theorem exec_ipsdiv_ipsField {s : State} {loc : Locals} (hs : s.engine = .run .ipsField loc) :
    ∃ t, exec .ipsdiv s = .next t ∧ t.engine = .run .ipsCommit loc ∧
      IpsWritten (merge (bits s.cfg.layout.div s.cfg.layout.divWidth) s.cpm.ipsDiv
        (loc.a0 <<< s.cfg.layout.div)) s t := by
  refine ⟨ipsWriteField loc s, by simp only [exec, execIpsdiv, hs], rfl, ?_⟩
  rw [ipsWriteField, regRmw_cpm_plain (by decide) (by decide)]
  exact ⟨rfl, rfl, rfl, rfl, ⟨rfl, rfl, rfl⟩, ⟨rfl, rfl⟩, rfl, rfl, rfl⟩

theorem exec_ipsdiv_ipsCommit {s : State} {loc : Locals} (hs : s.engine = .run .ipsCommit loc) :
    ∃ t, exec .ipsdiv s = .next t ∧ t.engine = .run (.finishing .ok) loc ∧
      IpsWritten (s.cpm.ipsDiv ||| bit s.cfg.layout.upd) s t := by
  refine ⟨ipsAssertUpdate loc s, by simp only [exec, execIpsdiv, hs], rfl, ?_⟩
  rw [ipsAssertUpdate, regSet_cpm_plain (by decide) (by decide)]
  exact ⟨rfl, rfl, rfl, rfl, ⟨rfl, rfl, rfl⟩, ⟨rfl, rfl⟩, rfl, rfl, rfl⟩

theorem exec_ipsdiv_finishing {s : State} {st : Status} {loc : Locals}
    (hs : s.engine = .run (.finishing st) loc) : exec .ipsdiv s = .next (finish st s) := by
  simp only [exec, execIpsdiv, hs]

/-- The bits of IPS_DIV that a write stores as written, and those it keeps (R39). -/
theorem IpsWritten.getBit {w : Word} {s t : State} (hc : configWf s.cfg = true) (h : IpsWritten w s t) (p : Nat) :
    getBit t.cpm.ipsDiv p = if p = s.cfg.layout.ipsEn ∨
      (s.cfg.layout.div ≤ p ∧ p < s.cfg.layout.div + s.cfg.layout.divWidth) then getBit w p
      else getBit s.cpm.ipsDiv p := by
  rw [h.ipsDiv, getBit_merge, getBit_cpmRw_ipsDiv hc]
  simp only [decide_eq_true_eq]

/-- UPD stores nothing and reads 0 (R39, R52). -/
theorem getBit_ipsDiv_upd {s : State} (hc : configWf s.cfg = true) (hregs : regsOk s) :
    getBit s.cpm.ipsDiv s.cfg.layout.upd = false := by
  obtain ⟨_, _, hne, _, hapart⟩ := ips_positions hc
  have hwithin := within_iff.mp (hregs.1 .ipsDiv) s.cfg.layout.upd
  rw [cpmImpl, getBit_cpmRw_ipsDiv hc, decide_eq_true_eq] at hwithin
  refine Bool.eq_false_iff.mpr fun h => ?_
  rcases hwithin h with heq | ⟨h1, h2⟩
  · exact hne heq.symm
  · exact (hapart _ h1 h2).2 rfl

/-- After the enable write IPS_EN is 1 and no other bit has moved. -/
theorem getBit_ipsDiv_enabled {s t : State} (hc : configWf s.cfg = true)
    (h : IpsWritten (s.cpm.ipsDiv ||| bit s.cfg.layout.ipsEn) s t) (p : Nat) :
    getBit t.cpm.ipsDiv p = (getBit s.cpm.ipsDiv p || decide (p = s.cfg.layout.ipsEn)) := by
  obtain ⟨hen, _⟩ := ips_positions hc
  rw [h.getBit hc, getBit_or, getBit_bit, decide_eq_true hen, Bool.true_and]
  by_cases hp : p = s.cfg.layout.ipsEn
  · simp [hp]
  · simp [hp, Ne.symm hp]

/-- After the field write DIV holds the value and no other bit has moved. -/
theorem getBit_ipsDiv_field {s t : State} {x : Word} (hc : configWf s.cfg = true)
    (h : IpsWritten (merge (bits s.cfg.layout.div s.cfg.layout.divWidth) s.cpm.ipsDiv x) s t) (p : Nat) :
    getBit t.cpm.ipsDiv p = if s.cfg.layout.div ≤ p ∧ p < s.cfg.layout.div + s.cfg.layout.divWidth
      then getBit x p else getBit s.cpm.ipsDiv p := by
  obtain ⟨_, _, _, hdiv, _⟩ := ips_positions hc
  rw [h.getBit hc, getBit_merge, getBit_bits_of_le hdiv]
  by_cases hp : s.cfg.layout.div ≤ p ∧ p < s.cfg.layout.div + s.cfg.layout.divWidth <;> simp [hp]

/-- The commit write stores nothing (R201). -/
theorem getBit_ipsDiv_committed {s t : State} (hc : configWf s.cfg = true)
    (h : IpsWritten (s.cpm.ipsDiv ||| bit s.cfg.layout.upd) s t) (p : Nat) :
    getBit t.cpm.ipsDiv p = getBit s.cpm.ipsDiv p := by
  obtain ⟨_, _, hne, _, hapart⟩ := ips_positions hc
  rw [h.getBit hc]
  split
  · next hp =>
    have hupd : s.cfg.layout.upd ≠ p := by
      rcases hp with rfl | ⟨h1, h2⟩
      · exact hne.symm
      · exact Ne.symm (hapart p h1 h2).2
    rw [getBit_or, getBit_bit_ne hupd, Bool.or_false]
  · rfl

/-- Settles O40: the three writes set IPS_EN, write DIV and store nothing more; UPD is 1 in the third word only. -/
theorem ipsdivSetsDivider : Obligations.IpsdivSetsDivider := by
  intro s loc hc hregs hs hrange
  obtain ⟨hen, hupd, henupd, hdiv, hapart⟩ := ips_positions hc
  have hmax : s.cfg.ipsdivMax < 2 ^ s.cfg.layout.divWidth := (configWf_parts hc).2.2.2.2.2.1
  obtain ⟨s1, x1, e1, h1⟩ := exec_ipsdiv_start hs hrange
  have hcfg1 : s1.cfg = s.cfg := h1.frame.1.1
  obtain ⟨s2, x2, e2, h2⟩ := exec_ipsdiv_ipsField e1
  have hcfg2 : s2.cfg = s.cfg := h2.frame.1.1.trans hcfg1
  obtain ⟨s3, x3, e3, h3⟩ := exec_ipsdiv_ipsCommit e2
  have hcfg3 : s3.cfg = s.cfg := h3.frame.1.1.trans hcfg2
  have hbit1 := getBit_ipsDiv_enabled hc h1
  have hbit2 := getBit_ipsDiv_field (hcfg1.symm ▸ hc) h2
  have hbit3 := getBit_ipsDiv_committed (hcfg2.symm ▸ hc) h3
  rw [hcfg1] at hbit2
  have hbits : ∀ p, getBit s3.cpm.ipsDiv p =
      if s.cfg.layout.div ≤ p ∧ p < s.cfg.layout.div + s.cfg.layout.divWidth
      then getBit (loc.a0 <<< s.cfg.layout.div) p
      else (getBit s.cpm.ipsDiv p || decide (p = s.cfg.layout.ipsEn)) := fun p => by rw [hbit3, hbit2, hbit1]
  have hfr := clockFrame_trans h1.frame (clockFrame_trans h2.frame h3.frame)
  have hupdOut : ¬ (s.cfg.layout.div ≤ s.cfg.layout.upd ∧
      s.cfg.layout.upd < s.cfg.layout.div + s.cfg.layout.divWidth) := fun ⟨h, h'⟩ => (hapart _ h h').2 rfl
  have htr := h3.trace
  rw [h2.trace, h1.trace] at htr
  refine ⟨finish .ok s3, _, _, _, _, _, _, ?_, ?_, ?_, fun p hp hout => ?_, ?_, ⟨?_, rfl⟩, htr, ?_, ?_, ?_, hfr⟩
  · exact (execTimes_succ 3 x1).trans ((execTimes_succ 2 x2).trans (execTimes_two x3 (exec_ipsdiv_finishing e3)))
  · show field s3.cpm.ipsDiv s3.cfg.layout.div s3.cfg.layout.divWidth = _
    rw [hcfg3, field_congr (v' := loc.a0 <<< s.cfg.layout.div) fun q hq hq' => by rw [hbits, if_pos ⟨hq, hq'⟩],
      field_shiftLeft hdiv]
    exact Nat.mod_eq_of_lt (lt_of_le_of_lt hrange hmax)
  · show getBit s3.cpm.ipsDiv s3.cfg.layout.ipsEn = _
    rw [hcfg3, hbits, if_neg fun ⟨h, h'⟩ => (hapart _ h h').1 rfl, decide_eq_true rfl, Bool.or_true]
  · rw [finish_cpm, hbits, if_neg hout, decide_eq_false hp, Bool.or_false]
  · rw [finish_cpm, h3.cpm, h2.cpm, h1.cpm]
  · rw [← h1.cmdif, ← h2.cmdif, ← h3.cmdif]
    rfl
  · rw [getBit_or, getBit_ipsDiv_upd hc hregs, getBit_bit_ne henupd, Bool.or_false]
  · rw [hcfg1, getBit_merge, getBit_bits_of_le hdiv, if_neg (by simpa using hupdOut), hbit1,
      getBit_ipsDiv_upd hc hregs, decide_eq_false henupd.symm, Bool.or_false]
  · rw [hcfg2, getBit_or, getBit_bit_self hupd, Bool.or_true]

end Sys2Proof.Machine
end

section
/-! SUPPORT. What one access of a cache register by the engine does (10_state.md R45 to R49), the frames of
several such accesses, and CEN (44_cache_config.md R222, R223). -/

namespace Sys2Proof.Machine

/-! ## Frames of several steps -/

theorem cacheFrame_trans {c : CacheId} {s t u : State} (h : cacheFrame c s t) (h' : cacheFrame c t u) :
    cacheFrame c s u := by
  obtain ⟨hw, hcpm, hdist, hdraws, hkey, hother⟩ := h
  obtain ⟨hw', hcpm', hdist', hdraws', hkey', hother'⟩ := h'
  exact ⟨sameWorld_trans hw hw', hcpm'.trans hcpm, hdist'.trans hdist, hdraws'.trans hdraws,
    hkey'.trans (keyAfterOther_of_keyAfterOther hw.1 hkey), hother'.trans hother⟩

theorem readFrame_cache {s t : State} (h : readFrame s t) (c : CacheId) : t.cache c = s.cache c := by
  obtain ⟨_, ⟨hi, hd⟩, _⟩ := h
  cases c
  exacts [hi, hd]

/-- Reads after a write stay in its frame. -/
theorem cacheFrame_read {c : CacheId} {s t u : State} (h : cacheFrame c s t) (h' : readFrame t u) :
    cacheFrame c s u := by
  have hother' := readFrame_cache h' (otherCache c)
  obtain ⟨hw, hcpm, hdist, hdraws, hkey, hother⟩ := h
  obtain ⟨hw', _, hcpm', hdist', hdraws', hkey'⟩ := h'
  exact ⟨sameWorld_trans hw hw', hcpm'.trans hcpm, hdist'.trans hdist, hdraws'.trans hdraws, hkey'.trans hkey,
    hother'.trans hother⟩

/-- Reads before a write are in its frame. -/
theorem read_cacheFrame {c : CacheId} {s t u : State} (h : readFrame s t) (h' : cacheFrame c t u) :
    cacheFrame c s u := by
  have hother := readFrame_cache h (otherCache c)
  obtain ⟨hw, _, hcpm, hdist, hdraws, hkey⟩ := h
  obtain ⟨hw', hcpm', hdist', hdraws', hkey', hother'⟩ := h'
  exact ⟨sameWorld_trans hw hw', hcpm'.trans hcpm, hdist'.trans hdist, hdraws'.trans hdraws,
    hkey'.trans (keyAfterOther_congr hw.1 hkey), hother'.trans hother⟩

/-! ## One write -/

/-- Everything an engine write of the word `w` to a cache register does, with the entry `e` it adds to TRACE. -/
structure CacheWritten (c : CacheId) (q : CacheReg) (w : Word) (e : TraceEntry) (s t : State) : Prop where
  cache : t.cache c = (s.cache c).setWord q (cacheWritten s.cfg (s.cacheEn c) q ((s.cache c).word q) w)
  cmdif : t.cmdif = s.cmdif
  trace : t.trace = e :: s.trace
  frame : cacheFrame c s t

theorem CacheWritten.cfg {c : CacheId} {q : CacheReg} {w : Word} {e : TraceEntry} {s t : State}
    (h : CacheWritten c q w e s t) : t.cfg = s.cfg := h.frame.1.1

theorem CacheWritten.word_self {c : CacheId} {q : CacheReg} {w : Word} {e : TraceEntry} {s t : State}
    (h : CacheWritten c q w e s t) :
    (t.cache c).word q = cacheWritten s.cfg (s.cacheEn c) q ((s.cache c).word q) w := by
  rw [h.cache, Cache.word_setWord, if_pos rfl]

theorem CacheWritten.word_ne {c : CacheId} {q q' : CacheReg} {w : Word} {e : TraceEntry} {s t : State}
    (h : CacheWritten c q w e s t) (hne : q' ≠ q) : (t.cache c).word q' = (s.cache c).word q' := by
  rw [h.cache, Cache.word_setWord, if_neg hne]

theorem CacheWritten.sameLines {c : CacheId} {q : CacheReg} {w : Word} {e : TraceEntry} {s t : State}
    (h : CacheWritten c q w e s t) : sameLines c s t :=
  lines_congr (by rw [h.cache, Cache.setWord_lines])

theorem otherCache_ne (c : CacheId) : otherCache c ≠ c := by cases c <;> decide

theorem writeReg_cache_written (c : CacheId) (q : CacheReg) (w : Word) (e : TraceEntry) (s : State) (pos : Pos)
    (loc : Locals) : CacheWritten c q w e s (goto pos loc ((writeReg (.cache c q) w s).log e)) := by
  rw [writeReg_cache]
  refine ⟨?_, ?_, ?_, ⟨?_, ?_, ?_⟩, ?_, ?_, ?_, rfl, ?_⟩ <;> simp [goto, otherCache_ne]

theorem regWrite_cache_written (c : CacheId) (q : CacheReg) (w : Word) (s : State) (pos : Pos) (loc : Locals) :
    CacheWritten c q w (.write .engine (.cache c q) w) s (goto pos loc (regWrite (.cache c q) w s)) :=
  writeReg_cache_written c q w _ s pos loc

theorem regSet_cache_written (c : CacheId) (q : CacheReg) (m : Word) (s : State) (pos : Pos) (loc : Locals) :
    CacheWritten c q ((s.cache c).word q ||| m)
      (.modify .engine (.cache c q) ((s.cache c).word q) ((s.cache c).word q ||| m)) s
      (goto pos loc (regSet (.cache c q) m s)) := by
  rw [regSet, drawnBy_of_ne _ _ (by simp), readValue_cache]
  exact writeReg_cache_written c q _ _ s pos loc

theorem regClr_cache_written (c : CacheId) (q : CacheReg) (m : Word) (s : State) (pos : Pos) (loc : Locals) :
    CacheWritten c q ((s.cache c).word q &&& ~~~m)
      (.modify .engine (.cache c q) ((s.cache c).word q) ((s.cache c).word q &&& ~~~m)) s
      (goto pos loc (regClr (.cache c q) m s)) := by
  rw [regClr, drawnBy_of_ne _ _ (by simp), readValue_cache]
  exact writeReg_cache_written c q _ _ s pos loc

/-! ## The enable bit -/

/-- A write of EN: EN takes the value, and every other bit of CCR keeps its own (R45, R222). -/
theorem cacheEnWrite_written {s : State} (hc : configWf s.cfg = true) (c : CacheId) (en : Bool) (pos : Pos)
    (loc : Locals) :
    ∃ v w, CacheWritten c .ccr w (.modify .engine (.cache c .ccr) v w) s (goto pos loc (cacheEnWrite c en s)) ∧
      ∀ p, getBit w p = if p = s.cfg.layout.cacheEn then en else getBit (s.cache c).ccr p := by
  have hen := ccr_position hc
  cases en
  · refine ⟨_, _, regClr_cache_written c .ccr _ s pos loc, fun p => ?_⟩
    rw [getBit_and_not, getBit_bit, decide_eq_true hen, Bool.true_and]
    by_cases hp : p = s.cfg.layout.cacheEn
    · simp [hp]
    · simp [hp, Ne.symm hp, Cache.word]
  · refine ⟨_, _, regSet_cache_written c .ccr _ s pos loc, fun p => ?_⟩
    rw [getBit_or, getBit_bit, decide_eq_true hen, Bool.true_and]
    by_cases hp : p = s.cfg.layout.cacheEn
    · simp [hp]
    · simp [hp, Ne.symm hp, Cache.word]

/-- CCR after a write of EN. -/
theorem CacheWritten.getBit_ccr {c : CacheId} {w : Word} {e : TraceEntry} {s t : State}
    (h : CacheWritten c .ccr w e s t) (hc : configWf s.cfg = true) (p : Nat) :
    getBit (t.cache c).ccr p = if p = s.cfg.layout.cacheEn then getBit w p else getBit (s.cache c).ccr p := by
  have hself : (t.cache c).ccr = _ := h.word_self
  rw [hself, getBit_ccrWritten hc]
  rfl

theorem exec_cen_start {c : CacheId} {en : Bool} {s : State} {loc : Locals} (hs : s.engine = .run .start loc) :
    exec (.cen c en) s = .next (goto (.finishing .ok) loc (cacheEnWrite c en s)) := by
  simp only [exec, execCen, hs]

theorem exec_cen_finishing {c : CacheId} {en : Bool} {s : State} {st : Status} {loc : Locals}
    (hs : s.engine = .run (.finishing st) loc) : exec (.cen c en) s = .next (finish st s) := by
  simp only [exec, execCen, hs]

/-- Settles O44: one write of EN, then `finish(OK)`. -/
theorem cenWritesEnable : Obligations.CenWritesEnable := by
  intro c en s loc hc hs
  obtain ⟨v, w, hwr, hbits⟩ := cacheEnWrite_written hc c en (.finishing .ok) loc
  have hccr := hwr.getBit_ccr hc
  have x1 := exec_cen_start (c := c) (en := en) hs
  have e1 : (goto (.finishing .ok) loc (cacheEnWrite c en s)).engine = .run (.finishing .ok) loc := rfl
  generalize goto (.finishing .ok) loc (cacheEnWrite c en s) = t at hwr hccr x1 e1
  refine ⟨t, finish .ok t, v, w, x1, hwr.cmdif, exec_cen_finishing e1, ?_, fun p hp => ?_, ?_, ⟨?_, rfl⟩, hwr.trace,
    hwr.frame⟩
  · show getBit (t.cache c).ccr t.cfg.layout.cacheEn = en
    rw [hwr.cfg, hccr, if_pos rfl, hbits, if_pos rfl]
  · exact (hccr p).trans (if_neg hp)
  · show t.cache c = { s.cache c with ccr := (t.cache c).ccr }
    rw [hwr.cache]
    rfl
  · rw [← hwr.cmdif]
    rfl

end Sys2Proof.Machine
end

section
/-! SUPPORT. `SetRegion` and `SetAll` (44_cache_config.md R220, R221, R227, R229), which CRGN, CRGNALL and CINIT
share: what they leave in the region registers and in TRACE. -/

namespace Sys2Proof.Machine

/-! ## The policy of a region -/

theorem holdsPolicy_iff {s : State} {c : CacheId} {r : Region} {p : Policy} :
    holdsPolicy s c r p ↔ ∀ q ∈ (regionPos s.cfg.layout r).slots,
      (getBit ((s.cache c).word (rgnReg s.cfg.layout r)) q.ce,
        getBit ((s.cache c).word (rgnReg s.cfg.layout r)) q.wp) = policyPair p := by
  simp only [holdsPolicy, State.slotPairs, List.mem_map, forall_exists_index, and_imp, forall_apply_eq_imp_iff₂]

/-- The policy of a region is in its own bits of its register. -/
theorem holdsPolicy_congr {s t : State} {c : CacheId} {r : Region} {p : Policy} (hc : configWf s.cfg = true)
    (hcfg : t.cfg = s.cfg)
    (hbits : ∀ q, getBit (regionMask s.cfg.layout r) q = true →
      getBit ((t.cache c).word (rgnReg s.cfg.layout r)) q = getBit ((s.cache c).word (rgnReg s.cfg.layout r)) q)
    (h : holdsPolicy s c r p) : holdsPolicy t c r p := by
  rw [holdsPolicy_iff] at h ⊢
  rw [hcfg]
  intro q hq
  rw [hbits q.ce (by simp [regionMask, slot_ce hc hq]), hbits q.wp (by simp [regionMask, slot_wp hc hq])]
  exact h q hq

/-- A write of a region register stores the bits of its regions. -/
theorem cacheWritten_rgnReg (cfg : Config) (en : Bool) (r : Region) (old v : Word) :
    cacheWritten cfg en (rgnReg cfg.layout r) old v = merge (cacheRw cfg (rgnReg cfg.layout r)) old v := by
  rw [rgnReg]
  cases (regionPos cfg.layout r).reg <;> rfl

theorem rgnReg_mem (L : Layout) (r : Region) : rgnReg L r ∈ [CacheReg.crgn0, .crgn1] := by
  rw [rgnReg]
  cases (regionPos L r).reg <;> simp [RgnReg.toCacheReg]

theorem rgnReg_ne_ccr (L : Layout) (r : Region) : rgnReg L r ≠ .ccr := fun h => by
  have := rgnReg_mem L r
  rw [h] at this
  revert this
  decide

/-! ## SetRegion (R221) -/

/-- Everything the write of `SetRegion(r, p)` does once its read has seen the register, with the entries `es`
that TRACE has gained. -/
structure RegionWritten (c : CacheId) (r : Region) (p : Policy) (es : List TraceEntry) (s t : State) : Prop where
  holds : holdsPolicy t c r p
  bits : ∀ q, getBit (regionMask s.cfg.layout r) q = false →
    getBit ((t.cache c).word (rgnReg s.cfg.layout r)) q = getBit ((s.cache c).word (rgnReg s.cfg.layout r)) q
  words : ∀ q, q ≠ rgnReg s.cfg.layout r → (t.cache c).word q = (s.cache c).word q
  cmdif : t.cmdif = s.cmdif
  lines : sameLines c s t
  frame : cacheFrame c s t
  trace : t.trace = es ++ s.trace

theorem setRegionWrite_written {s : State} (hc : configWf s.cfg = true) (c : CacheId) (r : Region) (p : Policy)
    (after : Pos) {loc : Locals} (hv : loc.v = (s.cache c).word (rgnReg s.cfg.layout r)) :
    RegionWritten c r p
      [.write .engine (.cache c (rgnReg s.cfg.layout r)) (applyPolicy s.cfg.layout loc.v r p)] s
      (setRegionWrite c r p after loc s) := by
  have hw : CacheWritten c (rgnReg s.cfg.layout r) (applyPolicy s.cfg.layout loc.v r p) _ s
    (setRegionWrite c r p after loc s) := regWrite_cache_written c _ _ s after loc
  have hself := hw.word_self
  rw [cacheWritten_rgnReg] at hself
  refine ⟨?_, fun q hq => ?_, fun q hq => hw.word_ne hq, hw.cmdif, hw.sameLines, hw.frame, hw.trace⟩
  · rw [holdsPolicy_iff, hw.cfg]
    intro q hq
    have hce : getBit (cacheRw s.cfg (rgnReg s.cfg.layout r)) q.ce = true :=
      cacheRw_rgnReg _ _ _ (by simp [regionMask, slot_ce hc hq])
    have hwp : getBit (cacheRw s.cfg (rgnReg s.cfg.layout r)) q.wp = true :=
      cacheRw_rgnReg _ _ _ (by simp [regionMask, slot_wp hc hq])
    rw [hself, getBit_merge, getBit_merge, if_pos hce, if_pos hwp, getBit_applyPolicy_slot hc _ p hq]
  · rw [hself, getBit_merge, getBit_applyPolicy_outside _ _ _ _ _ hq, hv, ite_self]

/-- Setting one region keeps the policy of another (R50). -/
theorem RegionWritten.holds_other {c : CacheId} {r r' : Region} {p p' : Policy} {es : List TraceEntry}
    {s t : State} (h : RegionWritten c r p es s t) (hc : configWf s.cfg = true) (hne : r' ≠ r) (hold : holdsPolicy s c r' p') :
    holdsPolicy t c r' p' := by
  refine holdsPolicy_congr hc h.frame.1.1 (fun q hq => ?_) hold
  by_cases hreg : rgnReg s.cfg.layout r' = rgnReg s.cfg.layout r
  · rw [hreg]
    exact h.bits q (regions_apart hc hne hreg q hq)
  · rw [h.words _ hreg]

/-- The read of `SetRegion` changes nothing but TRACE. -/
theorem readFrame_setRegionRead (c : CacheId) (r : Region) (loc : Locals) (s : State) :
    readFrame s (setRegionRead c r loc s) :=
  readFrame_goto (readFrame_regRead (by simp) s) _ _

/-- A read before the write. -/
theorem RegionWritten.after_read {c : CacheId} {r : Region} {p : Policy} {es : List TraceEntry} {e : TraceEntry}
    {s s' t : State} (h : RegionWritten c r p es s' t) (hread : readFrame s s') (hcm : s'.cmdif = s.cmdif)
    (htr : s'.trace = e :: s.trace) : RegionWritten c r p (es ++ [e]) s t := by
  have hcfg : s'.cfg = s.cfg := hread.1.1
  have hcache := readFrame_cache hread c
  refine ⟨h.holds, ?_, ?_, h.cmdif.trans hcm, fun w => (h.lines w).trans (lines_congr (by rw [hcache]) w),
    read_cacheFrame hread h.frame, ?_⟩
  · rw [← hcfg, ← hcache]
    exact h.bits
  · rw [← hcfg, ← hcache]
    exact h.words
  · rw [h.trace, htr, List.append_assoc, List.singleton_append]

/-- The read and the write of `SetRegion(r, p)` in a row. -/
theorem setRegion_written {s : State} (hc : configWf s.cfg = true) (c : CacheId) (r : Region) (p : Policy)
    (after : Pos) (loc : Locals) :
    ∃ v, RegionWritten c r p
      [.write .engine (.cache c (rgnReg s.cfg.layout r)) v,
        .read .engine (.cache c (rgnReg s.cfg.layout r)) ((s.cache c).word (rgnReg s.cfg.layout r))] s
      (setRegionWrite c r p after { loc with v := (s.cache c).word (rgnReg s.cfg.layout r) }
        (setRegionRead c r loc s)) := by
  have hread := readFrame_setRegionRead c r loc s
  have hcfg : (setRegionRead c r loc s).cfg = s.cfg := hread.1.1
  have htr : (setRegionRead c r loc s).trace = .read .engine (.cache c (rgnReg s.cfg.layout r))
      ((s.cache c).word (rgnReg s.cfg.layout r)) :: s.trace := by
    rw [setRegionRead, regRead_eq _ _ (by simp), readValue_cache]
    rfl
  have hw := setRegionWrite_written (s := setRegionRead c r loc s) (hcfg.symm ▸ hc) c r p after
    (loc := { loc with v := (s.cache c).word (rgnReg s.cfg.layout r) }) (by rw [hcfg, readFrame_cache hread])
  rw [hcfg] at hw
  exact ⟨_, hw.after_read hread rfl htr⟩

theorem exec_crgn_start {c : CacheId} {rc : BitVec 4} {pc : BitVec 2} {s : State} {loc : Locals} {r : Region}
    {p : Policy} (hr : regionOfCode? rc = some r) (hp : policyOfCode? pc = some p)
    (hs : s.engine = .run .start loc) : exec (.crgn c rc pc) s = .next (setRegionRead c r loc s) := by
  simp only [exec, execCrgn, hs, hr, hp]

theorem exec_crgn_setWrite {c : CacheId} {rc : BitVec 4} {pc : BitVec 2} {s : State} {loc : Locals} {r : Region}
    {p : Policy} (hr : regionOfCode? rc = some r) (hp : policyOfCode? pc = some p)
    (hs : s.engine = .run (.setWrite r) loc) :
    exec (.crgn c rc pc) s = .next (setRegionWrite c r p (.finishing .ok) loc s) := by
  simp only [exec, execCrgn, hs, hr, hp, if_true]

theorem exec_crgn_finishing {c : CacheId} {rc : BitVec 4} {pc : BitVec 2} {s : State} {loc : Locals} {st : Status}
    {r : Region} {p : Policy} (hr : regionOfCode? rc = some r) (hp : policyOfCode? pc = some p)
    (hs : s.engine = .run (.finishing st) loc) : exec (.crgn c rc pc) s = .next (finish st s) := by
  simp only [exec, execCrgn, hs, hr, hp]

/-- Settles O45: one `SetRegion`, then `finish(OK)`. -/
theorem crgnSetsRegionPolicy : Obligations.CrgnSetsRegionPolicy := by
  intro c rc pc s loc r p hc hs hr hp
  obtain ⟨v, hw⟩ := setRegion_written hc c r p (.finishing .ok) loc
  have x1 := exec_crgn_start (c := c) hr hp hs
  obtain ⟨t, ht, x2, e2⟩ : ∃ t, RegionWritten c r p _ s t ∧
      exec (.crgn c rc pc) (setRegionRead c r loc s) = .next t ∧ ∃ loc', t.engine = .run (.finishing .ok) loc' :=
    ⟨_, hw, exec_crgn_setWrite hr hp rfl, _, rfl⟩
  obtain ⟨loc', e2⟩ := e2
  refine ⟨finish .ok t, v, (execTimes_succ 2 x1).trans (execTimes_two x2 (exec_crgn_finishing hr hp e2)), ht.holds,
    ht.bits, ht.words, ⟨?_, rfl⟩, ht.trace, ht.frame, ht.lines⟩
  rw [← ht.cmdif]
  rfl

/-! ## SetAll (R229) -/

/-- Command `i` contains `SetAll` on instance `c`, and goes on at `last` after it. -/
structure SetsRegions (i : Instr) (c : CacheId) (last : Pos) : Prop where
  read : ∀ (s : State) (loc : Locals) (r : Region), s.engine = .run (.setRead r) loc →
    exec i s = .next (setRegionRead c r loc s)
  write : ∀ (s : State) (loc : Locals) (r : Region) (p : Policy), s.engine = .run (.setWrite r) loc →
    setPolicy? loc.a0 r = some p → exec i s = .next (setRegionWrite c r p (setAllAfter r last) loc s)

theorem setsRegions_crgnall (c : CacheId) : SetsRegions (.crgnall c) c (.finishing .ok) where
  read s loc r hs := by simp only [exec, execCrgnall, hs]
  write s loc r p hs hp := by simp only [exec, execCrgnall, hs, hp]

theorem setsRegions_cinit (c : CacheId) : SetsRegions (.cinit c) c .invStart where
  read s loc r hs := by simp only [exec, execCinit, hs]
  write s loc r p hs hp := by simp only [exec, execCinit, hs, hp]

/-- The TRACE entries of `SetAll` on the regions `rs`, in order (R230). -/
def setAllTrace (cfg : Config) (c : CacheId) (v : Region → Word × Word) (rs : List Region) : List TraceEntry :=
  rs.flatMap fun r => [TraceEntry.read .engine (.cache c (rgnReg cfg.layout r)) (v r).1,
    .write .engine (.cache c (rgnReg cfg.layout r)) (v r).2]

/-- Everything the part of `SetAll` on the regions `rs` does. -/
structure RegionsSet (c : CacheId) (ps : Word) (rs : List Region) (s t : State) : Prop where
  holds : ∀ r ∈ rs, ∀ p, setPolicy? ps r = some p → holdsPolicy t c r p
  words : ∀ q, q ∉ [CacheReg.crgn0, .crgn1] → (t.cache c).word q = (s.cache c).word q
  cmdif : t.cmdif = s.cmdif
  lines : sameLines c s t
  frame : cacheFrame c s t
  trace : ∃ v, t.trace = (setAllTrace s.cfg c v rs).reverse ++ s.trace

/-- One region is set by two steps, and the engine stands at the next one. -/
theorem setRegion_runs {i : Instr} {c : CacheId} {last : Pos} (hi : SetsRegions i c last) {s : State} {r : Region}
    {loc : Locals} (hc : configWf s.cfg = true) (hs : s.engine = .run (.setRead r) loc)
    (hset : validSet loc.a0 = true) :
    ∃ t loc' p v, execTimes 2 i s = .next t ∧ t.engine = .run (setAllAfter r last) loc' ∧ loc'.a0 = loc.a0 ∧
      setPolicy? loc.a0 r = some p ∧ RegionWritten c r p
        [.write .engine (.cache c (rgnReg s.cfg.layout r)) v,
          .read .engine (.cache c (rgnReg s.cfg.layout r)) ((s.cache c).word (rgnReg s.cfg.layout r))] s t := by
  obtain ⟨p, hp⟩ := exists_setPolicy hset r
  obtain ⟨v, hw⟩ := setRegion_written hc c r p (setAllAfter r last) loc
  exact ⟨_, _, p, v, execTimes_two (hi.read s loc r hs) (hi.write _ _ r p rfl hp), rfl, rfl, hp, hw⟩

theorem RegionsSet.single {c : CacheId} {ps : Word} {r : Region} {p : Policy} {s t : State} {v w : Word}
    (hp : setPolicy? ps r = some p)
    (h : RegionWritten c r p [.write .engine (.cache c (rgnReg s.cfg.layout r)) w,
      .read .engine (.cache c (rgnReg s.cfg.layout r)) v] s t) : RegionsSet c ps [r] s t where
  holds r' hr' p' hp' := by
    obtain rfl := List.mem_singleton.mp hr'
    rw [hp] at hp'
    cases hp'
    exact h.holds
  words q hq := h.words q fun heq => hq (heq ▸ rgnReg_mem _ r)
  cmdif := h.cmdif
  lines := h.lines
  frame := h.frame
  trace := ⟨fun _ => (v, w), h.trace⟩

/-- One more region. -/
theorem RegionsSet.snoc {c : CacheId} {ps : Word} {rs : List Region} {r : Region} {p : Policy} {s t u : State}
    {v w : Word} (hc : configWf s.cfg = true) (h : RegionsSet c ps rs s t) (hr : r ∉ rs)
    (hp : setPolicy? ps r = some p)
    (hw : RegionWritten c r p [.write .engine (.cache c (rgnReg t.cfg.layout r)) w,
      .read .engine (.cache c (rgnReg t.cfg.layout r)) v] t u) : RegionsSet c ps (rs ++ [r]) s u := by
  have hcfg : t.cfg = s.cfg := h.frame.1.1
  refine ⟨fun r' hr' p' hp' => ?_, fun q hq => ?_, hw.cmdif.trans h.cmdif,
    fun w => (hw.lines w).trans (h.lines w), cacheFrame_trans h.frame hw.frame, ?_⟩
  · by_cases hrr : r' = r
    · subst hrr
      rw [hp] at hp'
      cases hp'
      exact hw.holds
    · have hmem : r' ∈ rs := by simpa [hrr] using hr'
      exact hw.holds_other (hcfg.symm ▸ hc) hrr (h.holds r' hmem p' hp')
  · exact (hw.words q fun heq => hq (heq ▸ rgnReg_mem _ r)).trans (h.words q hq)
  · obtain ⟨f, hf⟩ := h.trace
    refine ⟨Function.update f r (v, w), ?_⟩
    have hsame : setAllTrace s.cfg c (Function.update f r (v, w)) rs = setAllTrace s.cfg c f rs := by
      refine List.flatMap_congr fun x hx => ?_
      have hne : x ≠ r := fun heq => hr (heq ▸ hx)
      rw [Function.update_of_ne hne]
    have hsnoc : setAllTrace s.cfg c (Function.update f r (v, w)) (rs ++ [r]) =
        setAllTrace s.cfg c f rs ++ [.read .engine (.cache c (rgnReg s.cfg.layout r)) v,
          .write .engine (.cache c (rgnReg s.cfg.layout r)) w] := by
      rw [setAllTrace, List.flatMap_append, ← setAllTrace, hsame, List.flatMap_singleton, Function.update_self]
    rw [hw.trace, hf, hcfg, hsnoc, List.reverse_append, List.append_assoc]
    rfl

/-- `SetAll`: ten steps set the five regions (R229, R230). -/
theorem setAll_runs {i : Instr} {c : CacheId} {last : Pos} (hi : SetsRegions i c last) {s : State} {loc : Locals}
    (hc : configWf s.cfg = true) (hs : s.engine = .run (.setRead .boot) loc) (hset : validSet loc.a0 = true) :
    ∃ t loc', execTimes 10 i s = .next t ∧ t.engine = .run last loc' ∧ loc'.a0 = loc.a0 ∧
      RegionsSet c loc.a0 allRegions s t := by
  obtain ⟨s1, l1, p1, v1, x1, e1, a1, hp1, h1⟩ := setRegion_runs hi hc hs hset
  have g1 := RegionsSet.single hp1 h1
  have c1 : configWf s1.cfg = true := g1.frame.1.1.symm ▸ hc
  obtain ⟨s2, l2, p2, v2, x2, e2, a2, hp2, h2⟩ := setRegion_runs hi c1 e1 (a1 ▸ hset)
  have g2 := g1.snoc hc (by decide) (a1 ▸ hp2) h2
  have c2 : configWf s2.cfg = true := g2.frame.1.1.symm ▸ hc
  obtain ⟨s3, l3, p3, v3, x3, e3, a3, hp3, h3⟩ := setRegion_runs hi c2 e2 (a2 ▸ a1 ▸ hset)
  have g3 := g2.snoc hc (by decide) (a1 ▸ a2 ▸ hp3) h3
  have c3 : configWf s3.cfg = true := g3.frame.1.1.symm ▸ hc
  obtain ⟨s4, l4, p4, v4, x4, e4, a4, hp4, h4⟩ := setRegion_runs hi c3 e3 (a3 ▸ a2 ▸ a1 ▸ hset)
  have g4 := g3.snoc hc (by decide) (a1 ▸ a2 ▸ a3 ▸ hp4) h4
  have c4 : configWf s4.cfg = true := g4.frame.1.1.symm ▸ hc
  obtain ⟨s5, l5, p5, v5, x5, e5, a5, hp5, h5⟩ := setRegion_runs hi c4 e4 (a4 ▸ a3 ▸ a2 ▸ a1 ▸ hset)
  have g5 := g4.snoc hc (by decide) (a1 ▸ a2 ▸ a3 ▸ a4 ▸ hp5) h5
  exact ⟨s5, l5, execTimes_add (m := 2) (n := 8) x1 (execTimes_add (m := 2) (n := 6) x2
    (execTimes_add (m := 2) (n := 4) x3 (execTimes_add (m := 2) (n := 2) x4 x5))), e5,
    by rw [a5, a4, a3, a2, a1], g5⟩

end Sys2Proof.Machine
end

section
/-! SUPPORT. CRGNALL, CINV and CINIT step by step (44_cache_config.md R229; 45_cache_maint.md R240 to R242, R250 to
R252): `GlobalInv`'s write and poll, its completion by ENV, and the steps of each command in a row. -/

namespace Sys2Proof.Machine

/-! ## CRGNALL -/

/-- CRGNALL begins with `SetAll` at once. -/
theorem exec_crgnall_start {c : CacheId} {s : State} {loc : Locals} (hs : s.engine = .run .start loc)
    (hset : validSet loc.a0 = true) :
    exec (.crgnall c) s = exec (.crgnall c) (goto (.setRead .boot) loc s) := by
  rw [(setsRegions_crgnall c).read (goto (.setRead .boot) loc s) loc .boot rfl]
  simp only [exec, execCrgnall, hs, hset, if_true]
  rfl

theorem exec_crgnall_finishing {c : CacheId} {s : State} {st : Status} {loc : Locals}
    (hs : s.engine = .run (.finishing st) loc) : exec (.crgnall c) s = .next (finish st s) := by
  simp only [exec, execCrgnall, hs]

/-- Settles O47: `SetAll`, then `finish(OK)`. -/
theorem crgnallSetsEveryRegion : Obligations.CrgnallSetsEveryRegion := by
  intro c s loc hc hs hset
  obtain ⟨t, loc', ht, he, _, hall⟩ := setAll_runs (setsRegions_crgnall c) (s := goto (.setRead .boot) loc s) hc rfl hset
  have hrun : execTimes 10 (.crgnall c) s = .next t := by
    rw [← ht, execTimes, execTimes, exec_crgnall_start hs hset]
  refine ⟨finish .ok t, execTimes_add (m := 10) (n := 1) hrun (execTimes_one (exec_crgnall_finishing he)),
    fun r p hp => hall.holds r (mem_allRegions r) p hp, hall.words, ⟨?_, rfl⟩, hall.trace, hall.frame, hall.lines⟩
  have hcm : t.cmdif = s.cmdif := hall.cmdif
  rw [← hcm]
  rfl

/-! ## Completion by ENV (R320, R321) -/

/-- What the completion of a maintenance operation of instance `c` leaves alone, whose go-bit is in register
`q`. -/
structure MaintDone (c : CacheId) (q : CacheReg) (s t : State) : Prop where
  words : ∀ q', q' ≠ q → (t.cache c).word q' = (s.cache c).word q'
  cmdif : t.cmdif = s.cmdif
  engine : t.engine = s.engine
  world : sameWorld s t
  cpm : t.cpm = s.cpm
  hsDisturb : t.hsDisturb = s.hsDisturb
  draws : t.draws = s.draws
  keyState : t.keyState = s.keyState
  other : t.cache (otherCache c) = s.cache (otherCache c)

theorem cacheFrame_maint {c : CacheId} {q : CacheReg} {s t u : State} (h : cacheFrame c s t)
    (h' : MaintDone c q t u) : cacheFrame c s u := by
  obtain ⟨hw, hcpm, hdist, hdraws, hkey, hother⟩ := h
  exact ⟨sameWorld_trans hw h'.world, h'.cpm.trans hcpm, h'.hsDisturb.trans hdist, h'.draws.trans hdraws,
    h'.keyState.trans hkey, h'.other.trans hother⟩

theorem maintDone_of_setCache {c : CacheId} {q : CacheReg} {x : Cache} {s : State} (e : TraceEntry)
    (hx : ∀ q', q' ≠ q → x.word q' = (s.cache c).word q') : MaintDone c q s ((s.setCache c x).log e) := by
  refine ⟨fun q' hq => ?_, ?_, ?_, ⟨?_, ?_, ?_⟩, ?_, ?_, ?_, ?_, ?_⟩
  · rw [State.log_cache, State.setCache_cache_self]
    exact hx q' hq
  all_goals simp [otherCache_ne]

theorem envStep_globalDone {s : State} {c : CacheId} (hgo : s.go c = true) (v : Word) :
    envStep (.globalDone c v) s = (globalComplete c v s).log (.env (.globalDone c v)) := envStep_on hgo

theorem envStep_rangeDone {s : State} {c : CacheId} (hstrt : s.strt c = true) :
    envStep (.rangeDone c) s = (rangeComplete c s).log (.env (.rangeDone c)) := envStep_on hstrt

theorem globalDone_maint {s : State} {c : CacheId} (hgo : s.go c = true) (v : Word) :
    MaintDone c .cmnt s (envStep (.globalDone c v) s) := by
  rw [envStep_globalDone hgo]
  refine maintDone_of_setCache _ fun q' hq => ?_
  cases q' <;> first | rfl | exact absurd rfl hq

theorem rangeDone_maint {s : State} {c : CacheId} (hstrt : s.strt c = true) :
    MaintDone c .crsize s (envStep (.rangeDone c) s) := by
  rw [envStep_rangeDone hstrt]
  refine maintDone_of_setCache _ fun q' hq => ?_
  cases q' <;> first | rfl | exact absurd rfl hq

theorem globalDone_go {s : State} (hc : configWf s.cfg = true) {c : CacheId} (hgo : s.go c = true) (v : Word) :
    (envStep (.globalDone c v) s).go c = false := by
  rw [envStep_globalDone hgo]
  exact globalComplete_go hc c v

theorem rangeDone_strt {s : State} (hc : configWf s.cfg = true) {c : CacheId} (hstrt : s.strt c = true) :
    (envStep (.rangeDone c) s).strt c = false := by
  rw [envStep_rangeDone hstrt]
  exact rangeComplete_strt hc c

theorem globalDone_lines {s : State} {c : CacheId} (hgo : s.go c = true) (v : Word) {w : Nat}
    (hw : s.invWay c w = true) : (envStep (.globalDone c v) s).lines c w = [] := by
  rw [envStep_globalDone hgo]
  exact (lines_globalComplete c v s c w).trans (if_pos ⟨rfl, hw⟩)

/-! ## GlobalInv (R241) -/

/-- Everything the write of `GlobalInv` does: every way's bit and GO are set. -/
structure GlobalStarted (c : CacheId) (s t : State) : Prop where
  go : t.go c = true
  ways : ∀ w, w < s.cfg.nways → t.invWay c w = true
  written : ∃ w e, CacheWritten c .cmnt w e s t

theorem globalInvStart_started {s : State} (hc : configWf s.cfg = true) (c : CacheId) (loc : Locals) :
    GlobalStarted c s (globalInvStart c loc s) := by
  have hw := regSet_cache_written c .cmnt (globalInvMask s.cfg.layout) s .invPoll loc
  have hself : ((globalInvStart c loc s).cache c).cmnt = cmntWritten s.cfg (s.cache c).cmnt
    ((s.cache c).cmnt ||| globalInvMask s.cfg.layout) := hw.word_self
  have hcfg : (globalInvStart c loc s).cfg = s.cfg := hw.cfg
  refine ⟨?_, fun w hlt => ?_, _, _, hw⟩
  · rw [State.go, hcfg, hself, getBit_cmntWritten hc, if_pos rfl, getBit_or, globalInvMask, getBit_or,
      getBit_bit_self (cmnt_positions hc).1, Bool.or_true, Bool.or_true, Bool.or_true]
  · have hmem := invPos_mem hc hlt
    have hne := ((cmnt_positions hc).2 _ hmem).2
    rw [State.invWay, hcfg, hself, getBit_cmntWritten hc, if_neg hne, if_pos hmem, getBit_or, globalInvMask,
      getBit_or, getBit_wayMask hc, decide_eq_true hmem, Bool.true_or, Bool.or_true]

/-- The poll waits while GO is 1. -/
theorem globalInvPoll_waits {s : State} (hc : configWf s.cfg = true) {c : CacheId} (hgo : s.go c = true) (next : Pos)
    (loc : Locals) : globalInvPoll c next loc s =
      goto .invPoll { loc with v := (s.cache c).cmnt } (regRead (.cache c .cmnt) s) := by
  have hbit : (s.cache c).cmnt &&& bit s.cfg.layout.go ≠ 0#32 := by
    rw [zero_eq_flag s.cfg.layout.go, Ne, and_bit_eq_flag _ (cmnt_positions hc).1]
    exact fun h => Bool.false_ne_true (h.symm.trans hgo)
  exact (if_neg hbit).trans (if_pos rfl)

/-- The poll goes on once GO is 0. -/
theorem globalInvPoll_ends {s : State} (hc : configWf s.cfg = true) {c : CacheId} (hgo : s.go c = false) (next : Pos)
    (loc : Locals) : globalInvPoll c next loc s =
      goto next { loc with v := (s.cache c).cmnt } (regRead (.cache c .cmnt) s) := by
  have hbit : (s.cache c).cmnt &&& bit s.cfg.layout.go = 0#32 := by
    rw [zero_eq_flag s.cfg.layout.go, and_bit_eq_flag _ (cmnt_positions hc).1]
    exact hgo
  exact if_pos hbit

/-! ## CINV -/

theorem exec_cinv_start {c : CacheId} {s : State} {loc : Locals} (hs : s.engine = .run .start loc) :
    exec (.cinv c) s = .next (globalInvStart c loc s) := by simp only [exec, execCinv, hs]

theorem exec_cinv_invPoll {c : CacheId} {s : State} {loc : Locals} (hs : s.engine = .run .invPoll loc) :
    exec (.cinv c) s = .next (globalInvPoll c (.finishing .ok) loc s) := by simp only [exec, execCinv, hs]

theorem exec_cinv_finishing {c : CacheId} {s : State} {st : Status} {loc : Locals}
    (hs : s.engine = .run (.finishing st) loc) : exec (.cinv c) s = .next (finish st s) := by
  simp only [exec, execCinv, hs]

/-- The last two steps of CINV, once ENV has completed: one read that sees GO at 0, and `finish(OK)`. -/
theorem cinv_ends {c : CacheId} {s : State} {loc : Locals} (hc : configWf s.cfg = true)
    (hs : s.engine = .run .invPoll loc) (hgo : s.go c = false) :
    ∃ u, execTimes 2 (.cinv c) s = .next u ∧ readFrame s u ∧ finished .ok s u := by
  have x1 := exec_cinv_invPoll (c := c) hs
  rw [globalInvPoll_ends hc hgo] at x1
  have hread : readFrame s (goto (.finishing .ok) { loc with v := (s.cache c).cmnt } (regRead (.cache c .cmnt) s)) :=
    readFrame_goto (readFrame_regRead (by simp) s) _ _
  exact ⟨_, execTimes_two x1 (exec_cinv_finishing rfl), readFrame_finish hread .ok, rfl, rfl⟩

/-- Settles O48: the start, a poll that waits, the completion, and the last two steps. -/
theorem cinvEmptiesBothWays : Obligations.CinvEmptiesBothWays := by
  intro c s loc v hc hs _
  have hstart := globalInvStart_started hc c loc
  have x1 := exec_cinv_start (c := c) hs
  have e1 : (globalInvStart c loc s).engine = .run .invPoll loc := rfl
  generalize globalInvStart c loc s = t at hstart x1 e1
  obtain ⟨w, e, hwr⟩ := hstart.written
  have hct : configWf t.cfg = true := hwr.cfg.symm ▸ hc
  have hwait := exec_cinv_invPoll (c := c) e1
  rw [globalInvPoll_waits hct hstart.go] at hwait
  have hmaint := globalDone_maint hstart.go v
  have hgo := globalDone_go hct hstart.go v
  obtain ⟨u, hu, hread, hfin, hidle⟩ := cinv_ends (s := envStep (.globalDone c v) t)
    (by rw [envStep_cfg]; exact hct) (hmaint.engine.trans e1) hgo
  have hucache := readFrame_cache hread c
  refine ⟨t, u, x1, e1, hwr.cmdif, hstart.go, hstart.ways, ?_, hwr.frame, ⟨_, _, hwait, rfl, rfl⟩, hu,
    fun w hlt => ?_, ?_, fun q hq => ?_, ⟨?_, hidle⟩, cacheFrame_read (cacheFrame_maint hwr.frame hmaint) hread⟩
  · rw [hwr.cache]
    rfl
  · exact (lines_congr (congrArg Cache.lines hucache) w).trans (globalDone_lines hstart.go v (hstart.ways w hlt))
  · rw [go_congr hread.1.1 (by rw [hucache])]
    exact hgo
  · rw [hucache, hmaint.words q hq, hwr.word_ne hq]
  · rw [hfin, hmaint.cmdif, hwr.cmdif]

/-! ## CINIT -/

theorem exec_cinit_start {c : CacheId} {s : State} {loc : Locals} (hs : s.engine = .run .start loc)
    (hset : validSet loc.a0 = true) :
    exec (.cinit c) s = .next (goto (.setRead .boot) loc (cacheEnWrite c false s)) := by
  simp only [exec, execCinit, hs, hset, if_true]

theorem exec_cinit_invStart {c : CacheId} {s : State} {loc : Locals} (hs : s.engine = .run .invStart loc) :
    exec (.cinit c) s = .next (globalInvStart c loc s) := by simp only [exec, execCinit, hs]

theorem exec_cinit_invPoll {c : CacheId} {s : State} {loc : Locals} (hs : s.engine = .run .invPoll loc) :
    exec (.cinit c) s = .next (globalInvPoll c .cacheEnable loc s) := by simp only [exec, execCinit, hs]

theorem exec_cinit_cacheEnable {c : CacheId} {s : State} {loc : Locals} (hs : s.engine = .run .cacheEnable loc) :
    exec (.cinit c) s = .next (goto (.finishing .ok) loc (cacheEnWrite c true s)) := by
  simp only [exec, execCinit, hs]

theorem exec_cinit_finishing {c : CacheId} {s : State} {st : Status} {loc : Locals}
    (hs : s.engine = .run (.finishing st) loc) : exec (.cinit c) s = .next (finish st s) := by
  simp only [exec, execCinit, hs]

/-- EN after a write of it. -/
theorem cacheEnWrite_cacheEn {s : State} (hc : configWf s.cfg = true) (c : CacheId) (en : Bool) (pos : Pos)
    (loc : Locals) : (goto pos loc (cacheEnWrite c en s)).cacheEn c = en := by
  obtain ⟨v, w, hwr, hbits⟩ := cacheEnWrite_written hc c en pos loc
  rw [State.cacheEn, hwr.cfg, hwr.getBit_ccr hc, if_pos rfl, hbits, if_pos rfl]

theorem cacheEn_congr {s t : State} {c : CacheId} (hcfg : t.cfg = s.cfg)
    (hccr : (t.cache c).word .ccr = (s.cache c).word .ccr) : t.cacheEn c = s.cacheEn c := by
  have hccr' : (t.cache c).ccr = (s.cache c).ccr := hccr
  rw [State.cacheEn, State.cacheEn, hcfg, hccr']

theorem holdsPolicy_of_word {s t : State} {c : CacheId} {r : Region} {p : Policy} (hc : configWf s.cfg = true)
    (hcfg : t.cfg = s.cfg)
    (hword : (t.cache c).word (rgnReg s.cfg.layout r) = (s.cache c).word (rgnReg s.cfg.layout r))
    (h : holdsPolicy s c r p) : holdsPolicy t c r p :=
  holdsPolicy_congr hc hcfg (fun q _ => by rw [hword]) h

theorem length_setAllTrace (cfg : Config) (c : CacheId) (v : Region → Word × Word) :
    (setAllTrace cfg c v allRegions).length = 10 := rfl

/-- What CINIT's first twelve steps leave: the cache disabled, every region set, an invalidation of every way. -/
structure CinitStarted (c : CacheId) (ps : Word) (s t : State) : Prop where
  disabled : t.cacheEn c = false
  go : t.go c = true
  ways : ∀ w, w < s.cfg.nways → t.invWay c w = true
  holds : ∀ r p, setPolicy? ps r = some p → holdsPolicy t c r p
  words : ∀ q, q ∈ [CacheReg.craddr, .crsize] → (t.cache c).word q = (s.cache c).word q
  lines : sameLines c s t
  cmdif : t.cmdif = s.cmdif
  trace : t.trace.length = s.trace.length + 12
  frame : cacheFrame c s t

theorem cinit_starts {c : CacheId} {s : State} {loc : Locals} (hc : configWf s.cfg = true)
    (hs : s.engine = .run .start loc) (hset : validSet loc.a0 = true) :
    ∃ t loc', execTimes 12 (.cinit c) s = .next t ∧ t.engine = .run .invPoll loc' ∧ CinitStarted c loc.a0 s t := by
  obtain ⟨v, w, hdis, _⟩ := cacheEnWrite_written hc c false (.setRead .boot) loc
  have hoff := cacheEnWrite_cacheEn hc c false (.setRead .boot) loc
  have x1 := exec_cinit_start (c := c) hs hset
  have e1 : (goto (.setRead .boot) loc (cacheEnWrite c false s)).engine = .run (.setRead .boot) loc := rfl
  generalize goto (.setRead .boot) loc (cacheEnWrite c false s) = s1 at hdis hoff x1 e1
  have hc1 : configWf s1.cfg = true := hdis.cfg.symm ▸ hc
  obtain ⟨s2, loc2, x2, e2, _, hall⟩ := setAll_runs (setsRegions_cinit c) hc1 e1 hset
  have hcfg2 : s2.cfg = s.cfg := hall.frame.1.1.trans hdis.cfg
  have hc2 : configWf s2.cfg = true := hcfg2.symm ▸ hc
  have hstart := globalInvStart_started hc2 c loc2
  have x3 := exec_cinit_invStart (c := c) e2
  have e3 : (globalInvStart c loc2 s2).engine = .run .invPoll loc2 := rfl
  generalize globalInvStart c loc2 s2 = t at hstart x3 e3
  obtain ⟨w', e, hwr⟩ := hstart.written
  refine ⟨t, loc2, (execTimes_succ 11 x1).trans (execTimes_add (m := 10) (n := 1) x2 (execTimes_one x3)), e3, ?_,
    hstart.go, hcfg2 ▸ hstart.ways, fun r p hp => ?_, fun q hq => ?_,
    fun w => (hwr.sameLines w).trans ((hall.lines w).trans (hdis.sameLines w)),
    hwr.cmdif.trans (hall.cmdif.trans hdis.cmdif), ?_,
    cacheFrame_trans hdis.frame (cacheFrame_trans hall.frame hwr.frame)⟩
  · rw [cacheEn_congr hwr.cfg (hwr.word_ne (by decide)), cacheEn_congr hall.frame.1.1 (hall.words _ (by decide)), hoff]
  · exact holdsPolicy_of_word hc2 hwr.cfg (hwr.word_ne (rgnReg_ne _ r).1) (hall.holds r (mem_allRegions r) p hp)
  · have hne : q ≠ .cmnt ∧ q ∉ [CacheReg.crgn0, .crgn1] ∧ q ≠ .ccr := by revert q; decide
    rw [hwr.word_ne hne.1, hall.words q hne.2.1, hdis.word_ne hne.2.2]
  · obtain ⟨f, hf⟩ := hall.trace
    rw [hwr.trace, hf, hdis.trace, List.length_cons, List.length_append, List.length_reverse, length_setAllTrace,
      List.length_cons]
    omega

/-- The last three steps of CINIT, once ENV has completed: the read that sees GO at 0, the enable write and
`finish(OK)`. -/
theorem cinit_ends {c : CacheId} {s : State} {loc : Locals} (hc : configWf s.cfg = true)
    (hs : s.engine = .run .invPoll loc) (hgo : s.go c = false) :
    ∃ u, execTimes 3 (.cinit c) s = .next u ∧ u.cacheEn c = true ∧
      (∀ q, q ≠ .ccr → (u.cache c).word q = (s.cache c).word q) ∧ sameLines c s u ∧ finished .ok s u ∧
      cacheFrame c s u := by
  have x1 := exec_cinit_invPoll (c := c) hs
  rw [globalInvPoll_ends hc hgo] at x1
  have hread : readFrame s (goto .cacheEnable { loc with v := (s.cache c).cmnt } (regRead (.cache c .cmnt) s)) :=
    readFrame_goto (readFrame_regRead (by simp) s) _ _
  have hcm1 : (goto .cacheEnable { loc with v := (s.cache c).cmnt } (regRead (.cache c .cmnt) s)).cmdif = s.cmdif :=
    rfl
  have e1 : (goto .cacheEnable { loc with v := (s.cache c).cmnt } (regRead (.cache c .cmnt) s)).engine =
    .run .cacheEnable { loc with v := (s.cache c).cmnt } := rfl
  generalize goto .cacheEnable _ (regRead (.cache c .cmnt) s) = s1 at x1 hread hcm1 e1
  have hc1 : configWf s1.cfg = true := hread.1.1.symm ▸ hc
  have hcache := readFrame_cache hread c
  obtain ⟨v, w, hen, _⟩ := cacheEnWrite_written hc1 c true (.finishing .ok) { loc with v := (s.cache c).cmnt }
  have hon := cacheEnWrite_cacheEn hc1 c true (.finishing .ok) { loc with v := (s.cache c).cmnt }
  have x2 := exec_cinit_cacheEnable (c := c) e1
  have e2 : (goto (.finishing .ok) { loc with v := (s.cache c).cmnt } (cacheEnWrite c true s1)).engine =
    .run (.finishing .ok) { loc with v := (s.cache c).cmnt } := rfl
  generalize goto (.finishing .ok) _ (cacheEnWrite c true s1) = s2 at hen hon x2 e2
  refine ⟨finish .ok s2, (execTimes_succ 2 x1).trans (execTimes_two x2 (exec_cinit_finishing e2)), hon,
    fun q hq => ?_, fun w => ?_, ⟨?_, rfl⟩, read_cacheFrame hread hen.frame⟩
  · rw [← hcache]
    exact hen.word_ne hq
  · exact (hen.sameLines w).trans (lines_congr (congrArg Cache.lines hcache) w)
  · rw [← hcm1, ← hen.cmdif]
    rfl

/-- Settles O53: twelve steps, the completion, three steps; the region registers are not touched after `SetAll`. -/
theorem cinitInitialises : Obligations.CinitInitialises := by
  intro c s loc v hc hs hset _
  obtain ⟨t, loc', ht, he, hstart⟩ := cinit_starts (c := c) hc hs hset
  have hcfg : t.cfg = s.cfg := hstart.frame.1.1
  have hct : configWf t.cfg = true := hcfg.symm ▸ hc
  have hmaint := globalDone_maint hstart.go v
  have hgo := globalDone_go hct hstart.go v
  have hcd : configWf (envStep (.globalDone c v) t).cfg = true := hmaint.world.1.symm ▸ hct
  obtain ⟨u, hu, hon, hwords, hlines, ⟨hfin, hidle⟩, hframe⟩ :=
    cinit_ends (c := c) hcd (hmaint.engine.trans he) hgo
  refine ⟨t, u, ht, hstart.disabled, hstart.go, hstart.ways, hstart.trace, hstart.frame, hstart.lines, hu, hon,
    fun w hw => (hlines w).trans (globalDone_lines hstart.go v (hstart.ways w hw)), fun r p hp => ?_, fun q hq => ?_,
    ⟨?_, hidle⟩, cacheFrame_trans (cacheFrame_maint hstart.frame hmaint) hframe⟩
  · refine holdsPolicy_of_word hct (hframe.1.1.trans hmaint.world.1) ?_ (hstart.holds r p hp)
    rw [hwords _ (rgnReg_ne_ccr _ r), hmaint.words _ (rgnReg_ne _ r).1]
  · have hne : q ≠ .ccr ∧ q ≠ .cmnt := by revert q; decide
    rw [hwords q hne.1, hmaint.words q hne.2, hstart.words q hq]
  · rw [hfin, hmaint.cmdif, hstart.cmdif]

end Sys2Proof.Machine
end

section
/-! SUPPORT. CINVR with the cache enabled (45_cache_maint.md R243 to R249): the enable read, the two writes, the
completion by ENV and the last two steps. -/

namespace Sys2Proof.Machine

/-! ## The step at each position -/

/-- An enabled cache and a length LEN cannot hold lead to `finish(ERR)` (R246). -/
theorem rangeCheck_oversized {c : CacheId} {s : State} (loc : Locals) (hen : s.cacheEn c = true)
    (hlen : 2 ^ s.cfg.lenWidth ≤ alignedLength s.cfg loc.a0 loc.a1) :
    rangeCheck c loc s = goto (.finishing .err) { loc with v := (s.cache c).ccr } (regRead (.cache c .ccr) s) := by
  have hread : getBit (readValue (.cache c .ccr) s) s.cfg.layout.cacheEn = true := hen
  rw [rangeCheck, rangeAfterCheck, if_neg (by simp [hread]), if_pos hlen]
  rfl

/-- An enabled cache and a length that fits lead to the address write (R243). -/
theorem rangeCheck_fits {c : CacheId} {s : State} (loc : Locals) (hen : s.cacheEn c = true)
    (hlen : alignedLength s.cfg loc.a0 loc.a1 < 2 ^ s.cfg.lenWidth) :
    rangeCheck c loc s = goto .rangeBase { loc with v := (s.cache c).ccr } (regRead (.cache c .ccr) s) := by
  have hread : getBit (readValue (.cache c .ccr) s) s.cfg.layout.cacheEn = true := hen
  rw [rangeCheck, rangeAfterCheck, if_neg (by simp [hread]), if_neg (Nat.not_le.mpr hlen)]
  rfl

/-- Settles O50: the enable read leads to `finish(ERR)`, which is the second step. -/
theorem cinvrOversizedFinishesErr : Obligations.CinvrOversizedFinishesErr := by
  intro c s loc hs hen hlen
  have hcheck := exec_cinvr_start (c := c) hs
  rw [rangeCheck_oversized loc hen hlen] at hcheck
  have hread := readFrame_regRead (r := .cache c .ccr) (by simp) s
  exact ⟨_, execTimes_two hcheck (exec_cinvr_finishing rfl), ⟨rfl, rfl⟩, rfl,
    readFrame_finish (readFrame_goto hread _ _) .err⟩

theorem exec_cinvr_rangeBase {c : CacheId} {s : State} {loc : Locals} (hs : s.engine = .run .rangeBase loc) :
    exec (.cinvr c) s = .next (rangeWriteBase c loc s) := by simp only [exec, execCinvr, hs]

theorem exec_cinvr_rangeSize {c : CacheId} {s : State} {loc : Locals} (hs : s.engine = .run .rangeSize loc) :
    exec (.cinvr c) s = .next (rangeWriteSize c loc s) := by simp only [exec, execCinvr, hs]

theorem exec_cinvr_rangePoll {c : CacheId} {s : State} {loc : Locals} (hs : s.engine = .run .rangePoll loc) :
    exec (.cinvr c) s = .next (rangePollRead c loc s) := by simp only [exec, execCinvr, hs]

/-! ## The two writes -/

/-- The address write leaves the aligned base in CRADDR (R47, R243). -/
theorem rangeWriteBase_written {s : State} (hregs : regsOk s) (c : CacheId) (loc : Locals) :
    CacheWritten c .craddr (alignBase s.cfg loc.a0)
      (.write .engine (.cache c .craddr) (alignBase s.cfg loc.a0)) s (rangeWriteBase c loc s) ∧
      ((rangeWriteBase c loc s).cache c).craddr = alignBase s.cfg loc.a0 := by
  have hw := regWrite_cache_written c .craddr (alignBase s.cfg loc.a0) s .rangeSize (rangeAligned s.cfg loc)
  have hbase : BitVec.ofNat 32 (rangeAligned s.cfg loc).base = alignBase s.cfg loc.a0 :=
    BitVec.eq_of_toNat_eq (by simp [rangeAligned])
  rw [rangeWriteBase, hbase]
  refine ⟨hw, ?_⟩
  have hcraddr : ((goto .rangeSize (rangeAligned s.cfg loc) (regWrite (.cache c .craddr) (alignBase s.cfg loc.a0) s)).cache
      c).craddr = alignBase s.cfg loc.a0 &&& ~~~lineLow s.cfg := writeReg_craddr (hregs.2 c .craddr) _
  rw [hcraddr, alignBase, BitVec.and_assoc, BitVec.and_self]

/-- The size write leaves the aligned length in LEN and sets STRT (R48, R243). -/
theorem rangeWriteSize_written {s : State} (hc : configWf s.cfg = true) {c : CacheId} (hen : s.cacheEn c = true)
    {loc : Locals} (hlen : loc.alen < 2 ^ s.cfg.lenWidth) :
    ∃ v, CacheWritten c .crsize v (.write .engine (.cache c .crsize) v) s (rangeWriteSize c loc s) ∧
      (rangeWriteSize c loc s).rangeLen c = loc.alen ∧ (rangeWriteSize c loc s).strt c = true := by
  obtain ⟨hfit, hstrt, hapart⟩ := crsize_positions hc
  have hw := regWrite_cache_written c .crsize
    ((BitVec.ofNat 32 loc.alen <<< s.cfg.layout.len) ||| bit s.cfg.layout.strt) s .rangePoll loc
  have hcfg : (rangeWriteSize c loc s).cfg = s.cfg := hw.cfg
  have hself : ((rangeWriteSize c loc s).cache c).crsize = crsizeWritten s.cfg (s.cacheEn c) (s.cache c).crsize
    ((BitVec.ofNat 32 loc.alen <<< s.cfg.layout.len) ||| bit s.cfg.layout.strt) := hw.word_self
  rw [hen] at hself
  refine ⟨_, hw, ?_, ?_⟩
  · have hsmall : loc.alen < 2 ^ 32 := lt_of_lt_of_le hlen (Nat.pow_le_pow_right (by decide) (by omega))
    rw [State.rangeLen, hcfg, hself, field_crsizeWritten hc,
      field_congr (v' := BitVec.ofNat 32 loc.alen <<< s.cfg.layout.len) fun q h1 h2 => by
        rw [getBit_or, getBit_bit_ne (hapart q h1 h2).symm, Bool.or_false],
      field_shiftLeft hfit, BitVec.toNat_ofNat, Nat.mod_eq_of_lt hsmall, Nat.mod_eq_of_lt hlen]
  · rw [State.strt, hcfg, hself, getBit_crsizeWritten hc, if_pos rfl, getBit_or, getBit_bit_self hstrt, Bool.or_true,
      Bool.or_true]

/-! ## The poll (R249) -/

/-- The poll goes on once STRT is 0. -/
theorem rangePollRead_ends {s : State} (hc : configWf s.cfg = true) {c : CacheId} (hstrt : s.strt c = false)
    (loc : Locals) : rangePollRead c loc s =
      goto (.finishing .ok) { loc with v := (s.cache c).crsize } (regRead (.cache c .crsize) s) := by
  have hbit : (s.cache c).crsize &&& bit s.cfg.layout.strt = 0#32 := by
    rw [zero_eq_flag s.cfg.layout.strt, and_bit_eq_flag _ (crsize_positions hc).2.1]
    exact hstrt
  exact if_pos hbit

/-- The last two steps of CINVR, once ENV has completed. -/
theorem cinvr_ends {c : CacheId} {s : State} {loc : Locals} (hc : configWf s.cfg = true)
    (hs : s.engine = .run .rangePoll loc) (hstrt : s.strt c = false) :
    ∃ u, execTimes 2 (.cinvr c) s = .next u ∧ readFrame s u ∧ finished .ok s u := by
  have x1 := exec_cinvr_rangePoll (c := c) hs
  rw [rangePollRead_ends hc hstrt] at x1
  have hread : readFrame s
      (goto (.finishing .ok) { loc with v := (s.cache c).crsize } (regRead (.cache c .crsize) s)) :=
    readFrame_goto (readFrame_regRead (by simp) s) _ _
  exact ⟨_, execTimes_two x1 (exec_cinvr_finishing rfl), readFrame_finish hread .ok, rfl, rfl⟩

/-! ## The command -/

/-- What CINVR's first three steps leave. -/
structure CinvrStarted (c : CacheId) (loc : Locals) (s t : State) : Prop where
  craddr : (t.cache c).craddr = alignBase s.cfg loc.a0
  rangeLen : t.rangeLen c = alignedLength s.cfg loc.a0 loc.a1
  strt : t.strt c = true
  words : ∀ q, q ≠ .craddr → q ≠ .crsize → (t.cache c).word q = (s.cache c).word q
  lines : sameLines c s t
  cmdif : t.cmdif = s.cmdif
  trace : ∃ v, t.trace = .write .engine (.cache c .crsize) v ::
    .write .engine (.cache c .craddr) (alignBase s.cfg loc.a0) ::
    .read .engine (.cache c .ccr) (s.cache c).ccr :: s.trace
  frame : cacheFrame c s t

theorem cinvr_starts {c : CacheId} {s : State} {loc : Locals} (hc : configWf s.cfg = true) (hregs : regsOk s)
    (hs : s.engine = .run .start loc) (hen : s.cacheEn c = true)
    (hlen : alignedLength s.cfg loc.a0 loc.a1 < 2 ^ s.cfg.lenWidth) :
    ∃ t loc', execTimes 3 (.cinvr c) s = .next t ∧ t.engine = .run .rangePoll loc' ∧ CinvrStarted c loc s t := by
  have x1 := exec_cinvr_start (c := c) hs
  rw [rangeCheck_fits loc hen hlen] at x1
  have hread : readFrame s (goto .rangeBase { loc with v := (s.cache c).ccr } (regRead (.cache c .ccr) s)) :=
    readFrame_goto (readFrame_regRead (by simp) s) _ _
  have hregs1 : regsOk (goto .rangeBase { loc with v := (s.cache c).ccr } (regRead (.cache c .ccr) s)) :=
    hregs
  have hcm1 : (goto .rangeBase { loc with v := (s.cache c).ccr } (regRead (.cache c .ccr) s)).cmdif = s.cmdif := rfl
  have htr1 : (goto .rangeBase { loc with v := (s.cache c).ccr } (regRead (.cache c .ccr) s)).trace =
    .read .engine (.cache c .ccr) (s.cache c).ccr :: s.trace := rfl
  have e1 : (goto .rangeBase { loc with v := (s.cache c).ccr } (regRead (.cache c .ccr) s)).engine =
    .run .rangeBase { loc with v := (s.cache c).ccr } := rfl
  generalize goto .rangeBase _ (regRead (.cache c .ccr) s) = s1 at x1 hread hregs1 hcm1 htr1 e1
  have hcfg1 : s1.cfg = s.cfg := hread.1.1
  have hcache1 := readFrame_cache hread c
  obtain ⟨hbase, hcraddr⟩ := rangeWriteBase_written hregs1 c { loc with v := (s.cache c).ccr }
  have x2 := exec_cinvr_rangeBase (c := c) e1
  have e2 : (rangeWriteBase c { loc with v := (s.cache c).ccr } s1).engine =
    .run .rangeSize (rangeAligned s1.cfg { loc with v := (s.cache c).ccr }) := rfl
  generalize rangeWriteBase c { loc with v := (s.cache c).ccr } s1 = s2 at hbase hcraddr x2 e2
  have hcfg2 : s2.cfg = s.cfg := hbase.cfg.trans hcfg1
  have hen2 : s2.cacheEn c = true := by
    rw [cacheEn_congr hbase.cfg (hbase.word_ne (by decide)), cacheEn_congr hcfg1 (by rw [hcache1]), hen]
  rw [hcfg1] at e2 hcraddr hbase
  obtain ⟨v, hsize, hrlen, hstrt⟩ := rangeWriteSize_written (hcfg2.symm ▸ hc) hen2
    (loc := rangeAligned s.cfg { loc with v := (s.cache c).ccr }) (by rw [hcfg2]; exact hlen)
  have x3 := exec_cinvr_rangeSize (c := c) e2
  refine ⟨_, _, (execTimes_succ 2 x1).trans (execTimes_two x2 x3), rfl, ?_, hrlen, hstrt, fun q h1 h2 => ?_,
    fun w => ?_, ?_, ⟨v, ?_⟩, read_cacheFrame hread (cacheFrame_trans hbase.frame hsize.frame)⟩
  · exact (hsize.word_ne (q' := .craddr) (by decide)).trans hcraddr
  · rw [hsize.word_ne h2, hbase.word_ne h1, hcache1]
  · exact (hsize.sameLines w).trans ((hbase.sameLines w).trans (lines_congr (congrArg Cache.lines hcache1) w))
  · rw [hsize.cmdif, hbase.cmdif, hcm1]
  · rw [hsize.trace, hbase.trace, htr1]

/-- Settles O51: three steps, the completion, two steps; completion removes the lines of the range that CRADDR and
LEN name. -/
theorem cinvrRemovesTheRange : Obligations.CinvrRemovesTheRange := by
  intro c s loc hc hregs hs hen _ hlen
  obtain ⟨t, loc', ht, he, hstart⟩ := cinvr_starts (c := c) hc hregs hs hen hlen
  have hcfg : t.cfg = s.cfg := hstart.frame.1.1
  have hct : configWf t.cfg = true := hcfg.symm ▸ hc
  have hmaint := rangeDone_maint hstart.strt
  have hdone := envStep_rangeDone hstart.strt
  have hstrt := rangeDone_strt hct hstart.strt
  obtain ⟨u, hu, hread, hfin, hidle⟩ := cinvr_ends (s := envStep (.rangeDone c) t) (hmaint.world.1.symm ▸ hct)
    (hmaint.engine.trans he) hstrt
  have hucache := readFrame_cache hread c
  obtain ⟨v, htr⟩ := hstart.trace
  refine ⟨t, u, v, ht, hstart.craddr, hstart.rangeLen, hstart.strt, htr, hstart.lines, hstart.frame, hu, fun w a => ?_,
    ?_, ?_, fun q h1 h2 => ?_, ⟨?_, hidle⟩, cacheFrame_read (cacheFrame_maint hstart.frame hmaint) hread⟩
  · have hlines : u.lines c w = outsideRange (t.cache c).craddr (t.rangeLen c) (t.lines c w) := by
      rw [lines_congr (s := envStep (.rangeDone c) t) (congrArg Cache.lines hucache) w, hdone]
      exact (lines_rangeComplete c t c w).trans (if_pos rfl)
    rw [hlines, hstart.craddr, hstart.rangeLen, hstart.lines w, outsideRange, List.mem_filter, decide_eq_true_iff]
  · rw [strt_congr hread.1.1 (by rw [hucache]), hstrt]
  · have hlen' : (envStep (.rangeDone c) t).rangeLen c = t.rangeLen c := by
      rw [hdone]
      exact rangeComplete_rangeLen hct c
    rw [State.rangeLen, hread.1.1, hucache, ← hstart.rangeLen, ← hlen', State.rangeLen]
  · rw [hucache, hmaint.words q h2, hstart.words q h1 h2]
  · rw [hfin, hmaint.cmdif, hstart.cmdif]

end Sys2Proof.Machine
end

section
/-! SUPPORT. The progress of a running CINIT (45_cache_maint.md R250 to R252; 70_reset_and_hazards.md R320, R323):
its own steps carry it on, the disabled cache takes no fill, and only the completion ends the invalidation. -/

namespace Sys2Proof.Machine

/-! ## Ways that are empty stay empty while the cache is disabled -/

theorem waysEmpty_of_lt {c : CacheId} {s : State} (hres : residencyOk s)
    (h : ∀ w, w < s.cfg.nways → s.lines c w = []) : waysEmpty c s := by
  intro w
  by_cases hw : w < s.cfg.nways
  · exact h w hw
  · have hlen : (s.cache c).lines.length ≤ w := by rw [hres.1 c]; omega
    rw [State.lines, List.getD_eq_getElem?_getD, List.getElem?_eq_none hlen, Option.getD_none]

/-- A disabled cache takes no fill (R323). -/
theorem waysEmpty_envStep {c : CacheId} {s : State} (hen : s.cacheEn c = false) (h : waysEmpty c s) (e : EnvEvent) :
    waysEmpty c (envStep e s) := by
  intro w
  refine List.eq_nil_iff_forall_not_mem.mpr fun a ha => ?_
  obtain ⟨_, hfill⟩ := fill_of_mem_lines_envStep ha (by simp [h w])
  exact Bool.false_ne_true (hen.symm.trans (fill_enabled_iff.mp hfill).1)

theorem waysEmpty_congr {c : CacheId} {s t : State} (hlines : sameLines c s t) (h : waysEmpty c s) : waysEmpty c t :=
  fun w => (hlines w).trans (h w)

/-! ## What ENV does to the registers of an instance -/

theorem envStep_cache_word {q : CacheReg} (hm : q ≠ .cmnt) (hr : q ≠ .crsize) (e : EnvEvent) (s : State)
    (c : CacheId) : ((envStep e s).cache c).word q = (s.cache c).word q :=
  envStep_induction (P := fun t => (t.cache c).word q = (s.cache c).word q) rfl
    (by rw [State.log_cache, envEffect_cache_word hm hr])

/-- Only the completion of its invalidation moves CMNT (R320). -/
theorem envStep_cmnt (e : EnvEvent) (s : State) (c : CacheId) :
    ((envStep e s).cache c).cmnt = (s.cache c).cmnt ∨ ∃ v, e = .globalDone c v ∧ s.go c = true := by
  cases he : envEnabled e s with
  | false => exact .inl (by rw [envStep_off he])
  | true =>
    rw [envStep_on he, State.log_cache]
    cases e with
    | globalDone d v =>
      by_cases hd : c = d
      · subst hd
        exact .inr ⟨v, rfl, he⟩
      · exact .inl (by simp [envEffect, globalComplete, hd])
    | rangeDone d =>
      by_cases hd : c = d
      · subst hd
        exact .inl (by simp [envEffect, rangeComplete])
      · exact .inl (by simp [envEffect, rangeComplete, hd])
    | fill d w a =>
      by_cases hd : c = d
      · subst hd
        exact .inl (by simp [envEffect, fillLine, Cache.setLines])
      · exact .inl (by simp [envEffect, fillLine, hd])
    | _ => exact .inl (by simp [envEffect, setStable, setSelStat])

/-! ## The progress, position by position -/

/-- What `cinitProgress` says of a CINIT at position `pos` with locals `loc`. -/
structure CinitAt (c : CacheId) (pos : Pos) (loc : Locals) (s : State) : Prop where
  disabled : s.cacheEn c = false
  regions : ∀ r p, regionSet pos r = true → setPolicy? loc.a0 r = some p → holdsPolicy s c r p
  read : ∀ r, pos = .setWrite r → loc.v = (s.cache c).word (rgnReg s.cfg.layout r)
  pending : pos = .invPoll → s.go c = true → ∀ w, w < s.cfg.nways → s.invWay c w = true
  drained : (pos = .invPoll ∧ s.go c = false) ∨ pos = .cacheEnable → waysEmpty c s

/-- The progress, at the positions it speaks of. -/
def cinitStep (c : CacheId) (pos : Pos) (loc : Locals) (s : State) : Prop :=
  pos ≠ .start → pos ≠ .finishing .ok → CinitAt c pos loc s

theorem cinitProgress_iff {c : CacheId} {s : State} :
    cinitProgress c s ↔ ∀ pos loc, Runs (.cinit c) pos loc s → cinitStep c pos loc s := by
  refine forall₂_congr fun pos loc => forall₃_congr fun _ _ _ => ⟨?_, ?_⟩
  · rintro ⟨hdis, hreg, hread, hpend, hover⟩
    exact ⟨hdis, hreg, hread, hpend, hover⟩
  · rintro ⟨hdis, hreg, hread, hpend, hover⟩
    exact ⟨hdis, hreg, hread, hpend, hover⟩

/-- Where the progress says nothing but that the regions before the position are set. -/
theorem CinitAt.of_regions {c : CacheId} {pos : Pos} {loc : Locals} {s : State} (hdis : s.cacheEn c = false)
    (hreg : ∀ r p, regionSet pos r = true → setPolicy? loc.a0 r = some p → holdsPolicy s c r p)
    (hw : ∀ r, pos ≠ .setWrite r) (hi : pos ≠ .invPoll) (he : pos ≠ .cacheEnable) : CinitAt c pos loc s :=
  ⟨hdis, hreg, fun r h => absurd h (hw r), fun h => absurd h hi, fun h => by
    rcases h with ⟨h, _⟩ | h
    · exact absurd h hi
    · exact absurd h he⟩

theorem cinitStep_envStep {c : CacheId} {pos : Pos} {loc : Locals} {s : State} (e : EnvEvent) (hinv : RunInv s)
    (h : cinitStep c pos loc s) : cinitStep c pos loc (envStep e s) := by
  intro hs hf
  have hat := h hs hf
  have hc := hinv.config
  have hword : ∀ r, ((envStep e s).cache c).word (rgnReg s.cfg.layout r) = (s.cache c).word (rgnReg s.cfg.layout r) :=
    fun r => envStep_cache_word (rgnReg_ne _ r).1 (rgnReg_ne _ r).2 e s c
  refine ⟨?_, fun r p hr hp => ?_, fun r hr => ?_, fun hpos hgo => ?_, fun hpos => ?_⟩
  · rw [cacheEn_congr (envStep_cfg e s) (envStep_cache_word (by decide) (by decide) e s c), hat.disabled]
  · exact holdsPolicy_of_word hc (envStep_cfg e s) (hword r) (hat.regions r p hr hp)
  · rw [envStep_cfg, hword, hat.read r hr]
  · rcases envStep_cmnt e s c with hcm | ⟨v, rfl, hgo'⟩
    · rw [envStep_cfg]
      intro w hw
      rw [State.invWay, hcm, envStep_cfg]
      exact hat.pending hpos (envStep_go hc hgo) w hw
    · exact absurd ((globalDone_go hc hgo' v).symm.trans hgo) Bool.false_ne_true
  · by_cases hwas : (pos = .invPoll ∧ s.go c = false) ∨ pos = .cacheEnable
    · exact waysEmpty_envStep hat.disabled (hat.drained hwas) e
    · obtain ⟨hpoll, hgo⟩ : pos = .invPoll ∧ (envStep e s).go c = false :=
        hpos.resolve_right fun h => hwas (.inr h)
      have hgo' : s.go c = true := Bool.not_eq_false _ ▸ fun h => hwas (.inl ⟨hpoll, h⟩)
      rcases envStep_cmnt e s c with hcm | ⟨v, rfl, _⟩
      · rw [go_congr (envStep_cfg e s) hcm, hgo'] at hgo
        exact absurd hgo.symm Bool.false_ne_true
      · refine waysEmpty_of_lt (env_resid hinv.residency) fun w hw => ?_
        rw [envStep_cfg] at hw
        exact globalDone_lines hgo' v (hat.pending hpoll hgo' w hw)

end Sys2Proof.Machine
end

section
/-! SUPPORT. CINIT's own steps carry its progress on, and the guarantee at the enable write (45_cache_maint.md R250,
R252). -/

namespace Sys2Proof.Machine

theorem holdsPolicy_read {c : CacheId} {r : Region} {p : Policy} {s t : State} (hc : configWf s.cfg = true)
    (hread : readFrame s t) (h : holdsPolicy s c r p) : holdsPolicy t c r p :=
  holdsPolicy_of_word hc hread.1.1 (by rw [readFrame_cache hread]) h

theorem cacheEn_read {c : CacheId} {s t : State} (hread : readFrame s t) : t.cacheEn c = s.cacheEn c :=
  cacheEn_congr hread.1.1 (by rw [readFrame_cache hread])

/-- The regions set once region `r` is written are `r` and those set before it (R229). -/
theorem regionSet_setAllAfter {r r' : Region} (h : regionSet (setAllAfter r .invStart) r' = true) :
    r' = r ∨ regionSet (.setWrite r) r' = true := by
  revert h
  cases r <;> cases r' <;> decide

/-! ## The step at each position -/

section
variable {c : CacheId} {s : State} {loc : Locals}

/-- The disable write: no region is set yet. -/
theorem cinitAt_disabled (hc : configWf s.cfg = true) :
    CinitAt c (.setRead .boot) loc (goto (.setRead .boot) loc (cacheEnWrite c false s)) :=
  .of_regions (cacheEnWrite_cacheEn hc c false _ _)
    (fun r _ hr => by simp [regionSet, regionIndex] at hr) (by simp) (by simp) (by simp)

/-- The read of `SetRegion` keeps the register for the write. -/
theorem cinitAt_setRegionRead {r : Region} (hc : configWf s.cfg = true) (h : CinitAt c (.setRead r) loc s) :
    CinitAt c (.setWrite r) { loc with v := readValue (.cache c (rgnReg s.cfg.layout r)) s }
      (setRegionRead c r loc s) := by
  have hread := readFrame_setRegionRead c r loc s
  refine ⟨(cacheEn_read hread).trans h.disabled, fun r' p hr hp => holdsPolicy_read hc hread (h.regions r' p hr hp),
    fun r' hr => ?_, by simp, by simp⟩
  cases hr
  rw [readFrame_cache hread, hread.1.1]
  rfl

/-- The write of `SetRegion` sets its region and keeps the others. -/
theorem cinitAt_setRegionWrite {r : Region} {p : Policy} (hc : configWf s.cfg = true)
    (hp : setPolicy? loc.a0 r = some p) (h : CinitAt c (.setWrite r) loc s) :
    CinitAt c (setAllAfter r .invStart) loc (setRegionWrite c r p (setAllAfter r .invStart) loc s) := by
  have hw := setRegionWrite_written hc c r p (setAllAfter r .invStart) (h.read r rfl)
  have hafter := setAllAfter_ne r .invStart
  have hdis := (cacheEn_congr hw.frame.1.1 (hw.words _ (rgnReg_ne_ccr _ r).symm)).trans h.disabled
  refine .of_regions hdis (fun r' p' hr hp' => ?_) (fun q hq => ?_) (fun hq => ?_) (fun hq => ?_)
  · by_cases hrr : r' = r
    · subst hrr
      rw [hp] at hp'
      cases hp'
      exact hw.holds
    · exact hw.holds_other hc hrr (h.regions r' p' ((regionSet_setAllAfter hr).resolve_left hrr) hp')
  all_goals
    rw [hq] at hafter
    simp at hafter

/-- The start of the invalidation covers every way. -/
theorem cinitAt_invStart (hc : configWf s.cfg = true) (h : CinitAt c .invStart loc s) :
    CinitAt c .invPoll loc (globalInvStart c loc s) := by
  have hstart := globalInvStart_started hc c loc
  obtain ⟨w, e, hw⟩ := hstart.written
  refine ⟨(cacheEn_congr hw.cfg (hw.word_ne (by decide))).trans h.disabled, fun r p hr hp =>
    holdsPolicy_of_word hc hw.cfg (hw.word_ne (rgnReg_ne _ r).1) (h.regions r p hr hp), by simp,
    fun _ _ => hw.cfg.symm ▸ hstart.ways, fun hpos => ?_⟩
  have hgo := (hpos.resolve_right (by simp)).2
  exact absurd (hstart.go.symm.trans hgo) (by simp)

/-- A read of the poll waits while GO is 1, and finds every way empty once it is 0. -/
theorem cinitAt_invPoll (hc : configWf s.cfg = true) (h : CinitAt c .invPoll loc s) {pos' : Pos} {loc' : Locals}
    (ht : (globalInvPoll c .cacheEnable loc s).engine = .run pos' loc') :
    CinitAt c pos' loc' (globalInvPoll c .cacheEnable loc s) := by
  have hread : ∀ pos l, readFrame s (goto pos l (regRead (.cache c .cmnt) s)) := fun pos l =>
    readFrame_goto (readFrame_regRead (by simp) s) _ _
  cases hgo : s.go c
  · rw [globalInvPoll_ends hc hgo] at ht ⊢
    cases ht
    have hr := hread .cacheEnable { loc with v := (s.cache c).cmnt }
    exact ⟨(cacheEn_read hr).trans h.disabled, fun r p hr' hp => holdsPolicy_read hc hr (h.regions r p hr' hp),
      by simp, by simp,
      fun _ => waysEmpty_congr (lines_congr (congrArg Cache.lines (readFrame_cache hr c))) (h.drained (.inl ⟨rfl, hgo⟩))⟩
  · rw [globalInvPoll_waits hc hgo] at ht ⊢
    cases ht
    have hr := hread .invPoll { loc with v := (s.cache c).cmnt }
    refine ⟨(cacheEn_read hr).trans h.disabled, fun r p hr' hp => holdsPolicy_read hc hr (h.regions r p hr' hp),
      by simp, fun _ _ => h.pending rfl hgo, fun hpos => ?_⟩
    exact absurd (hgo.symm.trans (hpos.resolve_right (by simp)).2) (by simp)

end

/-- Every step of CINIT carries its progress on. -/
theorem execCinit_progress {c : CacheId} {s t : State} {pos pos' : Pos} {loc loc' : Locals}
    (hc : configWf s.cfg = true) (hs : s.engine = .run pos loc) (hx : exec (.cinit c) s = .next t)
    (ht : t.engine = .run pos' loc') (h : cinitStep c pos loc s) : cinitStep c pos' loc' t := by
  intro _ hfin
  simp only [exec] at hx
  unfold execCinit at hx
  split at hx <;> rename_i hs' <;> rw [hs] at hs' <;> cases hs'
  case h_2 =>
    split at hx <;> cases hx <;> cases ht
    exact cinitAt_disabled hc
  case h_3 r =>
    cases hx
    cases ht
    exact cinitAt_setRegionRead hc (h (by simp) (by simp))
  case h_4 r =>
    split at hx <;> cases hx
    next p hp =>
      cases ht
      exact cinitAt_setRegionWrite hc hp (h (by simp) (by simp))
  case h_5 =>
    cases hx
    cases ht
    exact cinitAt_invStart hc (h (by simp) (by simp))
  case h_6 =>
    cases hx
    exact cinitAt_invPoll hc (h (by simp) (by simp)) ht
  case h_7 =>
    cases hx
    cases ht
    exact absurd rfl hfin
  case h_8 =>
    cases hx
    cases ht
  case h_9 => cases hx

/-- The progress of a running CINIT is kept by every step of every agent. -/
theorem step_cinitProgress {c : CacheId} {s t : State} (hinv : RunInv s) (hp : cinitProgress c s)
    (hstep : step s = .next t) : cinitProgress c t := by
  rw [cinitProgress_iff] at hp ⊢
  refine step_progress (fun _ _ hne => absurd rfl hne) (fun _ _ _ _ hm h => ?_)
    (fun _ _ _ e hi _ h => cinitStep_envStep e hi h)
    (fun _ _ _ _ _ _ hi hr hx ht h => execCinit_progress hi.config hr.1 hx ht h) hinv hstep hp
  obtain ⟨tr, ag, d, rfl⟩ := hm
  intro h1 h2
  obtain ⟨hdis, hreg, hread, hpend, hdrained⟩ := h h1 h2
  exact ⟨hdis, hreg, hread, hpend, hdrained⟩

/-- Settles O54: the step lemma, and the enable write moves neither a line nor a region register. -/
theorem cinitGuarantee : Obligations.CinitGuarantee := by
  refine ⟨fun c s t hinv hp hstep => step_cinitProgress hinv hp hstep, fun c s loc hreach hr => ?_⟩
  obtain ⟨hinv, hp⟩ := reachable_induction (P := cinitProgress c) (fun _ _ _ _ _ _ _ hr => by cases hr.1)
    (fun _ _ hi hp hstep => step_cinitProgress hi hp hstep) hreach
  have hat := cinitProgress_iff.mp hp _ _ hr (by simp) (by simp)
  obtain ⟨v, w, hw, _⟩ := cacheEnWrite_written hinv.config c true (.finishing .ok) loc
  exact ⟨_, exec_cinit_cacheEnable hr.1, cacheEnWrite_cacheEn hinv.config c true _ _,
    waysEmpty_congr hw.sameLines (hat.drained (.inr rfl)), fun r p hp' =>
    holdsPolicy_of_word hinv.config hw.cfg (hw.word_ne (rgnReg_ne_ccr _ r)) (hat.regions r p rfl hp')⟩

end Sys2Proof.Machine
end

section
/-! SUPPORT. Every CINV, CINVR and CINIT ends in a fair run (70_reset_and_hazards.md R322; 45_cache_maint.md R242,
R249): the engine steps left fall with every step that does not wait on a go-bit, and no go-bit stays set. -/

namespace Sys2Proof.Machine

/-! ## Waiting on a go-bit -/

/-- The command at this position polls a go-bit that is 1. -/
def waiting (i : Instr) (pos : Pos) (s : State) : Prop :=
  ∃ c, (waitsGo i pos = some c ∧ s.go c = true) ∨ (waitsStrt i pos = some c ∧ s.strt c = true)

theorem waitsGo_or_waitsStrt (i : Instr) (pos : Pos) : waitsGo i pos = none ∨ waitsStrt i pos = none := by
  unfold waitsGo
  split
  · exact .inr rfl
  · exact .inr rfl
  · exact .inl rfl

theorem waiting_go {i : Instr} {pos : Pos} {c : CacheId} {s : State} (h : waitsGo i pos = some c) :
    waiting i pos s ↔ s.go c = true := by
  have hstrt : waitsStrt i pos = none := (waitsGo_or_waitsStrt i pos).resolve_left (by simp [h])
  simp [waiting, h, hstrt]

theorem waiting_strt {i : Instr} {pos : Pos} {c : CacheId} {s : State} (h : waitsStrt i pos = some c) :
    waiting i pos s ↔ s.strt c = true := by
  have hgo : waitsGo i pos = none := (waitsGo_or_waitsStrt i pos).resolve_right (by simp [h])
  simp [waiting, h, hgo]

/-- No other agent sets a go-bit while a command runs (R276, R315). -/
theorem waiting_of_perform {i : Instr} {pos : Pos} {e : Event} {s t : State} (he : e ≠ .engine) (h : RunInv s)
    (hrun : s.engine ≠ .idle) (hp : perform e s = .next t) (hw : waiting i pos t) : waiting i pos s := by
  have hflags : ∀ c, (t.go c = true → s.go c = true) ∧ (t.strt c = true → s.strt c = true) := by
    intro c
    cases e with
    | engine => exact absurd rfl he
    | host a =>
      obtain ⟨tr, ag, d, rfl⟩ := sameMachine_hostStep (h.busy.mpr hrun) hp
      exact ⟨id, id⟩
    | env e =>
      cases hp
      exact ⟨envStep_go h.config, envStep_strt h.config⟩
  obtain ⟨c, ⟨hc, hgo⟩ | ⟨hc, hstrt⟩⟩ := hw
  · exact ⟨c, .inl ⟨hc, (hflags c).1 hgo⟩⟩
  · exact ⟨c, .inr ⟨hc, (hflags c).2 hstrt⟩⟩

/-! ## The engine steps that are left -/

/-- A bound on the engine steps that CINV, CINVR and CINIT still take, their waits not counted. -/
def maintFuel : Pos → Nat
  | .start => 20
  | .setRead r => 15 - 2 * regionIndex r
  | .setWrite r => 14 - 2 * regionIndex r
  | .invStart => 5
  | .rangeBase => 5
  | .rangeSize => 4
  | .invPoll => 3
  | .rangePoll => 3
  | .cacheEnable => 2
  | .finishing _ => 1
  | _ => 0

theorem maintFuel_setAllAfter (r : Region) : maintFuel (setAllAfter r .invStart) < maintFuel (.setWrite r) := by
  cases r <;> decide

theorem rangePollRead_waits {s : State} (hc : configWf s.cfg = true) {c : CacheId} (hstrt : s.strt c = true)
    (loc : Locals) : rangePollRead c loc s =
      goto .rangePoll { loc with v := (s.cache c).crsize } (regRead (.cache c .crsize) s) := by
  have hbit : (s.cache c).crsize &&& bit s.cfg.layout.strt ≠ 0#32 := by
    rw [zero_eq_flag s.cfg.layout.strt, Ne, and_bit_eq_flag _ (crsize_positions hc).2.1]
    exact fun h => Bool.false_ne_true (h.symm.trans hstrt)
  exact (if_neg hbit).trans (if_pos rfl)

/-- A step of a command that waits leaves it at its poll. -/
theorem exec_waits {i : Instr} {s t : State} {pos : Pos} {loc : Locals} (hc : configWf s.cfg = true)
    (hs : s.engine = .run pos loc) (hw : waiting i pos s) (hx : exec i s = .next t) :
    ∃ loc', t.engine = .run pos loc' := by
  obtain ⟨c, ⟨hwait, hgo⟩ | ⟨hwait, hstrt⟩⟩ := hw
  · unfold waitsGo at hwait
    split at hwait <;> cases hwait
    · rw [exec_cinv_invPoll hs, globalInvPoll_waits hc hgo] at hx
      cases hx
      exact ⟨_, rfl⟩
    · rw [exec_cinit_invPoll hs, globalInvPoll_waits hc hgo] at hx
      cases hx
      exact ⟨_, rfl⟩
  · unfold waitsStrt at hwait
    split at hwait <;> cases hwait
    rw [exec_cinvr_rangePoll hs, rangePollRead_waits hc hstrt] at hx
    cases hx
    exact ⟨_, rfl⟩

theorem execCinv_advances {c : CacheId} {s t : State} {pos pos' : Pos} {loc loc' : Locals}
    (hc : configWf s.cfg = true) (hs : s.engine = .run pos loc) (hw : ¬ waiting (.cinv c) pos s)
    (hx : execCinv c s = .next t) (ht : t.engine = .run pos' loc') : maintFuel pos' < maintFuel pos := by
  unfold execCinv at hx
  split at hx <;> cases hx <;> rename_i hs' <;> rw [hs] at hs' <;> cases hs'
  case h_2 => cases ht; decide
  case h_3 =>
    rw [globalInvPoll_ends hc (Bool.not_eq_true _ ▸ mt (waiting_go rfl).mpr hw)] at ht
    cases ht
    decide
  case h_4 => cases ht

theorem execCinvr_advances {c : CacheId} {s t : State} {pos pos' : Pos} {loc loc' : Locals}
    (hc : configWf s.cfg = true) (hs : s.engine = .run pos loc) (hw : ¬ waiting (.cinvr c) pos s)
    (hx : execCinvr c s = .next t) (ht : t.engine = .run pos' loc') : maintFuel pos' < maintFuel pos := by
  unfold execCinvr at hx
  split at hx <;> cases hx <;> rename_i hs' <;> rw [hs] at hs' <;> cases hs'
  case h_2 =>
    cases ht
    unfold rangeAfterCheck
    split
    · decide
    · split <;> decide
  case h_3 => cases ht; decide
  case h_4 => cases ht; decide
  case h_5 =>
    rw [rangePollRead_ends hc (Bool.not_eq_true _ ▸ mt (waiting_strt rfl).mpr hw)] at ht
    cases ht
    decide
  case h_6 => cases ht

theorem execCinit_advances {c : CacheId} {s t : State} {pos pos' : Pos} {loc loc' : Locals}
    (hc : configWf s.cfg = true) (hs : s.engine = .run pos loc) (hw : ¬ waiting (.cinit c) pos s)
    (hx : execCinit c s = .next t) (ht : t.engine = .run pos' loc') : maintFuel pos' < maintFuel pos := by
  unfold execCinit at hx
  split at hx <;> rename_i hs' <;> rw [hs] at hs' <;> cases hs'
  case h_2 => split at hx <;> cases hx <;> cases ht; decide
  case h_3 r => cases hx; cases ht; cases r <;> decide
  case h_4 r => split at hx <;> cases hx; cases ht; exact maintFuel_setAllAfter r
  case h_5 => cases hx; cases ht; decide
  case h_6 =>
    cases hx
    rw [globalInvPoll_ends hc (Bool.not_eq_true _ ▸ mt (waiting_go rfl).mpr hw)] at ht
    cases ht
    decide
  case h_7 => cases hx; cases ht; decide
  case h_8 => cases hx; cases ht
  case h_9 => cases hx

/-- A step of a command that does not wait ends it or leaves fewer steps. -/
theorem exec_advances {i : Instr} {s t : State} {pos pos' : Pos} {loc loc' : Locals} (hi : isMaintenance i = true)
    (hc : configWf s.cfg = true) (hs : s.engine = .run pos loc) (hw : ¬ waiting i pos s) (hx : exec i s = .next t)
    (ht : t.engine = .run pos' loc') : maintFuel pos' < maintFuel pos := by
  cases i with
  | cinv c => exact execCinv_advances hc hs hw hx ht
  | cinvr c => exact execCinvr_advances hc hs hw hx ht
  | cinit c => exact execCinit_advances hc hs hw hx ht
  | _ => cases hi

/-! ## Fair runs -/

section
variable {ev : Nat → Event} {σ : Nat → State} {i : Instr} {pos : Pos} {loc : Locals} {k : Nat}

theorem isRun_runInv (hrun : IsRun ev σ) (h0 : RunInv (σ 0)) (k : Nat) : RunInv (σ k) := by
  induction k with
  | zero => exact h0
  | succ k ih => exact perform_runInv ih (hrun k)

/-- The engine's own move in a run is a step of its command. -/
theorem isRun_engine (hrun : IsRun ev σ) (hr : Runs i pos loc (σ k)) (he : ev k = .engine) :
    exec i (σ k) = .next (σ (k + 1)) := by
  have hp := hrun k
  rw [he] at hp
  rwa [← engineStep_running hr.1 hr.2]

/-- Another agent's move leaves the engine where it is. -/
theorem isRun_other (hrun : IsRun ev σ) (h0 : RunInv (σ 0)) (hr : Runs i pos loc (σ k)) (he : ev k ≠ .engine) :
    Runs i pos loc (σ (k + 1)) := by
  have hbusy := (isRun_runInv hrun h0 k).busy.mpr (by simp [hr.1])
  exact ⟨(perform_other_engine he hbusy (hrun k)).1.trans hr.1, hr.2⟩

/-- A go-bit does not stay set for ever (R322). -/
theorem waiting_ends (hrun : IsRun ev σ) (h0 : RunInv (σ 0)) (hfair : MaintFair ev σ) (i : Instr) (pos : Pos) (k : Nat) :
    ∃ m, k ≤ m ∧ ¬ waiting i pos (σ m) := by
  by_contra hall
  push Not at hall
  obtain ⟨c, ⟨hc, _⟩ | ⟨hc, _⟩⟩ := hall k le_rfl
  · have hgo : ∀ m, k ≤ m → (σ m).go c = true := fun m hm => (waiting_go hc).mp (hall m hm)
    obtain ⟨m, v, hm, he⟩ := (hfair c k).1 hgo
    have hnext := hrun m
    rw [he] at hnext
    have hdone := globalDone_go (isRun_runInv hrun h0 m).config (hgo m hm) v
    rw [Host.Outcome.next.inj hnext, hgo (m + 1) (by omega)] at hdone
    cases hdone
  · have hstrt : ∀ m, k ≤ m → (σ m).strt c = true := fun m hm => (waiting_strt hc).mp (hall m hm)
    obtain ⟨m, hm, he⟩ := (hfair c k).2 hstrt
    have hnext := hrun m
    rw [he] at hnext
    have hdone := rangeDone_strt (isRun_runInv hrun h0 m).config (hstrt m hm)
    rw [Host.Outcome.next.inj hnext, hstrt (m + 1) (by omega)] at hdone
    cases hdone

/-- From any move on there is a first one with a property that some later move has. -/
theorem exists_first {P : Nat → Prop} (h : ∃ m, k ≤ m ∧ P m) : ∃ m, k ≤ m ∧ P m ∧ ∀ j, k ≤ j → j < m → ¬ P j := by
  classical
  obtain ⟨hle, hP⟩ := Nat.find_spec h
  exact ⟨Nat.find h, hle, hP, fun j hj hlt hPj => Nat.find_min h hlt ⟨hj, hPj⟩⟩

/-- A command that waits is at its poll until the first moment at which it waits no more. -/
theorem runs_while_waiting (hrun : IsRun ev σ) (h0 : RunInv (σ 0)) (hr : Runs i pos loc (σ k)) {m : Nat} (hm : k ≤ m)
    (hw : ∀ j, k ≤ j → j < m → waiting i pos (σ j)) : ∃ loc', Runs i pos loc' (σ m) := by
  induction m, hm using Nat.le_induction with
  | base => exact ⟨loc, hr⟩
  | succ m hm ih =>
    obtain ⟨l, hl⟩ := ih fun j hj hlt => hw j hj (by omega)
    by_cases he : ev m = .engine
    · have hx := isRun_engine hrun hl he
      obtain ⟨l', hl'⟩ := exec_waits (isRun_runInv hrun h0 m).config hl.1 (hw m hm (by omega)) hx
      rcases exec_engine hl.1 hx with hidle | ⟨_, _, hrun', hcmd, _⟩
      · rw [hidle] at hl'
        cases hl'
      · rw [hl'] at hrun'
        cases hrun'
        exact ⟨l', hl', by rw [hcmd, hl.2]⟩
    · exact ⟨l, isRun_other hrun h0 hl he⟩

/-- A command that does not wait stays where it is, not waiting, until the engine moves. -/
theorem runs_until_engine (hrun : IsRun ev σ) (h0 : RunInv (σ 0)) (hr : Runs i pos loc (σ k))
    (hw : ¬ waiting i pos (σ k)) {m : Nat} (hm : k ≤ m) (hne : ∀ j, k ≤ j → j < m → ev j ≠ .engine) :
    Runs i pos loc (σ m) ∧ ¬ waiting i pos (σ m) := by
  induction m, hm using Nat.le_induction with
  | base => exact ⟨hr, hw⟩
  | succ m hm ih =>
    obtain ⟨hl, hlw⟩ := ih fun j hj hlt => hne j hj (by omega)
    have he := hne m hm (by omega)
    exact ⟨isRun_other hrun h0 hl he,
      mt (waiting_of_perform he (isRun_runInv hrun h0 m) (by simp [hl.1]) (hrun m)) hlw⟩

/-- Sooner or later the command has ended or has fewer steps left. -/
theorem maintenance_advances (hrun : IsRun ev σ) (h0 : RunInv (σ 0)) (heng : EngineFair ev σ) (hmaint : MaintFair ev σ)
    (hi : isMaintenance i = true) (hr : Runs i pos loc (σ k)) :
    ∃ m, k ≤ m ∧ ((σ m).engine = .idle ∨
      ∃ pos' loc', Runs i pos' loc' (σ m) ∧ maintFuel pos' < maintFuel pos) := by
  obtain ⟨m, hm, hmw, hbefore⟩ := exists_first (waiting_ends hrun h0 hmaint i pos k)
  obtain ⟨l, hl⟩ := runs_while_waiting hrun h0 hr hm fun j hj hlt => not_not.mp (hbefore j hj hlt)
  obtain ⟨n, hn, he, hother⟩ := exists_first (heng m (by simp [hl.1]))
  obtain ⟨hln, hnw⟩ := runs_until_engine hrun h0 hl hmw hn hother
  have hx := isRun_engine hrun hln he
  refine ⟨n + 1, by omega, ?_⟩
  rcases exec_engine hln.1 hx with hidle | ⟨pos', loc', hrun', hcmd, _⟩
  · exact .inl hidle
  · exact .inr ⟨pos', loc', ⟨hrun', by rw [hcmd, hln.2]⟩,
      exec_advances hi (isRun_runInv hrun h0 n).config hln.1 hnw hx hrun'⟩

end

/-- Settles O55, by strong induction on the steps left. -/
theorem maintenanceCommandsFinish : Obligations.MaintenanceCommandsFinish := by
  intro ev σ hrun h0 heng hmaint k i pos loc hr hi
  induction hf : maintFuel pos using Nat.strong_induction_on generalizing k pos loc with
  | _ f ih =>
    obtain ⟨m, hm, hidle | ⟨pos', loc', hr', hlt⟩⟩ := maintenance_advances hrun h0 heng hmaint hi hr
    · exact ⟨m, hm, hidle⟩
    · obtain ⟨n, hn, hidle⟩ := ih (maintFuel pos') (hf ▸ hlt) m pos' loc' hr' rfl
      exact ⟨n, by omega, hidle⟩

end Sys2Proof.Machine
end
